-- ==== Sys2Proof/Word.lean ====
section
/-! DEFINITION. Word.lean: the widths of the block's values (00_scope.md R14). -/

namespace Sys2Proof

/-- A byte (00_scope.md R14). -/
abbrev Byte := BitVec 8

/-- A PHY register, or an MDIO datum (00_scope.md R14). -/
abbrev Half := BitVec 16

/-- A register or a descriptor word (00_scope.md R14). Counters and addresses have the widths CNT_W and ADDR_W of the
configuration and are numbers (R8, R17). -/
abbrev Word := BitVec 32

end Sys2Proof
end

