-- ==== Sys2Proof/Config.lean ====
section
/-! DEFINITION. Config.lean: the configuration record of 00_scope.md R8, and the model's free values. -/

namespace Sys2Proof

/-- The three vendor variants of 10_state.md R24. -/
inductive Vendor where
  | genericClone
  | kszx08x
  | dp8382x
deriving DecidableEq, Repr

/-- Parameter `MEM_MODEL` (20_memory.md R96). -/
inductive MemModel where
  | weak
  | sc
deriving DecidableEq, Repr

/-- How the PHY reacts to a write: `anyPhy` only logs it, and the PHY changes its registers in moves of its own
(42_mdio_phy_bridge.md R216); `mockPhy` is `MOCK_PHY` (R217). -/
inductive PhyKind where
  | anyPhy
  | mockPhy
deriving DecidableEq, Repr

/-- The six bytes of `cfg.mac`; `b0` is the first on the wire (10_state.md R23). -/
structure MacAddr where
  b0 : Byte
  b1 : Byte
  b2 : Byte
  b3 : Byte
  b4 : Byte
  b5 : Byte
deriving DecidableEq, Repr

/-- One row of `SPEED_TABLE`: the register read, and the tests for speed and duplex
(46_link_reconciler.md R317 to R319). The speed is 100 Mbit/s when the field under `spdMask` equals `spdVal`,
or, where `spdNeg`, when it does not; the duplex is full when a bit under `dupMask` is set. That a replaced
`SPEED_TABLE` has this form is the model's own choice (DESIGN CHOICE, log 30): 00_scope.md R8 leaves it open. -/
structure SpeedRow where
  reg : BitVec 5
  spdMask : Half
  spdVal : Half
  spdNeg : Bool
  dupMask : Half
deriving DecidableEq, Repr

/-- The configuration record (00_scope.md R8, 10_state.md R23): a parameter of the run. -/
structure Cfg where
  /-- `N`, descriptors in each ring. -/
  n : Nat
  /-- `BUF_SIZE`. -/
  bufSize : Nat
  /-- `RX_LOOP_CAP`. -/
  rxLoopCap : Nat
  /-- `MDC_LIMIT_HZ`. -/
  mdcLimitHz : Nat
  /-- `MDC_CEILING_HZ`. -/
  mdcCeilingHz : Nat
  /-- `MDC_TABLE`: (divisor, code). -/
  mdcTable : List (Nat × BitVec 4)
  /-- `BUS_MIN_HZ`. -/
  busMinHz : Nat
  /-- `BUS_HZ`, or none when its computation fails. -/
  busHz : Option Nat
  /-- `cfg.mac`. -/
  mac : MacAddr
  /-- `cfg.phy_addr`. -/
  phyAddr : BitVec 5
  /-- `cfg.mdc_override`. -/
  mdcOverride : Option (BitVec 4)
  /-- `MDIO_BUDGET`. -/
  mdioBudget : Nat
  /-- `RESET_BUDGET`. -/
  resetBudget : Nat
  rxdBase : Word
  txdBase : Word
  rxbufBase : Word
  txbufBase : Word
  regBcr : BitVec 5
  regBsr : BitVec 5
  regId1 : BitVec 5
  regId2 : BitVec 5
  /-- `BSR_LINK`, a bit number 0..15. -/
  bsrLink : BitVec 4
  bcrReset : Half
  /-- `VENDOR_TABLE`: the upper id word and the vendor it selects (46_link_reconciler.md R316). That a replaced table
  tests id[31:16] for equality, the first match counting, is the model's own choice (DESIGN CHOICE, log 30). -/
  vendorTable : List (Half × Vendor)
  /-- `SPEED_TABLE`, one row a vendor. -/
  speedGeneric : SpeedRow
  speedKsz : SpeedRow
  speedDp : SpeedRow
  memModel : MemModel
  maxWireLen : Nat
  /-- `CNT_W`, the width of the counters. -/
  cntW : Nat
  /-- `ADDR_W`, the width of a byte address. -/
  addrW : Nat
  phyKind : PhyKind
deriving DecidableEq, Repr

/-- The default `MDC_TABLE` (47_mdc_divider.md R335). -/
def defaultMdcTable : List (Nat × BitVec 4) :=
  [(16, 2), (26, 3), (42, 0), (62, 1), (102, 4), (124, 5), (204, 6), (324, 7)]

/-- The default `VENDOR_TABLE` (46_link_reconciler.md R316). -/
def defaultVendorTable : List (Half × Vendor) :=
  [(0x0022, .kszx08x), (0x2000, .dp8382x)]

/-- The defaults of 00_scope.md R8, with the OPEN parameters set as the test configuration of 95_test_vectors.md
section 0 sets them (log 3). -/
def Cfg.test : Cfg where
  n := 4
  bufSize := 1540
  rxLoopCap := 10
  mdcLimitHz := 2500000
  mdcCeilingHz := 2375000
  mdcTable := defaultMdcTable
  busMinHz := 25000000
  busHz := some 100000000
  mac := ⟨0x02, 0, 0, 0, 0, 0x01⟩
  phyAddr := 0
  mdcOverride := none
  mdioBudget := 1000
  resetBudget := 1000
  rxdBase := 0x20000000
  txdBase := 0x20000040
  rxbufBase := 0x20000100
  txbufBase := 0x20002000
  regBcr := 0
  regBsr := 1
  regId1 := 2
  regId2 := 3
  bsrLink := 2
  bcrReset := 0x8000
  vendorTable := defaultVendorTable
  speedGeneric := ⟨31, 0x0008, 0x0008, false, 0x0010⟩
  speedKsz := ⟨30, 0x0003, 0x0001, true, 0x0004⟩
  speedDp := ⟨16, 0x0002, 0x0002, true, 0x0004⟩
  memModel := .weak
  maxWireLen := 16383
  cntW := 32
  addrW := 32
  phyKind := .anyPhy

/-- Two address ranges share no byte. -/
def rangesDisjoint (a la b lb : Nat) : Bool := decide (a + la ≤ b) || decide (b + lb ≤ a)

/-- Divisors strictly ascending (00_scope.md R8). -/
def divisorsAscend : List (Nat × BitVec 4) → Bool
  | [] => true
  | [_] => true
  | a :: b :: t => decide (a.1 < b.1) && divisorsAscend (b :: t)

/-- Codes distinct (00_scope.md R8). -/
def codesDistinct : List (Nat × BitVec 4) → Bool
  | [] => true
  | a :: t => !(t.any fun b => decide (b.2 = a.2)) && codesDistinct t

/-- The bytes of one descriptor array (20_memory.md R94). -/
def Cfg.descBytes (c : Cfg) : Nat := 16 * c.n

/-- The bytes of one buffer array (20_memory.md R94). -/
def Cfg.bufBytes (c : Cfg) : Nat := c.bufSize * c.n

/-- The constraints on the numbers of 00_scope.md R8. -/
def Cfg.numbersOk (c : Cfg) : Bool :=
  decide (1 ≤ c.n) && decide (c.n ≤ 4096) && decide (c.bufSize % 4 = 0) && decide (64 ≤ c.bufSize)
    && decide (c.bufSize ≤ 16380) && decide (1 ≤ c.rxLoopCap) && decide (c.mdcCeilingHz ≤ c.mdcLimitHz)
    && !c.mdcTable.isEmpty && divisorsAscend c.mdcTable && codesDistinct c.mdcTable
    && decide (1 ≤ c.mdioBudget) && decide (1 ≤ c.resetBudget) && decide (14 ≤ c.maxWireLen)

/-- An array from `base` on ends within the address space (20_memory.md R94), and within what a 32-bit base register or
buffer pointer can name (30_encoding.md R126; log 4). -/
def Cfg.arrayFits (c : Cfg) (base : Word) (bytes : Nat) : Bool :=
  decide (base.toNat + bytes ≤ 2 ^ c.addrW) && decide (base.toNat + bytes ≤ 2 ^ 32)

/-- The constraints on the four arrays: aligned, not wrapping, pairwise disjoint (00_scope.md R8, 20_memory.md R94). -/
def Cfg.arraysOk (c : Cfg) : Bool :=
  decide (c.rxdBase.toNat % 16 = 0) && decide (c.txdBase.toNat % 16 = 0)
    && decide (c.rxbufBase.toNat % 4 = 0) && decide (c.txbufBase.toNat % 4 = 0)
    && c.arrayFits c.rxdBase c.descBytes && c.arrayFits c.txdBase c.descBytes
    && c.arrayFits c.rxbufBase c.bufBytes && c.arrayFits c.txbufBase c.bufBytes
    && rangesDisjoint c.rxdBase.toNat c.descBytes c.txdBase.toNat c.descBytes
    && rangesDisjoint c.rxdBase.toNat c.descBytes c.rxbufBase.toNat c.bufBytes
    && rangesDisjoint c.rxdBase.toNat c.descBytes c.txbufBase.toNat c.bufBytes
    && rangesDisjoint c.txdBase.toNat c.descBytes c.rxbufBase.toNat c.bufBytes
    && rangesDisjoint c.txdBase.toNat c.descBytes c.txbufBase.toNat c.bufBytes
    && rangesDisjoint c.rxbufBase.toNat c.bufBytes c.txbufBase.toNat c.bufBytes

/-- A configuration within its constraints; any other is refused (93_implementation_defined.md U6). -/
def Cfg.admissible (c : Cfg) : Bool := c.numbersOk && c.arraysOk

/-- FREE VALUE (log 6). The byte at an address that nothing has written since power-on: "any bytes" (10_state.md R63). -/
opaque Config.powerOnByte : Nat → Byte

/-- FREE VALUE (log 7). The content of a PHY register nothing has set since power-on (10_state.md R63). -/
opaque Config.phyPowerOn : BitVec 5 → BitVec 5 → Half

/-- FREE VALUE (log 11). The byte copied from a caller-frame byte that was written while `TX` ran
(93_implementation_defined.md U15), drawn anew for each use of the counter `State.freeCtr`. -/
opaque Config.freeByte : Nat → Byte

end Sys2Proof
end

