-- ==== Sys2Proof/Machine/Flags.lean ====
section
/-! DEFINITION. Machine/Flags.lean: every flag of the block: the bits of descriptor word 0 (30_encoding.md R124), of the
control and status registers (10_state.md R36 to R47), and the words the operations compute from them. -/

namespace Sys2Proof.Machine

/-- `v` where the flag holds, 0 elsewhere. -/
def flagWord (b : Bool) (v : Word) : Word := if b then v else 0

/-! Descriptor word 0 (30_encoding.md R124). -/

/-- W0.OWN: hardware-owned. -/
def ownBit (w : Word) : Bool := w.getLsbD 31
/-- W0.WRAP: last descriptor of its ring. -/
def wrapBit (w : Word) : Bool := w.getLsbD 30
/-- W0.FS: first segment. -/
def fsBit (w : Word) : Bool := w.getLsbD 29
/-- W0.LS: last segment. -/
def lsBit (w : Word) : Bool := w.getLsbD 28
/-- W0.AC: append CRC. -/
def acBit (w : Word) : Bool := w.getLsbD 27
/-- W0.ES: error summary. -/
def esBit (w : Word) : Bool := w.getLsbD 15
/-- W0.AE: alignment error. -/
def aeBit (w : Word) : Bool := w.getLsbD 2
/-- W0.CE: CRC error. -/
def ceBit (w : Word) : Bool := w.getLsbD 1
/-- W0.LE: length error. -/
def leBit (w : Word) : Bool := w.getLsbD 0

/-- W1.LEN, bits 13:0 (30_encoding.md R125). -/
def lenField (w1 : Word) : BitVec 14 := w1.extractLsb' 0 14

/-- The WRAP bit of `w`, alone: what every software W0 store keeps (43_ring_ownership.md R236). -/
def keepWrap (w : Word) : Word := w &&& 0x40000000

/-- The word `TX` step T4 stores: FS, LS, AC, OWN = 0, WRAP kept (44_transmit.md R276). -/
def txFlagsWord (w0 : Word) : Word := keepWrap w0 ||| 0x38000000

/-- The word `TX` step T6 stores: the same with OWN = 1 (44_transmit.md R277). -/
def txOwnWord (w0 : Word) : Word := keepWrap w0 ||| 0xB8000000

/-- The word `RXIRQ` step I5 stores: OWN = 1, WRAP kept, all else 0 (45_receive_irq.md R298). -/
def rearmWord (w0 : Word) : Word := 0x80000000 ||| keepWrap w0

/-- The word TXDMA phase QT3 stores: as read, with OWN = 0 (43_ring_ownership.md R259). -/
def releaseWord (w0 : Word) : Word := w0 &&& 0x7FFFFFFF

/-- The word RXDMA phase QR4 stores (43_ring_ownership.md R250). -/
def fillWord (w0 : Word) (first last ce le ae : Bool) : Word :=
  keepWrap w0 ||| flagWord first 0x20000000 ||| flagWord last 0x10000000
    ||| flagWord (last && (ce || le || ae)) 0x00008000 ||| flagWord (last && ae) 0x00000004
    ||| flagWord (last && ce) 0x00000002 ||| flagWord (last && le) 0x00000001

/-- `good(w0)`: a complete, error-free frame (45_receive_irq.md R295). -/
def goodFrame (w0 : Word) : Bool :=
  fsBit w0 && lsBit w0 && !esBit w0 && !aeBit w0 && !ceBit w0 && !leBit w0

/-- Word 0 of RX descriptor `i` as `RING.BUILD` writes it (43_ring_ownership.md R239). -/
def builtRxW0 (n i : Nat) : Word := if i + 1 = n then 0xC0000000 else 0x80000000

/-- Word 0 of TX descriptor `i` as `RING.BUILD` writes it (43_ring_ownership.md R239). -/
def builtTxW0 (n i : Nat) : Word := if i + 1 = n then 0x40000000 else 0

/-! CTRL (10_state.md R36). -/

/-- CTRL.SWRST. -/
def swrstBit (ctrl : Word) : Bool := ctrl.getLsbD 0
/-- CTRL.RXEN. -/
def rxenBit (ctrl : Word) : Bool := ctrl.getLsbD 1
/-- CTRL.TXEN. -/
def txenBit (ctrl : Word) : Bool := ctrl.getLsbD 2

/-! FILTER (10_state.md R39). -/

/-- FILTER.PROMISC. -/
def promiscBit (f : Word) : Bool := f.getLsbD 0
/-- FILTER.BCAST_EN. -/
def bcastBit (f : Word) : Bool := f.getLsbD 1
/-- FILTER.MCAST_ALL. -/
def mcastBit (f : Word) : Bool := f.getLsbD 2

/-! MDIO_CTRL (10_state.md R40). -/

/-- MDIO_CTRL.BUSY. -/
def busyBit (c : Word) : Bool := c.getLsbD 0
/-- MDIO_CTRL.WRITE. -/
def writeBit (c : Word) : Bool := c.getLsbD 1
/-- MDIO_CTRL.CR. -/
def crField (c : Word) : BitVec 4 := c.extractLsb' 4 4
/-- MDIO_CTRL.REGAD. -/
def regadField (c : Word) : BitVec 5 := c.extractLsb' 8 5
/-- MDIO_CTRL.PHYAD. -/
def phyadField (c : Word) : BitVec 5 := c.extractLsb' 16 5

/-! INT_STATUS and INT_EN share their layout (10_state.md R42, R43). -/

/-- INT_STATUS.RXC and INT_EN.RXC_EN. -/
def rxcBit (w : Word) : Bool := w.getLsbD 0
/-- INT_STATUS.RBU and INT_EN.RBU_EN. -/
def rbuBit (w : Word) : Bool := w.getLsbD 1

/-- INT_STATUS.RXC as a word. -/
def rxcWord : Word := 0x1
/-- INT_STATUS.RBU as a word. -/
def rbuWord : Word := 0x2

/-- The IRQ cause `{RBU and RBU_EN, RXC and RXC_EN}` (30_encoding.md R130). -/
def irqCause (status enable : Word) : BitVec 2 := (status &&& enable).extractLsb' 0 2

/-- What a write of `v` leaves of a write-1-to-clear register (10_state.md R35). -/
def clearOnes (old v : Word) : Word := old &&& ~~~v

/-! The bits each register implements; every other bit reads 0 and ignores writes (10_state.md R35). -/

/-- CTRL: SWRST, RXEN, TXEN. -/
def ctrlMask : Word := 0x7
/-- MACCFG: SPEED100, FULLDUP. -/
def maccfgMask : Word := 0x3
/-- MACADDR_HI: bits 15:0. -/
def macHiMask : Word := 0xFFFF
/-- FILTER: PROMISC, BCAST_EN, MCAST_ALL. -/
def filterMask : Word := 0x7
/-- MDIO_CTRL: PHYAD, REGAD, CR, WRITE, BUSY. -/
def mdioCtrlMask : Word := 0x001F1FF3
/-- MDIO_DATA: bits 15:0. -/
def mdioDataMask : Word := 0xFFFF
/-- INT_EN and INT_STATUS: RXC, RBU. -/
def intMask : Word := 0x3
/-- RX_BASE and TX_BASE: bits 31:4. -/
def baseMask : Word := 0xFFFFFFF0
/-- DIAG: the six sticky bits. -/
def diagMask : Word := 0x3F

end Sys2Proof.Machine
end

