-- ==== Sys2Proof/Machine/Operands.lean ====
section
/-! DEFINITION. Machine/Operands.lean: operand assembly (30_encoding.md R132 to R137), byte order (20_memory.md R85) and
the descriptor shorthand (00_scope.md R16). -/

namespace Sys2Proof.Machine

/-- Byte `k` of a word, byte 0 the least significant (20_memory.md R85). -/
def byteOf (w : Word) (k : Nat) : Byte := w.extractLsb' (8 * k) 8

/-- The four bytes of a word in memory order, little-endian (20_memory.md R85). -/
def leBytes (w : Word) : List Byte := [byteOf w 0, byteOf w 1, byteOf w 2, byteOf w 3]

/-- The word whose bytes in memory order are given (20_memory.md R85). -/
def leWord (b0 b1 b2 b3 : Byte) : Word := b3 ++ b2 ++ b1 ++ b0

/-- MACADDR_LO for a station address (30_encoding.md R132). -/
def macLoOf (m : MacAddr) : Word := leWord m.b0 m.b1 m.b2 m.b3

/-- MACADDR_HI for a station address (30_encoding.md R132). -/
def macHiOf (m : MacAddr) : Word := leWord m.b4 m.b5 0 0

/-- The PHY identity of two identification words (30_encoding.md R133). -/
def phyIdOf (id1 id2 : Half) : Word := id1 ++ id2

/-- The MDIO control word (30_encoding.md R136). -/
def mdioWord (pa ra : BitVec 5) (cr : BitVec 4) (wr : Bool) : Word :=
  (pa.setWidth 32 <<< 16) ||| (ra.setWidth 32 <<< 8) ||| (cr.setWidth 32 <<< 4) ||| flagWord wr 2 ||| 1

/-- A boolean result (30_encoding.md R137). -/
def boolResult (b : Bool) : Word := if b then 1 else 0

/-- An address sum, modulo 2^ADDR_W (00_scope.md R17 (f)). -/
def addrSum (c : Cfg) (base k : Nat) : Nat := (base + k) % 2 ^ c.addrW

/-- The byte address `k` bytes from a pointer held in a 32-bit register or descriptor word (00_scope.md R17 (f)). -/
def addrAt (c : Cfg) (base : Word) (k : Nat) : Nat := addrSum c base.toNat k

/-- Word `k` of descriptor `i` of the array at `base` (30_encoding.md R134). -/
def descWord (c : Cfg) (base : Word) (i k : Nat) : Nat := addrAt c base (16 * i + 4 * k)

/-- The buffer of slot `i` (30_encoding.md R134). -/
def slotBuf (c : Cfg) (base : Word) (i : Nat) : Nat := addrAt c base (c.bufSize * i)

/-- A counter increment `n +% k`, modulo 2^CNT_W (00_scope.md R17 (c)). -/
def counterAdd (c : Cfg) (n k : Nat) : Nat := (n + k) % 2 ^ c.cntW

/-- The number a 32-bit working counter that has wrapped `wraps` times stands for (log 23). -/
def countOf (w : Word) (wraps : Nat) : Nat := 2 ^ 32 * wraps + w.toNat

/-- How often a 32-bit working counter has wrapped after one more increment (log 23). -/
def wrapsAfter (w : Word) (wraps : Nat) : Nat := if w + 1 = 0 then wraps + 1 else wraps

/-- A counter as a 32-bit register shows it (10_state.md R48; log 4). -/
def counterWord (n : Nat) : Word := BitVec.ofNat 32 n

/-- The 14 bits the MAC drives first in a management frame, most significant first: ST, OP, PHYAD, REGAD
(30_encoding.md R131). Informative: no step uses it. -/
def mdioFrameHead (pa ra : BitVec 5) (wr : Bool) : BitVec 14 :=
  (0b01 : BitVec 2) ++ (if wr then (0b01 : BitVec 2) else 0b10) ++ pa ++ ra

/-- The management frame of a write, all 32 bits driven by the MAC: TA = 10 and the datum (30_encoding.md R131).
Informative: no step uses it. -/
def mdioWriteFrame (pa ra : BitVec 5) (v : Half) : Word := mdioFrameHead pa ra true ++ (0b10 : BitVec 2) ++ v

/-- A register number's name (10_state.md R35). -/
inductive RegName where
  | ctrl | maccfg | macaddrLo | macaddrHi | filter | mdioCtrl | mdioData | intEn | intStatus
  | rxBase | txBase | txDoorbell | diag | link
  | cntSent | cntSentBytes | cntRecv | cntDrop | cntErr | phyId
  | cmd | argBuf | argLen | result
  | reserved
deriving DecidableEq, Repr

/-- The register map (10_state.md R35, R53). -/
def regOfNumber (no : BitVec 5) : RegName :=
  match no.toNat with
  | 0 => .ctrl
  | 1 => .maccfg
  | 2 => .macaddrLo
  | 3 => .macaddrHi
  | 4 => .filter
  | 5 => .mdioCtrl
  | 6 => .mdioData
  | 7 => .intEn
  | 8 => .intStatus
  | 9 => .rxBase
  | 10 => .txBase
  | 11 => .txDoorbell
  | 12 => .diag
  | 13 => .link
  | 16 => .cntSent
  | 17 => .cntSentBytes
  | 18 => .cntRecv
  | 19 => .cntDrop
  | 20 => .cntErr
  | 21 => .phyId
  | 24 => .cmd
  | 25 => .argBuf
  | 26 => .argLen
  | 27 => .result
  | _ => .reserved

end Sys2Proof.Machine
end

