-- ==== Sys2Proof/Syntax.lean ====
section
/-! DEFINITION. Syntax.lean: the instructions, one constructor for each row of spec/opcode_table.json
(30_encoding.md R138). -/

namespace Sys2Proof

/-- The operations that something outside a step selects by a word it presents (30_encoding.md R120).
An engine instruction carries the word 0 that selected it, whose other bits are its operands. -/
inductive Instr where
  /-- `INIT` (40_driver_contract.md R165). -/
  | init
  /-- `TX` (44_transmit.md R270). -/
  | tx
  /-- `UP` (46_link_reconciler.md R310). -/
  | up
  /-- `REGRD reg` (41_register_bridge.md R180). -/
  | regrd (reg : BitVec 5)
  /-- `REGWR reg, value` (41_register_bridge.md R181). -/
  | regwr (reg : BitVec 5) (value : Word)
  /-- `MDIO.RD` with the fields PHYAD, REGAD and CR of its control word (42_mdio_phy_bridge.md R201). -/
  | mdioRd (pa : BitVec 5) (ra : BitVec 5) (cr : BitVec 4)
  /-- `MDIO.WR` with the fields PHYAD, REGAD and CR of its control word (42_mdio_phy_bridge.md R206). -/
  | mdioWr (pa : BitVec 5) (ra : BitVec 5) (cr : BitVec 4)
  /-- `TXDMA.SEND` (43_ring_ownership.md R255). -/
  | txdmaSend (w0 : Word)
  /-- `TXDMA.PARK` (43_ring_ownership.md R254). -/
  | txdmaPark (w0 : Word)
  /-- `RXDMA.FILL` (43_ring_ownership.md R250). -/
  | rxdmaFill (w0 : Word)
  /-- `RXDMA.MISS` (43_ring_ownership.md R249). -/
  | rxdmaMiss (w0 : Word)
  /-- `RXIRQ`: cause bit 0 set; `rbu` is cause bit 1 (45_receive_irq.md R290). -/
  | rxirq (rbu : Bool)
  /-- `RXIRQ.RBU`: the same handler, entered on RBU alone (45_receive_irq.md R290). -/
  | rxirqRbu
deriving DecidableEq, Repr

end Sys2Proof
end

