-- ==== Sys2Proof/WellFormed.lean ====
section
/-! DEFINITION. WellFormed.lean: the instructions some word selects. -/

namespace Sys2Proof

open Machine

/-- An instruction some word selects: the word an engine instruction carries has the row's fixed bits
(30_encoding.md R128, R129). The other operands' widths are their types. -/
def WellFormed : Instr → Bool
  | .init => true
  | .tx => true
  | .up => true
  | .regrd _ => true
  | .regwr _ _ => true
  | .mdioRd _ _ _ => true
  | .mdioWr _ _ _ => true
  | .txdmaSend w0 => ownBit w0 && fsBit w0 && lsBit w0
  | .txdmaPark w0 => !ownBit w0
  | .rxdmaFill w0 => ownBit w0
  | .rxdmaMiss w0 => !ownBit w0
  | .rxirq _ => true
  | .rxirqRbu => true

end Sys2Proof
end

