-- ==== Sys2Proof/Decode.lean ====
section
/-! DEFINITION. Decode.lean: the decoder of each format, total on any bytes, and the encoder (30_encoding.md R120 to
R130, R138, R139). -/

namespace Sys2Proof

open Machine

/-- The six formats that select an operation (30_encoding.md R120). The format of a word is the port it is
presented at. -/
inductive Format where
  | cmd
  | bus
  | mdioc
  | tdes
  | rdes
  | irq
deriving DecidableEq, Repr

/-- Why bytes presented at a port select no row. -/
inductive DecodeError where
  /-- Fewer bytes than the format has. -/
  | truncated
  /-- A reserved CMD word (30_encoding.md R139 (a)). -/
  | reservedCommand
  /-- A BUS selector with bits 1:0 not 00 (30_encoding.md R139 (b)). -/
  | misalignedSelector
  /-- An MDIO_CTRL word with BUSY = 0: it starts no transaction (30_encoding.md R123). -/
  | noTransaction
  /-- A TDES word with OWN = 1 and not both FS and LS (30_encoding.md R139 (d)). -/
  | multiDescriptorFrame
  /-- An IRQ word with no cause (30_encoding.md R130). -/
  | noCause
deriving DecidableEq, Repr

/-- What a decoder answers. -/
inductive Decoded where
  | ok (i : Instr)
  | bad (e : DecodeError)
deriving DecidableEq, Repr

/-- Format CMD (30_encoding.md R121, R138, R139 (a)). -/
def decodeCmd (w : Word) : Decoded :=
  if w = 1 then .ok .init else if w = 2 then .ok .tx else if w = 3 then .ok .up else .bad .reservedCommand

/-- Format BUS: selector and data word (30_encoding.md R122). -/
def decodeBus (sel : Byte) (data : Word) : Decoded :=
  if sel.extractLsb' 0 2 = 0 then
    if sel.getLsbD 7 then .ok (.regwr (sel.extractLsb' 2 5) data) else .ok (.regrd (sel.extractLsb' 2 5))
  else .bad .misalignedSelector

/-- Format MDIOC: the value of MDIO_CTRL (30_encoding.md R123). -/
def decodeMdioc (w : Word) : Decoded :=
  if busyBit w then
    if writeBit w then .ok (.mdioWr (phyadField w) (regadField w) (crField w))
    else .ok (.mdioRd (phyadField w) (regadField w) (crField w))
  else .bad .noTransaction

/-- Format TDES: word 0 as TXDMA reads it (30_encoding.md R128). -/
def decodeTdes (w0 : Word) : Decoded :=
  if ownBit w0 then
    if fsBit w0 && lsBit w0 then .ok (.txdmaSend w0) else .bad .multiDescriptorFrame
  else .ok (.txdmaPark w0)

/-- Format RDES: word 0 as RXDMA reads it (30_encoding.md R129). -/
def decodeRdes (w0 : Word) : Decoded := if ownBit w0 then .ok (.rxdmaFill w0) else .ok (.rxdmaMiss w0)

/-- Format IRQ: the cause (30_encoding.md R130). -/
def decodeIrq (cause : BitVec 2) : Decoded :=
  if cause.getLsbD 0 then .ok (.rxirq (cause.getLsbD 1))
  else if cause.getLsbD 1 then .ok .rxirqRbu else .bad .noCause

/-- The decoder of every format, over the bytes presented, the first the lowest. -/
def decode (f : Format) (bytes : List Byte) : Decoded :=
  match f, bytes with
  | .cmd, b0 :: b1 :: b2 :: b3 :: _ => decodeCmd (leWord b0 b1 b2 b3)
  | .bus, sel :: b0 :: b1 :: b2 :: b3 :: _ => decodeBus sel (leWord b0 b1 b2 b3)
  | .mdioc, b0 :: b1 :: b2 :: b3 :: _ => decodeMdioc (leWord b0 b1 b2 b3)
  | .tdes, b0 :: b1 :: b2 :: b3 :: _ => decodeTdes (leWord b0 b1 b2 b3)
  | .rdes, b0 :: b1 :: b2 :: b3 :: _ => decodeRdes (leWord b0 b1 b2 b3)
  | .irq, b :: _ => decodeIrq (b.extractLsb' 0 2)
  | _, _ => .bad .truncated

/-- The format of an instruction's selecting word (30_encoding.md R138). -/
def formatOf : Instr → Format
  | .init => .cmd
  | .tx => .cmd
  | .up => .cmd
  | .regrd _ => .bus
  | .regwr _ _ => .bus
  | .mdioRd _ _ _ => .mdioc
  | .mdioWr _ _ _ => .mdioc
  | .txdmaSend _ => .tdes
  | .txdmaPark _ => .tdes
  | .rxdmaFill _ => .rdes
  | .rxdmaMiss _ => .rdes
  | .rxirq _ => .irq
  | .rxirqRbu => .irq

/-- The 8-bit selector of a bus access (30_encoding.md R122). -/
def busSelector (we : Bool) (reg : BitVec 5) : Byte := BitVec.ofBool we ++ reg ++ (0 : BitVec 2)

/-- The bytes that select an instruction, the first the lowest. -/
def encode : Instr → List Byte
  | .init => leBytes 1
  | .tx => leBytes 2
  | .up => leBytes 3
  | .regrd reg => busSelector false reg :: leBytes 0
  | .regwr reg value => busSelector true reg :: leBytes value
  | .mdioRd pa ra cr => leBytes (mdioWord pa ra cr false)
  | .mdioWr pa ra cr => leBytes (mdioWord pa ra cr true)
  | .txdmaSend w0 => leBytes w0
  | .txdmaPark w0 => leBytes w0
  | .rxdmaFill w0 => leBytes w0
  | .rxdmaMiss w0 => leBytes w0
  | .rxirq rbu => [if rbu then 3 else 1]
  | .rxirqRbu => [2]

/-- The format a table word is read in, from the word alone. The spec tells the formats apart by the port and not by
the word, and the rows' patterns overlap across formats; this order is the model's (log 12). -/
def tableFormat (nbits w : Nat) : Option Format :=
  let word := BitVec.ofNat 32 w
  if nbits = 8 then
    if w % 4 = 0 then some .bus else if w < 4 then some .irq else none
  else if nbits = 32 then
    if w = 1 ∨ w = 2 ∨ w = 3 then some .cmd
    else if busyBit word then some .mdioc
    else if ownBit word then (if fsBit word && lsBit word then some .tdes else some .rdes)
    else if fsBit word && lsBit word && !acBit word then some .rdes
    else some .tdes
  else none

/-- The bytes of a table word, every bit above `w` zero, as many as the longest format has (a BUS access: five). -/
def tableBytes (w : Nat) : List Byte :=
  [BitVec.ofNat 8 w, BitVec.ofNat 8 (w / 2 ^ 8), BitVec.ofNat 8 (w / 2 ^ 16), BitVec.ofNat 8 (w / 2 ^ 24),
    BitVec.ofNat 8 (w / 2 ^ 32)]

/-- The instruction the decoder reads from a word of spec/opcode_table.json. -/
def decodeTableWord (nbits w : Nat) : Option Instr :=
  match tableFormat nbits w with
  | none => none
  | some f =>
    match decode f (tableBytes w) with
    | .ok i => some i
    | .bad _ => none

end Sys2Proof
end

