-- ==== Sys2Proof/Machine/State.lean ====
section
/-! DEFINITION. Machine/State.lean: everything the spec gives the machine (10_state.md), as plain data, and its reset. -/

namespace Sys2Proof.Machine

/-- Why the run stops where the spec marks it faulted (93_implementation_defined.md, treatment `fault`). -/
inductive Fault where
  /-- U3: an access to a slot the other side owns, or a W0 store that is no hand-over by the owner. Raised by the slot
  accesses of `TX` and `RXIRQ`, by the W0 stores of the engines and by UPPER's loads and stores. Safe: the spec gives
  no effect. -/
  | ownershipViolation
  /-- U4: an engine used a descriptor whose WRAP bit does not say whether it is the last one. Raised by RXDMA phase QR4
  and TXDMA phase QT3. Safe. -/
  | wrapMisplaced
  /-- U7: a TX descriptor with OWN = 1 and not both FS and LS, or with LEN above BUF_SIZE. Raised by TXDMA phases QT0
  and QT1. Safe. -/
  | txDescriptorMalformed
  /-- U10: a write of RX_BASE or TX_BASE while that engine is enabled. Raised by the register write. Safe. -/
  | baseWriteWhileEnabled
deriving DecidableEq, Repr

/-- Why the step relation has no transition (93_implementation_defined.md, treatment `refuse`). -/
inductive Refusal where
  /-- Raised by `exec`'s arms for an instruction without a meaning. There is none now. Safe. -/
  | notModelled (mnemonic : String)
  /-- U1: a `TX` or `UP` command while `initialized` is false. Raised by command dispatch. Safe. -/
  | notInitialized
  /-- U2: a command while `hpc` is not Idle. Raised by command dispatch. Safe. -/
  | commandWhileBusy
  /-- U2: a command while `in_isr` is true. Raised by command dispatch. Safe. -/
  | commandInIsr
  /-- U5: a write of MDIO_CTRL while BUSY = 1. Raised by the register write. Safe. -/
  | mdioWriteWhileBusy
  /-- U6: a configuration outside its constraints. Raised by `step`. Safe. -/
  | inadmissibleConfig
  /-- U13: a bus selector with bits 1:0 not 00. Raised by the fetch. Safe. -/
  | misalignedSelector
  /-- U19: WIRE offers a frame shorter than 14 bytes or longer than MAX_WIRE_LEN. Raised by the frame's move. Safe. -/
  | wireFrameLength
  /-- U19: WIRE offers a frame while one is being stored. Raised by the frame's move. Safe. -/
  | wireBusy
deriving DecidableEq, Repr

/-- `link` (10_state.md R21). -/
inductive Link where
  | down
  | up
deriving DecidableEq, Repr

/-- The labels of `hpc` (10_state.md R31). -/
inductive HostLabel where
  | idle
  | n0 | n1 | n2 | n3 | n4 | n5 | n6 | n7 | n8 | n9 | n10 | n11 | n12
  | t0 | t1 | t2 | t3 | t4 | t5 | t6 | t7 | t8
  | u0 | u1 | u2 | u3 | u4 | u5 | u6
deriving DecidableEq, Repr

/-- The labels of `hsub` (10_state.md R31). -/
inductive SubLabel where
  | off
  | mr0 | mr1 | mr2 | mr3
  | mw0 | mw1 | mw2 | mw3 | mw4
  | b0 | b1 | b2
deriving DecidableEq, Repr

/-- The labels of `ipc` (10_state.md R32). -/
inductive IsrLabel where
  | idle
  | i0 | i1 | i2 | i3 | i4 | i5 | i6 | i7 | i8
deriving DecidableEq, Repr

/-- The error events (60_exceptions.md R344). -/
inductive Event where
  | ringFull
  | oversize
  | rxBadFrame
  | rxOverrun
  | mdcClkLow
  | mdcClkHigh
  | phyTimeout
  | badCmd
  | phyAbsent
  | macResetTimeout
deriving DecidableEq, Repr

/-- HOST's working registers (10_state.md R30). Two are the model's own: `kWraps`, how often the poll counter `k` has wrapped
in the present wait (log 23), and `byte`, the byte between the two micro-steps of a copied byte (log 14). -/
structure HostRegs where
  buf : Word
  len : Word
  w0 : Word
  bufp : Word
  j : Word
  k : Word
  kWraps : Nat
  c : Word
  v : Half
  ok : Bool
  id1 : Half
  id2 : Half
  code : BitVec 4
  up : Bool
  spd : Bool
  dup : Bool
  byte : Byte
deriving DecidableEq, Repr

/-- ISR's working registers (10_state.md R30). `iterWraps` is the model's own: how often the iteration count `iter` has wrapped
in this invocation (log 23). -/
structure IsrRegs where
  snap : Word
  iter : Word
  iterWraps : Nat
  cap : Bool
  w0 : Word
  len : BitVec 14
  bufp : Word
deriving DecidableEq, Repr

/-- The stored registers of the register file (10_state.md R36 to R46, R51, R52). -/
structure Regs where
  ctrl : Word
  maccfg : Word
  macLo : Word
  macHi : Word
  filter : Word
  mdioCtrl : Word
  mdioData : Word
  intEn : Word
  intStatus : Word
  rxBase : Word
  txBase : Word
  diag : Word
  argBuf : Word
  argLen : Word
  result : Word
deriving DecidableEq, Repr

/-- A frame as WIRE offers it: its bytes without preamble and frame check sequence, and the error flags
(43_ring_ownership.md R246). -/
structure Frame where
  bytes : List Byte
  ce : Bool
  le : Bool
  ae : Bool
deriving DecidableEq, Repr

/-- An entry of `wire_out` (43_ring_ownership.md R258). -/
structure WireEntry where
  bytes : List Byte
  fcsAppended : Bool
deriving DecidableEq, Repr

/-- `rxdma.run` (10_state.md R54). -/
inductive RxRun where
  | stopped
  | running
deriving DecidableEq, Repr

/-- The phases of a reception (43_ring_ownership.md R243). -/
inductive RxPhase where
  | qr1 | qr2 | qr3 | qr4
deriving DecidableEq, Repr

/-- `rxdma.job` (10_state.md R54): the frame, the offset of the next segment, `first`, the phase; the word 0 polled and
the buffer pointer read for this segment, and the offsets within the segment still to store. `mic` is the micro-step
inside the phase (log 14). -/
structure RxJob where
  frame : Frame
  off : Nat
  first : Bool
  phase : RxPhase
  mic : Nat
  w0 : Word
  bufp : Word
  todo : List Nat
deriving DecidableEq, Repr

/-- RXDMA's state (10_state.md R54). -/
structure RxDma where
  run : RxRun
  idx : Nat
  job : Option RxJob
deriving DecidableEq, Repr

/-- `txdma.st` (10_state.md R55). -/
inductive TxSt where
  | stopped
  | suspended
  | running
deriving DecidableEq, Repr

/-- The phases of a transmission (43_ring_ownership.md R252). -/
inductive TxPhase where
  | qt1 | qt2 | qt3
deriving DecidableEq, Repr

/-- `txdma.job` (10_state.md R55): word 0, the length, the buffer pointer, the bytes fetched, the offsets still to
fetch, the phase. `mic` is the micro-step inside the phase (log 14). -/
structure TxJob where
  w0 : Word
  len : Nat
  bufp : Word
  data : List Byte
  todo : List Nat
  phase : TxPhase
  mic : Nat
deriving DecidableEq, Repr

/-- TXDMA's state (10_state.md R55). -/
structure TxDma where
  st : TxSt
  idx : Nat
  job : Option TxJob
deriving DecidableEq, Repr

/-- The working register a load that may be performed late fills (44_transmit.md R274, 45_receive_irq.md R294). -/
inductive LoadReg where
  | hostByte
  | hostBufp
  | isrLen
  | isrBufp
deriving DecidableEq, Repr

/-- A memory access of a software context that is issued and not yet performed (20_memory.md R96), each single-copy
atomic (R91). -/
inductive Pending where
  /-- A store of a buffer byte. -/
  | byte (a : Nat) (v : Byte)
  /-- A store of an aligned descriptor word. -/
  | word (a : Nat) (v : Word)
  /-- A load that fills a working register. -/
  | load (a : Nat) (r : LoadReg)
  /-- The load of one byte and the store of that byte, both issued, neither performed (44_transmit.md R274). -/
  | copy (src dst : Nat)
deriving DecidableEq, Repr

/-- A PHY register that something has set: `PHY[pa][ra] = v` (10_state.md R34). -/
structure PhyCell where
  pa : BitVec 5
  ra : BitVec 5
  v : Half
deriving DecidableEq, Repr

/-- One move of the run (00_scope.md R10 to R13): which agent acts next, with what draw. -/
inductive Move where
  /-- UPPER presents a bus access: selector and data word (30_encoding.md R122). -/
  | bus (sel : Byte) (data : Word)
  /-- UPPER writes a word to R[CMD] (30_encoding.md R121). -/
  | cmd (w : Word)
  /-- UPPER stores a byte to system memory, at an address taken modulo 2^ADDR_W. -/
  | store (a : Nat) (v : Byte)
  /-- UPPER loads a byte of system memory, at an address taken modulo 2^ADDR_W. -/
  | load (a : Nat)
  /-- WIRE offers a frame (43_ring_ownership.md R246). -/
  | wire (f : Frame)
  /-- PHY changes one of its registers (42_mdio_phy_bridge.md R216). -/
  | phy (pa ra : BitVec 5) (v : Half)
  /-- HOST takes a micro-step. -/
  | host
  /-- ISR takes a micro-step. -/
  | isr
  /-- RXDMA takes a micro-step; `pick` chooses among the byte stores it may make next (43_ring_ownership.md R250). -/
  | rxdma (pick : Nat)
  /-- TXDMA takes a micro-step; `pick` chooses among the byte reads it may make next (43_ring_ownership.md R256). -/
  | txdma (pick : Nat)
  /-- MDIOC takes its step (42_mdio_phy_bridge.md R212). -/
  | mdioc
  /-- MACRST takes its step (41_register_bridge.md R188). -/
  | macrst
  /-- The memory system performs HOST's pending access number `k` (20_memory.md R96). -/
  | drainHost (k : Nat)
  /-- The memory system performs ISR's pending access number `k` (20_memory.md R96). -/
  | drainIsr (k : Nat)
deriving DecidableEq, Repr

/-- The whole machine (10_state.md). INVENTORY.md lists each field with its rule. -/
structure State where
  /-- The configuration of the run (10_state.md R23); no operation writes it. -/
  cfg : Cfg
  link : Link
  nsent : Nat
  nsentBytes : Nat
  nrecv : Nat
  ndrop : Nat
  nerr : Nat
  phyId : Word
  vendor : Vendor
  rxIdx : Nat
  txIdx : Nat
  initialized : Bool
  /-- The model's own: `RING.BUILD` has completed since hardware reset (log 22). -/
  ringsBuilt : Bool
  hpc : HostLabel
  hsub : SubLabel
  /-- The model's own: HOST's micro-step inside its label (log 14). -/
  hmic : Nat
  h : HostRegs
  inIsr : Bool
  ipc : IsrLabel
  /-- The model's own: ISR's micro-step inside its label (log 14). -/
  imic : Nat
  /-- The model's own: the cause word that selected the running invocation (log 19). -/
  icause : BitVec 2
  i : IsrRegs
  regs : Regs
  rx : RxDma
  tx : TxDma
  /-- System memory: the bytes written since power-on, addresses strictly rising (10_state.md R58). -/
  mem : List Host.Cell
  /-- HOST's memory accesses not yet performed, oldest first (20_memory.md R96). -/
  hostBuf : List Pending
  /-- ISR's memory accesses not yet performed, oldest first (20_memory.md R96). -/
  isrBuf : List Pending
  /-- The PHY registers set since power-on (10_state.md R34). -/
  phy : List PhyCell
  /-- The PHY's write log, oldest first (42_mdio_phy_bridge.md R216). -/
  phyLog : List PhyCell
  wireOut : List WireEntry
  deliverLog : List (List Byte)
  /-- The model's own: the word the last bus read returned (log 18). -/
  busData : Word
  /-- The model's own: the byte UPPER last loaded (log 18). -/
  memData : Byte
  /-- The model's own: the events raised, oldest first (log 18). -/
  events : List Event
  /-- The model's own: the addresses UPPER has written since `TX` started (log 11). -/
  dirty : List Nat
  /-- The model's own: how many free values have been drawn (log 11). -/
  freeCtr : Nat
  /-- The model's own: the pick of the engine move being made (log 1). -/
  choice : Nat
  /-- The model's own: the moves still to come (log 1). -/
  moves : List Move
deriving DecidableEq, Repr

/-- What a step answers. -/
abbrev Out := Host.Outcome State Fault Refusal

/-- HOST's working registers at reset: unspecified by the spec, 0 here (log 5). -/
def HostRegs.zero : HostRegs where
  buf := 0
  len := 0
  w0 := 0
  bufp := 0
  j := 0
  k := 0
  kWraps := 0
  c := 0
  v := 0
  ok := false
  id1 := 0
  id2 := 0
  code := 0
  up := false
  spd := false
  dup := false
  byte := 0

/-- ISR's working registers at reset: unspecified by the spec, 0 here (log 5). -/
def IsrRegs.zero : IsrRegs where
  snap := 0
  iter := 0
  iterWraps := 0
  cap := false
  w0 := 0
  len := 0
  bufp := 0

/-- Every register 0 (10_state.md R62). -/
def Regs.zero : Regs where
  ctrl := 0
  maccfg := 0
  macLo := 0
  macHi := 0
  filter := 0
  mdioCtrl := 0
  mdioData := 0
  intEn := 0
  intStatus := 0
  rxBase := 0
  txBase := 0
  diag := 0
  argBuf := 0
  argLen := 0
  result := 0

/-- The state after hardware reset with a given configuration (10_state.md R62, R63; 70_reset_and_hazards.md R380). -/
def State.resetWith (c : Cfg) : State where
  cfg := c
  link := .down
  nsent := 0
  nsentBytes := 0
  nrecv := 0
  ndrop := 0
  nerr := 0
  phyId := 0
  vendor := .genericClone
  rxIdx := 0
  txIdx := 0
  initialized := false
  ringsBuilt := false
  hpc := .idle
  hsub := .off
  hmic := 0
  h := HostRegs.zero
  inIsr := false
  ipc := .idle
  imic := 0
  icause := 0
  i := IsrRegs.zero
  regs := Regs.zero
  rx := ⟨.stopped, 0, none⟩
  tx := ⟨.stopped, 0, none⟩
  mem := []
  hostBuf := []
  isrBuf := []
  phy := []
  phyLog := []
  wireOut := []
  deliverLog := []
  busData := 0
  memData := 0
  events := []
  dirty := []
  freeCtr := 0
  choice := 0
  moves := []

/-- The machine right after hardware reset, in the test configuration (log 3). -/
def State.reset : State := State.resetWith Cfg.test

end Sys2Proof.Machine
end

