-- ==== Sys2Proof/Machine/Ops.lean ====
section
/-! DEFINITION. Machine/Ops.lean: the operations every meaning is made of: system memory and the pending accesses of a
context (20_memory.md), the register file (10_state.md section 5, 41_register_bridge.md), command dispatch
(40_driver_contract.md R161), the error events (60_exceptions.md R344), interrupt entry and return (R354, R356),
`MAC.RESET` (41 R188) and the PHY registers (42 R216). -/

namespace Sys2Proof.Machine

/-! ### System memory -/

/-- The byte listed at `a`; an unlisted address has been written by nothing since power-on (log 6). -/
def Memory.get : List Host.Cell → Nat → Option Byte
  | [], _ => none
  | c :: m, a => if c.1 = a then some c.2 else Memory.get m a

/-- The memory with `v` at `a`, addresses kept strictly rising. -/
def Memory.set : List Host.Cell → Nat → Byte → List Host.Cell
  | [], a, v => [(a, v)]
  | c :: m, a, v =>
    if a < c.1 then (a, v) :: c :: m else if a = c.1 then (a, v) :: m else c :: Memory.set m a v

/-- Every listed address is above `a`. -/
def Memory.allAbove (a : Nat) : List Host.Cell → Bool
  | [] => true
  | c :: m => decide (a < c.1) && Memory.allAbove a m

/-- The canonical form: addresses strictly rising. An unlisted address reads as no written byte, so no listed byte
equals what an unlisted address reads as (log 6). -/
def Memory.wf : List Host.Cell → Bool
  | [] => true
  | c :: m => Memory.allAbove c.1 m && Memory.wf m

/-- The memory with the word `v` at byte address `a`, little-endian (20_memory.md R85). -/
def Memory.setWord (m : List Host.Cell) (a : Nat) (v : Word) : List Host.Cell :=
  Memory.set (Memory.set (Memory.set (Memory.set m a (byteOf v 0)) (a + 1) (byteOf v 1)) (a + 2) (byteOf v 2)) (a + 3)
    (byteOf v 3)

/-- The byte a memory holds at `a`: the byte written last, or the power-on byte (10_state.md R63, log 6). -/
def Memory.read (m : List Host.Cell) (a : Nat) : Byte := (Memory.get m a).getD (Config.powerOnByte a)

/-- The byte memory holds at `a`. -/
def State.byteAt (s : State) (a : Nat) : Byte := Memory.read s.mem a

/-- The word memory holds at `a`, little-endian (20_memory.md R85). -/
def State.wordAt (s : State) (a : Nat) : Word :=
  leWord (s.byteAt a) (s.byteAt (a + 1)) (s.byteAt (a + 2)) (s.byteAt (a + 3))

/-- The `n` bytes memory holds from the pointer `base` on. -/
def State.bytesAt (s : State) (base : Word) (n : Nat) : List Byte :=
  (List.range n).map fun k => s.byteAt (addrAt s.cfg base k)

/-! ### The memory accesses of a software context (20_memory.md R96, R97) -/

/-- The two software contexts (60_exceptions.md R360). -/
inductive Ctx where
  | host
  | isr
deriving DecidableEq, Repr

/-- The byte addresses of a word. -/
def wordAddrs (a : Nat) : List Nat := [a, a + 1, a + 2, a + 3]

/-- The byte addresses a load reads, by the register it fills. -/
def loadAddrs (a : Nat) : LoadReg → List Nat
  | .hostByte => [a]
  | .hostBufp => wordAddrs a
  | .isrLen => wordAddrs a
  | .isrBufp => wordAddrs a

/-- The byte addresses an access touches. -/
def Pending.addrs : Pending → List Nat
  | .byte a _ => [a]
  | .word a _ => wordAddrs a
  | .load a r => loadAddrs a r
  | .copy src dst => [src, dst]

/-- The byte addresses an access writes. -/
def Pending.writes : Pending → List Nat
  | .byte a _ => [a]
  | .word a _ => wordAddrs a
  | .load _ _ => []
  | .copy _ dst => [dst]

/-- The byte addresses touched by what the memory system performs first of an access: of a copy, its load. -/
def Pending.firstAddrs : Pending → List Nat
  | .copy src _ => [src]
  | p => p.addrs

/-- The register an access fills. -/
def Pending.fills : Pending → Option LoadReg
  | .load _ r => some r
  | _ => none

/-- The access touches one of these addresses. -/
def Pending.hits (as : List Nat) (p : Pending) : Bool := p.addrs.any fun a => as.contains a

/-- The memory after an access has been performed; a load leaves it as it is. -/
def Memory.perform (m : List Host.Cell) : Pending → List Host.Cell
  | .byte a v => Memory.set m a v
  | .word a v => Memory.setWord m a v
  | .load _ _ => m
  | .copy src dst => Memory.set m dst (Memory.read m src)

/-- The memory after a list of accesses has been performed, in issue order. -/
def Memory.performAll (m : List Host.Cell) (ps : List Pending) : List Host.Cell := ps.foldl Memory.perform m

/-- A load is performed: its register takes what memory holds now (44_transmit.md R274, 45_receive_irq.md R294). -/
def loadNow (a : Nat) (r : LoadReg) (s : State) : State :=
  match r with
  | .hostByte => { s with h := { s.h with byte := s.byteAt a } }
  | .hostBufp => { s with h := { s.h with bufp := s.wordAt a } }
  | .isrLen => { s with i := { s.i with len := lenField (s.wordAt a) } }
  | .isrBufp => { s with i := { s.i with bufp := s.wordAt a } }

/-- An access is performed. -/
def performAccess (p : Pending) (s : State) : State :=
  match p with
  | .load a r => loadNow a r s
  | p => { s with mem := Memory.perform s.mem p }

/-- A list of accesses is performed, in order. -/
def performAccesses (ps : List Pending) (s : State) : State := ps.foldl (fun s p => performAccess p s) s

/-- The accesses a context has issued and that are not performed. -/
def State.pending (s : State) : Ctx → List Pending
  | .host => s.hostBuf
  | .isr => s.isrBuf

/-- A context's pending accesses replaced. -/
def State.setPending (s : State) (c : Ctx) (b : List Pending) : State :=
  match c with
  | .host => { s with hostBuf := b }
  | .isr => { s with isrBuf := b }

/-- An ordering point of a context: every access it has issued is performed (20_memory.md R96). -/
def flush (c : Ctx) (s : State) : State := (performAccesses (s.pending c) s).setPending c []

/-- `FENCE` (20_memory.md R98). -/
def fence (c : Ctx) (s : State) : State := flush c s

/-- A context issues an access whose value it does not need at once: performed under SC, pending under WEAK
(20_memory.md R96). -/
def issue (c : Ctx) (p : Pending) (s : State) : State :=
  match s.cfg.memModel with
  | .sc => performAccess p s
  | .weak => s.setPending c (s.pending c ++ [p])

/-- `MemWrite(a, 4, v)` by a context. -/
def ctxStoreWord (c : Ctx) (a : Nat) (v : Word) (s : State) : State := issue c (.word a v) s

/-- `MemWrite(a, 1, v)` by a context. -/
def ctxStoreByte (c : Ctx) (a : Nat) (v : Byte) (s : State) : State := issue c (.byte a v) s

/-- Pending accesses, oldest first, split into those that must be performed now and those that may go on waiting: the
wanted ones must, and with an access every earlier one that shares an address with it, so that accesses to one address are
performed in issue order (20_memory.md R97). -/
def splitNeeded (want : Pending → Bool) : List Pending → List Pending × List Pending
  | [] => ([], [])
  | p :: ps =>
    let r := splitNeeded want ps
    if want p || r.1.any (Pending.hits p.addrs) then (p :: r.1, r.2) else (r.1, p :: r.2)

/-- The pending accesses a context must have performed before it goes on are performed; the others stay pending. -/
def settle (c : Ctx) (want : Pending → Bool) (s : State) : State :=
  let r := splitNeeded want (s.pending c)
  (performAccesses r.1 s).setPending c r.2

/-- What a context does before a load whose value it needs at once: its own pending accesses to the addresses come first
(20_memory.md R97, log 8). -/
def settleAddrs (c : Ctx) (as : List Nat) (s : State) : State := settle c (Pending.hits as) s

/-- What a context does before it uses a working register that a pending load fills: that load is performed. -/
def settleReg (c : Ctx) (r : LoadReg) (s : State) : State := settle c (fun p => decide (p.fills = some r)) s

/-- The memory system performs the pending access number `k` of a context, unless an earlier one of the context shares an
address with it (20_memory.md R96, R97); of a copy it performs the load, which leaves the store. -/
def drain (c : Ctx) (k : Nat) (s : State) : State :=
  match (s.pending c)[k]? with
  | none => s
  | some p =>
    if ((s.pending c).take k).any (Pending.hits p.firstAddrs) then s
    else
      match p with
      | .copy src dst => s.setPending c ((s.pending c).set k (.byte dst (s.byteAt src)))
      | p => (performAccess p s).setPending c ((s.pending c).eraseIdx k)

/-- An engine's word store: engines perform their accesses in phase order (20_memory.md R101). -/
def engineStoreWord (a : Nat) (v : Word) (s : State) : State := { s with mem := Memory.setWord s.mem a v }

/-- A byte store performed at once: an engine's or UPPER's. -/
def storeByte (a : Nat) (v : Byte) (s : State) : State := { s with mem := Memory.set s.mem a v }

/-! ### Descriptors, slots and who owns them (43_ring_ownership.md) -/

/-- `TXD(i)` as the software side forms it (00_scope.md R16). -/
def txd (s : State) (i k : Nat) : Nat := descWord s.cfg s.cfg.txdBase i k
/-- `RXD(i)` as the software side forms it (00_scope.md R16). -/
def rxd (s : State) (i k : Nat) : Nat := descWord s.cfg s.cfg.rxdBase i k
/-- `TXD(i)` as TXDMA forms it: from the base register (00_scope.md R16). -/
def engTxd (s : State) (i k : Nat) : Nat := descWord s.cfg s.regs.txBase i k
/-- `RXD(i)` as RXDMA forms it: from the base register (00_scope.md R16). -/
def engRxd (s : State) (i k : Nat) : Nat := descWord s.cfg s.regs.rxBase i k

/-- The descriptor whose word 0 is at `d` is hardware-owned. -/
def hwOwns (s : State) (d : Nat) : Bool := ownBit (s.wordAt d)

/-- What an address of system memory is part of. -/
inductive Place where
  | rxDesc (i k : Nat)
  | txDesc (i k : Nat)
  | rxBuf (i : Nat)
  | txBuf (i : Nat)
  | elsewhere
deriving DecidableEq, Repr

/-- `a` lies in the `len` bytes from `base` on. -/
def inRange (a base len : Nat) : Bool := decide (base ≤ a) && decide (a < base + len)

/-- What the address `a` is part of: word `k` of a descriptor, a slot's buffer, or neither (20_memory.md R94). -/
def placeOf (c : Cfg) (a : Nat) : Place :=
  if inRange a c.rxdBase.toNat c.descBytes then
    .rxDesc ((a - c.rxdBase.toNat) / 16) ((a - c.rxdBase.toNat) % 16 / 4)
  else if inRange a c.txdBase.toNat c.descBytes then
    .txDesc ((a - c.txdBase.toNat) / 16) ((a - c.txdBase.toNat) % 16 / 4)
  else if inRange a c.rxbufBase.toNat c.bufBytes then .rxBuf ((a - c.rxbufBase.toNat) / c.bufSize)
  else if inRange a c.txbufBase.toNat c.bufBytes then .txBuf ((a - c.txbufBase.toNat) / c.bufSize)
  else .elsewhere

/-- The place belongs to a slot the hardware side owns. -/
def placeHwOwned (s : State) : Place → Bool
  | .rxDesc i _ => hwOwns s (rxd s i 0)
  | .txDesc i _ => hwOwns s (txd s i 0)
  | .rxBuf i => hwOwns s (rxd s i 0)
  | .txBuf i => hwOwns s (txd s i 0)
  | .elsewhere => false

/-- The place is part of a descriptor. -/
def Place.isDesc : Place → Bool
  | .rxDesc _ _ => true
  | .txDesc _ _ => true
  | _ => false

/-- The place is part of a TX buffer. -/
def Place.isTxBuf : Place → Bool
  | .txBuf _ => true
  | _ => false

/-- The place is word 0 of a descriptor. -/
def Place.isW0 : Place → Bool
  | .rxDesc _ k => decide (k = 0)
  | .txDesc _ k => decide (k = 0)
  | _ => false

/-! ### Outcomes -/

/-- A step's next state passed on; a fault or a refusal stands. -/
def andNext (o : Out) (f : State → State) : Out :=
  match o with
  | .next s => .next (f s)
  | .fault e => .fault e
  | .refused e => .refused e

/-! ### The counts that bound a loop (40_driver_contract.md R164, log 23) -/

/-- The unsuccessful polls of the present wait (40 R167, 42_mdio_phy_bridge.md R202). -/
def HostRegs.polls (h : HostRegs) : Nat := countOf h.k h.kWraps

/-- A bounded wait begins: `h.k <- 0` (40 R166, 42 R202). -/
def HostRegs.noPolls (h : HostRegs) : HostRegs := { h with k := 0, kWraps := 0 }

/-- One more unsuccessful poll: `h.k <- h.k + 1` (40 R167, 42 R202). -/
def HostRegs.onePoll (h : HostRegs) : HostRegs := { h with k := h.k + 1, kWraps := wrapsAfter h.k h.kWraps }

/-- The iterations of the present invocation (45_receive_irq.md R292). -/
def IsrRegs.iterations (i : IsrRegs) : Nat := countOf i.iter i.iterWraps

/-- One more iteration: `i.iter <- i.iter + 1` (45_receive_irq.md R299). -/
def IsrRegs.oneIteration (i : IsrRegs) : IsrRegs :=
  { i with iter := i.iter + 1, iterWraps := wrapsAfter i.iter i.iterWraps }

/-! ### Error events (60_exceptions.md R344) -/

/-- The DIAG bit an event sets; 0 where it sets none (10_state.md R46, 60_exceptions.md R344). -/
def diagBits : Event → Word
  | .mdcClkLow => 0x01
  | .mdcClkHigh => 0x02
  | .phyTimeout => 0x04
  | .phyAbsent => 0x08
  | .macResetTimeout => 0x10
  | .badCmd => 0x20
  | .ringFull => 0
  | .oversize => 0
  | .rxBadFrame => 0
  | .rxOverrun => 0

/-- `raise`: the recording action of the event's row, and nothing else (60_exceptions.md R340). -/
def raise (e : Event) (s : State) : State :=
  { s with events := s.events ++ [e], regs := { s.regs with diag := s.regs.diag ||| diagBits e } }

/-! ### The interrupt (60_exceptions.md section 2) -/

/-- The IRQ cause now (30_encoding.md R130). -/
def State.cause (s : State) : BitVec 2 := irqCause s.regs.intStatus s.regs.intEn

/-- `irq_line` (10_state.md R56). -/
def State.irqLine (s : State) : Bool :=
  (rxcBit s.regs.intStatus && rxcBit s.regs.intEn) || (rbuBit s.regs.intStatus && rbuBit s.regs.intEn)

/-- Interrupt entry: `in_isr <- true`, `ipc <- I0`, nothing saved, HOST's state kept; an ordering point
(60_exceptions.md R354). -/
def takeInterrupt (s : State) : State :=
  { flush .isr (flush .host s) with inIsr := true, ipc := .i0, imic := 0, icause := s.cause }

/-- Interrupt return: `in_isr <- false`, `ipc <- Idle`, nothing to restore; an ordering point
(60_exceptions.md R356). -/
def returnInterrupt (s : State) : State :=
  { flush .isr (flush .host s) with inIsr := false, ipc := .idle, imic := 0 }

/-! ### Command dispatch (40_driver_contract.md R161 to R163) -/

/-- The refusal a command word meets, whatever it is: `hpc` not Idle, or inside the handler (R162). -/
def commandGate (s : State) : Option Refusal :=
  if s.hpc ≠ .idle then some .commandWhileBusy else if s.inIsr then some .commandInIsr else none

/-- A command starts: `hpc` takes its first label (R161); `TX` and `UP` need `initialized` (R163). The model's record of
UPPER's writes starts anew (log 11). -/
def startCommand (needsInit : Bool) (l : HostLabel) (s : State) : Out :=
  match commandGate s with
  | some r => .refused r
  | none =>
    if needsInit && !s.initialized then .refused .notInitialized
    else .next { s with hpc := l, hsub := .off, hmic := 0, dirty := [] }

/-- A reserved command word: only `BAD_CMD` (R162, 30_encoding.md R139 (a)). -/
def badCommand (s : State) : Out :=
  match commandGate s with
  | some r => .refused r
  | none => .next (raise .badCmd s)

/-- A write of CMD (10_state.md R50). -/
def commandWrite (v : Word) (s : State) : Out :=
  match decodeCmd v with
  | .ok .init => startCommand false .n0 s
  | .ok .tx => startCommand true .t0 s
  | .ok .up => startCommand true .u0 s
  | _ => badCommand s

/-- A contract operation ends: RESULT and `hpc <- Idle` in one micro-step (10_state.md R52). -/
def finish (result : Word) (s : State) : State :=
  { s with hpc := .idle, hsub := .off, hmic := 0, regs := { s.regs with result := result } }

/-! ### The register file (10_state.md section 5, 41_register_bridge.md) -/

/-- The value a read of a register returns; no read has a side effect (41 R180, 20_memory.md R92). -/
def regRead (r : RegName) (s : State) : Word :=
  match r with
  | .ctrl => s.regs.ctrl
  | .maccfg => s.regs.maccfg
  | .macaddrLo => s.regs.macLo
  | .macaddrHi => s.regs.macHi
  | .filter => s.regs.filter
  | .mdioCtrl => s.regs.mdioCtrl
  | .mdioData => s.regs.mdioData
  | .intEn => s.regs.intEn
  | .intStatus => s.regs.intStatus
  | .rxBase => s.regs.rxBase
  | .txBase => s.regs.txBase
  | .txDoorbell => 0
  | .diag => s.regs.diag
  | .link => boolResult (decide (s.link = .up))
  | .cntSent => counterWord s.nsent
  | .cntSentBytes => counterWord s.nsentBytes
  | .cntRecv => counterWord s.nrecv
  | .cntDrop => counterWord s.ndrop
  | .cntErr => counterWord s.nerr
  | .phyId => s.phyId
  | .cmd => 0
  | .argBuf => s.regs.argBuf
  | .argLen => s.regs.argLen
  | .result => s.regs.result
  | .reserved => 0

/-- RXDMA after RXEN goes from `old` to `new` (43_ring_ownership.md R244). -/
def rxEnableEdge (old new : Bool) (r : RxDma) : RxDma :=
  if !old && new then ⟨.running, 0, none⟩
  else if old && !new && r.job.isNone then { r with run := .stopped } else r

/-- TXDMA after TXEN goes from `old` to `new` (43_ring_ownership.md R252). -/
def txEnableEdge (old new : Bool) (t : TxDma) : TxDma :=
  if !old && new then ⟨.running, 0, none⟩
  else if old && !new && t.job.isNone then { t with st := .stopped } else t

/-- A write of CTRL: a reset request alone where bit 0 is set, else the enables and the engines they start or stop
(10_state.md R36, 41 R183). -/
def ctrlWrite (v : Word) (s : State) : State :=
  if swrstBit v then { s with regs := { s.regs with ctrl := s.regs.ctrl ||| 0x1 } }
  else
    { s with
      regs := { s.regs with ctrl := (s.regs.ctrl &&& 0x1) ||| (v &&& 0x6) }
      rx := rxEnableEdge (rxenBit s.regs.ctrl) (rxenBit v) s.rx
      tx := txEnableEdge (txenBit s.regs.ctrl) (txenBit v) s.tx }

/-- A write of TX_DOORBELL (10_state.md R45, 43_ring_ownership.md R253). -/
def doorbell (s : State) : State :=
  if s.tx.st = .suspended then { s with tx := { s.tx with st := .running } } else s

/-- The effect of a register write, whoever makes it, in one micro-step (41 R181, R183). -/
def regWrite (r : RegName) (v : Word) (s : State) : Out :=
  match r with
  | .ctrl => .next (ctrlWrite v s)
  | .maccfg => .next { s with regs := { s.regs with maccfg := v &&& maccfgMask } }
  | .macaddrLo => .next { s with regs := { s.regs with macLo := v } }
  | .macaddrHi => .next { s with regs := { s.regs with macHi := v &&& macHiMask } }
  | .filter => .next { s with regs := { s.regs with filter := v &&& filterMask } }
  | .mdioCtrl =>
    if busyBit s.regs.mdioCtrl then .refused .mdioWriteWhileBusy
    else .next { s with regs := { s.regs with mdioCtrl := v &&& mdioCtrlMask } }
  | .mdioData => .next { s with regs := { s.regs with mdioData := v &&& mdioDataMask } }
  | .intEn => .next { s with regs := { s.regs with intEn := v &&& intMask } }
  | .intStatus => .next { s with regs := { s.regs with intStatus := clearOnes s.regs.intStatus v } }
  | .rxBase =>
    if rxenBit s.regs.ctrl then .fault .baseWriteWhileEnabled
    else .next { s with regs := { s.regs with rxBase := v &&& baseMask } }
  | .txBase =>
    if txenBit s.regs.ctrl then .fault .baseWriteWhileEnabled
    else .next { s with regs := { s.regs with txBase := v &&& baseMask } }
  | .txDoorbell => .next (doorbell s)
  | .diag => .next { s with regs := { s.regs with diag := clearOnes s.regs.diag v } }
  | .link => .next s
  | .cntSent => .next s
  | .cntSentBytes => .next s
  | .cntRecv => .next s
  | .cntDrop => .next s
  | .cntErr => .next s
  | .phyId => .next s
  | .cmd => commandWrite v s
  | .argBuf => .next { s with regs := { s.regs with argBuf := v } }
  | .argLen => .next { s with regs := { s.regs with argLen := v } }
  | .result => .next s
  | .reserved => .next s

/-- A register read by a context: an ordering point (20_memory.md R100). -/
def ctxRegRead (c : Ctx) (r : RegName) (s : State) : Word × State := (regRead r s, flush c s)

/-- A register write by a context: an ordering point (20_memory.md R100). -/
def ctxRegWrite (c : Ctx) (r : RegName) (v : Word) (s : State) : Out := regWrite r v (flush c s)

/-- RXDMA sets a status bit (10_state.md R43). -/
def setIntStatus (bits : Word) (s : State) : State :=
  { s with regs := { s.regs with intStatus := s.regs.intStatus ||| bits } }

/-- `MAC.RESET`, the one step of MACRST (41_register_bridge.md R188). -/
def macReset (s : State) : State :=
  { s with
    rx := ⟨.stopped, 0, none⟩
    tx := ⟨.stopped, 0, none⟩
    regs := { Regs.zero with
      diag := s.regs.diag, argBuf := s.regs.argBuf, argLen := s.regs.argLen, result := s.regs.result } }

/-! ### The PHY's registers (42_mdio_phy_bridge.md R216, R217) -/

/-- The place of a PHY register in the list's order. -/
def phyKey (pa ra : BitVec 5) : Nat := 32 * pa.toNat + ra.toNat

/-- The register's entry, where something has set it since power-on. -/
def Phy.get : List PhyCell → BitVec 5 → BitVec 5 → Option Half
  | [], _, _ => none
  | c :: t, pa, ra => if c.pa = pa ∧ c.ra = ra then some c.v else Phy.get t pa ra

/-- The list with the register set, in rising order of place. -/
def Phy.set : List PhyCell → BitVec 5 → BitVec 5 → Half → List PhyCell
  | [], pa, ra, v => [⟨pa, ra, v⟩]
  | c :: t, pa, ra, v =>
    if phyKey pa ra < phyKey c.pa c.ra then ⟨pa, ra, v⟩ :: c :: t
    else if phyKey pa ra = phyKey c.pa c.ra then ⟨pa, ra, v⟩ :: t
    else c :: Phy.set t pa ra v

/-- `PhyRead(pa, ra)` (R216): the current value; the power-on value is free (log 7). -/
def phyRead (s : State) (pa ra : BitVec 5) : Half := (Phy.get s.phy pa ra).getD (Config.phyPowerOn pa ra)

/-- The PHY sets one of its registers (R216). -/
def phyPut (pa ra : BitVec 5) (v : Half) (s : State) : State := { s with phy := Phy.set s.phy pa ra v }

/-- `PhyWrite(pa, ra, v)`: logged (R216); `MOCK_PHY` stores it, its reset bit reading back 0 (R217). -/
def phyWrite (pa ra : BitVec 5) (v : Half) (s : State) : State :=
  let logged := { s with phyLog := s.phyLog ++ [⟨pa, ra, v⟩] }
  match s.cfg.phyKind with
  | .anyPhy => logged
  | .mockPhy => phyPut pa ra (if ra = s.cfg.regBcr then v &&& ~~~s.cfg.bcrReset else v) logged

/-! ### Free values (93_implementation_defined.md U15, log 11) -/

/-- The next free byte. -/
def freeByte (s : State) : Byte := Config.freeByte s.freeCtr

/-- One more free byte has been drawn. -/
def drawn (s : State) : State := { s with freeCtr := s.freeCtr + 1 }

/-- The index after `i` in a ring (00_scope.md R17 (a)). -/
def nextIdx (s : State) (i : Nat) : Nat := (i + 1) % s.cfg.n

end Sys2Proof.Machine
end

