-- ==== Sys2Proof/Machine/Divider.lean ====
section
/-! DEFINITION. Machine/Divider.lean: the MDC divider selector (47_mdc_divider.md). -/

namespace Sys2Proof.Machine

/-- `SLOWEST`: the code of the last entry (R335). -/
def slowestCode (c : Cfg) : BitVec 4 := (c.mdcTable.getLast?.map Prod.snd).getD 0

/-- The divisor's test, exact in the naturals (R333). -/
def divisorOk (c : Cfg) (busHz : Nat) (e : Nat × BitVec 4) : Bool := decide (busHz ≤ c.mdcCeilingHz * e.1)

/-- `MDCSEL(override, bus_hz)` (R330 to R335): the code, and the event where one is raised. -/
def mdcSel (c : Cfg) : BitVec 4 × Option Event :=
  match c.mdcOverride with
  | some code => (code, none)
  | none =>
    match c.busHz with
    | none => (slowestCode c, some .mdcClkLow)
    | some hz =>
      if hz < c.busMinHz then (slowestCode c, some .mdcClkLow)
      else
        match c.mdcTable.find? (divisorOk c hz) with
        | some e => (e.2, none)
        | none => (slowestCode c, some .mdcClkHigh)

/-- An event that may have been raised. -/
def raiseOpt (e : Option Event) (s : State) : State :=
  match e with
  | some e => raise e s
  | none => s

/-- The divisor a code selects: its entry of MDC_TABLE; a code in no entry has no stated divisor
(42_mdio_phy_bridge.md R214, 93_implementation_defined.md U9). No step depends on it. -/
def mdcDivisor (c : Cfg) (code : BitVec 4) : Option Nat :=
  (c.mdcTable.find? fun e => decide (e.2 = code)).map Prod.fst

end Sys2Proof.Machine
end

