-- ==== Sys2Proof/Machine/Mdio.lean ====
section
/-! DEFINITION. Machine/Mdio.lean: the MDIO/PHY bridge (42_mdio_phy_bridge.md): the procedures HOST runs, the
transaction controller, PHY identification, and the two instructions of the controller. -/

namespace Sys2Proof.Machine

/-- The register of the vendor's speed row (46_link_reconciler.md R315). -/
def speedRow (c : Cfg) : Vendor → SpeedRow
  | .genericClone => c.speedGeneric
  | .kszx08x => c.speedKsz
  | .dp8382x => c.speedDp

/-- The register number the procedure called at the present label works on (40 R169, 42 R219, R220, 46 R311, R315).
The PHY address is always `cfg.phy_addr`. -/
def mdioReg (s : State) : BitVec 5 :=
  match s.hpc with
  | .n4 => s.cfg.regBcr
  | .n5 => if s.hmic ≤ 1 then s.cfg.regId1 else s.cfg.regId2
  | .u0 => s.cfg.regBsr
  | .u2 => (speedRow s.cfg s.vendor).reg
  | _ => 0

/-- HOST calls a procedure: `hsub` takes its first label, `h.k <- 0`, `hpc` keeps the label to return to
(10_state.md R31, 42 R202). -/
def callSub (l : SubLabel) (mic : Nat) (s : State) : State :=
  { s with hsub := l, hmic := mic, h := s.h.noPolls }

/-- The timeout of either procedure (R211). -/
def mdioTimeout (s : State) : State :=
  let s := raise .phyTimeout s
  { s with hsub := .off, h := { s.h with ok := false } }

/-- One pass of a bounded wait for BUSY = 0 (R202, R204): on success `hsub` goes to `done`. The wait ends after MDIO_BUDGET
unsuccessful passes, whatever the budget (46_link_reconciler.md R325, log 23). -/
def mdioPoll (done : SubLabel) (s : State) : State :=
  let (c, s) := ctxRegRead .host .mdioCtrl s
  let s := { s with h := { s.h with c := c } }
  if busyBit c then
    let s := { s with h := s.h.onePoll }
    if s.h.polls = s.cfg.mdioBudget then mdioTimeout s else s
  else { s with hsub := done }

/-- Step MR1 or MW2: the control word is written with the CR field just read back (R203, R209). -/
def mdioIssue (wr : Bool) (wait : SubLabel) (s : State) : Out :=
  andNext (ctxRegWrite .host .mdioCtrl (mdioWord s.cfg.phyAddr (mdioReg s) (crField s.h.c) wr) s) fun s =>
    { s with hsub := wait, h := s.h.noPolls }

/-- Step MR3: the datum is fetched and the procedure returns (R205). -/
def mdioFetch (s : State) : State :=
  let (d, s) := ctxRegRead .host .mdioData s
  { s with hsub := .off, h := { s.h with v := d.extractLsb' 0 16, ok := true } }

/-- Step MW1: the datum of `PHY.RESET` goes to MDIO_DATA (R208, R219). -/
def mdioPutData (s : State) : Out :=
  andNext (ctxRegWrite .host .mdioData (s.cfg.bcrReset.setWidth 32) s) fun s => { s with hsub := .mw2 }

/-- Step MW4: the write procedure returns (R210). -/
def mdioWriteDone (s : State) : State := { s with hsub := .off, h := { s.h with ok := true } }

/-- `classify(id)` (46_link_reconciler.md R316): the first row whose word is id[31:16]. The form of a replaced table is the
model's own choice (DESIGN CHOICE, log 30). -/
def classify (c : Cfg) (id : Word) : Vendor :=
  ((c.vendorTable.find? fun e => decide (e.1 = id.extractLsb' 16 16)).map Prod.snd).getD .genericClone

/-- The identity no PHY has: all zeros or all ones (R223). -/
def absentId (id : Word) : Bool := decide (id = 0) || decide (id = 0xFFFFFFFF)

/-- Step (3) of `PHY.IDENT` (R221 to R223). -/
def identify (s : State) : State :=
  let id := phyIdOf s.h.id1 s.h.id2
  let s := { s with phyId := id, vendor := classify s.cfg id, h := { s.h with ok := true } }
  if absentId id then raise .phyAbsent s else s

/-- BUSY is cleared; the other fields of MDIO_CTRL keep their values (R212). -/
def clearBusy (s : State) : State :=
  { s with regs := { s.regs with mdioCtrl := s.regs.mdioCtrl &&& 0xFFFFFFFE } }

/-- `MDIOC.XFER` of a read transaction (R212). -/
def xferRead (pa ra : BitVec 5) (s : State) : State :=
  clearBusy { s with regs := { s.regs with mdioData := (phyRead s pa ra).setWidth 32 } }

/-- `MDIOC.XFER` of a write transaction (R212). -/
def xferWrite (pa ra : BitVec 5) (s : State) : State :=
  clearBusy (phyWrite pa ra (s.regs.mdioData.extractLsb' 0 16) s)

/-- A transaction's control word is presented (R123 of 30_encoding.md) while the controller is free: it is written to
MDIO_CTRL. While this very transaction is in flight, MDIOC performs `xfer`. While another is, the word is a write of
MDIO_CTRL with BUSY = 1 (93_implementation_defined.md U5). Log 20. -/
def mdioTransaction (i : Instr) (word : Word) (xfer : State → State) (s : State) : Out :=
  if busyBit s.regs.mdioCtrl then
    if decodeMdioc s.regs.mdioCtrl = .ok i then .next (xfer s) else .refused .mdioWriteWhileBusy
  else regWrite .mdioCtrl word s

/-- `MDIO.RD` (R201, R203, R212). -/
def execMdioRd (pa ra : BitVec 5) (cr : BitVec 4) (s : State) : Out :=
  mdioTransaction (.mdioRd pa ra cr) (mdioWord pa ra cr false) (xferRead pa ra) s

/-- `MDIO.WR` (R206, R209, R212). -/
def execMdioWr (pa ra : BitVec 5) (cr : BitVec 4) (s : State) : Out :=
  mdioTransaction (.mdioWr pa ra cr) (mdioWord pa ra cr true) (xferWrite pa ra) s

end Sys2Proof.Machine
end

