-- ==== Sys2Proof/Machine/Ring.lean ====
section
/-! DEFINITION. Machine/Ring.lean: `RING.BUILD` (43_ring_ownership.md R238 to R240). -/

namespace Sys2Proof.Machine

/-- Which word of the descriptor a micro-step of B0 or B1 stores: +12, +8, +4, +0 in this order (R239). -/
def buildWordNo (mic : Nat) : Nat := 3 - mic

/-- The value stored to word `k` of a descriptor being built (R239). -/
def buildValue (k : Nat) (w0 buf : Word) : Word := if k = 0 then w0 else if k = 2 then buf else 0

/-- The place of the next store of B0 or B1: the next word, the next slot, or `done` after slot N-1 (R239). -/
def buildNext (done : SubLabel) (s : State) : State :=
  if s.hmic < 3 then { s with hmic := s.hmic + 1 }
  else if s.h.j.toNat + 1 < s.cfg.n then { s with hmic := 0, h := { s.h with j := s.h.j + 1 } }
  else { s with hmic := 0, hsub := done, h := { s.h with j := 0 } }

/-- One word store of B0 or B1 for slot `h.j` (R239). -/
def buildStep (base bufBase : Word) (w0 : Nat → Word) (done : SubLabel) (s : State) : State :=
  let j := s.h.j.toNat
  let k := buildWordNo s.hmic
  buildNext done
    (ctxStoreWord .host (descWord s.cfg base j k) (buildValue k (w0 j) (BitVec.ofNat 32 (slotBuf s.cfg bufBase j))) s)

/-- Step B0 (R239). -/
def buildRx (s : State) : State := buildStep s.cfg.rxdBase s.cfg.rxbufBase (builtRxW0 s.cfg.n) .b1 s

/-- Step B1 (R239). -/
def buildTx (s : State) : State := buildStep s.cfg.txdBase s.cfg.txbufBase (builtTxW0 s.cfg.n) .b2 s

/-- Step B2 (R240): the indices, then the `FENCE` and the return to `INIT`; from here on the rings exist (log 22). -/
def buildEnd (s : State) : State :=
  if s.hmic = 0 then { s with rxIdx := 0, txIdx := 0, hmic := 1 }
  else { fence .host s with hsub := .off, hmic := 3, ringsBuilt := true }

end Sys2Proof.Machine
end

