-- ==== Sys2Proof/Machine/Init.lean ====
section
/-! DEFINITION. Machine/Init.lean: `INIT` (40_driver_contract.md R165 to R173), and HOST's micro-step inside a
sub-procedure. -/

namespace Sys2Proof.Machine

/-- HOST goes to another label of its operation. -/
def goto (l : HostLabel) (s : State) : State := { s with hpc := l, hsub := .off, hmic := 0 }

/-- HOST's micro-step inside a sub-procedure (42_mdio_phy_bridge.md sections 2 and 3, 43_ring_ownership.md section 2). -/
def subStep (s : State) : Out :=
  match s.hsub with
  | .off => .next s
  | .mr0 => .next (mdioPoll .mr1 s)
  | .mr1 => mdioIssue false .mr2 s
  | .mr2 => .next (mdioPoll .mr3 s)
  | .mr3 => .next (mdioFetch s)
  | .mw0 => .next (mdioPoll .mw1 s)
  | .mw1 => mdioPutData s
  | .mw2 => mdioIssue true .mw3 s
  | .mw3 => .next (mdioPoll .mw4 s)
  | .mw4 => .next (mdioWriteDone s)
  | .b0 => .next (buildRx s)
  | .b1 => .next (buildTx s)
  | .b2 => .next (buildEnd s)

/-- Step N0, reset request (R166). -/
def initN0 (s : State) : Out :=
  andNext (ctxRegWrite .host .ctrl 0x1 { s with initialized := false }) fun s =>
    goto .n1 { s with h := s.h.noPolls }

/-- Step N1, one poll of the reset's completion (R167). -/
def initN1 (s : State) : State :=
  let (c, s) := ctxRegRead .host .ctrl s
  let s := { s with h := { s.h with c := c } }
  if swrstBit c then
    let s := { s with h := s.h.onePoll }
    if s.h.polls = s.cfg.resetBudget then finish 0 (raise .macResetTimeout s) else s
  else goto .n2 s

/-- Step N2, the divider is selected (R168). -/
def initN2 (s : State) : State :=
  let r := mdcSel s.cfg
  goto .n3 (raiseOpt r.2 { s with h := { s.h with code := r.1 } })

/-- Step N3, the divider is programmed (R168). -/
def initN3 (s : State) : Out :=
  andNext (ctxRegWrite .host .mdioCtrl (s.h.code.setWidth 32 <<< 4) s) (goto .n4)

/-- Step N4, `PHY.RESET`: the call, then the test of `h.ok` (R169). -/
def initN4 (s : State) : State :=
  if s.hmic = 0 then callSub .mw0 1 s
  else if s.h.ok then goto .n5 s else finish 0 s

/-- Step N5, `PHY.IDENT` (R169, 42_mdio_phy_bridge.md R220): two reads, each with its test, then the identification. -/
def initN5 (s : State) : State :=
  match s.hmic with
  | 0 => callSub .mr0 1 s
  | 1 => if s.h.ok then { s with hmic := 2, h := { s.h with id1 := s.h.v } } else finish 0 s
  | 2 => callSub .mr0 3 s
  | 3 => if s.h.ok then { s with hmic := 4, h := { s.h with id2 := s.h.v } } else finish 0 s
  | _ => goto .n6 (identify s)

/-- Step N6: the ring bases, then `RING.BUILD` (R170). -/
def initN6 (s : State) : Out :=
  match s.hmic with
  | 0 => andNext (ctxRegWrite .host .rxBase s.cfg.rxdBase s) fun s => { s with hmic := 1 }
  | 1 => andNext (ctxRegWrite .host .txBase s.cfg.txdBase s) fun s => { s with hmic := 2 }
  | 2 => .next { s with hsub := .b0, hmic := 0, h := { s.h with j := 0 } }
  | _ => .next (goto .n7 s)

/-- Step N7: station address and filter (R170, 30_encoding.md R132). -/
def initN7 (s : State) : Out :=
  match s.hmic with
  | 0 => andNext (ctxRegWrite .host .macaddrLo (macLoOf s.cfg.mac) s) fun s => { s with hmic := 1 }
  | 1 => andNext (ctxRegWrite .host .macaddrHi (macHiOf s.cfg.mac) s) fun s => { s with hmic := 2 }
  | _ => andNext (ctxRegWrite .host .filter 0x2 s) (goto .n8)

/-- HOST's micro-step at a label of `INIT`, outside a sub-procedure (R166 to R173). -/
def initLabel (s : State) : Out :=
  match s.hpc with
  | .n0 => initN0 s
  | .n1 => .next (initN1 s)
  | .n2 => .next (initN2 s)
  | .n3 => initN3 s
  | .n4 => .next (initN4 s)
  | .n5 => .next (initN5 s)
  | .n6 => initN6 s
  | .n7 => initN7 s
  | .n8 => .next (goto .n9 { s with link := .down })
  | .n9 => .next (goto .n10 { s with initialized := true })
  | .n10 => andNext (ctxRegWrite .host .ctrl 0x6 s) (goto .n11)
  | .n11 => andNext (ctxRegWrite .host .intEn 0x1 s) (goto .n12)
  | .n12 => .next (finish 1 s)
  | _ => .refused .commandWhileBusy

/-- HOST takes a micro-step of its operation: none while `in_isr` (00_scope.md R13), inside a sub-procedure that
procedure's, else the label's. -/
def hostStep (label : State → Out) (s : State) : Out :=
  if s.inIsr then .next s else if s.hsub = .off then label s else subStep s

/-- The operation a label of `hpc` belongs to (10_state.md R31). -/
def opOf : HostLabel → Option Instr
  | .idle => none
  | .n0 | .n1 | .n2 | .n3 | .n4 | .n5 | .n6 | .n7 | .n8 | .n9 | .n10 | .n11 | .n12 => some .init
  | .t0 | .t1 | .t2 | .t3 | .t4 | .t5 | .t6 | .t7 | .t8 => some .tx
  | .u0 | .u1 | .u2 | .u3 | .u4 | .u5 | .u6 => some .up

/-- A contract operation's meaning: its start while HOST is Idle (R161), its next micro-step while HOST is inside it,
and a refusal while HOST is inside another (R162). Log 2. -/
def contractOp (op : Instr) (needsInit : Bool) (first : HostLabel) (label : State → Out) (s : State) : Out :=
  match opOf s.hpc with
  | none => startCommand needsInit first s
  | some i => if i = op then hostStep label s else .refused .commandWhileBusy

/-- `INIT` (R165). -/
def execInit (s : State) : Out := contractOp .init false .n0 initLabel s

end Sys2Proof.Machine
end

