-- ==== Sys2Proof/Machine/LinkReconciler.lean ====
section
/-! DEFINITION. Machine/LinkReconciler.lean: `UP` and `LINK.RECONCILE` (46_link_reconciler.md). -/

namespace Sys2Proof.Machine

/-- The speed a vendor's row reads from its register: 100 Mbit/s or not (R317 to R319). One mask and value, possibly negated,
is the form this model gives a row (DESIGN CHOICE, log 30). -/
def decodeSpeed (r : SpeedRow) (v : Half) : Bool := (v &&& r.spdMask == r.spdVal) != r.spdNeg

/-- The duplex a vendor's row reads from its register: full or not (R317 to R319). One mask, not negated, is the form this
model gives a row (DESIGN CHOICE, log 30). -/
def decodeDuplex (r : SpeedRow) (v : Half) : Bool := v &&& r.dupMask != 0

/-- Step U0: the status poll, then the test of `h.ok` (R311). -/
def upU0 (s : State) : State :=
  if s.hmic = 0 then callSub .mr0 1 s
  else if s.h.ok then goto .u1 s else finish 0 { s with link := .down }

/-- Step U1, the decision (R312, R314). -/
def upU1 (s : State) : State :=
  let up := s.h.v.getLsbD s.cfg.bsrLink.toNat
  let s := { s with h := { s.h with up := up } }
  if !up then finish 0 { s with link := .down }
  else if s.link = .up then finish 1 s else goto .u2 s

/-- Step U2: the vendor register is read, then the test of `h.ok`; `link` stays Down on a timeout (R315). -/
def upU2 (s : State) : State :=
  if s.hmic = 0 then callSub .mr0 1 s
  else if s.h.ok then goto .u3 s else finish 0 s

/-- Step U3: speed and duplex by the vendor's rule (R315). -/
def upU3 (s : State) : State :=
  let r := speedRow s.cfg s.vendor
  goto .u4 { s with h := { s.h with spd := decodeSpeed r s.h.v, dup := decodeDuplex r s.h.v } }

/-- Step U4: MACCFG is read (R320). -/
def upU4 (s : State) : State :=
  let (c, s) := ctxRegRead .host .maccfg s
  goto .u5 { s with h := { s.h with c := c } }

/-- The word step U5 writes to MACCFG (R320). -/
def maccfgWord (s : State) : Word :=
  (s.h.c &&& 0xFFFFFFFC) ||| (flagWord s.h.spd 1 ||| flagWord s.h.dup 2)

/-- HOST's micro-step at a label of `UP` (R311 to R320). -/
def upLabel (s : State) : Out :=
  match s.hpc with
  | .u0 => .next (upU0 s)
  | .u1 => .next (upU1 s)
  | .u2 => .next (upU2 s)
  | .u3 => .next (upU3 s)
  | .u4 => .next (upU4 s)
  | .u5 => andNext (ctxRegWrite .host .maccfg (maccfgWord s) s) (goto .u6)
  | .u6 => .next (finish 1 { s with link := .up })
  | _ => .refused .commandWhileBusy

/-- `UP` (R310). -/
def execUp (s : State) : Out := contractOp .up true .u0 upLabel s

end Sys2Proof.Machine
end

