-- ==== Sys2Proof/Machine/Receive.lean ====
section
/-! DEFINITION. Machine/Receive.lean: `RXIRQ` (45_receive_irq.md R290 to R304). -/

namespace Sys2Proof.Machine

/-- Word `k` of the RX descriptor at the read index. -/
def rxSlot (s : State) (k : Nat) : Nat := rxd s s.rxIdx k

/-- A slot access of `RXIRQ`, which needs the descriptor software-owned (93_implementation_defined.md U3, log 9). -/
def rxOwned (f : State → Out) (s : State) : Out :=
  if hwOwns s (rxSlot s 0) then .fault .ownershipViolation else f s

/-- ISR goes to another label. -/
def igoto (l : IsrLabel) (s : State) : State := { s with ipc := l, imic := 0 }

/-- Step I0, the entry snapshot (R291). -/
def isrI0 (s : State) : State :=
  let (v, s) := ctxRegRead .isr .intStatus s
  igoto .i1 { s with i := { s.i with snap := v, iter := 0, iterWraps := 0, cap := false } }

/-- Step I1: the cap test, then the ownership test (R292). -/
def isrI1 (s : State) : State :=
  if s.imic = 0 then
    if s.i.iterations = s.cfg.rxLoopCap then igoto .i7 { s with i := { s.i with cap := true } }
    else { s with imic := 1 }
  else
    let s := settleAddrs .isr (wordAddrs (rxSlot s 0)) s
    let w0 := s.wordAt (rxSlot s 0)
    let s := { s with i := { s.i with w0 := w0 } }
    if ownBit w0 then igoto .i7 s else igoto .i2 s

/-- Step I3, fetch (R294): two loads, whose values step I4 needs where it delivers. -/
def isrI3 (s : State) : State :=
  if s.imic = 0 then { issue .isr (.load (rxSlot s 1) .isrLen) s with imic := 1 }
  else igoto .i4 (issue .isr (.load (rxSlot s 2) .isrBufp) s)

/-- The two loads of step I3 are performed. -/
def awaitFetch (s : State) : State := settleReg .isr .isrBufp (settleReg .isr .isrLen s)

/-- `deliver(i.bufp, i.len)`: the bytes as they are in memory now (R296). -/
def deliver (s : State) : State :=
  { s with deliverLog := s.deliverLog ++ [s.bytesAt s.i.bufp s.i.len.toNat] }

/-- Step I4 (R295 to R297): a good frame is delivered, which is one micro-step (R304), and then counted, which is
another (10_state.md R22); any other frame is dropped, one micro-step. -/
def isrI4 (s : State) : Out :=
  if s.imic = 0 then
    rxOwned (fun s =>
      if goodFrame s.i.w0 then .next { deliver (awaitFetch s) with imic := 1 }
      else .next (igoto .i5 (raise .rxBadFrame { s with ndrop := counterAdd s.cfg s.ndrop 1 }))) s
  else .next (igoto .i5 { s with nrecv := counterAdd s.cfg s.nrecv 1 })

/-- Step I5: LEN cleared, `FENCE`, ownership handed back (R298). -/
def isrI5 (s : State) : Out :=
  match s.imic with
  | 0 => rxOwned (fun s => .next { ctxStoreWord .isr (rxSlot s 1) 0 s with imic := 1 }) s
  | 1 => .next { fence .isr s with imic := 2 }
  | _ => rxOwned (fun s => .next (igoto .i6 (ctxStoreWord .isr (rxSlot s 0) (rearmWord s.i.w0) s))) s

/-- Step I6, advance (R299). -/
def isrI6 (s : State) : State :=
  igoto .i1 { s with rxIdx := nextIdx s s.rxIdx, i := s.i.oneIteration }

/-- What step I7 writes to INT_STATUS (R300). -/
def isrClearWord (s : State) : Word := if s.i.cap then s.i.snap &&& 0xFFFFFFFE else s.i.snap

/-- ISR's micro-step at its label (R291 to R301). -/
def isrLabel (s : State) : Out :=
  match s.ipc with
  | .idle => .next s
  | .i0 => .next (isrI0 s)
  | .i1 => .next (isrI1 s)
  | .i2 => .next (igoto .i3 (fence .isr s))
  | .i3 => rxOwned (fun s => .next (isrI3 s)) s
  | .i4 => isrI4 s
  | .i5 => isrI5 s
  | .i6 => .next (isrI6 s)
  | .i7 => andNext (ctxRegWrite .isr .intStatus (isrClearWord s) s) (igoto .i8)
  | .i8 => .next (returnInterrupt s)

/-- The handler's meaning: the entry where its cause is asserted and ISR is not inside it (60_exceptions.md R352, R354),
the next micro-step where ISR is. Where the cause is not asserted ISR has no enabled step. -/
def handler (asserted : Bool) (s : State) : Out :=
  if s.inIsr then isrLabel s else if asserted then .next (takeInterrupt s) else .next s

/-- `RXIRQ`, selected by a cause with bit 0 set (R290). Cause bit 1 selects nothing more: one handler, one priority
(30_encoding.md R130). -/
def execRxirq (rbu : Bool) (s : State) : Out :=
  handler (decide (decodeIrq s.cause = .ok (.rxirq rbu))) s

/-- `RXIRQ.RBU`: the same handler, entered on RBU alone (R290, R303). -/
def execRxirqRbu (s : State) : Out := handler (decide (decodeIrq s.cause = .ok .rxirqRbu)) s

end Sys2Proof.Machine
end

