-- ==== Sys2Proof/Machine/Transmit.lean ====
section
/-! DEFINITION. Machine/Transmit.lean: `TX` (44_transmit.md R270 to R284). -/

namespace Sys2Proof.Machine

/-- Word `k` of the TX descriptor at the write index. -/
def txSlot (s : State) (k : Nat) : Nat := txd s s.txIdx k

/-- A slot access of `TX`, which needs the descriptor software-owned (93_implementation_defined.md U3, log 9). -/
def txOwned (f : State → Out) (s : State) : Out :=
  if hwOwns s (txSlot s 0) then .fault .ownershipViolation else f s

/-- Step T0, third micro-step: the ring-full test (R272). The load that tests ownership is an acquire and its value decides
the step, so it is performed here (20_memory.md R102, log 8). -/
def txRingTest (s : State) : State :=
  let s := settleAddrs .host (wordAddrs (txSlot s 0)) s
  let w0 := s.wordAt (txSlot s 0)
  let s := { s with h := { s.h with w0 := w0 } }
  if ownBit w0 then finish 0 (raise .ringFull s) else goto .t1 s

/-- Step T0 (R271, R272). -/
def txT0 (s : State) : State :=
  match s.hmic with
  | 0 =>
    let (b, s) := ctxRegRead .host .argBuf s
    { s with hmic := 1, h := { s.h with buf := b } }
  | 1 =>
    let (n, s) := ctxRegRead .host .argLen s
    { s with hmic := 2, h := { s.h with len := n } }
  | _ => txRingTest s

/-- Step T1, the length test on the whole 32-bit value (R273). -/
def txT1 (s : State) : State :=
  if s.h.len.toNat > s.cfg.bufSize then finish 0 (raise .oversize { s with nerr := counterAdd s.cfg s.nerr 1 })
  else goto .t2 s

/-- The address of the byte of the caller's frame at offset `h.j`. -/
def txSource (s : State) : Nat := addrAt s.cfg s.h.buf s.h.j.toNat

/-- The address of the byte of the slot's buffer at offset `h.j`. -/
def txDest (s : State) : Nat := addrAt s.cfg s.h.bufp s.h.j.toNat

/-- The read of one byte of the caller's frame (R274). A byte of a descriptor, or of a buffer the hardware owns, is an
ownership violation (93_implementation_defined.md U15, U3); one of a TX buffer, or one UPPER has written since `TX`
started, is a free value (R284, U15, log 11). -/
def txReadByte (s : State) : Out :=
  let a := txSource s
  let p := placeOf s.cfg a
  if p.isDesc || placeHwOwned s p then .fault .ownershipViolation
  else if p.isTxBuf || s.dirty.contains a then
    .next (drawn { s with hmic := 2, h := { s.h with byte := freeByte s } })
  else .next { issue .host (.load a .hostByte) s with hmic := 2 }

/-- The load of a caller's byte becomes, with the store of that byte to `dst`, a copy. -/
def Pending.withStore (dst : Nat) : Pending → Pending
  | .load a .hostByte => .copy a dst
  | p => p

/-- The write of one byte to the slot's buffer (R274): with the pending load of the byte where it is not performed yet, so
that neither waits for the other accesses (20_memory.md R96). The buffer pointer is needed first. -/
def txWriteByte (s : State) : State :=
  let s := settleReg .host .hostBufp s
  if s.hostBuf.any fun p => decide (p.fills = some .hostByte) then
    { s with hostBuf := s.hostBuf.map (Pending.withStore (txDest s)) }
  else ctxStoreByte .host (txDest s) s.h.byte s

/-- HOST goes on with a byte of the copy: its read, or with `mic` 2 its write, is next. -/
def copyAt (mic : Nat) (j : Word) (s : State) : State := { s with hmic := mic, h := { s.h with j := j } }

/-- Step T2, the copy (R274): the buffer pointer, then for each offset a read and a write. -/
def txT2 (s : State) : Out :=
  match s.hmic with
  | 0 => txOwned (fun s => .next (copyAt 1 0 (issue .host (.load (txSlot s 2) .hostBufp) s))) s
  | 1 => if s.h.j.toNat < s.h.len.toNat then txReadByte s else .next (goto .t3 s)
  | _ => txOwned (fun s => .next (copyAt 1 (s.h.j + 1) (txWriteByte s))) s

/-- Step T7: `FENCE`, then the doorbell (R278). -/
def txT7 (s : State) : Out :=
  match s.hmic with
  | 0 => .next { fence .host s with hmic := 1 }
  | _ => andNext (ctxRegWrite .host .txDoorbell 0x1 s) (goto .t8)

/-- Step T8: index, counters and result in one micro-step (R279, R280). -/
def txT8 (s : State) : State :=
  finish s.h.len
    { s with
      txIdx := nextIdx s s.txIdx
      nsent := counterAdd s.cfg s.nsent 1
      nsentBytes := counterAdd s.cfg s.nsentBytes s.h.len.toNat }

/-- HOST's micro-step at a label of `TX` (R271 to R280). -/
def txLabel (s : State) : Out :=
  match s.hpc with
  | .t0 => .next (txT0 s)
  | .t1 => .next (txT1 s)
  | .t2 => txT2 s
  | .t3 => txOwned (fun s => .next (goto .t4 (ctxStoreWord .host (txSlot s 1) s.h.len s))) s
  | .t4 => txOwned (fun s => .next (goto .t5 (ctxStoreWord .host (txSlot s 0) (txFlagsWord s.h.w0) s))) s
  | .t5 => .next (goto .t6 (fence .host s))
  | .t6 => txOwned (fun s => .next (goto .t7 (ctxStoreWord .host (txSlot s 0) (txOwnWord s.h.w0) s))) s
  | .t7 => txT7 s
  | .t8 => .next (txT8 s)
  | _ => .refused .commandWhileBusy

/-- `TX` (R270). -/
def execTx (s : State) : Out := contractOp .tx true .t0 txLabel s

end Sys2Proof.Machine
end

