-- ==== Sys2Proof/Machine/RxEngine.lean ====
section
/-! DEFINITION. Machine/RxEngine.lean: the receive engine (43_ring_ownership.md R243 to R251). -/

namespace Sys2Proof.Machine

/-- The six bytes the address registers hold (43_ring_ownership.md R247, 30_encoding.md R132). -/
def stationAddr (s : State) : List Byte := leBytes s.regs.macLo ++ (leBytes s.regs.macHi).take 2

/-- The address filter (R247). -/
def accepts (s : State) (f : Frame) : Bool :=
  let d := f.bytes.take 6
  promiscBit s.regs.filter || decide (d = stationAddr s)
    || (bcastBit s.regs.filter && decide (d = List.replicate 6 0xFF))
    || (mcastBit s.regs.filter && ((d.headD 0).getLsbD 0))

/-- The job of a frame that has just arrived (R246). -/
def newRxJob (f : Frame) : RxJob := ⟨f, 0, true, .qr1, 0, 0, 0, []⟩

/-- Phase QR0: WIRE offers a frame (R246, R244; the environment's constraints are 93_implementation_defined.md U19). -/
def frameArrives (f : Frame) (s : State) : Out :=
  if f.bytes.length < 14 ∨ s.cfg.maxWireLen < f.bytes.length then .refused .wireFrameLength
  else if s.rx.job.isSome then .refused .wireBusy
  else if s.rx.run = .stopped then .next s
  else if accepts s f then .next { s with rx := { s.rx with job := some (newRxJob f) } }
  else .next s

/-- RXDMA goes on with a job. -/
def setRxJob (j : RxJob) (s : State) : State := { s with rx := { s.rx with job := some j } }

/-- A reception ends; an engine whose RXEN is 0 stops now (R244). -/
def endReception (s : State) : State :=
  { s with rx := { s.rx with job := none, run := if rxenBit s.regs.ctrl then s.rx.run else .stopped } }

/-- The bytes of the present segment: min(BUF_SIZE, L - off) (R250). -/
def segLen (s : State) (j : RxJob) : Nat := min s.cfg.bufSize (j.frame.bytes.length - j.off)

/-- The present segment is the frame's last (R250). -/
def segLast (s : State) (j : RxJob) : Bool := decide (j.off + segLen s j = j.frame.bytes.length)

/-- The word 0 phase QR4 stores (R250). -/
def segWord (s : State) (j : RxJob) : Word :=
  fillWord j.w0 j.first (segLast s j) j.frame.ce j.frame.le j.frame.ae

/-- Which of the byte stores left is made next (R250: "in any order"). -/
def pickOf (s : State) (todo : List Nat) : Nat := todo.getD (s.choice % todo.length) 0

/-- Phase QR2: the buffer pointer, then one byte a micro-step, in any order (R250). -/
def fillData (j : RxJob) (s : State) : State :=
  if j.mic = 0 then
    setRxJob { j with mic := 1, bufp := s.wordAt (engRxd s s.rx.idx 2), todo := List.range (segLen s j) } s
  else if j.todo.isEmpty then setRxJob { j with phase := .qr3, mic := 0 } s
  else
    let k := pickOf s j.todo
    let rest := j.todo.erase k
    let s := storeByte (addrAt s.cfg j.bufp k) (j.frame.bytes.getD (j.off + k) 0) s
    if rest.isEmpty then setRxJob { j with todo := rest, phase := .qr3, mic := 0 } s
    else setRxJob { j with todo := rest } s

/-- Phase QR3: the length (R250). -/
def fillLength (j : RxJob) (s : State) : State :=
  setRxJob { j with phase := .qr4, mic := 0 }
    (engineStoreWord (engRxd s s.rx.idx 1) (BitVec.ofNat 32 (segLen s j)) s)

/-- Phase QR4: the W0 store that hands the descriptor over, and the engine's position (R250). The store needs the
descriptor hardware-owned (93 U3); WRAP must be on descriptor N-1 and nowhere else (93 U4). After the last segment the
end of the reception is a micro-step of its own (R251, log 15). -/
def fillPublish (j : RxJob) (s : State) : Out :=
  let d := engRxd s s.rx.idx 0
  if !hwOwns s d then .fault .ownershipViolation
  else if wrapBit j.w0 ≠ decide (s.rx.idx + 1 = s.cfg.n) then .fault .wrapMisplaced
  else
    let last := segLast s j
    let j' : RxJob :=
      if last then { j with mic := 1, off := j.off + segLen s j, first := false }
      else { j with phase := .qr1, mic := 0, off := j.off + segLen s j, first := false }
    let s' := engineStoreWord d (segWord s j) s
    .next { s' with rx := { s'.rx with idx := if wrapBit j.w0 then 0 else s.rx.idx + 1, job := some j' } }

/-- The end of a reception that handed over a descriptor: RXC (R251). -/
def fillEnd (s : State) : State := endReception (setIntStatus rxcWord s)

/-- `RXDMA.FILL` (R250): the poll that selects it latches word 0 (R248); then the phases of the segment. -/
def execRxdmaFill (w0 : Word) (s : State) : Out :=
  match s.rx.job with
  | none => .next s
  | some j =>
    match j.phase with
    | .qr1 => .next (setRxJob { j with phase := .qr2, mic := 0, w0 := w0 } s)
    | .qr2 => .next (fillData j s)
    | .qr3 => .next (fillLength j s)
    | .qr4 => if j.mic = 0 then fillPublish j s else .next (fillEnd s)

/-- The overrun's effect (R249). -/
def overrun (j : RxJob) (s : State) : State :=
  let s := raise .rxOverrun { setIntStatus rbuWord s with ndrop := counterAdd s.cfg s.ndrop 1 }
  endReception (if j.first then s else setIntStatus rxcWord s)

/-- `RXDMA.MISS`, in the micro-step of the poll that selects it (R249). Its word's other bits are ignored. -/
def execRxdmaMiss (_w0 : Word) (s : State) : Out :=
  match s.rx.job with
  | none => .next s
  | some j => if j.phase = .qr1 then .next (overrun j s) else .next s

end Sys2Proof.Machine
end

