-- ==== Sys2Proof/Machine/TxEngine.lean ====
section
/-! DEFINITION. Machine/TxEngine.lean: the transmit engine (43_ring_ownership.md R252 to R259). -/

namespace Sys2Proof.Machine

/-- TXDMA goes on with a job. -/
def setTxJob (j : TxJob) (s : State) : State := { s with tx := { s.tx with job := some j } }

/-- TXDMA may poll: Running and no job (R254). -/
def txMayPoll (s : State) : Bool := decide (s.tx.st = .running) && s.tx.job.isNone

/-- The job of a descriptor that has just been polled (R254). -/
def newTxJob (w0 : Word) : TxJob := ⟨w0, 0, 0, [], [], .qt1, 0⟩

/-- Phase QT1: the length, the buffer pointer, then one byte a micro-step, in any order (R256). A length above BUF_SIZE
is 93_implementation_defined.md U7. -/
def sendFetch (j : TxJob) (s : State) : Out :=
  match j.mic with
  | 0 =>
    let n := (lenField (s.wordAt (engTxd s s.tx.idx 1))).toNat
    if s.cfg.bufSize < n then .fault .txDescriptorMalformed
    else .next (setTxJob { j with len := n, mic := 1 } s)
  | 1 =>
    .next (setTxJob
      { j with
        bufp := s.wordAt (engTxd s s.tx.idx 2), data := List.replicate j.len 0, todo := List.range j.len
        mic := 2, phase := if j.len = 0 then .qt2 else .qt1 } s)
  | _ =>
    if j.todo.isEmpty then .next (setTxJob { j with phase := .qt2 } s)
    else
    let k := pickOf s j.todo
    let rest := j.todo.erase k
    .next (setTxJob
      { j with
        data := j.data.set k (s.byteAt (addrAt s.cfg j.bufp k)), todo := rest
        phase := if rest.isEmpty then .qt2 else .qt1 } s)

/-- Phase QT2: the frame goes on the wire; a frame of no bytes does not (R258, R257). -/
def sendEmit (j : TxJob) (s : State) : State :=
  setTxJob { j with phase := .qt3 }
    (if j.len = 0 then s else { s with wireOut := s.wireOut ++ [⟨j.data, acBit j.w0⟩] })

/-- Phase QT3: the descriptor is released and the engine moves on; an engine whose TXEN is 0 stops now (R259, R252).
The store needs the descriptor hardware-owned (93 U3); WRAP must be on descriptor N-1 and nowhere else (93 U4). -/
def sendRelease (j : TxJob) (s : State) : Out :=
  let d := engTxd s s.tx.idx 0
  if !hwOwns s d then .fault .ownershipViolation
  else if wrapBit j.w0 ≠ decide (s.tx.idx + 1 = s.cfg.n) then .fault .wrapMisplaced
  else
    let s' := engineStoreWord d (releaseWord j.w0) s
    .next { s' with
      tx := ⟨if txenBit s.regs.ctrl then s.tx.st else .stopped, if wrapBit j.w0 then 0 else s.tx.idx + 1, none⟩ }

/-- `TXDMA.SEND` (R255): the poll that selects it latches word 0 (R254); then the phases. -/
def execTxdmaSend (w0 : Word) (s : State) : Out :=
  match s.tx.job with
  | none => if txMayPoll s then .next (setTxJob (newTxJob w0) s) else .next s
  | some j =>
    match j.phase with
    | .qt1 => sendFetch j s
    | .qt2 => .next (sendEmit j s)
    | .qt3 => sendRelease j s

/-- `TXDMA.PARK`, in the micro-step of the poll that selects it (R254). Its word's other bits are ignored. -/
def execTxdmaPark (_w0 : Word) (s : State) : Out :=
  if txMayPoll s then .next { s with tx := { s.tx with st := .suspended } } else .next s

end Sys2Proof.Machine
end

