-- ==== Sys2Proof/Machine/Fetch.lean ====
section
/-! DEFINITION. Machine/Fetch.lean: the environment's moves (00_scope.md R11), and what a move makes its agent run: the
selecting word read at the agent's port and decoded, or the instruction the agent is inside. -/

namespace Sys2Proof.Machine

/-! ### UPPER and system memory -/

/-- The rings are in use, so that UPPER has no business in them (93_implementation_defined.md U3): from the first completed
`RING.BUILD` on, whatever a later `INIT` does, and while an operation runs (log 22). -/
def ringsLive (s : State) : Bool := s.ringsBuilt || decide (s.hpc ≠ .idle)

/-- `TX` is running: UPPER must not write the caller's frame (44_transmit.md R284). -/
def txRunning (s : State) : Bool := decide (opOf s.hpc = some .tx)

/-- The offset of an address in the caller's frame, modulo 2^ADDR_W. -/
def frameOffset (s : State) (a : Nat) : Nat := addrSum s.cfg a (2 ^ s.cfg.addrW - s.h.buf.toNat % 2 ^ s.cfg.addrW)

/-- `TX` has issued the copy of the byte at this offset of the frame into the slot. -/
def byteCopied (s : State) (off : Nat) : Bool :=
  match s.hpc with
  | .t2 => decide (1 ≤ s.hmic) && decide (off < s.h.j.toNat)
  | .t3 | .t4 | .t5 | .t6 | .t7 | .t8 => decide (off < s.h.len.toNat)
  | _ => false

/-- `TX` has issued the read of the byte at this offset and not its write. -/
def byteInHand (s : State) (off : Nat) : Bool :=
  decide (s.hpc = .t2) && decide (2 ≤ s.hmic) && decide (off = s.h.j.toNat) && decide (off < s.h.len.toNat)

/-- The access stores a byte of a frame's copy to this address. -/
def Pending.storesByteAt (a : Nat) : Pending → Bool
  | .byte b _ => decide (b = a)
  | .copy _ b => decide (b = a)
  | _ => false

/-- The byte store to `d` that HOST has issued gets the value `v`: where it waits, or in memory. -/
def redraw (d : Nat) (v : Byte) (s : State) : State :=
  if s.hostBuf.any (Pending.storesByteAt d) then
    { s with hostBuf := s.hostBuf.map fun p => if p.storesByteAt d then .byte d v else p }
  else storeByte d v s

/-- TXDMA has put the frame that `TX` has just handed over on the wire: the hand-over store is performed, and the descriptor
is released or about to be. -/
def frameSent (s : State) : Bool :=
  let d := txSlot s 0
  !s.hostBuf.any (Pending.hits (wordAddrs d)) &&
    (!hwOwns s d ||
      match s.tx.job with
      | none => false
      | some j => decide (s.tx.idx = s.txIdx) && decide (j.phase = .qt3))

/-- The wire log with the byte at this offset of its last frame set to `v`. -/
def wireSetByte (off : Nat) (v : Byte) : List WireEntry → List WireEntry
  | [] => []
  | [e] => [{ e with bytes := e.bytes.set off v }]
  | e :: es => e :: wireSetByte off v es

/-- The byte at this offset that TXDMA has fetched from the slot `TX` has just handed over gets the value `v`. -/
def redrawFetched (off : Nat) (v : Byte) (s : State) : State :=
  match s.tx.job with
  | none => s
  | some j =>
    if s.tx.idx = s.txIdx ∧ j.phase ≠ .qt3 ∧ off ∉ j.todo then
      { s with tx := { s.tx with job := some { j with data := j.data.set off v } } }
    else s

/-- The byte at this offset of the frame handed over gets the value `v` in what TXDMA has of it: on the wire, or fetched. -/
def redrawHandedOver (sent : Bool) (off : Nat) (v : Byte) (s : State) : State :=
  if sent then { s with wireOut := wireSetByte off v s.wireOut } else redrawFetched off v s

/-- The byte at this offset that `TX` has copied is a free value: in the slot or on its way there, and where the slot has
been handed over, in what TXDMA has of it (log 11). -/
def redrawCopied (off : Nat) (s : State) : State :=
  let t := drawn (redraw (addrAt s.cfg s.h.bufp off) (freeByte s) s)
  if s.hpc = .t7 ∨ s.hpc = .t8 then drawn (redrawHandedOver (frameSent s) off (freeByte t) t) else t

/-- The byte `TX` has in hand, loaded or with its load pending, is a free value. -/
def redrawInHand (s : State) : State :=
  drawn { s with
    h := { s.h with byte := freeByte s }
    hostBuf := s.hostBuf.filter fun p => decide (p.fills ≠ some .hostByte) }

/-- UPPER has written `a` (44_transmit.md R284, 93_implementation_defined.md U15): while `TX` runs, the copy of a byte of its
frame that is written is a free value, whether it is copied later, is being copied, or has been copied (log 11). -/
def taint (a : Nat) (s : State) : State :=
  if txRunning s then
    let off := frameOffset s a
    let t := { s with dirty := a :: s.dirty }
    if byteCopied s off then redrawCopied off t else if byteInHand s off then redrawInHand t else t
  else s

/-- UPPER stores a byte. While the rings are in use a descriptor, or a buffer the hardware owns, is out of bounds
(20_memory.md R106, 93_implementation_defined.md U3). A store to the buffer of a slot that software owns, which only HOST
and ISR have business with (43_ring_ownership.md R232, 45_receive_irq.md R296, 60_exceptions.md R360), is a plain store:
the spec names no treatment for it (DESIGN CHOICE, log 29). -/
def upperStore (a : Nat) (v : Byte) (s : State) : Out :=
  let p := placeOf s.cfg a
  if ringsLive s && (p.isDesc || placeHwOwned s p) then .fault .ownershipViolation
  else .next (taint a (storeByte a v s))

/-- UPPER loads a byte. While the rings are in use a slot the hardware owns is out of bounds, but for word 0, which is
always allowed (20_memory.md R106). A load of the buffer or of the words W1 to W3 of a slot that software owns, at any time
and not only during `deliver` (60_exceptions.md R360), is a plain load (DESIGN CHOICE, log 29). -/
def upperLoad (a : Nat) (s : State) : Out :=
  let p := placeOf s.cfg a
  if ringsLive s && !p.isW0 && placeHwOwned s p then .fault .ownershipViolation
  else .next { s with memData := s.byteAt a }

/-! ### What a move runs -/

/-- What a move makes its agent do: run an instruction, or a step that no word selects (an environment event,
`MAC.RESET`, a pending access, or nothing where the agent has no enabled step). -/
inductive Fetched where
  | run (i : Instr) (s : State)
  | done (o : Out)

/-- ISR's instruction: inside an invocation the one its cause selected, outside it the one the cause now selects
(60_exceptions.md R352). -/
def fetchIsr (s : State) : Fetched :=
  if s.inIsr then
    match decodeIrq s.icause with
    | .ok i => .run i s
    | .bad _ => .done (isrLabel s)
  else
    match decodeIrq s.cause with
    | .ok i => .run i s
    | .bad _ => .done (.next s)

/-- RXDMA's instruction: at phase QR1 the one word 0 of the descriptor at its position selects, read afresh
(43_ring_ownership.md R248); in a later phase `RXDMA.FILL`. -/
def fetchRxdma (s : State) : Fetched :=
  match s.rx.job with
  | none => .done (.next s)
  | some j =>
    if j.phase = .qr1 then
      match decodeRdes (s.wordAt (engRxd s s.rx.idx 0)) with
      | .ok i => .run i s
      | .bad _ => .done (.next s)
    else .run (.rxdmaFill j.w0) s

/-- TXDMA's instruction: with no job and Running, the one word 0 of the descriptor at its position selects, read afresh
(43_ring_ownership.md R254); with a job, `TXDMA.SEND`. A word that selects none is 93_implementation_defined.md U7. -/
def fetchTxdma (s : State) : Fetched :=
  match s.tx.job with
  | some j => .run (.txdmaSend j.w0) s
  | none =>
    if txMayPoll s then
      match decodeTdes (s.wordAt (engTxd s s.tx.idx 0)) with
      | .ok i => .run i s
      | .bad _ => .done (.fault .txDescriptorMalformed)
    else .done (.next s)

/-- A command word UPPER writes to R[CMD]: the calling rule first (40_driver_contract.md R162), then the word. -/
def fetchCmd (w : Word) (s : State) : Fetched :=
  match commandGate s with
  | some r => .done (.refused r)
  | none =>
    match decodeCmd w with
    | .ok i => .run i s
    | .bad _ => .done (badCommand s)

/-- What one move runs. -/
def fetchMove (m : Move) (s : State) : Fetched :=
  match m with
  | .bus sel data =>
    match decodeBus sel data with
    | .ok i => .run i s
    | .bad _ => .done (.refused .misalignedSelector)
  | .cmd w => fetchCmd w s
  | .store a v => .done (upperStore (addrSum s.cfg a 0) v s)
  | .load a => .done (upperLoad (addrSum s.cfg a 0) s)
  | .wire f => .done (frameArrives f s)
  | .phy pa ra v => .done (.next (phyPut pa ra v s))
  | .host =>
    match opOf s.hpc with
    | some i => .run i s
    | none => .done (.next s)
  | .isr => fetchIsr s
  | .rxdma pick => fetchRxdma { s with choice := pick }
  | .txdma pick => fetchTxdma { s with choice := pick }
  | .mdioc =>
    match decodeMdioc s.regs.mdioCtrl with
    | .ok i => .run i s
    | .bad _ => .done (.next s)
  | .macrst => if swrstBit s.regs.ctrl then .done (.next (macReset s)) else .done (.next s)
  | .drainHost k => .done (.next (drain .host k s))
  | .drainIsr k => .done (.next (drain .isr k s))

/-- The next move, taken off the list. No move left: no agent acts. -/
def fetch (s : State) : Fetched :=
  match s.moves with
  | [] => .done (.next s)
  | m :: rest => fetchMove m { s with moves := rest }

/-- What a step answers in a configuration within its constraints; any other is refused
(93_implementation_defined.md U6, log 28). -/
def admitted (c : Cfg) (o : Out) : Out := if c.admissible then o else .refused .inadmissibleConfig

/-! ### An instruction placed where the next step fetches it (log 13) -/

/-- The state in which the next step finds the word presented at a port of this format. -/
def present (f : Format) (w : Nat) (s : State) : State :=
  let word := BitVec.ofNat 32 w
  match f with
  | .cmd => { s with moves := .cmd word :: s.moves }
  | .bus => { s with moves := .bus (BitVec.ofNat 8 w) (BitVec.ofNat 32 (w / 2 ^ 8)) :: s.moves }
  | .mdioc => { s with regs := { s.regs with mdioCtrl := word }, moves := .mdioc :: s.moves }
  | .tdes =>
    { s with
      mem := Memory.setWord s.mem (engTxd s s.tx.idx 0) word
      tx := { s.tx with st := .running, job := none }
      moves := .txdma 0 :: s.moves }
  | .rdes =>
    { s with
      mem := Memory.setWord s.mem (engRxd s s.rx.idx 0) word
      rx := { s.rx with run := .running, job := some (newRxJob ⟨List.replicate 14 0, false, false, false⟩) }
      moves := .rxdma 0 :: s.moves }
  | .irq =>
    { s with
      regs := { s.regs with intStatus := word &&& intMask, intEn := word &&& intMask }
      inIsr := false, ipc := .idle
      moves := .isr :: s.moves }

/-- A table word presented at the port of the format it is read in; a word of no row at the port of its width. -/
def presentTableWord (nbits w : Nat) (s : State) : State :=
  match tableFormat nbits w with
  | some f => present f w s
  | none => if nbits = 8 then present .bus w s else present .cmd w s

end Sys2Proof.Machine
end

