-- ==== Sys2Proof/Machine/RegisterBridge.lean ====
section
/-! DEFINITION. Machine/RegisterBridge.lean: `REGRD` and `REGWR` (41_register_bridge.md). -/

namespace Sys2Proof.Machine

/-- `REGRD reg`: the value goes back on the bus; nothing else changes (R180). -/
def execRegrd (reg : BitVec 5) (s : State) : Out := .next { s with busData := regRead (regOfNumber reg) s }

/-- `REGWR reg, value` (R181): the register's own effect, whoever sends it; a write of a register UPPER has no business
with is executed (93_implementation_defined.md U12, log 10). -/
def execRegwr (reg : BitVec 5) (value : Word) (s : State) : Out := regWrite (regOfNumber reg) value s

end Sys2Proof.Machine
end

