-- ==== Sys2Proof/Machine/Dispatch.lean ====
section
/-! DEFINITION. Machine/Dispatch.lean: one arm a constructor of Instr. -/

namespace Sys2Proof.Machine

def exec (i : Instr) (s : State) : Host.Outcome State Fault Refusal :=
  match i with
  | .init => Sys2Proof.Machine.execInit s
  | .tx => Sys2Proof.Machine.execTx s
  | .up => Sys2Proof.Machine.execUp s
  | .regrd reg => Sys2Proof.Machine.execRegrd reg s
  | .regwr reg value => Sys2Proof.Machine.execRegwr reg value s
  | .mdioRd pa ra cr => Sys2Proof.Machine.execMdioRd pa ra cr s
  | .mdioWr pa ra cr => Sys2Proof.Machine.execMdioWr pa ra cr s
  | .txdmaSend w0 => Sys2Proof.Machine.execTxdmaSend w0 s
  | .txdmaPark w0 => Sys2Proof.Machine.execTxdmaPark w0 s
  | .rxdmaFill w0 => Sys2Proof.Machine.execRxdmaFill w0 s
  | .rxdmaMiss w0 => Sys2Proof.Machine.execRxdmaMiss w0 s
  | .rxirq rbu => Sys2Proof.Machine.execRxirq rbu s
  | .rxirqRbu => Sys2Proof.Machine.execRxirqRbu s

end Sys2Proof.Machine
end

