-- ==== Sys2Proof/Machine/Step.lean ====
section
/-! DEFINITION. Machine/Step.lean: one step of the machine: one atomic micro-step of one agent (00_scope.md R10, R12). -/

namespace Sys2Proof.Machine

/-- One step: the next move is taken, and what it fetches is run. A configuration outside its constraints has no step
(93_implementation_defined.md U6). -/
def step (s : State) : Host.Outcome State Fault Refusal :=
  match fetch s with
  | .run i t => admitted s.cfg (exec i t)
  | .done o => admitted s.cfg o

/-- The instruction whose bits are `w` placed where `step` fetches its next instruction (log 13). -/
def State.withFetchWord (s : State) (nbits w : Nat) : State := presentTableWord nbits w s

end Sys2Proof.Machine
end

