-- ==== Sys2Proof/Safety.lean ====
section
/-! DEFINITION. Safety.lean: what the claims speak of: repeated micro-steps, safe runs, the stores a micro-step makes,
memory as a software context sees it, and the invariants. -/

namespace Sys2Proof.Machine

/-! ### The opcode table (30_encoding.md R138) -/

/-- A row of spec/opcode_table.json: its format, `mask` and `match`. -/
structure Row where
  format : Format
  mask : Word
  pattern : Word
deriving DecidableEq, Repr

/-- The row of each instruction (30_encoding.md R138, spec/opcode_table.json). -/
def rowOf : Instr → Row
  | .init => ⟨.cmd, 0xFFFFFFFF, 0x00000001⟩
  | .tx => ⟨.cmd, 0xFFFFFFFF, 0x00000002⟩
  | .up => ⟨.cmd, 0xFFFFFFFF, 0x00000003⟩
  | .regrd _ => ⟨.bus, 0x83, 0x00⟩
  | .regwr _ _ => ⟨.bus, 0x83, 0x80⟩
  | .mdioRd _ _ _ => ⟨.mdioc, 0x00000003, 0x00000001⟩
  | .mdioWr _ _ _ => ⟨.mdioc, 0x00000003, 0x00000003⟩
  | .txdmaSend _ => ⟨.tdes, 0xB0000000, 0xB0000000⟩
  | .txdmaPark _ => ⟨.tdes, 0x80000000, 0x00000000⟩
  | .rxdmaFill _ => ⟨.rdes, 0x80000000, 0x80000000⟩
  | .rxdmaMiss _ => ⟨.rdes, 0x80000000, 0x00000000⟩
  | .rxirq _ => ⟨.irq, 0x1, 0x1⟩
  | .rxirqRbu => ⟨.irq, 0x3, 0x2⟩

/-- How many bytes a port presents (30_encoding.md R120): a BUS access has a selector and a data word. -/
def portBytes : Format → Nat
  | .bus => 5
  | .irq => 1
  | .cmd => 4
  | .mdioc => 4
  | .tdes => 4
  | .rdes => 4

/-- The selecting word in bytes presented at a port: the selector of a BUS access, the cause of an IRQ, the word of the
other formats (30_encoding.md R120). -/
def selectingWord (f : Format) (bytes : List Byte) : Word :=
  match f, bytes with
  | .bus, sel :: _ => sel.setWidth 32
  | .irq, cause :: _ => (cause.extractLsb' 0 2).setWidth 32
  | _, b0 :: b1 :: b2 :: b3 :: _ => leWord b0 b1 b2 b3
  | _, _ => 0

/-- The bytes presented select the row. -/
def Row.selects (r : Row) (bytes : List Byte) : Bool := decide (selectingWord r.format bytes &&& r.mask = r.pattern)

/-! ### Runs -/

/-- `k` micro-steps of one instruction with nothing in between. -/
def execMany (i : Instr) : Nat → State → Out
  | 0, s => .next s
  | k + 1, s =>
    match exec i s with
    | .next t => execMany i k t
    | .fault e => .fault e
    | .refused e => .refused e

/-- A safe run: `k` steps from `s` meet no fault and no refusal. -/
def safeRun (k : Nat) (s : State) : Prop := ∃ t, Sys2Proof.core.run k s = .next t

/-- HOST is about to take a micro-step at a label, in no sub-procedure and not held by the handler. -/
def hostAt (l : HostLabel) (s : State) : Prop := s.hpc = l ∧ s.hsub = .off ∧ s.inIsr = false

/-- HOST is about to take a micro-step of a sub-procedure called by the operation `op`. -/
def hostIn (op : Instr) (sub : SubLabel) (s : State) : Prop :=
  opOf s.hpc = some op ∧ s.hsub = sub ∧ s.inIsr = false

/-- ISR is inside an invocation, at a label and micro-step. -/
def isrAt (l : IsrLabel) (mic : Nat) (s : State) : Prop := s.inIsr = true ∧ s.ipc = l ∧ s.imic = mic

/-- The instructions that run the handler (45_receive_irq.md R290). -/
def isHandler : Instr → Bool
  | .rxirq _ => true
  | .rxirqRbu => true
  | _ => false

/-- The next move, all else standing. -/
def State.withMoves (s : State) (ms : List Move) : State := { s with moves := ms }

/-! ### Schedules of whole operations (nothing else moves) -/

/-- The moves of `MDIO.RD` called by HOST, from the call to the test of its result: the call, MR0, MR1, the transaction,
MR2, MR3 (42_mdio_phy_bridge.md R202 to R205, R212). -/
def mdioReadMoves : List Move := [.host, .host, .host, .mdioc, .host, .host]

/-- The moves of `MDIO.WR`: the call, MW0, MW1, MW2, the transaction, MW3, MW4 (42_mdio_phy_bridge.md R207 to R210). -/
def mdioWriteMoves : List Move := [.host, .host, .host, .host, .mdioc, .host, .host]

/-- The moves of an `INIT` whose hardware answers at once (40_driver_contract.md R166 to R173): the command, N0, the
reset, N1 to N3; N4; N5; N6 with 8N + 2 micro-steps of `RING.BUILD`; N7 to N12. -/
def initMoves (n : Nat) : List Move :=
  [.cmd 1, .host, .macrst, .host, .host, .host] ++ mdioWriteMoves ++ [.host] ++ mdioReadMoves ++ [.host]
    ++ mdioReadMoves ++ [.host, .host] ++ [.host, .host, .host] ++ List.replicate (8 * n + 2) .host ++ [.host]
    ++ List.replicate 3 .host ++ List.replicate 5 .host

/-- The moves of an `UP` that reads the status register and ends (46_link_reconciler.md R311, R312, R314). -/
def upPollMoves : List Move := [.cmd 3] ++ mdioReadMoves ++ [.host, .host]

/-- The moves of an `UP` that reconciles (46_link_reconciler.md R311 to R320). -/
def upEdgeMoves : List Move := upPollMoves ++ mdioReadMoves ++ [.host, .host, .host, .host, .host]

/-! ### A bound on the handler's work (45_receive_irq.md R307) -/

/-- What is left of an iteration of the handler's loop, at most. -/
def isrRank (l : IsrLabel) (mic : Nat) : Nat :=
  match l with
  | .i1 => if mic = 0 then 15 else 11
  | .i2 => 10
  | .i3 => if mic = 0 then 9 else 8
  | .i4 => if mic = 0 then 7 else 6
  | .i5 => if mic = 0 then 5 else if mic = 1 then 4 else 3
  | .i6 => 2
  | _ => 0

/-- The micro-steps left to an invocation, at most. It reads only what ISR alone writes. -/
def isrWorkLeft (s : State) : Nat :=
  match s.ipc with
  | .idle => 0
  | .i8 => 1
  | .i7 => 2
  | .i0 => 20 * s.cfg.rxLoopCap + 16
  | l => 20 * (s.cfg.rxLoopCap - s.i.iterations) + isrRank l s.imic

/-! ### Stores -/

/-- The store the next micro-step of HOST issues (44_transmit.md R274 to R277, 43_ring_ownership.md R239). -/
def hostStores (s : State) : List Pending :=
  match s.hpc, s.hsub with
  | .t2, .off => if 2 ≤ s.hmic then [.byte (txDest (settleReg .host .hostBufp s)) s.h.byte] else []
  | .t3, .off => [.word (txSlot s 1) s.h.len]
  | .t4, .off => [.word (txSlot s 0) (txFlagsWord s.h.w0)]
  | .t6, .off => [.word (txSlot s 0) (txOwnWord s.h.w0)]
  | _, .b0 =>
    [.word (descWord s.cfg s.cfg.rxdBase s.h.j.toNat (buildWordNo s.hmic))
      (buildValue (buildWordNo s.hmic) (builtRxW0 s.cfg.n s.h.j.toNat)
        (BitVec.ofNat 32 (slotBuf s.cfg s.cfg.rxbufBase s.h.j.toNat)))]
  | _, .b1 =>
    [.word (descWord s.cfg s.cfg.txdBase s.h.j.toNat (buildWordNo s.hmic))
      (buildValue (buildWordNo s.hmic) (builtTxW0 s.cfg.n s.h.j.toNat)
        (BitVec.ofNat 32 (slotBuf s.cfg s.cfg.txbufBase s.h.j.toNat)))]
  | _, _ => []

/-- The store the next micro-step of ISR issues (45_receive_irq.md R298). -/
def isrStores (s : State) : List Pending :=
  match s.ipc with
  | .i5 =>
    if s.imic = 0 then [.word (rxSlot s 1) 0]
    else if s.imic = 1 then [] else [.word (rxSlot s 0) (rearmWord s.i.w0)]
  | _ => []

/-- The store the next micro-step of RXDMA's reception makes (43_ring_ownership.md R250). -/
def rxdmaStores (s : State) : List Pending :=
  match s.rx.job with
  | none => []
  | some j =>
    match j.phase with
    | .qr1 => []
    | .qr2 =>
      if j.mic = 0 ∨ j.todo = [] then []
      else [.byte (addrAt s.cfg j.bufp (pickOf s j.todo)) (j.frame.bytes.getD (j.off + pickOf s j.todo) 0)]
    | .qr3 => [.word (engRxd s s.rx.idx 1) (BitVec.ofNat 32 (segLen s j))]
    | .qr4 => if j.mic = 0 then [.word (engRxd s s.rx.idx 0) (segWord s j)] else []

/-- The store the next micro-step of TXDMA's transmission makes (43_ring_ownership.md R259). -/
def txdmaStores (s : State) : List Pending :=
  match s.tx.job with
  | none => []
  | some j =>
    match j.phase with
    | .qt1 => []
    | .qt2 => []
    | .qt3 => [.word (engTxd s s.tx.idx 0) (releaseWord j.w0)]

/-- The store the next micro-step of an instruction makes or issues: the address and the value, as its meaning computes
them. -/
def stores (i : Instr) (s : State) : List Pending :=
  match i with
  | .init => hostStores s
  | .tx => hostStores s
  | .up => hostStores s
  | .regrd _ => []
  | .regwr _ _ => []
  | .mdioRd _ _ _ => []
  | .mdioWr _ _ _ => []
  | .txdmaSend _ => txdmaStores s
  | .txdmaPark _ => []
  | .rxdmaFill _ => rxdmaStores s
  | .rxdmaMiss _ => []
  | .rxirq _ => isrStores s
  | .rxirqRbu => isrStores s

/-- No access of the list writes the byte at `a`. -/
def spares (ps : List Pending) (a : Nat) : Prop := ∀ p ∈ ps, a ∉ p.writes

/-- Memory as a software context sees it: with every access it has issued performed. -/
def State.seenBy (s : State) (c : Ctx) : List Host.Cell := Memory.performAll s.mem (s.pending c)

/-- The stores `RING.BUILD` makes for one descriptor, in order (43_ring_ownership.md R239). -/
def buildSlotStores (c : Cfg) (base : Word) (buf : Nat) (w0 : Word) (i : Nat) : List Pending :=
  [.word (descWord c base i 3) 0, .word (descWord c base i 2) (BitVec.ofNat 32 buf), .word (descWord c base i 1) 0,
    .word (descWord c base i 0) w0]

/-- The stores of steps B0 and B1, in order (43_ring_ownership.md R239). -/
def buildStores (c : Cfg) : List Pending :=
  ((List.range c.n).flatMap fun i =>
      buildSlotStores c c.rxdBase (slotBuf c c.rxbufBase i) (builtRxW0 c.n i) i)
    ++ ((List.range c.n).flatMap fun i =>
      buildSlotStores c c.txdBase (slotBuf c c.txbufBase i) (builtTxW0 c.n i) i)

/-! ### Invariants -/

/-- PHY registers listed in rising order of place, each at most once. -/
def Phy.wf : List PhyCell → Bool
  | [] => true
  | c :: t => t.all (fun d => decide (phyKey c.pa c.ra < phyKey d.pa d.ra)) && Phy.wf t

/-- Memory and the PHY registers keep their canonical form, and under SC no access waits (20_memory.md R96). -/
structure MemoryOk (s : State) : Prop where
  mem : Memory.wf s.mem = true
  phy : Phy.wf s.phy = true
  sc : s.cfg.memModel = .sc → s.hostBuf = [] ∧ s.isrBuf = []

/-- Every reserved register bit is 0 (10_state.md R35). -/
structure RegsOk (r : Regs) : Prop where
  ctrl : r.ctrl &&& ~~~ctrlMask = 0
  maccfg : r.maccfg &&& ~~~maccfgMask = 0
  macHi : r.macHi &&& ~~~macHiMask = 0
  filter : r.filter &&& ~~~filterMask = 0
  mdioCtrl : r.mdioCtrl &&& ~~~mdioCtrlMask = 0
  mdioData : r.mdioData &&& ~~~mdioDataMask = 0
  intEn : r.intEn &&& ~~~intMask = 0
  intStatus : r.intStatus &&& ~~~intMask = 0
  rxBase : r.rxBase &&& ~~~baseMask = 0
  txBase : r.txBase &&& ~~~baseMask = 0
  diag : r.diag &&& ~~~diagMask = 0

/-- "The index always satisfies 0 <= index < N" (10_state.md R28), for the software's and the engines' indices; and the
counters are below 2^CNT_W (R22). -/
structure IndexOk (s : State) : Prop where
  rxIdx : s.rxIdx < s.cfg.n
  txIdx : s.txIdx < s.cfg.n
  rx : s.rx.idx < s.cfg.n
  tx : s.tx.idx < s.cfg.n
  nsent : s.nsent < 2 ^ s.cfg.cntW
  nsentBytes : s.nsentBytes < 2 ^ s.cfg.cntW
  nrecv : s.nrecv < 2 ^ s.cfg.cntW
  ndrop : s.ndrop < 2 ^ s.cfg.cntW
  nerr : s.nerr < 2 ^ s.cfg.cntW

/-- A reception in progress is well formed (43_ring_ownership.md R246, R250). -/
structure RxJobOk (s : State) (j : RxJob) : Prop where
  running : s.rx.run = .running
  long : 14 ≤ j.frame.bytes.length
  first : j.first = decide (j.off = 0)
  owned : j.phase ≠ .qr1 → ownBit j.w0 = true
  inside : (j.phase ≠ .qr4 ∨ j.mic = 0) → j.off < j.frame.bytes.length
  ended : (j.phase = .qr4 ∧ j.mic ≠ 0) → j.off = j.frame.bytes.length
  todo : j.phase = .qr2 → ∀ k ∈ j.todo, j.mic ≠ 0 → k < segLen s j

/-- A transmission in progress is well formed (43_ring_ownership.md R254, R256, R257). -/
structure TxJobOk (s : State) (j : TxJob) : Prop where
  running : s.tx.st = .running
  owned : ownBit j.w0 = true
  whole : fsBit j.w0 = true ∧ lsBit j.w0 = true
  len : j.len ≤ s.cfg.bufSize
  data : j.mic ≠ 1 → j.data.length = j.len
  phase : j.phase ≠ .qt1 → j.mic ≠ 1
  todo : 2 ≤ j.mic → ∀ k ∈ j.todo, k < j.len

/-- The engines' jobs are well formed, and no frame on the wire is empty or longer than a slot. -/
structure EnginesOk (s : State) : Prop where
  rx : ∀ j, s.rx.job = some j → RxJobOk s j
  tx : ∀ j, s.tx.job = some j → TxJobOk s j
  wire : ∀ e ∈ s.wireOut, 0 < e.bytes.length ∧ e.bytes.length ≤ s.cfg.bufSize

/-- The label a sub-procedure returns to is one that calls it (10_state.md R31). -/
def subOk (l : HostLabel) (sub : SubLabel) : Bool :=
  match sub with
  | .off => true
  | .mw0 | .mw1 | .mw2 | .mw3 | .mw4 => decide (l = .n4)
  | .mr0 | .mr1 | .mr2 | .mr3 => decide (l = .n5) || decide (l = .u0) || decide (l = .u2)
  | .b0 | .b1 | .b2 => decide (l = .n6)

/-- What `initialized` is at a label (40_driver_contract.md R163, R166, R171); none where it may be either. -/
def initializedAt : HostLabel → Option Bool
  | .idle => none
  | .n0 => none
  | .n1 | .n2 | .n3 | .n4 | .n5 | .n6 | .n7 | .n8 | .n9 => some false
  | .n10 | .n11 | .n12 => some true
  | .t0 | .t1 | .t2 | .t3 | .t4 | .t5 | .t6 | .t7 | .t8 => some true
  | .u0 | .u1 | .u2 | .u3 | .u4 | .u5 | .u6 => some true

/-- `RING.BUILD` has completed: once `initialized`, from the end of step N6 on, and after it within step N6
(40_driver_contract.md R170, R171). -/
def pastBuild (s : State) : Bool :=
  s.initialized ||
    match s.hpc with
    | .n6 => decide (s.hsub = .off) && decide (3 ≤ s.hmic)
    | .n7 | .n8 | .n9 => true
    | _ => false

/-- The two contexts are in a legal place (10_state.md R31 to R33, 60_exceptions.md R357). -/
structure ContextsOk (s : State) : Prop where
  isr : s.inIsr = true ↔ s.ipc ≠ .idle
  cause : s.inIsr = true → s.icause ≠ 0
  sub : subOk s.hpc s.hsub = true
  init : ∀ b, initializedAt s.hpc = some b → s.initialized = b
  built : pastBuild s = true → s.ringsBuilt = true

/-- A label at which the step of a bounded MDIO wait is made. -/
def isPoll : SubLabel → Bool
  | .mr0 | .mr2 | .mw0 | .mw3 => true
  | _ => false

/-- `TX` has passed its length test. -/
def lenTested : HostLabel → Bool
  | .t2 | .t3 | .t4 | .t5 | .t6 | .t7 | .t8 => true
  | _ => false

/-- ISR is inside an iteration of its loop. -/
def inIteration (s : State) : Bool :=
  match s.ipc with
  | .i1 => decide (s.imic ≠ 0)
  | .i2 | .i3 | .i4 | .i5 | .i6 => true
  | _ => false

/-- Every loop is within its bound (40_driver_contract.md R164): the copy, the drain, the waits, `RING.BUILD`; and no delivered
frame is longer than LEN can say. -/
structure BoundsOk (s : State) : Prop where
  len : lenTested s.hpc = true → s.h.len.toNat ≤ s.cfg.bufSize
  copy : s.hpc = .t2 → 1 ≤ s.hmic → s.h.j.toNat ≤ s.h.len.toNat
  byte : s.hpc = .t2 → 2 ≤ s.hmic → s.h.j.toNat < s.h.len.toNat
  mdio : isPoll s.hsub = true → s.h.polls < s.cfg.mdioBudget
  build : (s.hsub = .b0 ∨ s.hsub = .b1) → s.h.j.toNat < s.cfg.n
  reset : s.hpc = .n1 → s.h.polls < s.cfg.resetBudget
  iter : s.i.iterations ≤ s.cfg.rxLoopCap
  inside : inIteration s = true → s.i.iterations < s.cfg.rxLoopCap
  delivered : ∀ d ∈ s.deliverLog, d.length < 2 ^ 14

/-- The labels at which an access HOST has issued may be outstanding (20_memory.md R98, R100). -/
def hostMayWait (l : HostLabel) (sub : SubLabel) : Bool :=
  match l, sub with
  | .t2, _ | .t3, _ | .t4, _ | .t5, _ | .t6, _ | .t7, _ => true
  | .n6, .b0 | .n6, .b1 | .n6, .b2 => true
  | _, _ => false

/-- The labels at which an access ISR has issued may be outstanding (20_memory.md R98, R100). -/
def isrMayWait : IsrLabel → Bool
  | .idle | .i0 | .i8 => false
  | _ => true

/-- No access outlives the operation that issued it, and HOST has none outstanding during the handler
(20_memory.md R96: entry and return are ordering points); and each context's loads fill its own registers
(10_state.md R30). -/
structure StoresOk (s : State) : Prop where
  hostLoads : ∀ p ∈ s.hostBuf, p.fills ≠ some .isrLen ∧ p.fills ≠ some .isrBufp
  isrLoads : ∀ p ∈ s.isrBuf, p.fills ≠ some .hostByte ∧ p.fills ≠ some .hostBufp
  host : s.hostBuf ≠ [] → hostMayWait s.hpc s.hsub = true
  isr : s.isrBuf ≠ [] → isrMayWait s.ipc = true
  entry : s.inIsr = true → s.hostBuf = []

/-- All the invariants. -/
structure Inv (s : State) : Prop where
  memory : MemoryOk s
  regs : RegsOk s.regs
  index : IndexOk s
  engines : EnginesOk s
  contexts : ContextsOk s
  bounds : BoundsOk s
  stores : StoresOk s

end Sys2Proof.Machine
end

