-- ==== Sys2Proof/Certificates/Slice0/Obligations.lean ====
section
/-! DEFINITION. Certificates/Slice0/Obligations.lean: the statements for the provers. "log n" is
notes/assumptions/<n>.md. Throughout, the trace `events` and the words `busData` and `memData` are the model's own fields
(log 18), and so are the micro-step counters `hmic`, `imic` and `mic` (log 14) and the wrap counts `kWraps` and `iterWraps` (log 23): a
clause about one of them says how the model records what the rule says. -/

open Sys2Proof Sys2Proof.Machine

/-! ### Encoding -/

/-- Decoding the encoding of a well-formed instruction gives it back, every operand at every value (30_encoding.md R121
to R130, R138). -/
def Obligations.DecodeEncodeRoundTrip : Prop :=
  ∀ i : Instr, WellFormed i = true → decode (formatOf i) (encode i) = .ok i

/-- Bytes at a port select a row, `(w and mask) = match`, exactly where the decoder reads an instruction of that row
(30_encoding.md R138). -/
def Obligations.MaskAndMatchSelectTheRow : Prop :=
  ∀ (j : Instr) (bytes : List Byte), portBytes (formatOf j) ≤ bytes.length →
    ((rowOf j).selects bytes = true ↔ ∃ i, decode (formatOf j) bytes = .ok i ∧ rowOf i = rowOf j)

/-- Words written out from the spec's encodings decode to what they stand for (30_encoding.md R121 to R136). -/
def Obligations.WrittenOutWordsDecode : Prop :=
  decode .cmd [0x01, 0x00, 0x00, 0x00] = .ok .init ∧
  decode .cmd [0x02, 0x00, 0x00, 0x00] = .ok .tx ∧
  decode .cmd [0x03, 0x00, 0x00, 0x00] = .ok .up ∧
  decode .bus [0b00011100, 0, 0, 0, 0] = .ok (.regrd 7) ∧
  decode .bus [0b10100000, 0x01, 0, 0, 0] = .ok (.regwr 8 1) ∧
  decode .mdioc [0x71, 0x01, 0x00, 0x00] = .ok (.mdioRd 0 1 7) ∧
  decode .mdioc [0x73, 0x1F, 0x05, 0x00] = .ok (.mdioWr 5 31 7) ∧
  decode .tdes [0x00, 0x00, 0x00, 0xB8] = .ok (.txdmaSend 0xB8000000) ∧
  decode .tdes [0x00, 0x00, 0x00, 0x40] = .ok (.txdmaPark 0x40000000) ∧
  decode .rdes [0x00, 0x00, 0x00, 0xC0] = .ok (.rxdmaFill 0xC0000000) ∧
  decode .rdes [0x00, 0x00, 0x00, 0x30] = .ok (.rxdmaMiss 0x30000000) ∧
  decode .irq [0b01] = .ok (.rxirq false) ∧
  decode .irq [0b11] = .ok (.rxirq true) ∧
  decode .irq [0b10] = .ok .rxirqRbu

/-- Reserved and illegal words select no operation (30_encoding.md R139 (a), (b), (d)), a reserved command only raises
`BAD_CMD` (40_driver_contract.md R162), by either port, and a misaligned selector is refused (93 U13). -/
def Obligations.ReservedWordsStartNothing : Prop :=
  (∀ w : Word, w ≠ 1 → w ≠ 2 → w ≠ 3 → decode .cmd (leBytes w) = .bad .reservedCommand) ∧
  (∀ (s : State) (ms : List Move) (w : Word), s.cfg.admissible = true → w ≠ 1 → w ≠ 2 → w ≠ 3 →
    s.hpc = .idle → s.inIsr = false →
      step (s.withMoves (.cmd w :: ms)) = .next
        { s with
          moves := ms, events := s.events ++ [.badCmd], regs := { s.regs with diag := s.regs.diag ||| 0x20 } } ∧
      exec (.regwr 24 w) s = .next
        { s with events := s.events ++ [.badCmd], regs := { s.regs with diag := s.regs.diag ||| 0x20 } }) ∧
  (∀ (s : State) (ms : List Move) (sel : Byte) (data : Word), s.cfg.admissible = true → sel.extractLsb' 0 2 ≠ 0 →
    step (s.withMoves (.bus sel data :: ms)) = .refused .misalignedSelector) ∧
  (∀ w : Word, ownBit w = true → (fsBit w = false ∨ lsBit w = false) →
    decode .tdes (leBytes w) = .bad .multiDescriptorFrame)

/-! ### The step -/

/-- A step runs the instruction decoded from the bytes at the port the move names, or the one the agent is inside; the
move is taken off the list (00_scope.md R10, R12; 30_encoding.md R120; log 1, log 2). That a step inside the handler runs
the instruction that the kept cause word `icause` selects is the model's own choice (DESIGN CHOICE, log 19). -/
def Obligations.StepRunsTheDecodedInstruction : Prop :=
  ∀ (s : State) (ms : List Move) (i : Instr), s.cfg.admissible = true →
    (∀ (sel : Byte) (data : Word), decode .bus (sel :: leBytes data) = .ok i →
      step (s.withMoves (.bus sel data :: ms)) = exec i (s.withMoves ms)) ∧
    (∀ w : Word, s.hpc = .idle → s.inIsr = false → decode .cmd (leBytes w) = .ok i →
      step (s.withMoves (.cmd w :: ms)) = exec i (s.withMoves ms)) ∧
    (decode .mdioc (leBytes s.regs.mdioCtrl) = .ok i →
      step (s.withMoves (.mdioc :: ms)) = exec i (s.withMoves ms)) ∧
    (∀ p : Nat, s.tx.st = .running → s.tx.job = none → decode .tdes (leBytes (s.wordAt (engTxd s s.tx.idx 0))) = .ok i →
      step (s.withMoves (.txdma p :: ms)) = exec i { s.withMoves ms with choice := p }) ∧
    (∀ (p : Nat) (j : RxJob), s.rx.job = some j → j.phase = .qr1 →
      decode .rdes (leBytes (s.wordAt (engRxd s s.rx.idx 0))) = .ok i →
      step (s.withMoves (.rxdma p :: ms)) = exec i { s.withMoves ms with choice := p }) ∧
    (s.inIsr = false → decode .irq [s.cause.setWidth 8] = .ok i →
      step (s.withMoves (.isr :: ms)) = exec i (s.withMoves ms)) ∧
    (opOf s.hpc = some i → step (s.withMoves (.host :: ms)) = exec i (s.withMoves ms)) ∧
    (s.inIsr = true → decode .irq [s.icause.setWidth 8] = .ok i →
      step (s.withMoves (.isr :: ms)) = exec i (s.withMoves ms)) ∧
    (∀ (p : Nat) (j : TxJob), s.tx.job = some j → i = .txdmaSend j.w0 →
      step (s.withMoves (.txdma p :: ms)) = exec i { s.withMoves ms with choice := p }) ∧
    (∀ (p : Nat) (j : RxJob), s.rx.job = some j → j.phase ≠ .qr1 → i = .rxdmaFill j.w0 →
      step (s.withMoves (.rxdma p :: ms)) = exec i { s.withMoves ms with choice := p })

/-! ### Reset -/

/-- The state after hardware reset, in every configuration: every register reads 0, and every other piece of state is
as 10_state.md R62 lists it. -/
def Obligations.ResetLeavesTheListedState : Prop :=
  ∀ c : Cfg,
    (∀ no : BitVec 5, regRead (regOfNumber no) (State.resetWith c) = 0) ∧
    (State.resetWith c).link = .down ∧
    (State.resetWith c).nsent = 0 ∧ (State.resetWith c).nsentBytes = 0 ∧ (State.resetWith c).nrecv = 0 ∧
    (State.resetWith c).ndrop = 0 ∧ (State.resetWith c).nerr = 0 ∧
    (State.resetWith c).phyId = 0 ∧ (State.resetWith c).vendor = .genericClone ∧
    (State.resetWith c).rxIdx = 0 ∧ (State.resetWith c).txIdx = 0 ∧
    (State.resetWith c).initialized = false ∧ (State.resetWith c).inIsr = false ∧
    (State.resetWith c).hpc = .idle ∧ (State.resetWith c).ipc = .idle ∧ (State.resetWith c).hsub = .off ∧
    (State.resetWith c).rx = ⟨.stopped, 0, none⟩ ∧ (State.resetWith c).tx = ⟨.stopped, 0, none⟩ ∧
    (State.resetWith c).wireOut = [] ∧ (State.resetWith c).deliverLog = []

/-- The state after reset meets every invariant, in every admissible configuration (10_state.md R62). -/
def Obligations.ResetMeetsTheInvariants : Prop := ∀ c : Cfg, c.admissible = true → Inv (State.resetWith c)

/-! ### Invariants kept by every step -/

/-- Memory and the PHY registers keep their canonical form, and under SC no access waits (20_memory.md R96). -/
def Obligations.StepKeepsMemoryOk : Prop := ∀ s t : State, MemoryOk s → step s = .next t → MemoryOk t

/-- Reserved register bits stay 0 (10_state.md R35). -/
def Obligations.StepKeepsReservedBitsZero : Prop :=
  ∀ s t : State, RegsOk s.regs → step s = .next t → RegsOk t.regs

/-- The indices stay below N (10_state.md R28, R29, R54, R55), and the counters below 2^CNT_W (R22). -/
def Obligations.StepKeepsIndicesInRing : Prop := ∀ s t : State, IndexOk s → step s = .next t → IndexOk t

/-- The engines' jobs stay well formed, and no frame on the wire is empty or longer than a slot (43_ring_ownership.md
R250, R254, R256, R257). -/
def Obligations.StepKeepsEnginesOk : Prop := ∀ s t : State, EnginesOk s → step s = .next t → EnginesOk t

/-- The two contexts stay in legal places: the handler's flag and counter agree, a sub-procedure runs only under a label
that calls it, `TX` and `UP` run only while `initialized` (10_state.md R31 to R33, 40_driver_contract.md R163), and the
rings have been built wherever `initialized` is set (R170, R171; log 22 for the model's record of that). -/
def Obligations.StepKeepsContextsOk : Prop := ∀ s t : State, ContextsOk s → step s = .next t → ContextsOk t

/-- Every loop stays within its bound: the copy, the drain loop, the waits, `RING.BUILD` (40_driver_contract.md R164), given
that the contexts are in legal places. The waits and the drain loop count in `HostRegs.polls` and `IsrRegs.iterations`, the
model's own form of the counts (DESIGN CHOICE, log 23). -/
def Obligations.StepKeepsLoopBounds : Prop :=
  ∀ s t : State, ContextsOk s → BoundsOk s → step s = .next t → BoundsOk t

/-- No issued access outlives its operation, HOST has none outstanding while the handler runs, and each context's loads
fill its own registers (20_memory.md R96, R98, R100; 10_state.md R30), given that the contexts are in legal places. The
lists of outstanding accesses are the model's realisation of R96 (log 8). -/
def Obligations.StepKeepsStoresOk : Prop :=
  ∀ s t : State, ContextsOk s → StoresOk s → step s = .next t → StoresOk t

/-! ### Memory -/

/-- A word stored reads back, lies little-endian, and no other byte changes (20_memory.md R85). -/
def Obligations.WordStoreReadsBackLittleEndian : Prop :=
  ∀ (s : State) (a : Nat) (v : Word),
    (engineStoreWord a v s).wordAt a = v ∧
    (∀ k : Nat, k < 4 → (engineStoreWord a v s).byteAt (a + k) = v.extractLsb' (8 * k) 8) ∧
    (∀ b : Nat, b ∉ wordAddrs a → (engineStoreWord a v s).byteAt b = s.byteAt b)

/-- How a context's access reaches memory: performed when issued under SC, waiting under WEAK until it is performed; a
`FENCE` performs everything that waits, and does nothing under SC where nothing waits (20_memory.md R96, R98). That what
waits is a list for each context, and that a load which waits fills its register when it is performed, is the model's own
realisation of R96 (DEDUCED, log 8). -/
def Obligations.StoresWaitOnlyUnderWeak : Prop :=
  ∀ (s : State),
    (∀ (a : Nat) (v : Byte), performAccess (.byte a v) s = { s with mem := Memory.set s.mem a v }) ∧
    (∀ (a : Nat) (v : Word), performAccess (.word a v) s = { s with mem := Memory.setWord s.mem a v }) ∧
    (∀ a : Nat, performAccess (.load a .hostByte) s = { s with h := { s.h with byte := s.byteAt a } } ∧
      performAccess (.load a .hostBufp) s = { s with h := { s.h with bufp := s.wordAt a } } ∧
      performAccess (.load a .isrLen) s = { s with i := { s.i with len := (s.wordAt a).extractLsb' 0 14 } } ∧
      performAccess (.load a .isrBufp) s = { s with i := { s.i with bufp := s.wordAt a } }) ∧
    (∀ a d : Nat, performAccess (.copy a d) s = { s with mem := Memory.set s.mem d (s.byteAt a) }) ∧
    (∀ (c : Ctx) (p : Pending),
      (s.cfg.memModel = .sc → issue c p s = performAccess p s ∧ (s.pending c = [] → fence c s = s)) ∧
      (s.cfg.memModel = .weak → issue c p s = s.setPending c (s.pending c ++ [p]))) ∧
    (∀ c : Ctx, (fence c s).mem = s.seenBy c ∧ (fence c s).pending c = []) ∧
    (∀ (c : Ctx) (p : Pending) (b : List Pending), s.pending c = p :: b →
      fence c s = fence c ((performAccess p s).setPending c b))

/-- In whatever order the memory system performs a context's accesses, the context sees the same memory, and its loads
fill their registers alike, so the order between two ordering points does not show after the second (20_memory.md R96,
R97; log 8). Two outstanding loads of one register are no case of the spec's operations. -/
def Obligations.DrainOrderDoesNotShow : Prop :=
  ∀ (c : Ctx) (k : Nat) (s : State),
    (∀ a : Nat, Memory.get ((drain c k s).seenBy c) a = Memory.get (s.seenBy c) a) ∧
    (((s.pending c).filterMap Pending.fills).Nodup →
      (flush c (drain c k s)).h = (flush c s).h ∧ (flush c (drain c k s)).i = (flush c s).i)

/-! ### The environment's moves -/

/-- UPPER's store and load: out of bounds while the rings are in use and the byte belongs to the other side (20_memory.md
R106, 93 U3; log 22), done otherwise, also in a slot that software owns (log 29); the byte loaded goes to the model's own
field (log 18). While `TX` runs, a store is recorded, and the copy of a byte of the frame that it writes is a free value:
where the copy is in hand, where it waits or lies in the slot, and where TXDMA has fetched or sent it (44_transmit.md R284,
93 U15). How the record and the free values are kept is the model's own choice (DESIGN CHOICE, log 11). -/
def Obligations.UpperAccessesAreGuarded : Prop :=
  ∀ (s : State) (ms : List Move) (a b : Nat) (v : Byte), s.cfg.admissible = true → b = a % 2 ^ s.cfg.addrW →
    (ringsLive s = true → ((placeOf s.cfg b).isDesc = true ∨ placeHwOwned s (placeOf s.cfg b) = true) →
      step (s.withMoves (.store a v :: ms)) = .fault .ownershipViolation) ∧
    (ringsLive s = true → (placeOf s.cfg b).isW0 = false → placeHwOwned s (placeOf s.cfg b) = true →
      step (s.withMoves (.load a :: ms)) = .fault .ownershipViolation) ∧
    ((ringsLive s = false ∨ (placeOf s.cfg b).isW0 = true ∨ placeHwOwned s (placeOf s.cfg b) = false) →
      step (s.withMoves (.load a :: ms)) = .next { s with moves := ms, memData := s.byteAt b }) ∧
    ((ringsLive s = false ∨ ((placeOf s.cfg b).isDesc = false ∧ placeHwOwned s (placeOf s.cfg b) = false)) →
      (opOf s.hpc ≠ some .tx →
        step (s.withMoves (.store a v :: ms)) = .next { s with moves := ms, mem := Memory.set s.mem b v }) ∧
      (opOf s.hpc = some .tx → ∀ off : Nat, off = frameOffset s b →
        (byteCopied s off = false → byteInHand s off = false →
          step (s.withMoves (.store a v :: ms)) = .next
            { s with moves := ms, mem := Memory.set s.mem b v, dirty := b :: s.dirty }) ∧
        (byteCopied s off = false → byteInHand s off = true →
          step (s.withMoves (.store a v :: ms)) = .next
            { s with
              moves := ms, mem := Memory.set s.mem b v, dirty := b :: s.dirty
              h := { s.h with byte := Config.freeByte s.freeCtr }
              hostBuf := s.hostBuf.filter fun p => decide (p.fills ≠ some .hostByte), freeCtr := s.freeCtr + 1 }) ∧
        (byteCopied s off = true → ∀ d : Nat, d = addrAt s.cfg s.h.bufp off →
          ∃ t, step (s.withMoves (.store a v :: ms)) = .next t ∧
            t = { s with
              moves := ms, mem := t.mem, dirty := b :: s.dirty, hostBuf := t.hostBuf, tx := t.tx
              wireOut := t.wireOut, freeCtr := t.freeCtr } ∧
            (s.hostBuf.any (Pending.storesByteAt d) = true → t.mem = Memory.set s.mem b v ∧
              t.hostBuf =
                s.hostBuf.map fun p => if p.storesByteAt d then .byte d (Config.freeByte s.freeCtr) else p) ∧
            (s.hostBuf.any (Pending.storesByteAt d) = false → t.hostBuf = s.hostBuf ∧
              t.mem = Memory.set (Memory.set s.mem b v) d (Config.freeByte s.freeCtr)) ∧
            (s.hpc ≠ .t7 → s.hpc ≠ .t8 → t.tx = s.tx ∧ t.wireOut = s.wireOut ∧ t.freeCtr = s.freeCtr + 1) ∧
            ((s.hpc = .t7 ∨ s.hpc = .t8) → t.freeCtr = s.freeCtr + 2 ∧
              ∀ u : State, u = { s with mem := Memory.set s.mem b v } →
                (frameSent u = true → t.tx = s.tx ∧ (s.wireOut = [] → t.wireOut = []) ∧
                  ∀ es e, s.wireOut = es ++ [e] → t.wireOut =
                    es ++ [{ e with bytes := e.bytes.set off (Config.freeByte (s.freeCtr + 1)) }]) ∧
                (frameSent u = false → t.wireOut = s.wireOut ∧
                  (s.tx.job = none → t.tx = s.tx) ∧
                  (∀ j, s.tx.job = some j →
                    ((s.tx.idx = s.txIdx ∧ j.phase ≠ .qt3 ∧ off ∉ j.todo) → t.tx = { s.tx with
                      job := some { j with data := j.data.set off (Config.freeByte (s.freeCtr + 1)) } }) ∧
                    (¬ (s.tx.idx = s.txIdx ∧ j.phase ≠ .qt3 ∧ off ∉ j.todo) → t.tx = s.tx)))))))

/-- The moves that change something and run no instruction, beside UPPER's, WIRE's and MAC.RESET's: the PHY sets one of its
registers (42_mdio_phy_bridge.md R216), and nothing else changes; the memory system performs one outstanding access of a
context, unless an earlier one of that context shares an address with it (20_memory.md R96, R97), and of a copy its load
first. That these are moves of their own, with the lists they read, is the model's own realisation (logs 1, 7, 8). -/
def Obligations.PhyAndMemorySystemMoves : Prop :=
  ∀ (s : State) (ms : List Move), s.cfg.admissible = true →
    (∀ (pa ra : BitVec 5) (v : Half), ∃ t, step (s.withMoves (.phy pa ra v :: ms)) = .next t ∧
      t = { s with moves := ms, phy := t.phy } ∧
      ∀ pa' ra' : BitVec 5, phyRead t pa' ra' = if pa' = pa ∧ ra' = ra then v else phyRead s pa' ra') ∧
    (∀ (c : Ctx) (k : Nat) (m : Move), m = (if c = .host then .drainHost k else .drainIsr k) →
      ((s.pending c).length ≤ k → step (s.withMoves (m :: ms)) = .next (s.withMoves ms)) ∧
      (∀ p : Pending, (s.pending c)[k]? = some p →
        ((∃ q ∈ (s.pending c).take k, ∃ a ∈ q.addrs, a ∈ p.firstAddrs) →
          step (s.withMoves (m :: ms)) = .next (s.withMoves ms)) ∧
        ((∀ q ∈ (s.pending c).take k, ∀ a ∈ q.addrs, a ∉ p.firstAddrs) →
          ((∀ src dst, p ≠ .copy src dst) → step (s.withMoves (m :: ms)) = .next
            ((performAccess p (s.withMoves ms)).setPending c ((s.pending c).eraseIdx k))) ∧
          (∀ src dst, p = .copy src dst → step (s.withMoves (m :: ms)) = .next
            ((s.withMoves ms).setPending c ((s.pending c).set k (.byte dst (s.byteAt src))))))))

/-- Frame arrival (43_ring_ownership.md R244, R246; 93 U19): refused outside the environment's constraints; ignored
without a trace while RXDMA is stopped; rejected by the filter with nothing changed; else a job.
The address filter (43_ring_ownership.md R247): PROMISC; the station address; BCAST_EN and all ones; MCAST_ALL and
bit 0 of the first byte. -/
def Obligations.FrameArrivalAndFilter : Prop :=
  (∀ (s : State) (ms : List Move) (f : Frame), s.cfg.admissible = true →
      ((f.bytes.length < 14 ∨ s.cfg.maxWireLen < f.bytes.length) →
        step (s.withMoves (.wire f :: ms)) = .refused .wireFrameLength) ∧
      (14 ≤ f.bytes.length → f.bytes.length ≤ s.cfg.maxWireLen →
        (s.rx.job ≠ none → step (s.withMoves (.wire f :: ms)) = .refused .wireBusy) ∧
        (s.rx.job = none → s.rx.run = .stopped → step (s.withMoves (.wire f :: ms)) = .next (s.withMoves ms)) ∧
        (s.rx.job = none → s.rx.run = .running → accepts s f = false →
          step (s.withMoves (.wire f :: ms)) = .next (s.withMoves ms)) ∧
        (s.rx.job = none → s.rx.run = .running → accepts s f = true →
          step (s.withMoves (.wire f :: ms)) = .next
            { s with
              moves := ms
              rx := { s.rx with
                job := some
                  { frame := f, off := 0, first := true, phase := .qr1, mic := 0, w0 := 0, bufp := 0, todo := [] } } }))) ∧
  (∀ (s : State) (d0 d1 d2 d3 d4 d5 : Byte) (rest : List Byte) (ce le ae : Bool),
      accepts s ⟨d0 :: d1 :: d2 :: d3 :: d4 :: d5 :: rest, ce, le, ae⟩ = true ↔
        (s.regs.filter.getLsbD 0 = true ∨
          (d0 = s.regs.macLo.extractLsb' 0 8 ∧ d1 = s.regs.macLo.extractLsb' 8 8 ∧
            d2 = s.regs.macLo.extractLsb' 16 8 ∧ d3 = s.regs.macLo.extractLsb' 24 8 ∧
            d4 = s.regs.macHi.extractLsb' 0 8 ∧ d5 = s.regs.macHi.extractLsb' 8 8) ∨
          (s.regs.filter.getLsbD 1 = true ∧
            d0 = 0xFF ∧ d1 = 0xFF ∧ d2 = 0xFF ∧ d3 = 0xFF ∧ d4 = 0xFF ∧ d5 = 0xFF) ∨
          (s.regs.filter.getLsbD 2 = true ∧ d0.getLsbD 0 = true)))

/-! ### Registers -/

/-- `REGRD` returns each register's value by number and changes nothing else (10_state.md R35, 41_register_bridge.md
R180). The data word of the bus access is the model's own field (log 18); a counter of a width other than 32 is shown in
its low 32 bits (log 4). -/
def Obligations.RegrdReturnsEachRegister : Prop :=
  ∀ s : State,
    (∀ no : BitVec 5, exec (.regrd no) s = .next { s with busData := regRead (regOfNumber no) s }) ∧
    exec (.regrd 0) s = .next { s with busData := s.regs.ctrl } ∧
    exec (.regrd 1) s = .next { s with busData := s.regs.maccfg } ∧
    exec (.regrd 2) s = .next { s with busData := s.regs.macLo } ∧
    exec (.regrd 3) s = .next { s with busData := s.regs.macHi } ∧
    exec (.regrd 4) s = .next { s with busData := s.regs.filter } ∧
    exec (.regrd 5) s = .next { s with busData := s.regs.mdioCtrl } ∧
    exec (.regrd 6) s = .next { s with busData := s.regs.mdioData } ∧
    exec (.regrd 7) s = .next { s with busData := s.regs.intEn } ∧
    exec (.regrd 8) s = .next { s with busData := s.regs.intStatus } ∧
    exec (.regrd 9) s = .next { s with busData := s.regs.rxBase } ∧
    exec (.regrd 10) s = .next { s with busData := s.regs.txBase } ∧
    exec (.regrd 12) s = .next { s with busData := s.regs.diag } ∧
    exec (.regrd 13) s = .next { s with busData := if s.link = .up then 1 else 0 } ∧
    exec (.regrd 16) s = .next { s with busData := BitVec.ofNat 32 s.nsent } ∧
    exec (.regrd 17) s = .next { s with busData := BitVec.ofNat 32 s.nsentBytes } ∧
    exec (.regrd 18) s = .next { s with busData := BitVec.ofNat 32 s.nrecv } ∧
    exec (.regrd 19) s = .next { s with busData := BitVec.ofNat 32 s.ndrop } ∧
    exec (.regrd 20) s = .next { s with busData := BitVec.ofNat 32 s.nerr } ∧
    exec (.regrd 21) s = .next { s with busData := s.phyId } ∧
    exec (.regrd 25) s = .next { s with busData := s.regs.argBuf } ∧
    exec (.regrd 26) s = .next { s with busData := s.regs.argLen } ∧
    exec (.regrd 27) s = .next { s with busData := s.regs.result } ∧
    (∀ no : BitVec 5, no ∈ ([11, 14, 15, 22, 23, 24, 28, 29, 30, 31] : List (BitVec 5)) →
      exec (.regrd no) s = .next { s with busData := 0 })

/-- Reserved register numbers read 0 and ignore writes (10_state.md R53); the read-only registers ignore writes (R35). -/
def Obligations.ReservedAndReadOnlyIgnoreWrites : Prop :=
  ∀ (s : State) (v : Word),
    (∀ no : BitVec 5, no ∈ ([14, 15, 22, 23, 28, 29, 30, 31] : List (BitVec 5)) →
      exec (.regrd no) s = .next { s with busData := 0 } ∧ exec (.regwr no v) s = .next s) ∧
    (∀ no : BitVec 5, no ∈ ([13, 16, 17, 18, 19, 20, 21, 27] : List (BitVec 5)) → exec (.regwr no v) s = .next s)

/-- What a register write leaves in a register that has no further effect: stored fields with reserved bits 0 (10_state.md
R37, R38, R39, R41, R42, R51); write-1-to-clear bits (R43, R46); the ring bases with bits 3:0 0, and the fault while the
engine is enabled (R44, 93 U10; log 17 for "enabled"); nothing else changes (41_register_bridge.md R181, R183). -/
def Obligations.RegwrStoresAndClears : Prop :=
  (∀ (s : State) (v : Word),
      exec (.regwr 1 v) s = .next { s with regs := { s.regs with maccfg := v &&& 0x3 } } ∧
      exec (.regwr 2 v) s = .next { s with regs := { s.regs with macLo := v } } ∧
      exec (.regwr 3 v) s = .next { s with regs := { s.regs with macHi := v &&& 0xFFFF } } ∧
      exec (.regwr 4 v) s = .next { s with regs := { s.regs with filter := v &&& 0x7 } } ∧
      exec (.regwr 6 v) s = .next { s with regs := { s.regs with mdioData := v &&& 0xFFFF } } ∧
      exec (.regwr 7 v) s = .next { s with regs := { s.regs with intEn := v &&& 0x3 } } ∧
      exec (.regwr 25 v) s = .next { s with regs := { s.regs with argBuf := v } } ∧
      exec (.regwr 26 v) s = .next { s with regs := { s.regs with argLen := v } }) ∧
  (∀ (s : State) (v : Word),
      (∃ t, exec (.regwr 8 v) s = .next t ∧ t = { s with regs := { s.regs with intStatus := t.regs.intStatus } } ∧
        ∀ n : Nat, t.regs.intStatus.getLsbD n = (s.regs.intStatus.getLsbD n && !v.getLsbD n)) ∧
      (∃ t, exec (.regwr 12 v) s = .next t ∧ t = { s with regs := { s.regs with diag := t.regs.diag } } ∧
        ∀ n : Nat, t.regs.diag.getLsbD n = (s.regs.diag.getLsbD n && !v.getLsbD n))) ∧
  (∀ (s : State) (v : Word),
      (s.regs.ctrl.getLsbD 1 = true → exec (.regwr 9 v) s = .fault .baseWriteWhileEnabled) ∧
      (s.regs.ctrl.getLsbD 1 = false →
        exec (.regwr 9 v) s = .next { s with regs := { s.regs with rxBase := v &&& 0xFFFFFFF0 } }) ∧
      (s.regs.ctrl.getLsbD 2 = true → exec (.regwr 10 v) s = .fault .baseWriteWhileEnabled) ∧
      (s.regs.ctrl.getLsbD 2 = false →
        exec (.regwr 10 v) s = .next { s with regs := { s.regs with txBase := v &&& 0xFFFFFFF0 } }))

/-- A write of CTRL (10_state.md R36; 41_register_bridge.md R183; 43_ring_ownership.md R244, R252): with bit 0 set only
the reset request; else the enables, SWRST kept, and each engine started at index 0 by a 0-to-1 change, stopped at once
by a 1-to-0 change with no job, left to finish its job otherwise (log 16 for a 0-to-1 change meanwhile). -/
def Obligations.CtrlWrite : Prop :=
  ∀ (s : State) (v : Word),
    (v.getLsbD 0 = true →
      exec (.regwr 0 v) s = .next { s with regs := { s.regs with ctrl := s.regs.ctrl ||| 1 } }) ∧
    (v.getLsbD 0 = false →
      ∃ t, exec (.regwr 0 v) s = .next t ∧
        t = { s with regs := { s.regs with ctrl := (s.regs.ctrl &&& 1) ||| (v &&& 6) }, rx := t.rx, tx := t.tx } ∧
        (s.regs.ctrl.getLsbD 1 = false → v.getLsbD 1 = true → t.rx = ⟨.running, 0, none⟩) ∧
        (s.regs.ctrl.getLsbD 1 = true → v.getLsbD 1 = false → s.rx.job = none →
          t.rx = { s.rx with run := .stopped }) ∧
        (s.regs.ctrl.getLsbD 1 = true → v.getLsbD 1 = false → s.rx.job ≠ none → t.rx = s.rx) ∧
        (s.regs.ctrl.getLsbD 1 = v.getLsbD 1 → t.rx = s.rx) ∧
        (s.regs.ctrl.getLsbD 2 = false → v.getLsbD 2 = true → t.tx = ⟨.running, 0, none⟩) ∧
        (s.regs.ctrl.getLsbD 2 = true → v.getLsbD 2 = false → s.tx.job = none →
          t.tx = { s.tx with st := .stopped }) ∧
        (s.regs.ctrl.getLsbD 2 = true → v.getLsbD 2 = false → s.tx.job ≠ none → t.tx = s.tx) ∧
        (s.regs.ctrl.getLsbD 2 = v.getLsbD 2 → t.tx = s.tx))

/-- The doorbell: a write of any value wakes a Suspended TXDMA and does nothing else (43_ring_ownership.md R253). -/
def Obligations.DoorbellWakesSuspendedEngine : Prop :=
  ∀ (s : State) (v : Word),
    (s.tx.st = .suspended → exec (.regwr 11 v) s = .next { s with tx := { s.tx with st := .running } }) ∧
    (s.tx.st ≠ .suspended → exec (.regwr 11 v) s = .next s)

/-- Command dispatch (40_driver_contract.md R161 to R163): a legal command while HOST is Idle puts `hpc` at the first
label, by R[CMD] or by the command's port alike; `TX` and `UP` need `initialized`; any command while HOST is not Idle,
or inside the handler, is refused by either. That a reserved word is refused then too, and raises BAD_CMD only otherwise,
is the model's reading (DEDUCED, log 21); the record `dirty`, which a start clears, is the model's own (log 11). While HOST
is inside an operation, that instruction itself stands for its next micro-step (log 2). -/
def Obligations.CommandDispatch : Prop :=
  ∀ (s : State),
    (s.hpc = .idle → s.inIsr = false →
      exec .init s = .next { s with hpc := .n0, hsub := .off, hmic := 0, dirty := [] } ∧
      exec (.regwr 24 1) s = .next { s with hpc := .n0, hsub := .off, hmic := 0, dirty := [] } ∧
      (s.initialized = true →
        exec .tx s = .next { s with hpc := .t0, hsub := .off, hmic := 0, dirty := [] } ∧
        exec (.regwr 24 2) s = .next { s with hpc := .t0, hsub := .off, hmic := 0, dirty := [] } ∧
        exec .up s = .next { s with hpc := .u0, hsub := .off, hmic := 0, dirty := [] } ∧
        exec (.regwr 24 3) s = .next { s with hpc := .u0, hsub := .off, hmic := 0, dirty := [] }) ∧
      (s.initialized = false →
        exec .tx s = .refused .notInitialized ∧ exec (.regwr 24 2) s = .refused .notInitialized ∧
        exec .up s = .refused .notInitialized ∧ exec (.regwr 24 3) s = .refused .notInitialized ∧
        (s.cfg.admissible = true → ∀ ms : List Move,
          step (s.withMoves (.cmd 2 :: ms)) = .refused .notInitialized ∧
          step (s.withMoves (.cmd 3 :: ms)) = .refused .notInitialized))) ∧
    (s.hpc ≠ .idle →
      (∀ w : Word, exec (.regwr 24 w) s = .refused .commandWhileBusy) ∧
      (∀ (ms : List Move) (w : Word), s.cfg.admissible = true →
        step (s.withMoves (.cmd w :: ms)) = .refused .commandWhileBusy) ∧
      (∀ i : Instr, (i = .init ∨ i = .tx ∨ i = .up) → opOf s.hpc ≠ some i → exec i s = .refused .commandWhileBusy)) ∧
    (s.hpc = .idle → s.inIsr = true →
      (∀ w : Word, exec (.regwr 24 w) s = .refused .commandInIsr) ∧
      (∀ (ms : List Move) (w : Word), s.cfg.admissible = true →
        step (s.withMoves (.cmd w :: ms)) = .refused .commandInIsr) ∧
      exec .init s = .refused .commandInIsr ∧ exec .tx s = .refused .commandInIsr ∧
      exec .up s = .refused .commandInIsr)

/-- `MAC.RESET`, the one step of MACRST, exactly while SWRST is set: the engines and the MAC, DMA and MDIO registers;
nothing else (41_register_bridge.md R188). That its move changes nothing while SWRST is clear is the model's own choice
(DESIGN CHOICE, log 24). -/
def Obligations.MacResetClearsEnginesAndRegisters : Prop :=
  ∀ (s : State) (ms : List Move), s.cfg.admissible = true →
    (s.regs.ctrl.getLsbD 0 = true →
      step (s.withMoves (.macrst :: ms)) = .next
        { s with
          moves := ms
          rx := ⟨.stopped, 0, none⟩
          tx := ⟨.stopped, 0, none⟩
          regs :=
            { s.regs with
              ctrl := 0, maccfg := 0, macLo := 0, macHi := 0, filter := 0, mdioCtrl := 0, mdioData := 0, intEn := 0,
              intStatus := 0, rxBase := 0, txBase := 0 } }) ∧
    (s.regs.ctrl.getLsbD 0 = false → step (s.withMoves (.macrst :: ms)) = .next (s.withMoves ms))

/-! ### MDIO -/

/-- `MDIOC.XFER` (42_mdio_phy_bridge.md R212): enabled exactly while BUSY is set; the read's answer goes to MDIO_DATA,
the write's datum to the PHY; then BUSY is cleared and the other fields stand. That the instructions `MDIO.RD` and
`MDIO.WR` perform the transaction in flight (log 20), what a PHY does with a written datum (`anyPhy`, `mockPhy`, log 7),
and that the controller's move changes nothing while BUSY is clear (log 24) are the model's own choices (DESIGN CHOICE). -/
def Obligations.MdiocTransfersThenClearsBusy : Prop :=
  ∀ (s : State) (pa ra : BitVec 5) (cr : BitVec 4),
    (s.regs.mdioCtrl.getLsbD 0 = true → phyadField s.regs.mdioCtrl = pa → regadField s.regs.mdioCtrl = ra →
      crField s.regs.mdioCtrl = cr →
      (s.regs.mdioCtrl.getLsbD 1 = false →
        exec (.mdioRd pa ra cr) s = .next
          { s with
            regs :=
              { s.regs with
                mdioData := (phyRead s pa ra).setWidth 32, mdioCtrl := s.regs.mdioCtrl &&& 0xFFFFFFFE } }) ∧
      (s.regs.mdioCtrl.getLsbD 1 = true →
        ∃ t, exec (.mdioWr pa ra cr) s = .next t ∧
          t = { s with
            phy := t.phy
            phyLog := s.phyLog ++ [⟨pa, ra, s.regs.mdioData.extractLsb' 0 16⟩]
            regs := { s.regs with mdioCtrl := s.regs.mdioCtrl &&& 0xFFFFFFFE } } ∧
          (s.cfg.phyKind = .anyPhy → t.phy = s.phy) ∧
          (s.cfg.phyKind = .mockPhy → ∀ pa' ra', phyRead t pa' ra' =
            if pa' = pa ∧ ra' = ra then
              (if ra = s.cfg.regBcr then s.regs.mdioData.extractLsb' 0 16 &&& ~~~s.cfg.bcrReset
                else s.regs.mdioData.extractLsb' 0 16)
            else phyRead s pa' ra'))) ∧
    (∀ ms : List Move, s.cfg.admissible = true → s.regs.mdioCtrl.getLsbD 0 = false →
      step (s.withMoves (.mdioc :: ms)) = .next (s.withMoves ms))

/-- A control word presented to MDIO_CTRL (10_state.md R40; 30_encoding.md R136; 93 U5): with BUSY clear it is stored,
its reserved bits 0, which starts the transaction; with BUSY set the write is refused. As instructions `MDIO.RD` and
`MDIO.WR` present the word of R136, and are refused while another transaction is in flight (log 20). -/
def Obligations.MdioControlWordStartsATransaction : Prop :=
  ∀ (s : State) (v : Word) (pa ra : BitVec 5) (cr : BitVec 4),
    (s.regs.mdioCtrl.getLsbD 0 = true → exec (.regwr 5 v) s = .refused .mdioWriteWhileBusy ∧
      ((s.regs.mdioCtrl.getLsbD 1 = true ∨ phyadField s.regs.mdioCtrl ≠ pa ∨ regadField s.regs.mdioCtrl ≠ ra ∨
        crField s.regs.mdioCtrl ≠ cr) → exec (.mdioRd pa ra cr) s = .refused .mdioWriteWhileBusy) ∧
      ((s.regs.mdioCtrl.getLsbD 1 = false ∨ phyadField s.regs.mdioCtrl ≠ pa ∨ regadField s.regs.mdioCtrl ≠ ra ∨
        crField s.regs.mdioCtrl ≠ cr) → exec (.mdioWr pa ra cr) s = .refused .mdioWriteWhileBusy)) ∧
    (s.regs.mdioCtrl.getLsbD 0 = false →
      exec (.regwr 5 v) s = .next { s with regs := { s.regs with mdioCtrl := v &&& 0x001F1FF3 } } ∧
      (∃ t, exec (.mdioRd pa ra cr) s = .next t ∧ exec (.regwr 5 (mdioWord pa ra cr false)) s = .next t ∧
        t.regs.mdioCtrl.toNat = 2 ^ 16 * pa.toNat + 2 ^ 8 * ra.toNat + 2 ^ 4 * cr.toNat + 1) ∧
      (∃ t, exec (.mdioWr pa ra cr) s = .next t ∧ exec (.regwr 5 (mdioWord pa ra cr true)) s = .next t ∧
        t.regs.mdioCtrl.toNat = 2 ^ 16 * pa.toNat + 2 ^ 8 * ra.toNat + 2 ^ 4 * cr.toNat + 2 + 1))

/-- The two procedures an operation calls, with `p` unsuccessful polls before the controller has done the transaction and
budget left after them (42_mdio_phy_bridge.md R201 to R210, R212). `MDIO.RD` returns the PHY's register in `h.v`; `MDIO.WR`
puts its datum, which `PHY.RESET` fixes (R219), into MDIO_DATA and writes it to the PHY (log 7 for what the PHY does with it).
Both preserve the divider code and return with `h.ok` set.
One pass of a wait (R202, R204, R207, R210): a free controller ends the wait; a busy one is polled again while budget is
left. How the unsuccessful polls are counted beside `h.k` is the model's own (DESIGN CHOICE, log 23). -/
def Obligations.MdioProceduresTransfer : Prop :=
  (∀ (op : Instr) (s : State) (p : Nat) (ms : List Move), s.cfg.admissible = true → hostIn op .mr0 s →
    s.regs.mdioCtrl.getLsbD 0 = false → p < s.cfg.mdioBudget →
    s.moves = [.host, .host] ++ List.replicate p .host ++ [.mdioc, .host, .host] ++ ms →
    ∃ t, Sys2Proof.core.run (p + 5) s = .next t ∧
      t = { flush .host s with
        hsub := .off, h := t.h, moves := ms
        regs := { s.regs with mdioCtrl := t.regs.mdioCtrl, mdioData := t.regs.mdioData } } ∧
      t.h.ok = true ∧ t.h.v = phyRead s s.cfg.phyAddr (mdioReg s) ∧
      t.regs.mdioData = (phyRead s s.cfg.phyAddr (mdioReg s)).setWidth 32 ∧
      crField t.regs.mdioCtrl = crField s.regs.mdioCtrl ∧ t.regs.mdioCtrl.getLsbD 0 = false) ∧
  (∀ (op : Instr) (s : State) (p : Nat) (ms : List Move), s.cfg.admissible = true → hostIn op .mw0 s →
    s.regs.mdioCtrl.getLsbD 0 = false → p < s.cfg.mdioBudget →
    s.moves = [.host, .host, .host] ++ List.replicate p .host ++ [.mdioc, .host, .host] ++ ms →
    ∃ t, Sys2Proof.core.run (p + 6) s = .next t ∧
      t = { flush .host s with
        hsub := .off, h := t.h, moves := ms, phy := t.phy
        phyLog := s.phyLog ++ [⟨s.cfg.phyAddr, mdioReg s, s.cfg.bcrReset⟩]
        regs := { s.regs with mdioCtrl := t.regs.mdioCtrl, mdioData := s.cfg.bcrReset.setWidth 32 } } ∧
      t.h.ok = true ∧ crField t.regs.mdioCtrl = crField s.regs.mdioCtrl ∧ t.regs.mdioCtrl.getLsbD 0 = false ∧
      (s.cfg.phyKind = .anyPhy → t.phy = s.phy) ∧
      (s.cfg.phyKind = .mockPhy → ∀ pa ra, phyRead t pa ra =
        if pa = s.cfg.phyAddr ∧ ra = mdioReg s then
          (if mdioReg s = s.cfg.regBcr then s.cfg.bcrReset &&& ~~~s.cfg.bcrReset else s.cfg.bcrReset)
        else phyRead s pa ra)) ∧
  (∀ (op : Instr) (sub next : SubLabel) (s : State), hostIn op sub s →
    (sub, next) ∈ ([(.mr0, .mr1), (.mr2, .mr3), (.mw0, .mw1), (.mw3, .mw4)] : List (SubLabel × SubLabel)) →
    (s.regs.mdioCtrl.getLsbD 0 = false → exec op s = .next
      { flush .host s with hsub := next, h := { (flush .host s).h with c := s.regs.mdioCtrl } }) ∧
    (s.regs.mdioCtrl.getLsbD 0 = true → s.h.polls + 1 ≠ s.cfg.mdioBudget →
      ∃ t, exec op s = .next t ∧ t.h.polls = s.h.polls + 1 ∧
        t = { flush .host s with
          h := { (flush .host s).h with c := s.regs.mdioCtrl, k := s.h.k + 1, kWraps := t.h.kWraps } }))

/-- `PHY.IDENT`'s last micro-step (42_mdio_phy_bridge.md R220 to R223). -/
def Obligations.PhyIdentRecordsIdAndVendor : Prop :=
  ∀ s : State, hostAt .n5 s → s.hmic = 4 →
    ∃ t, exec .init s = .next t ∧ t.phyId.toNat = 2 ^ 16 * s.h.id1.toNat + s.h.id2.toNat ∧
      t.vendor = classify s.cfg t.phyId ∧ t.h = { s.h with ok := true } ∧ t.hpc = .n6 ∧
      ((t.phyId = 0 ∨ t.phyId = 0xFFFFFFFF) →
        t.regs = { s.regs with diag := s.regs.diag ||| 0x8 } ∧ t.events = s.events ++ [.phyAbsent]) ∧
      (t.phyId ≠ 0 → t.phyId ≠ 0xFFFFFFFF → t.regs = s.regs ∧ t.events = s.events) ∧
      t = { s with
        phyId := t.phyId, vendor := t.vendor, h := t.h, hpc := .n6, hsub := .off, hmic := 0, regs := t.regs,
        events := t.events }

/-- `classify` with the default table (46_link_reconciler.md R316).
The three vendors' default speed and duplex tables (46_link_reconciler.md R317 to R319). The constants are the spec's
own, marked there as general knowledge and not the source's. -/
def Obligations.VendorTables : Prop :=
  (∀ (c : Cfg) (id : Word), c.vendorTable = defaultVendorTable →
      (id.extractLsb' 16 16 = 0x0022 → classify c id = .kszx08x) ∧
      (id.extractLsb' 16 16 = 0x2000 → classify c id = .dp8382x) ∧
      (id.extractLsb' 16 16 ≠ 0x0022 → id.extractLsb' 16 16 ≠ 0x2000 → classify c id = .genericClone)) ∧
  (∀ v : Half,
      (decodeSpeed (speedRow Cfg.test .genericClone) v = v.getLsbD 3 ∧
        decodeDuplex (speedRow Cfg.test .genericClone) v = v.getLsbD 4 ∧
        (speedRow Cfg.test .genericClone).reg = 31) ∧
      (decodeSpeed (speedRow Cfg.test .kszx08x) v = !(v.getLsbD 0 && !v.getLsbD 1) ∧
        decodeDuplex (speedRow Cfg.test .kszx08x) v = v.getLsbD 2 ∧ (speedRow Cfg.test .kszx08x).reg = 30) ∧
      (decodeSpeed (speedRow Cfg.test .dp8382x) v = !v.getLsbD 1 ∧
        decodeDuplex (speedRow Cfg.test .dp8382x) v = v.getLsbD 2 ∧ (speedRow Cfg.test .dp8382x).reg = 16))

/-! ### The divider -/

/-- The scan (47_mdc_divider.md R333, R336): with no override and a clock from BUS_MIN_HZ to the ceiling times the
largest divisor, the first entry whose divisor meets the ceiling is selected and nothing is raised.
The override and the two fallbacks to the slowest code, which is the code of the table's last entry (47_mdc_divider.md R331,
R332, R334, R335). -/
def Obligations.MdcDividerSelection : Prop :=
  (∀ (c : Cfg) (hz : Nat) (d : Nat) (k : BitVec 4), c.mdcOverride = none → c.busHz = some hz → c.busMinHz ≤ hz →
      c.mdcTable.getLast? = some (d, k) → hz ≤ c.mdcCeilingHz * d →
        ∃ pre e post, c.mdcTable = pre ++ e :: post ∧ mdcSel c = (e.2, none) ∧ hz ≤ c.mdcCeilingHz * e.1 ∧
          ∀ f ∈ pre, ¬ hz ≤ c.mdcCeilingHz * f.1) ∧
  (∀ c : Cfg,
      (∀ pre d k, c.mdcTable = pre ++ [(d, k)] → slowestCode c = k) ∧
      (∀ code, c.mdcOverride = some code → mdcSel c = (code, none)) ∧
      (c.mdcOverride = none → c.busHz = none → mdcSel c = (slowestCode c, some .mdcClkLow)) ∧
      (∀ hz, c.mdcOverride = none → c.busHz = some hz → hz < c.busMinHz →
        mdcSel c = (slowestCode c, some .mdcClkLow)) ∧
      (∀ hz, c.mdcOverride = none → c.busHz = some hz → c.busMinHz ≤ hz →
        (∀ e ∈ c.mdcTable, ¬ hz ≤ c.mdcCeilingHz * e.1) → mdcSel c = (slowestCode c, some .mdcClkHigh)))

/-! ### INIT -/

/-- A bounded wait whose transaction never ends makes MDIO_BUDGET polls and takes the timeout (42_mdio_phy_bridge.md
R202, R204, R207, R210, R211): `h.ok` false, the procedure over, PHY_TIMEOUT in DIAG, the label to return to kept.
A reset that never completes is polled RESET_BUDGET times and ends `INIT` with result 0 (40_driver_contract.md R167).
Both hold for every budget, as R164 and 46_link_reconciler.md R325 say; how polls past 2^32 are counted is the model's own
(DESIGN CHOICE, log 23). -/
def Obligations.StuckWaitsTimeOut : Prop :=
  (∀ (op : Instr) (sub : SubLabel) (s : State), hostIn op sub s → isPoll sub = true → s.h.polls = 0 →
      1 ≤ s.cfg.mdioBudget → s.regs.mdioCtrl.getLsbD 0 = true →
        ∃ t, execMany op s.cfg.mdioBudget s = .next t ∧
          t.hsub = .off ∧ t.hpc = s.hpc ∧ t.h.ok = false ∧ t.regs.diag = s.regs.diag ||| 0x4 ∧
          t.events = s.events ++ [.phyTimeout] ∧ t.regs = { s.regs with diag := t.regs.diag } ∧
          t.mem = s.seenBy .host ∧ t.hostBuf = []) ∧
  (∀ s : State, hostAt .n1 s → s.h.polls = 0 → 1 ≤ s.cfg.resetBudget →
      s.regs.ctrl.getLsbD 0 = true →
        ∃ t, execMany .init s.cfg.resetBudget s = .next t ∧ t.hpc = .idle ∧ t.hsub = .off ∧
          t.regs = { s.regs with diag := s.regs.diag ||| 0x10, result := 0 } ∧
          t.events = s.events ++ [.macResetTimeout] ∧ t.initialized = s.initialized ∧
          t.mem = s.seenBy .host ∧ t.hostBuf = [])

/-- Steps N0 to N3 (40_driver_contract.md R166 to R168), with the two diagnostics of N2 (10_state.md R46, 60_exceptions.md
R344) and the refusal of N3's write while a transaction is in flight (93 U5).
Steps N4 and N5: the calls of `PHY.RESET` and `PHY.IDENT`, and the tests of `h.ok` (40_driver_contract.md R169,
42_mdio_phy_bridge.md R219, R220). -/
def Obligations.InitStepsBeforeTheRings : Prop :=
  (∀ s : State,
      (hostAt .n0 s → exec .init s = .next
        { flush .host s with
          initialized := false, regs := { s.regs with ctrl := s.regs.ctrl ||| 1 }
          h := { (flush .host s).h with k := 0, kWraps := 0 }
          hpc := .n1, hsub := .off, hmic := 0 }) ∧
      (hostAt .n1 s → s.regs.ctrl.getLsbD 0 = false → exec .init s = .next
        { flush .host s with
          h := { (flush .host s).h with c := s.regs.ctrl }, hpc := .n2, hsub := .off, hmic := 0 }) ∧
      (hostAt .n1 s → s.regs.ctrl.getLsbD 0 = true → s.h.polls + 1 ≠ s.cfg.resetBudget →
        ∃ t, exec .init s = .next t ∧ t.h.polls = s.h.polls + 1 ∧
          t = { flush .host s with
            h := { (flush .host s).h with c := s.regs.ctrl, k := s.h.k + 1, kWraps := t.h.kWraps } }) ∧
      (hostAt .n2 s → ∃ t, exec .init s = .next t ∧
        t = { s with
          h := { s.h with code := (mdcSel s.cfg).1 }, events := t.events, regs := { s.regs with diag := t.regs.diag }
          hpc := .n3, hsub := .off, hmic := 0 } ∧
        ((mdcSel s.cfg).2 = none → t.events = s.events ∧ t.regs.diag = s.regs.diag) ∧
        ((mdcSel s.cfg).2 = some .mdcClkLow →
          t.events = s.events ++ [.mdcClkLow] ∧ t.regs.diag = s.regs.diag ||| 0x1) ∧
        ((mdcSel s.cfg).2 = some .mdcClkHigh →
          t.events = s.events ++ [.mdcClkHigh] ∧ t.regs.diag = s.regs.diag ||| 0x2)) ∧
      (hostAt .n3 s → s.regs.mdioCtrl.getLsbD 0 = true → exec .init s = .refused .mdioWriteWhileBusy) ∧
      (hostAt .n3 s → s.regs.mdioCtrl.getLsbD 0 = false →
        ∃ t, exec .init s = .next t ∧ t.regs.mdioCtrl.toNat = 16 * s.h.code.toNat ∧
          t = { flush .host s with
            regs := { s.regs with mdioCtrl := t.regs.mdioCtrl }, hpc := .n4, hsub := .off, hmic := 0 })) ∧
  (∀ s : State,
      (hostAt .n4 s → s.hmic = 0 → exec .init s = .next
        { s with hsub := .mw0, hmic := 1, h := { s.h with k := 0, kWraps := 0 } }) ∧
      (hostAt .n4 s → s.hmic = 1 → s.h.ok = true → exec .init s = .next (goto .n5 s)) ∧
      (hostAt .n4 s → s.hmic = 1 → s.h.ok = false → exec .init s = .next (finish 0 s)) ∧
      (hostAt .n5 s → s.hmic = 0 → exec .init s = .next
        { s with hsub := .mr0, hmic := 1, h := { s.h with k := 0, kWraps := 0 } }) ∧
      (hostAt .n5 s → s.hmic = 1 → s.h.ok = true → exec .init s = .next
        { s with hmic := 2, h := { s.h with id1 := s.h.v } }) ∧
      (hostAt .n5 s → s.hmic = 2 → exec .init s = .next
        { s with hsub := .mr0, hmic := 3, h := { s.h with k := 0, kWraps := 0 } }) ∧
      (hostAt .n5 s → s.hmic = 3 → s.h.ok = true → exec .init s = .next
        { s with hmic := 4, h := { s.h with id2 := s.h.v } }) ∧
      (hostAt .n5 s → (s.hmic = 1 ∨ s.hmic = 3) → s.h.ok = false → exec .init s = .next (finish 0 s)))

/-- Steps N6 and N7: the ring bases, the call of `RING.BUILD`, the station address and the filter (40_driver_contract.md
R170, 30_encoding.md R132).
Steps N8 to N12 (40_driver_contract.md R171 to R173): the counters untouched, each engine started where it was disabled
and left alone where it was enabled (43_ring_ownership.md R244, R252); a ring base is not written while its engine is
enabled (10_state.md R44; log 17). -/
def Obligations.InitStepsFromTheRings : Prop :=
  (∀ s : State,
      (hostAt .n6 s → s.hmic = 0 → s.regs.ctrl.getLsbD 1 = false → s.cfg.rxdBase.toNat % 16 = 0 →
        exec .init s = .next { flush .host s with regs := { s.regs with rxBase := s.cfg.rxdBase }, hmic := 1 }) ∧
      (hostAt .n6 s → s.hmic = 1 → s.regs.ctrl.getLsbD 2 = false → s.cfg.txdBase.toNat % 16 = 0 →
        exec .init s = .next { flush .host s with regs := { s.regs with txBase := s.cfg.txdBase }, hmic := 2 }) ∧
      (hostAt .n6 s → s.hmic = 0 → s.regs.ctrl.getLsbD 1 = true → exec .init s = .fault .baseWriteWhileEnabled) ∧
      (hostAt .n6 s → s.hmic = 1 → s.regs.ctrl.getLsbD 2 = true → exec .init s = .fault .baseWriteWhileEnabled) ∧
      (hostAt .n6 s → s.hmic = 2 → exec .init s = .next
        { s with hsub := .b0, hmic := 0, h := { s.h with j := 0 } }) ∧
      (hostAt .n6 s → s.hmic = 3 → exec .init s = .next (goto .n7 s)) ∧
      (hostAt .n7 s → s.hmic = 0 → exec .init s = .next
        { flush .host s with
          regs := { s.regs with macLo := s.cfg.mac.b3 ++ s.cfg.mac.b2 ++ s.cfg.mac.b1 ++ s.cfg.mac.b0 }, hmic := 1 }) ∧
      (hostAt .n7 s → s.hmic = 1 → exec .init s = .next
        { flush .host s with
          regs := { s.regs with macHi := (0 : Half) ++ s.cfg.mac.b5 ++ s.cfg.mac.b4 }, hmic := 2 }) ∧
      (hostAt .n7 s → s.hmic = 2 → exec .init s = .next
        { flush .host s with regs := { s.regs with filter := 2 }, hpc := .n8, hsub := .off, hmic := 0 })) ∧
  (∀ s : State,
      (hostAt .n8 s → exec .init s = .next (goto .n9 { s with link := .down })) ∧
      (hostAt .n9 s → exec .init s = .next (goto .n10 { s with initialized := true })) ∧
      (hostAt .n10 s → ∃ t, exec .init s = .next t ∧
        t = { flush .host s with
          regs := { s.regs with ctrl := (s.regs.ctrl &&& 1) ||| 6 }, rx := t.rx, tx := t.tx
          hpc := .n11, hsub := .off, hmic := 0 } ∧
        (s.regs.ctrl.getLsbD 1 = false → t.rx = ⟨.running, 0, none⟩) ∧
        (s.regs.ctrl.getLsbD 1 = true → t.rx = s.rx) ∧
        (s.regs.ctrl.getLsbD 2 = false → t.tx = ⟨.running, 0, none⟩) ∧
        (s.regs.ctrl.getLsbD 2 = true → t.tx = s.tx)) ∧
      (hostAt .n11 s → exec .init s = .next
        { flush .host s with regs := { s.regs with intEn := 1 }, hpc := .n12, hsub := .off, hmic := 0 }) ∧
      (hostAt .n12 s → exec .init s = .next
        { s with regs := { s.regs with result := 1 }, hpc := .idle, hsub := .off, hmic := 0 }))

/-- `RING.BUILD` issues the stores of every descriptor of both rings in order, clears the indices, and its `FENCE`
performs them all (43_ring_ownership.md R238 to R240); the model records that the rings exist (log 22). -/
def Obligations.RingBuildWritesEveryDescriptor : Prop :=
  ∀ s : State, s.cfg.admissible = true → s.hpc = .n6 → s.hsub = .b0 → s.inIsr = false → s.hmic = 0 → s.h.j = 0 →
    s.hostBuf = [] →
      ∃ t, execMany .init (8 * s.cfg.n + 2) s = .next t ∧ t.hpc = .n6 ∧ t.hsub = .off ∧ t.hmic = 3 ∧
        t.rxIdx = 0 ∧ t.txIdx = 0 ∧ t.ringsBuilt = true ∧ t.hostBuf = [] ∧
        t.mem = Memory.performAll s.mem (buildStores s.cfg) ∧ t.regs = s.regs ∧ t.rx = s.rx ∧ t.tx = s.tx

/-- An `INIT` whose hardware answers at once succeeds and leaves what 70_reset_and_hazards.md R387 lists: the rings
built, both engines Running at index 0, the interrupt unmasked, result 1; the counters keep their values (40 R165,
R171). -/
def Obligations.InitBringsTheMachineUp : Prop :=
  ∀ (s : State) (ms : List Move), s.cfg.admissible = true → s.hpc = .idle → s.hsub = .off → s.inIsr = false →
    s.hostBuf = [] → s.moves = initMoves s.cfg.n ++ ms →
      ∃ t, Sys2Proof.core.run (initMoves s.cfg.n).length s = .next t ∧ t.moves = ms ∧
        t.hpc = .idle ∧ t.initialized = true ∧ t.link = .down ∧ t.regs.result = 1 ∧
        t.regs.ctrl = 6 ∧ t.regs.intEn = 1 ∧ t.regs.intStatus = 0 ∧ t.regs.filter = 2 ∧ t.regs.maccfg = 0 ∧
        t.regs.rxBase = s.cfg.rxdBase ∧ t.regs.txBase = s.cfg.txdBase ∧
        t.regs.macLo = macLoOf s.cfg.mac ∧ t.regs.macHi = macHiOf s.cfg.mac ∧
        crField t.regs.mdioCtrl = (mdcSel s.cfg).1 ∧ t.regs.mdioCtrl.getLsbD 0 = false ∧
        t.phyLog = s.phyLog ++ [⟨s.cfg.phyAddr, s.cfg.regBcr, s.cfg.bcrReset⟩] ∧
        t.phyId = phyIdOf (phyRead t s.cfg.phyAddr s.cfg.regId1) (phyRead t s.cfg.phyAddr s.cfg.regId2) ∧
        t.vendor = classify s.cfg t.phyId ∧
        t.rxIdx = 0 ∧ t.txIdx = 0 ∧ t.rx = ⟨.running, 0, none⟩ ∧ t.tx = ⟨.running, 0, none⟩ ∧
        t.mem = Memory.performAll s.mem (buildStores s.cfg) ∧ t.hostBuf = [] ∧
        t.nsent = s.nsent ∧ t.nsentBytes = s.nsentBytes ∧ t.nrecv = s.nrecv ∧ t.ndrop = s.ndrop ∧ t.nerr = s.nerr

/-! ### TX -/

/-- Step T0 (44_transmit.md R271, R272): the operands captured in two micro-steps, then the ring-full test, which on a
hardware-owned descriptor ends `TX` with result 0 and nothing else changed; that its load is performed at once is an
acquire (20_memory.md R102; log 8).
Step T1 (44_transmit.md R273): the unsigned comparison of the whole 32-bit length; a length equal to BUF_SIZE is
accepted. -/
def Obligations.TxTestsRingThenLength : Prop :=
  (∀ s : State, hostAt .t0 s → s.hostBuf = [] →
      (s.hmic = 0 → exec .tx s = .next { s with hmic := 1, h := { s.h with buf := s.regs.argBuf } }) ∧
      (s.hmic = 1 → exec .tx s = .next { s with hmic := 2, h := { s.h with len := s.regs.argLen } }) ∧
      (s.hmic = 2 → ownBit (s.wordAt (txd s s.txIdx 0)) = true → exec .tx s = .next
        { s with
          h := { s.h with w0 := s.wordAt (txd s s.txIdx 0) }, events := s.events ++ [.ringFull]
          regs := { s.regs with result := 0 }, hpc := .idle, hsub := .off, hmic := 0 }) ∧
      (s.hmic = 2 → ownBit (s.wordAt (txd s s.txIdx 0)) = false → exec .tx s = .next
        { s with h := { s.h with w0 := s.wordAt (txd s s.txIdx 0) }, hpc := .t1, hsub := .off, hmic := 0 })) ∧
  (∀ s : State, hostAt .t1 s →
      (s.cfg.bufSize < s.h.len.toNat → exec .tx s = .next
        { s with
          nerr := (s.nerr + 1) % 2 ^ s.cfg.cntW, events := s.events ++ [.oversize], regs := { s.regs with result := 0 }
          hpc := .idle, hsub := .off, hmic := 0 }) ∧
      (s.h.len.toNat ≤ s.cfg.bufSize → exec .tx s = .next { s with hpc := .t2, hsub := .off, hmic := 0 }))

/-- Step T2, one micro-step at a time (44_transmit.md R274): the slot's buffer pointer, the read and the write of one
byte, the end of the copy; and the free value a byte takes that UPPER has written since `TX` started, or that lies in a TX
buffer (93 U15; log 11). The accesses are issued; under WEAK they may wait, a byte's load with its store (20_memory.md R96;
log 8). -/
def Obligations.TxCopiesOneByte : Prop :=
  ∀ s : State, hostAt .t2 s →
    (s.hmic = 0 → hwOwns s (txd s s.txIdx 0) = false →
      ∃ u, u = issue .host (.load (txd s s.txIdx 2) .hostBufp) s ∧
        exec .tx s = .next { u with hmic := 1, h := { u.h with j := 0 } }) ∧
    (s.hmic = 1 → s.h.len.toNat ≤ s.h.j.toNat → exec .tx s = .next (goto .t3 s)) ∧
    (∀ a : Nat, a = addrAt s.cfg s.h.buf s.h.j.toNat → s.hmic = 1 → s.h.j.toNat < s.h.len.toNat →
      (placeOf s.cfg a).isDesc = false → placeHwOwned s (placeOf s.cfg a) = false →
      ((∀ k, placeOf s.cfg a ≠ .txBuf k) → s.dirty.contains a = false → exec .tx s = .next
        { issue .host (.load a .hostByte) s with hmic := 2 }) ∧
      ((∃ k, placeOf s.cfg a = .txBuf k) ∨ s.dirty.contains a = true → exec .tx s = .next
        { s with hmic := 2, h := { s.h with byte := Config.freeByte s.freeCtr }, freeCtr := s.freeCtr + 1 })) ∧
    (s.hmic = 2 → hwOwns s (txd s s.txIdx 0) = false →
      ((∀ p ∈ s.hostBuf, p.fills = none) →
        ∃ u, u = issue .host (.byte (addrAt s.cfg s.h.bufp s.h.j.toNat) s.h.byte) s ∧
          exec .tx s = .next { u with hmic := 1, h := { u.h with j := s.h.j + 1 } }) ∧
      (∀ (pre : List Pending) (a : Nat), s.hostBuf = pre ++ [.load a .hostByte] → (∀ p ∈ pre, p.fills = none) →
        exec .tx s = .next
          { s with
            hmic := 1, h := { s.h with j := s.h.j + 1 }
            hostBuf := pre ++ [.copy a (addrAt s.cfg s.h.bufp s.h.j.toNat)] }) ∧
      (∀ (d a : Nat), s.hostBuf = [.load d .hostBufp, .load a .hostByte] →
        exec .tx s = .next
          { s with
            hmic := 1, h := { s.h with j := s.h.j + 1, bufp := s.wordAt d }
            hostBuf := [.copy a (addrAt s.cfg (s.wordAt d) s.h.j.toNat)] }) ∧
      (∀ d : Nat, s.hostBuf = [.load d .hostBufp] →
        ∃ u, u = issue .host (.byte (addrAt s.cfg (s.wordAt d) s.h.j.toNat) s.h.byte)
            { s with hostBuf := [], h := { s.h with bufp := s.wordAt d } } ∧
          exec .tx s = .next { u with hmic := 1, h := { u.h with j := s.h.j + 1 } }))

/-- Steps T3 to T6 (44_transmit.md R275 to R277): the length, the flags word, the `FENCE`, and the hand-over store; FS, LS
and AC set, WRAP as read, every other bit 0.
Steps T7 and T8 (44_transmit.md R278 to R280): `FENCE` and doorbell; then index, counters and result in one
micro-step. A store issued may wait under WEAK (20_memory.md R96; log 8). -/
def Obligations.TxPublishesAndCounts : Prop :=
  (∀ s : State,
      (hostAt .t3 s → hwOwns s (txd s s.txIdx 0) = false → exec .tx s = .next
        (goto .t4 (issue .host (.word (txd s s.txIdx 1) s.h.len) s))) ∧
      (hostAt .t4 s → hwOwns s (txd s s.txIdx 0) = false → exec .tx s = .next
        (goto .t5 (issue .host (.word (txd s s.txIdx 0) ((s.h.w0 &&& 0x40000000) ||| 0x38000000)) s))) ∧
      (hostAt .t5 s → exec .tx s = .next (goto .t6 (fence .host s))) ∧
      (hostAt .t6 s → hwOwns s (txd s s.txIdx 0) = false → exec .tx s = .next
        (goto .t7 (issue .host (.word (txd s s.txIdx 0) ((s.h.w0 &&& 0x40000000) ||| 0xB8000000)) s)))) ∧
  (∀ s : State,
      (hostAt .t7 s → s.hmic = 0 → exec .tx s = .next { fence .host s with hmic := 1 }) ∧
      (hostAt .t7 s → s.hmic = 1 → s.tx.st = .suspended → exec .tx s = .next
        (goto .t8 { flush .host s with tx := { s.tx with st := .running } })) ∧
      (hostAt .t7 s → s.hmic = 1 → s.tx.st ≠ .suspended → exec .tx s = .next (goto .t8 (flush .host s))) ∧
      (hostAt .t8 s → exec .tx s = .next
        { s with
          txIdx := (s.txIdx + 1) % s.cfg.n, nsent := (s.nsent + 1) % 2 ^ s.cfg.cntW
          nsentBytes := (s.nsentBytes + s.h.len.toNat) % 2 ^ s.cfg.cntW
          regs := { s.regs with result := s.h.len }, hpc := .idle, hsub := .off, hmic := 0 }))

/-- A whole `TX` of a frame that fits, outside the rings' memory, into a free slot, with nothing in between (44_transmit.md
R270, R274 to R280): after 2 * len + 14 micro-steps the frame is in the slot, LEN and the hand-over word are stored, no
other byte has changed, the index and the counters have advanced and the result is the length. -/
def Obligations.TxQueuesTheWholeFrame : Prop :=
  ∀ (s : State), s.cfg.admissible = true → s.hpc = .idle → s.inIsr = false → s.initialized = true → s.hostBuf = [] →
    s.txIdx < s.cfg.n → s.regs.argLen.toNat ≤ s.cfg.bufSize →
    ownBit (s.wordAt (txd s s.txIdx 0)) = false →
    s.wordAt (txd s s.txIdx 2) = BitVec.ofNat 32 (slotBuf s.cfg s.cfg.txbufBase s.txIdx) →
    (∀ k, k < s.regs.argLen.toNat → placeOf s.cfg (addrAt s.cfg s.regs.argBuf k) = .elsewhere) →
      ∃ t, execMany .tx (2 * s.regs.argLen.toNat + 14) s = .next t ∧ t.hpc = .idle ∧ t.hostBuf = [] ∧
        t.regs = { s.regs with result := s.regs.argLen } ∧ t.txIdx = (s.txIdx + 1) % s.cfg.n ∧
        t.nsent = (s.nsent + 1) % 2 ^ s.cfg.cntW ∧
        t.nsentBytes = (s.nsentBytes + s.regs.argLen.toNat) % 2 ^ s.cfg.cntW ∧ t.nerr = s.nerr ∧
        (∀ k, k < s.regs.argLen.toNat →
          t.byteAt (slotBuf s.cfg s.cfg.txbufBase s.txIdx + k) = s.byteAt (addrAt s.cfg s.regs.argBuf k)) ∧
        t.wordAt (txd s s.txIdx 1) = s.regs.argLen ∧
        t.wordAt (txd s s.txIdx 0) = ((s.wordAt (txd s s.txIdx 0) &&& 0x40000000) ||| 0xB8000000) ∧
        (∀ a : Nat, a ∉ wordAddrs (txd s s.txIdx 0) → a ∉ wordAddrs (txd s s.txIdx 1) →
          (∀ k, k < s.regs.argLen.toNat → a ≠ slotBuf s.cfg s.cfg.txbufBase s.txIdx + k) →
          t.byteAt a = s.byteAt a) ∧
        t.wireOut = s.wireOut ∧ t.link = s.link

/-! ### UP -/

/-- Steps U0 and U1 (46_link_reconciler.md R311, R312, R314): the status poll's call and its timeout, and the decision.
Steps U2 to U6 (46_link_reconciler.md R313, R315, R320): the vendor register's read and its timeout, the vendor's
rule, one read and one write of MACCFG, and `link` Up only then. -/
def Obligations.UpSteps : Prop :=
  (∀ s : State,
      (hostAt .u0 s → s.hmic = 0 → exec .up s = .next
        { s with hsub := .mr0, hmic := 1, h := { s.h with k := 0, kWraps := 0 } }) ∧
      (hostAt .u0 s → s.hmic = 1 → s.h.ok = false → exec .up s = .next
        { s with
          link := .down, regs := { s.regs with result := 0 }, hpc := .idle, hsub := .off, hmic := 0 }) ∧
      (hostAt .u0 s → s.hmic = 1 → s.h.ok = true → exec .up s = .next (goto .u1 s)) ∧
      (hostAt .u1 s → s.h.v.getLsbD s.cfg.bsrLink.toNat = false → exec .up s = .next
        { s with
          h := { s.h with up := false }, link := .down, regs := { s.regs with result := 0 }
          hpc := .idle, hsub := .off, hmic := 0 }) ∧
      (hostAt .u1 s → s.h.v.getLsbD s.cfg.bsrLink.toNat = true → s.link = .up → exec .up s = .next
        { s with
          h := { s.h with up := true }, regs := { s.regs with result := 1 }, hpc := .idle, hsub := .off, hmic := 0 }) ∧
      (hostAt .u1 s → s.h.v.getLsbD s.cfg.bsrLink.toNat = true → s.link = .down → exec .up s = .next
        { s with h := { s.h with up := true }, hpc := .u2, hsub := .off, hmic := 0 })) ∧
  (∀ s : State,
      (hostAt .u2 s → s.hmic = 0 → exec .up s = .next
        { s with hsub := .mr0, hmic := 1, h := { s.h with k := 0, kWraps := 0 } }) ∧
      (hostAt .u2 s → mdioReg s = (speedRow s.cfg s.vendor).reg) ∧
      (hostAt .u2 s → s.hmic = 1 → s.h.ok = false → exec .up s = .next
        { s with regs := { s.regs with result := 0 }, hpc := .idle, hsub := .off, hmic := 0 }) ∧
      (hostAt .u2 s → s.hmic = 1 → s.h.ok = true → exec .up s = .next (goto .u3 s)) ∧
      (hostAt .u3 s → exec .up s = .next
        (goto .u4
          { s with
            h :=
              { s.h with
                spd := decodeSpeed (speedRow s.cfg s.vendor) s.h.v
                dup := decodeDuplex (speedRow s.cfg s.vendor) s.h.v } })) ∧
      (hostAt .u4 s → exec .up s = .next (goto .u5
        { flush .host s with h := { (flush .host s).h with c := s.regs.maccfg } })) ∧
      (hostAt .u5 s → ∃ t, exec .up s = .next t ∧
        t.regs.maccfg.toNat = (if s.h.spd then 1 else 0) + 2 * (if s.h.dup then 1 else 0) ∧
        t = goto .u6 { flush .host s with regs := { s.regs with maccfg := t.regs.maccfg } }) ∧
      (hostAt .u6 s → exec .up s = .next
        { s with link := .up, regs := { s.regs with result := 1 }, hpc := .idle, hsub := .off, hmic := 0 }))

/-- A whole `UP` at the Down to Up edge with a PHY that answers (46_link_reconciler.md R308, R310 to R320): speed and duplex
by the vendor's rule in MACCFG, `link` Up, result 1. -/
def Obligations.UpReconcilesTheLinkEdge : Prop :=
  ∀ (s : State) (ms : List Move), s.cfg.admissible = true → s.hpc = .idle → s.inIsr = false → s.initialized = true →
    s.regs.mdioCtrl.getLsbD 0 = false → s.link = .down →
    (phyRead s s.cfg.phyAddr s.cfg.regBsr).getLsbD s.cfg.bsrLink.toNat = true → s.moves = upEdgeMoves ++ ms →
      ∃ t, Sys2Proof.core.run upEdgeMoves.length s = .next t ∧ t.moves = ms ∧ t.hpc = .idle ∧ t.link = .up ∧
        t.regs.result = 1 ∧
        t.regs.maccfg.toNat =
          (if decodeSpeed (speedRow s.cfg s.vendor)
              (phyRead s s.cfg.phyAddr (speedRow s.cfg s.vendor).reg) then 1 else 0) +
          2 * (if decodeDuplex (speedRow s.cfg s.vendor)
              (phyRead s s.cfg.phyAddr (speedRow s.cfg s.vendor).reg) then 1 else 0) ∧
        t.events = s.events ∧ t.rx = s.rx ∧ t.tx = s.tx ∧ t.vendor = s.vendor

/-- A whole `UP` that finds no edge (46_link_reconciler.md R308, R312, R314, R321): MACCFG is not written; `link` follows
the status bit. -/
def Obligations.UpWithoutEdgeLeavesMaccfg : Prop :=
  ∀ (s : State) (ms : List Move), s.cfg.admissible = true → s.hpc = .idle → s.inIsr = false → s.initialized = true →
    s.regs.mdioCtrl.getLsbD 0 = false → s.moves = upPollMoves ++ ms →
    (s.link = .up ∨ (phyRead s s.cfg.phyAddr s.cfg.regBsr).getLsbD s.cfg.bsrLink.toNat = false) →
      ∃ t, Sys2Proof.core.run upPollMoves.length s = .next t ∧ t.moves = ms ∧ t.hpc = .idle ∧
        t.regs.maccfg = s.regs.maccfg ∧
        t.link = (if (phyRead s s.cfg.phyAddr s.cfg.regBsr).getLsbD s.cfg.bsrLink.toNat then .up else .down) ∧
        t.regs.result = (if (phyRead s s.cfg.phyAddr s.cfg.regBsr).getLsbD s.cfg.bsrLink.toNat then 1 else 0)

/-! ### The interrupt and RXIRQ -/

/-- The line is asserted exactly where some status bit is set and enabled, and then, outside the handler, ISR's move
enters it; where it is not asserted ISR has no step (10_state.md R56, 60_exceptions.md R352, 30_encoding.md R130), which
the model writes as a move that changes nothing (DESIGN CHOICE, log 24). -/
def Obligations.InterruptEntersExactlyWhenAsserted : Prop :=
  ∀ (s : State) (ms : List Move), s.cfg.admissible = true → s.inIsr = false →
    (s.irqLine = true ↔
      (s.regs.intStatus.getLsbD 0 = true ∧ s.regs.intEn.getLsbD 0 = true) ∨
        (s.regs.intStatus.getLsbD 1 = true ∧ s.regs.intEn.getLsbD 1 = true)) ∧
    (s.irqLine = true → step (s.withMoves (.isr :: ms)) = .next (takeInterrupt (s.withMoves ms))) ∧
    (s.irqLine = false → step (s.withMoves (.isr :: ms)) = .next (s.withMoves ms))

/-- Interrupt entry (60_exceptions.md R354): `in_isr` set, `ipc` at I0, an ordering point of both contexts, HOST's own
state kept; by the cause that selects each of the two instructions (45_receive_irq.md R290), which the model keeps (DESIGN
CHOICE, log 19). A load of HOST's that was outstanding fills its register at this ordering point (log 8).
Interrupt return, step I8 (60_exceptions.md R356), and what HOST may do meanwhile: nothing (00_scope.md R13), which the
model writes as a micro-step that changes nothing (DESIGN CHOICE, log 24). -/
def Obligations.InterruptEntryAndReturn : Prop :=
  (∀ (s : State) (i : Instr), s.inIsr = false →
      ((∃ rbu : Bool, i = .rxirq rbu ∧ s.cause.getLsbD 0 = true ∧ s.cause.getLsbD 1 = rbu) ∨
        (i = .rxirqRbu ∧ s.cause.getLsbD 0 = false ∧ s.cause.getLsbD 1 = true)) →
      ∃ t, exec i s = .next t ∧
        t = { flush .isr (flush .host s) with inIsr := true, ipc := .i0, imic := 0, icause := s.cause } ∧
        t.mem = Memory.performAll (Memory.performAll s.mem s.hostBuf) s.isrBuf ∧ t.hostBuf = [] ∧ t.isrBuf = [] ∧
        t.hpc = s.hpc ∧ t.hsub = s.hsub ∧ t.hmic = s.hmic ∧ t.regs = s.regs ∧
        t.h = { s.h with byte := t.h.byte, bufp := t.h.bufp } ∧
        ((∀ p ∈ s.hostBuf ++ s.isrBuf, p.fills = none) → t.h = s.h ∧ t.i = s.i)) ∧
  (∀ (s : State) (i : Instr),
      (isHandler i = true → isrAt .i8 0 s → exec i s = .next
        { flush .isr (flush .host s) with inIsr := false, ipc := .idle, imic := 0 }) ∧
      (s.inIsr = true → opOf s.hpc = some i → exec i s = .next s))

/-- Steps I3 and I4 (45_receive_irq.md R294 to R297): LEN and the buffer pointer; a complete frame without error bits is
delivered and then counted, any other is dropped. The two loads of I3 are issued; under WEAK either may wait, and a
delivery has both performed (20_memory.md R96; log 8). -/
def Obligations.RxirqDeliversGoodFramesOnly : Prop :=
  ∀ (s : State) (i : Instr), isHandler i = true → hwOwns s (rxd s s.rxIdx 0) = false →
    (isrAt .i3 0 s → exec i s = .next { issue .isr (.load (rxd s s.rxIdx 1) .isrLen) s with imic := 1 }) ∧
    (isrAt .i3 1 s → exec i s = .next (igoto .i4 (issue .isr (.load (rxd s s.rxIdx 2) .isrBufp) s))) ∧
    (isrAt .i4 0 s →
      (fsBit s.i.w0 = true ∧ lsBit s.i.w0 = true ∧ esBit s.i.w0 = false ∧ aeBit s.i.w0 = false ∧
        ceBit s.i.w0 = false ∧ leBit s.i.w0 = false) →
      ((∀ p ∈ s.isrBuf, p.fills = none) → exec i s = .next
        { s with deliverLog := s.deliverLog ++ [s.bytesAt s.i.bufp s.i.len.toNat], imic := 1 }) ∧
      (∀ a b : Nat, s.isrBuf = [.load a .isrLen, .load b .isrBufp] → exec i s = .next
        { s with
          i := { s.i with len := (s.wordAt a).extractLsb' 0 14, bufp := s.wordAt b }, isrBuf := []
          deliverLog := s.deliverLog ++ [s.bytesAt (s.wordAt b) ((s.wordAt a).extractLsb' 0 14).toNat], imic := 1 }) ∧
      (∀ a : Nat, s.isrBuf = [.load a .isrLen] → exec i s = .next
        { s with
          i := { s.i with len := (s.wordAt a).extractLsb' 0 14 }, isrBuf := []
          deliverLog := s.deliverLog ++ [s.bytesAt s.i.bufp ((s.wordAt a).extractLsb' 0 14).toNat], imic := 1 }) ∧
      (∀ b : Nat, s.isrBuf = [.load b .isrBufp] → exec i s = .next
        { s with
          i := { s.i with bufp := s.wordAt b }, isrBuf := []
          deliverLog := s.deliverLog ++ [s.bytesAt (s.wordAt b) s.i.len.toNat], imic := 1 })) ∧
    (isrAt .i4 1 s → exec i s = .next (igoto .i5 { s with nrecv := (s.nrecv + 1) % 2 ^ s.cfg.cntW })) ∧
    (isrAt .i4 0 s →
      (fsBit s.i.w0 = false ∨ lsBit s.i.w0 = false ∨ esBit s.i.w0 = true ∨ aeBit s.i.w0 = true ∨
        ceBit s.i.w0 = true ∨ leBit s.i.w0 = true) → exec i s = .next
      (igoto .i5 { s with ndrop := (s.ndrop + 1) % 2 ^ s.cfg.cntW, events := s.events ++ [.rxBadFrame] }))

/-- Steps I0 to I2 (45_receive_irq.md R291 to R293): the snapshot, the cap test first, the ownership test, the `FENCE`.
Steps I5 and I6 (45_receive_irq.md R298, R299): LEN cleared, the `FENCE`, the hand-over store with WRAP kept and every
other bit but OWN 0; the index and the iteration count.
Step I7 (45_receive_irq.md R300): the bits of the snapshot are cleared, but RXC stays after a cap hit.
A store issued may wait under WEAK; the load of I1 is performed when issued (20_memory.md R96, R102), after the context's own
store to that word where one waits still, as with N = 1 the re-arm of I5 may (R97; log 8). How iterations past 2^32 are
counted beside `i.iter` is the model's own (DESIGN CHOICE, log 23). -/
def Obligations.RxirqLoopSteps : Prop :=
  (∀ (s : State) (i : Instr), isHandler i = true →
      (isrAt .i0 0 s → exec i s = .next
        (igoto .i1
          { flush .isr s with i := { (flush .isr s).i with snap := s.regs.intStatus, iter := 0, iterWraps := 0, cap := false } })) ∧
      (isrAt .i1 0 s → s.i.iterations = s.cfg.rxLoopCap → exec i s = .next
        (igoto .i7 { s with i := { s.i with cap := true } })) ∧
      (isrAt .i1 0 s → s.i.iterations ≠ s.cfg.rxLoopCap → exec i s = .next { s with imic := 1 }) ∧
      (isrAt .i1 1 s → s.isrBuf.any (Pending.hits (wordAddrs (rxd s s.rxIdx 0))) = false →
        ownBit (s.wordAt (rxd s s.rxIdx 0)) = true → exec i s = .next
          (igoto .i7 { s with i := { s.i with w0 := s.wordAt (rxd s s.rxIdx 0) } })) ∧
      (isrAt .i1 1 s → s.isrBuf.any (Pending.hits (wordAddrs (rxd s s.rxIdx 0))) = false →
        ownBit (s.wordAt (rxd s s.rxIdx 0)) = false → exec i s = .next
          (igoto .i2 { s with i := { s.i with w0 := s.wordAt (rxd s s.rxIdx 0) } })) ∧
      (∀ (pre : List Pending) (v : Word), isrAt .i1 1 s → s.isrBuf = pre ++ [.word (rxd s s.rxIdx 0) v] →
        pre.any (Pending.hits (wordAddrs (rxd s s.rxIdx 0))) = false → ∀ u : State,
        u = { s with
          mem := Memory.setWord s.mem (rxd s s.rxIdx 0) v, isrBuf := pre, i := { s.i with w0 := v } } →
          (ownBit v = true → exec i s = .next (igoto .i7 u)) ∧ (ownBit v = false → exec i s = .next (igoto .i2 u))) ∧
      (isrAt .i2 0 s → exec i s = .next (igoto .i3 (fence .isr s)))) ∧
  (∀ (s : State) (i : Instr), isHandler i = true →
      (isrAt .i5 0 s → hwOwns s (rxd s s.rxIdx 0) = false → exec i s = .next
        { issue .isr (.word (rxd s s.rxIdx 1) 0) s with imic := 1 }) ∧
      (isrAt .i5 1 s → exec i s = .next { fence .isr s with imic := 2 }) ∧
      (isrAt .i5 2 s → hwOwns s (rxd s s.rxIdx 0) = false → exec i s = .next
        (igoto .i6 (issue .isr (.word (rxd s s.rxIdx 0) (0x80000000 ||| (s.i.w0 &&& 0x40000000))) s))) ∧
      (isrAt .i6 0 s → ∃ t, exec i s = .next t ∧ t.i.iterations = s.i.iterations + 1 ∧
        t = igoto .i1 { s with
          rxIdx := (s.rxIdx + 1) % s.cfg.n, i := { s.i with iter := s.i.iter + 1, iterWraps := t.i.iterWraps } })) ∧
  (∀ (s : State) (i : Instr), isHandler i = true → isrAt .i7 0 s →
      ∃ t, exec i s = .next t ∧
        (∀ n : Nat, t.regs.intStatus.getLsbD n =
          (s.regs.intStatus.getLsbD n && !(s.i.snap.getLsbD n && !(s.i.cap && decide (n = 0))))) ∧
        t = igoto .i8 { flush .isr s with regs := { s.regs with intStatus := t.regs.intStatus } })

/-- Every micro-step of an invocation leaves it less work, and nothing else gives it more: not another instruction, and not a
move of any agent, those that run no instruction among them. So whatever the other agents do the handler returns, after at
most 20 * RX_LOOP_CAP + 16 of its micro-steps, for every cap (45_receive_irq.md R307; log 23 for the count). -/
def Obligations.HandlerWorkIsBounded : Prop :=
  ∀ s t : State, BoundsOk s →
    isrWorkLeft s ≤ 20 * s.cfg.rxLoopCap + 16 ∧
    (∀ i : Instr, exec i s = .next t →
      (isHandler i = true → s.inIsr = true → s.ipc ≠ .idle → isrWorkLeft t < isrWorkLeft s) ∧
      (isHandler i = false → isrWorkLeft t = isrWorkLeft s)) ∧
    (step s = .next t → s.inIsr = true → s.ipc ≠ .idle → isrWorkLeft t ≤ isrWorkLeft s) ∧
    (∀ (m : Move) (ms : List Move), s.moves = m :: ms → step s = .next t →
      (m = .isr → s.inIsr = true → s.ipc ≠ .idle → isrWorkLeft t < isrWorkLeft s) ∧
      (m ≠ .isr → isrWorkLeft t = isrWorkLeft s))

/-- A whole invocation that finds one good frame (45_receive_irq.md R290 to R301): delivered, counted, the descriptor as
freshly built, the index advanced, the status cleared, HOST released; no other byte of memory has changed. -/
def Obligations.RxirqDrainsOneGoodFrame : Prop :=
  ∀ (s : State), s.cfg.admissible = true → s.inIsr = false → s.hostBuf = [] → s.isrBuf = [] →
    s.cause.getLsbD 0 = true → s.rxIdx < s.cfg.n → 2 ≤ s.cfg.n → 2 ≤ s.cfg.rxLoopCap →
    ownBit (s.wordAt (rxd s s.rxIdx 0)) = false → goodFrame (s.wordAt (rxd s s.rxIdx 0)) = true →
    ownBit (s.wordAt (rxd s ((s.rxIdx + 1) % s.cfg.n) 0)) = true →
      ∃ t, execMany (.rxirq (s.cause.getLsbD 1)) 17 s = .next t ∧ t.inIsr = false ∧ t.ipc = .idle ∧
        t.deliverLog = s.deliverLog ++
          [s.bytesAt (s.wordAt (rxd s s.rxIdx 2)) (lenField (s.wordAt (rxd s s.rxIdx 1))).toNat] ∧
        t.nrecv = (s.nrecv + 1) % 2 ^ s.cfg.cntW ∧ t.ndrop = s.ndrop ∧ t.rxIdx = (s.rxIdx + 1) % s.cfg.n ∧
        t.wordAt (rxd s s.rxIdx 0) = 0x80000000 ||| (s.wordAt (rxd s s.rxIdx 0) &&& 0x40000000) ∧
        t.wordAt (rxd s s.rxIdx 1) = 0 ∧
        (∀ a : Nat, a ∉ wordAddrs (rxd s s.rxIdx 0) → a ∉ wordAddrs (rxd s s.rxIdx 1) → t.byteAt a = s.byteAt a) ∧
        (∀ n : Nat, t.regs.intStatus.getLsbD n = false) ∧
        t.hpc = s.hpc ∧ t.hsub = s.hsub ∧ t.hmic = s.hmic ∧ t.h = s.h

/-! ### The receive engine -/

/-- The phases of `RXDMA.FILL`, one micro-step each (43_ring_ownership.md R248, R250): the poll latches word 0; the buffer
pointer; one byte of the segment; the length.
Phase QR4 (43_ring_ownership.md R250): the word 0 stored, bit by bit, and the engine's position; and the end of a
reception (R251): RXC set, no job, an engine disabled meanwhile stopped (R244). That the end is a micro-step of
its own is the model's choice (log 15). -/
def Obligations.RxFillPhases : Prop :=
  (∀ (s : State) (j : RxJob) (w0 : Word), s.rx.job = some j →
      (j.phase = .qr1 → exec (.rxdmaFill w0) s = .next
        { s with rx := { s.rx with job := some { j with phase := .qr2, mic := 0, w0 := w0 } } }) ∧
      (j.phase = .qr2 → j.mic = 0 → exec (.rxdmaFill w0) s = .next
        { s with
          rx := { s.rx with
            job := some
              { j with mic := 1, bufp := s.wordAt (engRxd s s.rx.idx 2), todo := List.range (segLen s j) } } }) ∧
      (j.phase = .qr2 → j.mic = 1 → j.todo ≠ [] →
        ∃ k ∈ j.todo, ∃ t, exec (.rxdmaFill w0) s = .next t ∧
          t = { s with
            mem := Memory.set s.mem (addrAt s.cfg j.bufp k) (j.frame.bytes.getD (j.off + k) 0), rx := t.rx } ∧
          (j.todo.erase k ≠ [] → t.rx = { s.rx with job := some { j with todo := j.todo.erase k } }) ∧
          (j.todo.erase k = [] →
            t.rx = { s.rx with job := some { j with todo := [], phase := .qr3, mic := 0 } })) ∧
      (j.phase = .qr3 → exec (.rxdmaFill w0) s = .next
        { s with
          mem := Memory.setWord s.mem (engRxd s s.rx.idx 1) (BitVec.ofNat 32 (segLen s j))
          rx := { s.rx with job := some { j with phase := .qr4, mic := 0 } } })) ∧
  (∀ (s : State) (j : RxJob) (w0 : Word), s.rx.job = some j → j.phase = .qr4 →
      (j.mic = 0 → hwOwns s (engRxd s s.rx.idx 0) = true → wrapBit j.w0 = decide (s.rx.idx + 1 = s.cfg.n) →
        ∃ t v, exec (.rxdmaFill w0) s = .next t ∧
          t = { s with mem := Memory.setWord s.mem (engRxd s s.rx.idx 0) v, rx := t.rx } ∧
          ownBit v = false ∧ wrapBit v = wrapBit j.w0 ∧ fsBit v = j.first ∧ lsBit v = segLast s j ∧ acBit v = false ∧
          ceBit v = (segLast s j && j.frame.ce) ∧ leBit v = (segLast s j && j.frame.le) ∧
          aeBit v = (segLast s j && j.frame.ae) ∧
          esBit v = (segLast s j && (j.frame.ce || j.frame.le || j.frame.ae)) ∧
          v &&& 0x07FF7FF8 = 0 ∧
          t.rx.run = s.rx.run ∧ t.rx.idx = (if wrapBit j.w0 then 0 else s.rx.idx + 1) ∧
          (segLast s j = false → t.rx.job = some
            { j with phase := .qr1, mic := 0, off := j.off + segLen s j, first := false }) ∧
          (segLast s j = true → t.rx.job = some
            { j with mic := 1, off := j.off + segLen s j, first := false })) ∧
      (j.mic = 1 → exec (.rxdmaFill w0) s = .next
        { s with
          regs := { s.regs with intStatus := s.regs.intStatus ||| 1 }
          rx := ⟨if s.regs.ctrl.getLsbD 1 then s.rx.run else .stopped, s.rx.idx, none⟩ }))

/-- A whole segment, its bytes in whatever order the picks of the engine's moves say (43_ring_ownership.md R250): after
n + 4 moves the n bytes are in the buffer, LEN is n and word 0 is published, no other byte has changed. The descriptor's
own words must not lie in the buffer; the rules place them apart (20_memory.md R94). -/
def Obligations.RxFillStoresTheWholeSegment : Prop :=
  ∀ (s : State) (j : RxJob) (picks : List Nat) (ms : List Move), s.cfg.admissible = true → s.rx.job = some j →
    j.phase = .qr1 → j.off < j.frame.bytes.length → hwOwns s (engRxd s s.rx.idx 0) = true →
    wrapBit (s.wordAt (engRxd s s.rx.idx 0)) = decide (s.rx.idx + 1 = s.cfg.n) →
    (∀ k, k < segLen s j → ∀ w, w < 3 →
      addrAt s.cfg (s.wordAt (engRxd s s.rx.idx 2)) k ∉ wordAddrs (engRxd s s.rx.idx w)) →
    picks.length = segLen s j + 4 → s.moves = picks.map Move.rxdma ++ ms →
      ∃ t, Sys2Proof.core.run (segLen s j + 4) s = .next t ∧
        (∀ k, k < segLen s j →
          some (t.byteAt (addrAt s.cfg (s.wordAt (engRxd s s.rx.idx 2)) k)) = j.frame.bytes[j.off + k]?) ∧
        (t.wordAt (engRxd s s.rx.idx 1)).toNat = segLen s j ∧
        t.wordAt (engRxd s s.rx.idx 0) =
          fillWord (s.wordAt (engRxd s s.rx.idx 0)) j.first (segLast s j) j.frame.ce j.frame.le j.frame.ae ∧
        (∀ a : Nat, a ∉ wordAddrs (engRxd s s.rx.idx 0) → a ∉ wordAddrs (engRxd s s.rx.idx 1) →
          (∀ k, k < segLen s j → a ≠ addrAt s.cfg (s.wordAt (engRxd s s.rx.idx 2)) k) →
          t.byteAt a = s.byteAt a) ∧
        t.rx.idx = (if wrapBit (s.wordAt (engRxd s s.rx.idx 0)) then 0 else s.rx.idx + 1) ∧
        t = { s with mem := t.mem, rx := t.rx, choice := t.choice, moves := ms }

/-- `RXDMA.MISS` (43_ring_ownership.md R249): RBU, the drop counter and the event, RXC where segments of the frame were
handed over already; no job; nothing in memory and not the position; an engine disabled meanwhile stops (R244). -/
def Obligations.RxMissDropsTheFrame : Prop :=
  ∀ (s : State) (j : RxJob) (w0 : Word), s.rx.job = some j → j.phase = .qr1 →
    exec (.rxdmaMiss w0) s = .next
      { s with
        regs := { s.regs with intStatus := s.regs.intStatus ||| 2 ||| (if j.first then 0 else 1) }
        ndrop := (s.ndrop + 1) % 2 ^ s.cfg.cntW
        events := s.events ++ [.rxOverrun]
        rx := ⟨if s.regs.ctrl.getLsbD 1 then s.rx.run else .stopped, s.rx.idx, none⟩ }

/-! ### The transmit engine -/

/-- The poll (43_ring_ownership.md R254): `TXDMA.PARK` suspends the engine in the poll's micro-step; `TXDMA.SEND` takes
the descriptor; an engine that is not Running, or has a job, does not poll, which the model writes as a micro-step of
`TXDMA.PARK` that changes nothing (DESIGN CHOICE, log 24).
The phases of `TXDMA.SEND`, one micro-step each (43_ring_ownership.md R256 to R259): LEN and the buffer pointer; one
byte; the emission, of nothing where LEN is 0; the release, every bit but OWN as read, and the engine's position. -/
def Obligations.TxEnginePhases : Prop :=
  (∀ (s : State) (w0 : Word),
      (s.tx.st = .running → s.tx.job = none →
        exec (.txdmaPark w0) s = .next { s with tx := { s.tx with st := .suspended } } ∧
        exec (.txdmaSend w0) s = .next
          { s with
            tx := { s.tx with
              job := some { w0 := w0, len := 0, bufp := 0, data := [], todo := [], phase := .qt1, mic := 0 } } }) ∧
      ((s.tx.st ≠ .running ∨ s.tx.job ≠ none) → exec (.txdmaPark w0) s = .next s)) ∧
  (∀ (s : State) (j : TxJob) (w0 : Word), s.tx.job = some j →
      (j.phase = .qt1 → j.mic = 0 → (lenField (s.wordAt (engTxd s s.tx.idx 1))).toNat ≤ s.cfg.bufSize →
        exec (.txdmaSend w0) s = .next
          { s with
            tx := { s.tx with
              job := some { j with len := (lenField (s.wordAt (engTxd s s.tx.idx 1))).toNat, mic := 1 } } }) ∧
      (j.phase = .qt1 → j.mic = 1 → 0 < j.len → exec (.txdmaSend w0) s = .next
        { s with
          tx := { s.tx with
            job := some
              { j with
                bufp := s.wordAt (engTxd s s.tx.idx 2), data := List.replicate j.len 0, todo := List.range j.len
                mic := 2 } } }) ∧
      (j.phase = .qt1 → j.mic = 2 → j.todo ≠ [] →
        ∃ k ∈ j.todo, ∃ t, exec (.txdmaSend w0) s = .next t ∧ t = { s with tx := t.tx } ∧
          (j.todo.erase k ≠ [] → t.tx = { s.tx with
            job := some { j with data := j.data.set k (s.byteAt (addrAt s.cfg j.bufp k)), todo := j.todo.erase k } }) ∧
          (j.todo.erase k = [] → t.tx = { s.tx with
            job := some
              { j with data := j.data.set k (s.byteAt (addrAt s.cfg j.bufp k)), todo := [], phase := .qt2 } })) ∧
      (j.phase = .qt2 → exec (.txdmaSend w0) s = .next
        { s with
          wireOut := if j.len = 0 then s.wireOut else s.wireOut ++ [⟨j.data, acBit j.w0⟩]
          tx := { s.tx with job := some { j with phase := .qt3 } } }) ∧
      (j.phase = .qt3 → hwOwns s (engTxd s s.tx.idx 0) = true → wrapBit j.w0 = decide (s.tx.idx + 1 = s.cfg.n) →
        exec (.txdmaSend w0) s = .next
          { s with
            mem := Memory.setWord s.mem (engTxd s s.tx.idx 0) (j.w0 &&& 0x7FFFFFFF)
            tx := ⟨if s.regs.ctrl.getLsbD 2 then s.tx.st else .stopped,
              if wrapBit j.w0 then 0 else s.tx.idx + 1, none⟩ }))

/-- A whole transmission, its bytes fetched in whatever order the picks of the engine's moves say (43_ring_ownership.md R254
to R259): after LEN + 5 moves the frame is on the wire, once, the descriptor is software's with every other bit as it was,
no other byte has changed, and the engine stands at the next descriptor. A frame of length 0 puts nothing on the wire
(R257, 93 U8). -/
def Obligations.TxSendEmitsTheFrame : Prop :=
  ∀ (s : State) (w0 : Word) (n : Nat) (picks : List Nat) (ms : List Move), s.cfg.admissible = true →
    s.tx.st = .running → s.tx.job = none → w0 = s.wordAt (engTxd s s.tx.idx 0) → ownBit w0 = true →
    fsBit w0 = true → lsBit w0 = true → wrapBit w0 = decide (s.tx.idx + 1 = s.cfg.n) →
    n = (lenField (s.wordAt (engTxd s s.tx.idx 1))).toNat → n ≤ s.cfg.bufSize →
    picks.length = n + 5 → s.moves = picks.map Move.txdma ++ ms →
      ∃ t, Sys2Proof.core.run (n + 5) s = .next t ∧
        t.wireOut = s.wireOut ++
          (if n = 0 then [] else [⟨s.bytesAt (s.wordAt (engTxd s s.tx.idx 2)) n, acBit w0⟩]) ∧
        t.wordAt (engTxd s s.tx.idx 0) = w0 &&& 0x7FFFFFFF ∧
        (∀ a : Nat, a ∉ wordAddrs (engTxd s s.tx.idx 0) → t.byteAt a = s.byteAt a) ∧
        t.tx.job = none ∧ t.tx.idx = (if wrapBit w0 then 0 else s.tx.idx + 1) ∧
        t.tx.st = (if s.regs.ctrl.getLsbD 2 then .running else .stopped) ∧
        t = { s with mem := t.mem, wireOut := t.wireOut, tx := t.tx, choice := t.choice, moves := ms }

/-- Where the run stops: a configuration outside its constraints (93 U6; log 28); a slot access by `TX` or `RXIRQ`, or a W0
store by an engine, of a slot the other side owns, and a caller byte that lies in a descriptor or in a buffer the
hardware owns (20_memory.md R106, 93 U3, U15; log 9, log 27); a malformed TX descriptor (43_ring_ownership.md R257, 93 U7); a
WRAP bit that does not say whether the descriptor is the last (R236, 93 U4). With no move left nothing happens (log 1). -/
def Obligations.WhereTheRunStops : Prop :=
  (∀ s : State,
      (s.cfg.admissible = true → s.moves = [] → step s = .next s) ∧
      (s.cfg.admissible = false → step s = .refused .inadmissibleConfig)) ∧
  (∀ s : State,
      (hwOwns s (txd s s.txIdx 0) = true →
        ((hostAt .t2 s ∧ (s.hmic = 0 ∨ s.hmic = 2)) ∨ hostAt .t3 s ∨ hostAt .t4 s ∨ hostAt .t6 s) →
          exec .tx s = .fault .ownershipViolation) ∧
      (hostAt .t2 s → s.hmic = 1 → s.h.j.toNat < s.h.len.toNat →
        ((placeOf s.cfg (addrAt s.cfg s.h.buf s.h.j.toNat)).isDesc = true ∨
          placeHwOwned s (placeOf s.cfg (addrAt s.cfg s.h.buf s.h.j.toNat)) = true) →
          exec .tx s = .fault .ownershipViolation)) ∧
  (∀ (s : State) (i : Instr), isHandler i = true → hwOwns s (rxd s s.rxIdx 0) = true →
      (isrAt .i3 0 s ∨ isrAt .i3 1 s ∨ isrAt .i4 0 s ∨ isrAt .i5 0 s ∨ isrAt .i5 2 s) →
        exec i s = .fault .ownershipViolation) ∧
  (∀ (s : State) (w0 : Word),
      (∀ (ms : List Move) (p : Nat), s.cfg.admissible = true → s.tx.st = .running → s.tx.job = none →
        ownBit (s.wordAt (engTxd s s.tx.idx 0)) = true →
        (fsBit (s.wordAt (engTxd s s.tx.idx 0)) = false ∨ lsBit (s.wordAt (engTxd s s.tx.idx 0)) = false) →
          step (s.withMoves (.txdma p :: ms)) = .fault .txDescriptorMalformed) ∧
      (∀ j : TxJob, s.tx.job = some j → j.phase = .qt1 → j.mic = 0 →
        s.cfg.bufSize < (lenField (s.wordAt (engTxd s s.tx.idx 1))).toNat →
          exec (.txdmaSend w0) s = .fault .txDescriptorMalformed) ∧
      (∀ j : TxJob, s.tx.job = some j → j.phase = .qt3 →
        (hwOwns s (engTxd s s.tx.idx 0) = false → exec (.txdmaSend w0) s = .fault .ownershipViolation) ∧
        (hwOwns s (engTxd s s.tx.idx 0) = true → wrapBit j.w0 ≠ decide (s.tx.idx + 1 = s.cfg.n) →
          exec (.txdmaSend w0) s = .fault .wrapMisplaced)) ∧
      (∀ j : RxJob, s.rx.job = some j → j.phase = .qr4 → j.mic = 0 →
        (hwOwns s (engRxd s s.rx.idx 0) = false → exec (.rxdmaFill w0) s = .fault .ownershipViolation) ∧
        (hwOwns s (engRxd s s.rx.idx 0) = true → wrapBit j.w0 ≠ decide (s.rx.idx + 1 = s.cfg.n) →
          exec (.rxdmaFill w0) s = .fault .wrapMisplaced)))

/-! ### Frames -/

/-- Every byte of memory outside the stores a micro-step makes, and those its contexts have outstanding, reads as
before, for every instruction; `stores i s` computes the address stored to as the meaning does.
The instructions that store nothing leave every byte of memory and every outstanding store as they were: register
accesses, MDIO transactions, `TXDMA.PARK`, `RXDMA.MISS`, and `TXDMA.SEND` before its release. What is outstanding is the
model's list (log 8). -/
def Obligations.MemoryFrameOfEveryInstruction : Prop :=
  (∀ (i : Instr) (s t : State), exec i s = .next t →
      ∀ a : Nat, spares (s.hostBuf ++ s.isrBuf ++ stores i s) a → t.byteAt a = s.byteAt a) ∧
  (∀ (i : Instr) (s t : State), exec i s = .next t →
      ((∃ r, i = .regrd r) ∨ (∃ r v, i = .regwr r v) ∨ (∃ pa ra cr, i = .mdioRd pa ra cr) ∨
        (∃ pa ra cr, i = .mdioWr pa ra cr) ∨ (∃ w, i = .txdmaPark w) ∨ (∃ w, i = .rxdmaMiss w) ∨
        (∃ w, i = .txdmaSend w ∧ ∀ j, s.tx.job = some j → j.phase ≠ .qt3)) →
        (∀ a : Nat, t.byteAt a = s.byteAt a) ∧ t.hostBuf = s.hostBuf ∧ t.isrBuf = s.isrBuf)

/-- What the contract operations may change, every other piece of state unchanged (41_register_bridge.md R182,
60_exceptions.md R360), given that the contexts are in legal places and HOST's outstanding loads fill HOST's registers. -/
def Obligations.FrameOfContractOperations : Prop :=
  ∀ s t : State, ContextsOk s → StoresOk s →
    (exec .tx s = .next t → t =
      { s with
        hpc := t.hpc, hsub := t.hsub, hmic := t.hmic, h := t.h, nsent := t.nsent, nsentBytes := t.nsentBytes
        nerr := t.nerr, txIdx := t.txIdx, regs := { s.regs with result := t.regs.result }
        tx := { s.tx with st := t.tx.st }, mem := t.mem, hostBuf := t.hostBuf, events := t.events, dirty := t.dirty
        freeCtr := t.freeCtr }) ∧
    (exec .up s = .next t → t =
      { s with
        hpc := t.hpc, hsub := t.hsub, hmic := t.hmic, h := t.h, link := t.link
        regs :=
          { s.regs with
            maccfg := t.regs.maccfg, mdioCtrl := t.regs.mdioCtrl, diag := t.regs.diag, result := t.regs.result }
        mem := t.mem, hostBuf := t.hostBuf, events := t.events, dirty := t.dirty }) ∧
    (exec .init s = .next t → t =
      { s with
        hpc := t.hpc, hsub := t.hsub, hmic := t.hmic, h := t.h, link := t.link, initialized := t.initialized
        ringsBuilt := t.ringsBuilt, phyId := t.phyId, vendor := t.vendor, rxIdx := t.rxIdx, txIdx := t.txIdx
        regs :=
          { t.regs with
            maccfg := s.regs.maccfg, intStatus := s.regs.intStatus, argBuf := s.regs.argBuf
            argLen := s.regs.argLen }
        rx := t.rx, tx := t.tx, mem := t.mem, hostBuf := t.hostBuf, events := t.events, dirty := t.dirty })

/-- What the handler may change (41_register_bridge.md R182, 60_exceptions.md R354, R360): nothing of HOST's, but that at its
entry and return HOST's outstanding accesses are performed, a load filling its register (log 8).
What register writes, MDIO transactions and the engines may change (41_register_bridge.md R182, R183, 60_exceptions.md
R360). -/
def Obligations.FrameOfAgentsBesideHost : Prop :=
  (∀ (i : Instr) (s t : State), isHandler i = true → exec i s = .next t → t =
      { s with
        inIsr := t.inIsr, ipc := t.ipc, imic := t.imic, icause := t.icause, i := t.i, rxIdx := t.rxIdx
        nrecv := t.nrecv, ndrop := t.ndrop, regs := { s.regs with intStatus := t.regs.intStatus }
        h := { s.h with byte := t.h.byte, bufp := t.h.bufp }
        mem := t.mem, hostBuf := t.hostBuf, isrBuf := t.isrBuf, deliverLog := t.deliverLog, events := t.events } ∧
      (StoresOk s → (s.inIsr = true ∨ s.hostBuf = []) → t.h = s.h)) ∧
  (∀ s t : State,
      (∀ r v, exec (.regwr r v) s = .next t → t =
        { s with
          regs := t.regs, rx := t.rx, tx := t.tx, hpc := t.hpc, hsub := t.hsub, hmic := t.hmic, events := t.events
          dirty := t.dirty }) ∧
      (∀ pa ra cr, exec (.mdioRd pa ra cr) s = .next t → t =
        { s with regs := { s.regs with mdioCtrl := t.regs.mdioCtrl, mdioData := t.regs.mdioData } }) ∧
      (∀ pa ra cr, exec (.mdioWr pa ra cr) s = .next t → t =
        { s with regs := { s.regs with mdioCtrl := t.regs.mdioCtrl }, phy := t.phy, phyLog := t.phyLog }) ∧
      (∀ w, exec (.rxdmaFill w) s = .next t → t =
        { s with rx := t.rx, mem := t.mem, regs := { s.regs with intStatus := t.regs.intStatus } }) ∧
      (∀ w, exec (.rxdmaMiss w) s = .next t → t =
        { s with
          rx := t.rx, ndrop := t.ndrop, regs := { s.regs with intStatus := t.regs.intStatus }, events := t.events }) ∧
      (∀ w, exec (.txdmaSend w) s = .next t → t = { s with tx := t.tx, mem := t.mem, wireOut := t.wireOut }) ∧
      (∀ w, exec (.txdmaPark w) s = .next t → t = { s with tx := { s.tx with st := t.tx.st } }))
end

