-- ==== Sys2Proof/Laws/State.lean ====
section
/-! SUPPORT. Laws/State.lean: what each named update of the state leaves in each field, so that no proof unfolds one. -/

namespace Sys2Proof.Machine

/-! `goto` -/

@[simp] theorem goto_cfg (l : HostLabel) (s : State) : (goto l s).cfg = s.cfg := rfl
@[simp] theorem goto_link (l : HostLabel) (s : State) : (goto l s).link = s.link := rfl
@[simp] theorem goto_nsent (l : HostLabel) (s : State) : (goto l s).nsent = s.nsent := rfl
@[simp] theorem goto_nsentBytes (l : HostLabel) (s : State) : (goto l s).nsentBytes = s.nsentBytes := rfl
@[simp] theorem goto_nrecv (l : HostLabel) (s : State) : (goto l s).nrecv = s.nrecv := rfl
@[simp] theorem goto_ndrop (l : HostLabel) (s : State) : (goto l s).ndrop = s.ndrop := rfl
@[simp] theorem goto_nerr (l : HostLabel) (s : State) : (goto l s).nerr = s.nerr := rfl
@[simp] theorem goto_phyId (l : HostLabel) (s : State) : (goto l s).phyId = s.phyId := rfl
@[simp] theorem goto_vendor (l : HostLabel) (s : State) : (goto l s).vendor = s.vendor := rfl
@[simp] theorem goto_rxIdx (l : HostLabel) (s : State) : (goto l s).rxIdx = s.rxIdx := rfl
@[simp] theorem goto_txIdx (l : HostLabel) (s : State) : (goto l s).txIdx = s.txIdx := rfl
@[simp] theorem goto_initialized (l : HostLabel) (s : State) : (goto l s).initialized = s.initialized := rfl
@[simp] theorem goto_ringsBuilt (l : HostLabel) (s : State) : (goto l s).ringsBuilt = s.ringsBuilt := rfl
@[simp] theorem goto_hpc (l : HostLabel) (s : State) : (goto l s).hpc = l := rfl
@[simp] theorem goto_hsub (l : HostLabel) (s : State) : (goto l s).hsub = .off := rfl
@[simp] theorem goto_hmic (l : HostLabel) (s : State) : (goto l s).hmic = 0 := rfl
@[simp] theorem goto_h (l : HostLabel) (s : State) : (goto l s).h = s.h := rfl
@[simp] theorem goto_inIsr (l : HostLabel) (s : State) : (goto l s).inIsr = s.inIsr := rfl
@[simp] theorem goto_ipc (l : HostLabel) (s : State) : (goto l s).ipc = s.ipc := rfl
@[simp] theorem goto_imic (l : HostLabel) (s : State) : (goto l s).imic = s.imic := rfl
@[simp] theorem goto_icause (l : HostLabel) (s : State) : (goto l s).icause = s.icause := rfl
@[simp] theorem goto_i (l : HostLabel) (s : State) : (goto l s).i = s.i := rfl
@[simp] theorem goto_regs (l : HostLabel) (s : State) : (goto l s).regs = s.regs := rfl
@[simp] theorem goto_rx (l : HostLabel) (s : State) : (goto l s).rx = s.rx := rfl
@[simp] theorem goto_tx (l : HostLabel) (s : State) : (goto l s).tx = s.tx := rfl
@[simp] theorem goto_mem (l : HostLabel) (s : State) : (goto l s).mem = s.mem := rfl
@[simp] theorem goto_hostBuf (l : HostLabel) (s : State) : (goto l s).hostBuf = s.hostBuf := rfl
@[simp] theorem goto_isrBuf (l : HostLabel) (s : State) : (goto l s).isrBuf = s.isrBuf := rfl
@[simp] theorem goto_phy (l : HostLabel) (s : State) : (goto l s).phy = s.phy := rfl
@[simp] theorem goto_phyLog (l : HostLabel) (s : State) : (goto l s).phyLog = s.phyLog := rfl
@[simp] theorem goto_wireOut (l : HostLabel) (s : State) : (goto l s).wireOut = s.wireOut := rfl
@[simp] theorem goto_deliverLog (l : HostLabel) (s : State) : (goto l s).deliverLog = s.deliverLog := rfl
@[simp] theorem goto_busData (l : HostLabel) (s : State) : (goto l s).busData = s.busData := rfl
@[simp] theorem goto_memData (l : HostLabel) (s : State) : (goto l s).memData = s.memData := rfl
@[simp] theorem goto_events (l : HostLabel) (s : State) : (goto l s).events = s.events := rfl
@[simp] theorem goto_dirty (l : HostLabel) (s : State) : (goto l s).dirty = s.dirty := rfl
@[simp] theorem goto_freeCtr (l : HostLabel) (s : State) : (goto l s).freeCtr = s.freeCtr := rfl
@[simp] theorem goto_choice (l : HostLabel) (s : State) : (goto l s).choice = s.choice := rfl
@[simp] theorem goto_moves (l : HostLabel) (s : State) : (goto l s).moves = s.moves := rfl

/-! `igoto` -/

@[simp] theorem igoto_cfg (l : IsrLabel) (s : State) : (igoto l s).cfg = s.cfg := rfl
@[simp] theorem igoto_link (l : IsrLabel) (s : State) : (igoto l s).link = s.link := rfl
@[simp] theorem igoto_nsent (l : IsrLabel) (s : State) : (igoto l s).nsent = s.nsent := rfl
@[simp] theorem igoto_nsentBytes (l : IsrLabel) (s : State) : (igoto l s).nsentBytes = s.nsentBytes := rfl
@[simp] theorem igoto_nrecv (l : IsrLabel) (s : State) : (igoto l s).nrecv = s.nrecv := rfl
@[simp] theorem igoto_ndrop (l : IsrLabel) (s : State) : (igoto l s).ndrop = s.ndrop := rfl
@[simp] theorem igoto_nerr (l : IsrLabel) (s : State) : (igoto l s).nerr = s.nerr := rfl
@[simp] theorem igoto_phyId (l : IsrLabel) (s : State) : (igoto l s).phyId = s.phyId := rfl
@[simp] theorem igoto_vendor (l : IsrLabel) (s : State) : (igoto l s).vendor = s.vendor := rfl
@[simp] theorem igoto_rxIdx (l : IsrLabel) (s : State) : (igoto l s).rxIdx = s.rxIdx := rfl
@[simp] theorem igoto_txIdx (l : IsrLabel) (s : State) : (igoto l s).txIdx = s.txIdx := rfl
@[simp] theorem igoto_initialized (l : IsrLabel) (s : State) : (igoto l s).initialized = s.initialized := rfl
@[simp] theorem igoto_ringsBuilt (l : IsrLabel) (s : State) : (igoto l s).ringsBuilt = s.ringsBuilt := rfl
@[simp] theorem igoto_hpc (l : IsrLabel) (s : State) : (igoto l s).hpc = s.hpc := rfl
@[simp] theorem igoto_hsub (l : IsrLabel) (s : State) : (igoto l s).hsub = s.hsub := rfl
@[simp] theorem igoto_hmic (l : IsrLabel) (s : State) : (igoto l s).hmic = s.hmic := rfl
@[simp] theorem igoto_h (l : IsrLabel) (s : State) : (igoto l s).h = s.h := rfl
@[simp] theorem igoto_inIsr (l : IsrLabel) (s : State) : (igoto l s).inIsr = s.inIsr := rfl
@[simp] theorem igoto_ipc (l : IsrLabel) (s : State) : (igoto l s).ipc = l := rfl
@[simp] theorem igoto_imic (l : IsrLabel) (s : State) : (igoto l s).imic = 0 := rfl
@[simp] theorem igoto_icause (l : IsrLabel) (s : State) : (igoto l s).icause = s.icause := rfl
@[simp] theorem igoto_i (l : IsrLabel) (s : State) : (igoto l s).i = s.i := rfl
@[simp] theorem igoto_regs (l : IsrLabel) (s : State) : (igoto l s).regs = s.regs := rfl
@[simp] theorem igoto_rx (l : IsrLabel) (s : State) : (igoto l s).rx = s.rx := rfl
@[simp] theorem igoto_tx (l : IsrLabel) (s : State) : (igoto l s).tx = s.tx := rfl
@[simp] theorem igoto_mem (l : IsrLabel) (s : State) : (igoto l s).mem = s.mem := rfl
@[simp] theorem igoto_hostBuf (l : IsrLabel) (s : State) : (igoto l s).hostBuf = s.hostBuf := rfl
@[simp] theorem igoto_isrBuf (l : IsrLabel) (s : State) : (igoto l s).isrBuf = s.isrBuf := rfl
@[simp] theorem igoto_phy (l : IsrLabel) (s : State) : (igoto l s).phy = s.phy := rfl
@[simp] theorem igoto_phyLog (l : IsrLabel) (s : State) : (igoto l s).phyLog = s.phyLog := rfl
@[simp] theorem igoto_wireOut (l : IsrLabel) (s : State) : (igoto l s).wireOut = s.wireOut := rfl
@[simp] theorem igoto_deliverLog (l : IsrLabel) (s : State) : (igoto l s).deliverLog = s.deliverLog := rfl
@[simp] theorem igoto_busData (l : IsrLabel) (s : State) : (igoto l s).busData = s.busData := rfl
@[simp] theorem igoto_memData (l : IsrLabel) (s : State) : (igoto l s).memData = s.memData := rfl
@[simp] theorem igoto_events (l : IsrLabel) (s : State) : (igoto l s).events = s.events := rfl
@[simp] theorem igoto_dirty (l : IsrLabel) (s : State) : (igoto l s).dirty = s.dirty := rfl
@[simp] theorem igoto_freeCtr (l : IsrLabel) (s : State) : (igoto l s).freeCtr = s.freeCtr := rfl
@[simp] theorem igoto_choice (l : IsrLabel) (s : State) : (igoto l s).choice = s.choice := rfl
@[simp] theorem igoto_moves (l : IsrLabel) (s : State) : (igoto l s).moves = s.moves := rfl

/-! `finish` -/

@[simp] theorem finish_cfg (w : Word) (s : State) : (finish w s).cfg = s.cfg := rfl
@[simp] theorem finish_link (w : Word) (s : State) : (finish w s).link = s.link := rfl
@[simp] theorem finish_nsent (w : Word) (s : State) : (finish w s).nsent = s.nsent := rfl
@[simp] theorem finish_nsentBytes (w : Word) (s : State) : (finish w s).nsentBytes = s.nsentBytes := rfl
@[simp] theorem finish_nrecv (w : Word) (s : State) : (finish w s).nrecv = s.nrecv := rfl
@[simp] theorem finish_ndrop (w : Word) (s : State) : (finish w s).ndrop = s.ndrop := rfl
@[simp] theorem finish_nerr (w : Word) (s : State) : (finish w s).nerr = s.nerr := rfl
@[simp] theorem finish_phyId (w : Word) (s : State) : (finish w s).phyId = s.phyId := rfl
@[simp] theorem finish_vendor (w : Word) (s : State) : (finish w s).vendor = s.vendor := rfl
@[simp] theorem finish_rxIdx (w : Word) (s : State) : (finish w s).rxIdx = s.rxIdx := rfl
@[simp] theorem finish_txIdx (w : Word) (s : State) : (finish w s).txIdx = s.txIdx := rfl
@[simp] theorem finish_initialized (w : Word) (s : State) : (finish w s).initialized = s.initialized := rfl
@[simp] theorem finish_ringsBuilt (w : Word) (s : State) : (finish w s).ringsBuilt = s.ringsBuilt := rfl
@[simp] theorem finish_hpc (w : Word) (s : State) : (finish w s).hpc = .idle := rfl
@[simp] theorem finish_hsub (w : Word) (s : State) : (finish w s).hsub = .off := rfl
@[simp] theorem finish_hmic (w : Word) (s : State) : (finish w s).hmic = 0 := rfl
@[simp] theorem finish_h (w : Word) (s : State) : (finish w s).h = s.h := rfl
@[simp] theorem finish_inIsr (w : Word) (s : State) : (finish w s).inIsr = s.inIsr := rfl
@[simp] theorem finish_ipc (w : Word) (s : State) : (finish w s).ipc = s.ipc := rfl
@[simp] theorem finish_imic (w : Word) (s : State) : (finish w s).imic = s.imic := rfl
@[simp] theorem finish_icause (w : Word) (s : State) : (finish w s).icause = s.icause := rfl
@[simp] theorem finish_i (w : Word) (s : State) : (finish w s).i = s.i := rfl
@[simp] theorem finish_regs (w : Word) (s : State) : (finish w s).regs = { s.regs with result := w } := rfl
@[simp] theorem finish_rx (w : Word) (s : State) : (finish w s).rx = s.rx := rfl
@[simp] theorem finish_tx (w : Word) (s : State) : (finish w s).tx = s.tx := rfl
@[simp] theorem finish_mem (w : Word) (s : State) : (finish w s).mem = s.mem := rfl
@[simp] theorem finish_hostBuf (w : Word) (s : State) : (finish w s).hostBuf = s.hostBuf := rfl
@[simp] theorem finish_isrBuf (w : Word) (s : State) : (finish w s).isrBuf = s.isrBuf := rfl
@[simp] theorem finish_phy (w : Word) (s : State) : (finish w s).phy = s.phy := rfl
@[simp] theorem finish_phyLog (w : Word) (s : State) : (finish w s).phyLog = s.phyLog := rfl
@[simp] theorem finish_wireOut (w : Word) (s : State) : (finish w s).wireOut = s.wireOut := rfl
@[simp] theorem finish_deliverLog (w : Word) (s : State) : (finish w s).deliverLog = s.deliverLog := rfl
@[simp] theorem finish_busData (w : Word) (s : State) : (finish w s).busData = s.busData := rfl
@[simp] theorem finish_memData (w : Word) (s : State) : (finish w s).memData = s.memData := rfl
@[simp] theorem finish_events (w : Word) (s : State) : (finish w s).events = s.events := rfl
@[simp] theorem finish_dirty (w : Word) (s : State) : (finish w s).dirty = s.dirty := rfl
@[simp] theorem finish_freeCtr (w : Word) (s : State) : (finish w s).freeCtr = s.freeCtr := rfl
@[simp] theorem finish_choice (w : Word) (s : State) : (finish w s).choice = s.choice := rfl
@[simp] theorem finish_moves (w : Word) (s : State) : (finish w s).moves = s.moves := rfl

/-! `raise` -/

@[simp] theorem raise_cfg (e : Event) (s : State) : (raise e s).cfg = s.cfg := rfl
@[simp] theorem raise_link (e : Event) (s : State) : (raise e s).link = s.link := rfl
@[simp] theorem raise_nsent (e : Event) (s : State) : (raise e s).nsent = s.nsent := rfl
@[simp] theorem raise_nsentBytes (e : Event) (s : State) : (raise e s).nsentBytes = s.nsentBytes := rfl
@[simp] theorem raise_nrecv (e : Event) (s : State) : (raise e s).nrecv = s.nrecv := rfl
@[simp] theorem raise_ndrop (e : Event) (s : State) : (raise e s).ndrop = s.ndrop := rfl
@[simp] theorem raise_nerr (e : Event) (s : State) : (raise e s).nerr = s.nerr := rfl
@[simp] theorem raise_phyId (e : Event) (s : State) : (raise e s).phyId = s.phyId := rfl
@[simp] theorem raise_vendor (e : Event) (s : State) : (raise e s).vendor = s.vendor := rfl
@[simp] theorem raise_rxIdx (e : Event) (s : State) : (raise e s).rxIdx = s.rxIdx := rfl
@[simp] theorem raise_txIdx (e : Event) (s : State) : (raise e s).txIdx = s.txIdx := rfl
@[simp] theorem raise_initialized (e : Event) (s : State) : (raise e s).initialized = s.initialized := rfl
@[simp] theorem raise_ringsBuilt (e : Event) (s : State) : (raise e s).ringsBuilt = s.ringsBuilt := rfl
@[simp] theorem raise_hpc (e : Event) (s : State) : (raise e s).hpc = s.hpc := rfl
@[simp] theorem raise_hsub (e : Event) (s : State) : (raise e s).hsub = s.hsub := rfl
@[simp] theorem raise_hmic (e : Event) (s : State) : (raise e s).hmic = s.hmic := rfl
@[simp] theorem raise_h (e : Event) (s : State) : (raise e s).h = s.h := rfl
@[simp] theorem raise_inIsr (e : Event) (s : State) : (raise e s).inIsr = s.inIsr := rfl
@[simp] theorem raise_ipc (e : Event) (s : State) : (raise e s).ipc = s.ipc := rfl
@[simp] theorem raise_imic (e : Event) (s : State) : (raise e s).imic = s.imic := rfl
@[simp] theorem raise_icause (e : Event) (s : State) : (raise e s).icause = s.icause := rfl
@[simp] theorem raise_i (e : Event) (s : State) : (raise e s).i = s.i := rfl
@[simp] theorem raise_regs (e : Event) (s : State) : (raise e s).regs = { s.regs with diag := s.regs.diag ||| diagBits e } := rfl
@[simp] theorem raise_rx (e : Event) (s : State) : (raise e s).rx = s.rx := rfl
@[simp] theorem raise_tx (e : Event) (s : State) : (raise e s).tx = s.tx := rfl
@[simp] theorem raise_mem (e : Event) (s : State) : (raise e s).mem = s.mem := rfl
@[simp] theorem raise_hostBuf (e : Event) (s : State) : (raise e s).hostBuf = s.hostBuf := rfl
@[simp] theorem raise_isrBuf (e : Event) (s : State) : (raise e s).isrBuf = s.isrBuf := rfl
@[simp] theorem raise_phy (e : Event) (s : State) : (raise e s).phy = s.phy := rfl
@[simp] theorem raise_phyLog (e : Event) (s : State) : (raise e s).phyLog = s.phyLog := rfl
@[simp] theorem raise_wireOut (e : Event) (s : State) : (raise e s).wireOut = s.wireOut := rfl
@[simp] theorem raise_deliverLog (e : Event) (s : State) : (raise e s).deliverLog = s.deliverLog := rfl
@[simp] theorem raise_busData (e : Event) (s : State) : (raise e s).busData = s.busData := rfl
@[simp] theorem raise_memData (e : Event) (s : State) : (raise e s).memData = s.memData := rfl
@[simp] theorem raise_events (e : Event) (s : State) : (raise e s).events = s.events ++ [e] := rfl
@[simp] theorem raise_dirty (e : Event) (s : State) : (raise e s).dirty = s.dirty := rfl
@[simp] theorem raise_freeCtr (e : Event) (s : State) : (raise e s).freeCtr = s.freeCtr := rfl
@[simp] theorem raise_choice (e : Event) (s : State) : (raise e s).choice = s.choice := rfl
@[simp] theorem raise_moves (e : Event) (s : State) : (raise e s).moves = s.moves := rfl

/-! `setIntStatus` -/

@[simp] theorem setIntStatus_cfg (w : Word) (s : State) : (setIntStatus w s).cfg = s.cfg := rfl
@[simp] theorem setIntStatus_link (w : Word) (s : State) : (setIntStatus w s).link = s.link := rfl
@[simp] theorem setIntStatus_nsent (w : Word) (s : State) : (setIntStatus w s).nsent = s.nsent := rfl
@[simp] theorem setIntStatus_nsentBytes (w : Word) (s : State) : (setIntStatus w s).nsentBytes = s.nsentBytes := rfl
@[simp] theorem setIntStatus_nrecv (w : Word) (s : State) : (setIntStatus w s).nrecv = s.nrecv := rfl
@[simp] theorem setIntStatus_ndrop (w : Word) (s : State) : (setIntStatus w s).ndrop = s.ndrop := rfl
@[simp] theorem setIntStatus_nerr (w : Word) (s : State) : (setIntStatus w s).nerr = s.nerr := rfl
@[simp] theorem setIntStatus_phyId (w : Word) (s : State) : (setIntStatus w s).phyId = s.phyId := rfl
@[simp] theorem setIntStatus_vendor (w : Word) (s : State) : (setIntStatus w s).vendor = s.vendor := rfl
@[simp] theorem setIntStatus_rxIdx (w : Word) (s : State) : (setIntStatus w s).rxIdx = s.rxIdx := rfl
@[simp] theorem setIntStatus_txIdx (w : Word) (s : State) : (setIntStatus w s).txIdx = s.txIdx := rfl
@[simp] theorem setIntStatus_initialized (w : Word) (s : State) : (setIntStatus w s).initialized = s.initialized := rfl
@[simp] theorem setIntStatus_ringsBuilt (w : Word) (s : State) : (setIntStatus w s).ringsBuilt = s.ringsBuilt := rfl
@[simp] theorem setIntStatus_hpc (w : Word) (s : State) : (setIntStatus w s).hpc = s.hpc := rfl
@[simp] theorem setIntStatus_hsub (w : Word) (s : State) : (setIntStatus w s).hsub = s.hsub := rfl
@[simp] theorem setIntStatus_hmic (w : Word) (s : State) : (setIntStatus w s).hmic = s.hmic := rfl
@[simp] theorem setIntStatus_h (w : Word) (s : State) : (setIntStatus w s).h = s.h := rfl
@[simp] theorem setIntStatus_inIsr (w : Word) (s : State) : (setIntStatus w s).inIsr = s.inIsr := rfl
@[simp] theorem setIntStatus_ipc (w : Word) (s : State) : (setIntStatus w s).ipc = s.ipc := rfl
@[simp] theorem setIntStatus_imic (w : Word) (s : State) : (setIntStatus w s).imic = s.imic := rfl
@[simp] theorem setIntStatus_icause (w : Word) (s : State) : (setIntStatus w s).icause = s.icause := rfl
@[simp] theorem setIntStatus_i (w : Word) (s : State) : (setIntStatus w s).i = s.i := rfl
@[simp] theorem setIntStatus_regs (w : Word) (s : State) : (setIntStatus w s).regs = { s.regs with intStatus := s.regs.intStatus ||| w } := rfl
@[simp] theorem setIntStatus_rx (w : Word) (s : State) : (setIntStatus w s).rx = s.rx := rfl
@[simp] theorem setIntStatus_tx (w : Word) (s : State) : (setIntStatus w s).tx = s.tx := rfl
@[simp] theorem setIntStatus_mem (w : Word) (s : State) : (setIntStatus w s).mem = s.mem := rfl
@[simp] theorem setIntStatus_hostBuf (w : Word) (s : State) : (setIntStatus w s).hostBuf = s.hostBuf := rfl
@[simp] theorem setIntStatus_isrBuf (w : Word) (s : State) : (setIntStatus w s).isrBuf = s.isrBuf := rfl
@[simp] theorem setIntStatus_phy (w : Word) (s : State) : (setIntStatus w s).phy = s.phy := rfl
@[simp] theorem setIntStatus_phyLog (w : Word) (s : State) : (setIntStatus w s).phyLog = s.phyLog := rfl
@[simp] theorem setIntStatus_wireOut (w : Word) (s : State) : (setIntStatus w s).wireOut = s.wireOut := rfl
@[simp] theorem setIntStatus_deliverLog (w : Word) (s : State) : (setIntStatus w s).deliverLog = s.deliverLog := rfl
@[simp] theorem setIntStatus_busData (w : Word) (s : State) : (setIntStatus w s).busData = s.busData := rfl
@[simp] theorem setIntStatus_memData (w : Word) (s : State) : (setIntStatus w s).memData = s.memData := rfl
@[simp] theorem setIntStatus_events (w : Word) (s : State) : (setIntStatus w s).events = s.events := rfl
@[simp] theorem setIntStatus_dirty (w : Word) (s : State) : (setIntStatus w s).dirty = s.dirty := rfl
@[simp] theorem setIntStatus_freeCtr (w : Word) (s : State) : (setIntStatus w s).freeCtr = s.freeCtr := rfl
@[simp] theorem setIntStatus_choice (w : Word) (s : State) : (setIntStatus w s).choice = s.choice := rfl
@[simp] theorem setIntStatus_moves (w : Word) (s : State) : (setIntStatus w s).moves = s.moves := rfl

/-! `engineStoreWord` -/

@[simp] theorem engineStoreWord_cfg (a : Nat) (v : Word) (s : State) : (engineStoreWord a v s).cfg = s.cfg := rfl
@[simp] theorem engineStoreWord_link (a : Nat) (v : Word) (s : State) : (engineStoreWord a v s).link = s.link := rfl
@[simp] theorem engineStoreWord_nsent (a : Nat) (v : Word) (s : State) : (engineStoreWord a v s).nsent = s.nsent := rfl
@[simp] theorem engineStoreWord_nsentBytes (a : Nat) (v : Word) (s : State) : (engineStoreWord a v s).nsentBytes = s.nsentBytes := rfl
@[simp] theorem engineStoreWord_nrecv (a : Nat) (v : Word) (s : State) : (engineStoreWord a v s).nrecv = s.nrecv := rfl
@[simp] theorem engineStoreWord_ndrop (a : Nat) (v : Word) (s : State) : (engineStoreWord a v s).ndrop = s.ndrop := rfl
@[simp] theorem engineStoreWord_nerr (a : Nat) (v : Word) (s : State) : (engineStoreWord a v s).nerr = s.nerr := rfl
@[simp] theorem engineStoreWord_phyId (a : Nat) (v : Word) (s : State) : (engineStoreWord a v s).phyId = s.phyId := rfl
@[simp] theorem engineStoreWord_vendor (a : Nat) (v : Word) (s : State) : (engineStoreWord a v s).vendor = s.vendor := rfl
@[simp] theorem engineStoreWord_rxIdx (a : Nat) (v : Word) (s : State) : (engineStoreWord a v s).rxIdx = s.rxIdx := rfl
@[simp] theorem engineStoreWord_txIdx (a : Nat) (v : Word) (s : State) : (engineStoreWord a v s).txIdx = s.txIdx := rfl
@[simp] theorem engineStoreWord_initialized (a : Nat) (v : Word) (s : State) : (engineStoreWord a v s).initialized = s.initialized := rfl
@[simp] theorem engineStoreWord_ringsBuilt (a : Nat) (v : Word) (s : State) : (engineStoreWord a v s).ringsBuilt = s.ringsBuilt := rfl
@[simp] theorem engineStoreWord_hpc (a : Nat) (v : Word) (s : State) : (engineStoreWord a v s).hpc = s.hpc := rfl
@[simp] theorem engineStoreWord_hsub (a : Nat) (v : Word) (s : State) : (engineStoreWord a v s).hsub = s.hsub := rfl
@[simp] theorem engineStoreWord_hmic (a : Nat) (v : Word) (s : State) : (engineStoreWord a v s).hmic = s.hmic := rfl
@[simp] theorem engineStoreWord_h (a : Nat) (v : Word) (s : State) : (engineStoreWord a v s).h = s.h := rfl
@[simp] theorem engineStoreWord_inIsr (a : Nat) (v : Word) (s : State) : (engineStoreWord a v s).inIsr = s.inIsr := rfl
@[simp] theorem engineStoreWord_ipc (a : Nat) (v : Word) (s : State) : (engineStoreWord a v s).ipc = s.ipc := rfl
@[simp] theorem engineStoreWord_imic (a : Nat) (v : Word) (s : State) : (engineStoreWord a v s).imic = s.imic := rfl
@[simp] theorem engineStoreWord_icause (a : Nat) (v : Word) (s : State) : (engineStoreWord a v s).icause = s.icause := rfl
@[simp] theorem engineStoreWord_i (a : Nat) (v : Word) (s : State) : (engineStoreWord a v s).i = s.i := rfl
@[simp] theorem engineStoreWord_regs (a : Nat) (v : Word) (s : State) : (engineStoreWord a v s).regs = s.regs := rfl
@[simp] theorem engineStoreWord_rx (a : Nat) (v : Word) (s : State) : (engineStoreWord a v s).rx = s.rx := rfl
@[simp] theorem engineStoreWord_tx (a : Nat) (v : Word) (s : State) : (engineStoreWord a v s).tx = s.tx := rfl
@[simp] theorem engineStoreWord_mem (a : Nat) (v : Word) (s : State) : (engineStoreWord a v s).mem = Memory.setWord s.mem a v := rfl
@[simp] theorem engineStoreWord_hostBuf (a : Nat) (v : Word) (s : State) : (engineStoreWord a v s).hostBuf = s.hostBuf := rfl
@[simp] theorem engineStoreWord_isrBuf (a : Nat) (v : Word) (s : State) : (engineStoreWord a v s).isrBuf = s.isrBuf := rfl
@[simp] theorem engineStoreWord_phy (a : Nat) (v : Word) (s : State) : (engineStoreWord a v s).phy = s.phy := rfl
@[simp] theorem engineStoreWord_phyLog (a : Nat) (v : Word) (s : State) : (engineStoreWord a v s).phyLog = s.phyLog := rfl
@[simp] theorem engineStoreWord_wireOut (a : Nat) (v : Word) (s : State) : (engineStoreWord a v s).wireOut = s.wireOut := rfl
@[simp] theorem engineStoreWord_deliverLog (a : Nat) (v : Word) (s : State) : (engineStoreWord a v s).deliverLog = s.deliverLog := rfl
@[simp] theorem engineStoreWord_busData (a : Nat) (v : Word) (s : State) : (engineStoreWord a v s).busData = s.busData := rfl
@[simp] theorem engineStoreWord_memData (a : Nat) (v : Word) (s : State) : (engineStoreWord a v s).memData = s.memData := rfl
@[simp] theorem engineStoreWord_events (a : Nat) (v : Word) (s : State) : (engineStoreWord a v s).events = s.events := rfl
@[simp] theorem engineStoreWord_dirty (a : Nat) (v : Word) (s : State) : (engineStoreWord a v s).dirty = s.dirty := rfl
@[simp] theorem engineStoreWord_freeCtr (a : Nat) (v : Word) (s : State) : (engineStoreWord a v s).freeCtr = s.freeCtr := rfl
@[simp] theorem engineStoreWord_choice (a : Nat) (v : Word) (s : State) : (engineStoreWord a v s).choice = s.choice := rfl
@[simp] theorem engineStoreWord_moves (a : Nat) (v : Word) (s : State) : (engineStoreWord a v s).moves = s.moves := rfl

/-! `storeByte` -/

@[simp] theorem storeByte_cfg (a : Nat) (v : Byte) (s : State) : (storeByte a v s).cfg = s.cfg := rfl
@[simp] theorem storeByte_link (a : Nat) (v : Byte) (s : State) : (storeByte a v s).link = s.link := rfl
@[simp] theorem storeByte_nsent (a : Nat) (v : Byte) (s : State) : (storeByte a v s).nsent = s.nsent := rfl
@[simp] theorem storeByte_nsentBytes (a : Nat) (v : Byte) (s : State) : (storeByte a v s).nsentBytes = s.nsentBytes := rfl
@[simp] theorem storeByte_nrecv (a : Nat) (v : Byte) (s : State) : (storeByte a v s).nrecv = s.nrecv := rfl
@[simp] theorem storeByte_ndrop (a : Nat) (v : Byte) (s : State) : (storeByte a v s).ndrop = s.ndrop := rfl
@[simp] theorem storeByte_nerr (a : Nat) (v : Byte) (s : State) : (storeByte a v s).nerr = s.nerr := rfl
@[simp] theorem storeByte_phyId (a : Nat) (v : Byte) (s : State) : (storeByte a v s).phyId = s.phyId := rfl
@[simp] theorem storeByte_vendor (a : Nat) (v : Byte) (s : State) : (storeByte a v s).vendor = s.vendor := rfl
@[simp] theorem storeByte_rxIdx (a : Nat) (v : Byte) (s : State) : (storeByte a v s).rxIdx = s.rxIdx := rfl
@[simp] theorem storeByte_txIdx (a : Nat) (v : Byte) (s : State) : (storeByte a v s).txIdx = s.txIdx := rfl
@[simp] theorem storeByte_initialized (a : Nat) (v : Byte) (s : State) : (storeByte a v s).initialized = s.initialized := rfl
@[simp] theorem storeByte_ringsBuilt (a : Nat) (v : Byte) (s : State) : (storeByte a v s).ringsBuilt = s.ringsBuilt := rfl
@[simp] theorem storeByte_hpc (a : Nat) (v : Byte) (s : State) : (storeByte a v s).hpc = s.hpc := rfl
@[simp] theorem storeByte_hsub (a : Nat) (v : Byte) (s : State) : (storeByte a v s).hsub = s.hsub := rfl
@[simp] theorem storeByte_hmic (a : Nat) (v : Byte) (s : State) : (storeByte a v s).hmic = s.hmic := rfl
@[simp] theorem storeByte_h (a : Nat) (v : Byte) (s : State) : (storeByte a v s).h = s.h := rfl
@[simp] theorem storeByte_inIsr (a : Nat) (v : Byte) (s : State) : (storeByte a v s).inIsr = s.inIsr := rfl
@[simp] theorem storeByte_ipc (a : Nat) (v : Byte) (s : State) : (storeByte a v s).ipc = s.ipc := rfl
@[simp] theorem storeByte_imic (a : Nat) (v : Byte) (s : State) : (storeByte a v s).imic = s.imic := rfl
@[simp] theorem storeByte_icause (a : Nat) (v : Byte) (s : State) : (storeByte a v s).icause = s.icause := rfl
@[simp] theorem storeByte_i (a : Nat) (v : Byte) (s : State) : (storeByte a v s).i = s.i := rfl
@[simp] theorem storeByte_regs (a : Nat) (v : Byte) (s : State) : (storeByte a v s).regs = s.regs := rfl
@[simp] theorem storeByte_rx (a : Nat) (v : Byte) (s : State) : (storeByte a v s).rx = s.rx := rfl
@[simp] theorem storeByte_tx (a : Nat) (v : Byte) (s : State) : (storeByte a v s).tx = s.tx := rfl
@[simp] theorem storeByte_mem (a : Nat) (v : Byte) (s : State) : (storeByte a v s).mem = Memory.set s.mem a v := rfl
@[simp] theorem storeByte_hostBuf (a : Nat) (v : Byte) (s : State) : (storeByte a v s).hostBuf = s.hostBuf := rfl
@[simp] theorem storeByte_isrBuf (a : Nat) (v : Byte) (s : State) : (storeByte a v s).isrBuf = s.isrBuf := rfl
@[simp] theorem storeByte_phy (a : Nat) (v : Byte) (s : State) : (storeByte a v s).phy = s.phy := rfl
@[simp] theorem storeByte_phyLog (a : Nat) (v : Byte) (s : State) : (storeByte a v s).phyLog = s.phyLog := rfl
@[simp] theorem storeByte_wireOut (a : Nat) (v : Byte) (s : State) : (storeByte a v s).wireOut = s.wireOut := rfl
@[simp] theorem storeByte_deliverLog (a : Nat) (v : Byte) (s : State) : (storeByte a v s).deliverLog = s.deliverLog := rfl
@[simp] theorem storeByte_busData (a : Nat) (v : Byte) (s : State) : (storeByte a v s).busData = s.busData := rfl
@[simp] theorem storeByte_memData (a : Nat) (v : Byte) (s : State) : (storeByte a v s).memData = s.memData := rfl
@[simp] theorem storeByte_events (a : Nat) (v : Byte) (s : State) : (storeByte a v s).events = s.events := rfl
@[simp] theorem storeByte_dirty (a : Nat) (v : Byte) (s : State) : (storeByte a v s).dirty = s.dirty := rfl
@[simp] theorem storeByte_freeCtr (a : Nat) (v : Byte) (s : State) : (storeByte a v s).freeCtr = s.freeCtr := rfl
@[simp] theorem storeByte_choice (a : Nat) (v : Byte) (s : State) : (storeByte a v s).choice = s.choice := rfl
@[simp] theorem storeByte_moves (a : Nat) (v : Byte) (s : State) : (storeByte a v s).moves = s.moves := rfl

/-! `callSub` -/

@[simp] theorem callSub_cfg (l : SubLabel) (m : Nat) (s : State) : (callSub l m s).cfg = s.cfg := rfl
@[simp] theorem callSub_link (l : SubLabel) (m : Nat) (s : State) : (callSub l m s).link = s.link := rfl
@[simp] theorem callSub_nsent (l : SubLabel) (m : Nat) (s : State) : (callSub l m s).nsent = s.nsent := rfl
@[simp] theorem callSub_nsentBytes (l : SubLabel) (m : Nat) (s : State) : (callSub l m s).nsentBytes = s.nsentBytes := rfl
@[simp] theorem callSub_nrecv (l : SubLabel) (m : Nat) (s : State) : (callSub l m s).nrecv = s.nrecv := rfl
@[simp] theorem callSub_ndrop (l : SubLabel) (m : Nat) (s : State) : (callSub l m s).ndrop = s.ndrop := rfl
@[simp] theorem callSub_nerr (l : SubLabel) (m : Nat) (s : State) : (callSub l m s).nerr = s.nerr := rfl
@[simp] theorem callSub_phyId (l : SubLabel) (m : Nat) (s : State) : (callSub l m s).phyId = s.phyId := rfl
@[simp] theorem callSub_vendor (l : SubLabel) (m : Nat) (s : State) : (callSub l m s).vendor = s.vendor := rfl
@[simp] theorem callSub_rxIdx (l : SubLabel) (m : Nat) (s : State) : (callSub l m s).rxIdx = s.rxIdx := rfl
@[simp] theorem callSub_txIdx (l : SubLabel) (m : Nat) (s : State) : (callSub l m s).txIdx = s.txIdx := rfl
@[simp] theorem callSub_initialized (l : SubLabel) (m : Nat) (s : State) : (callSub l m s).initialized = s.initialized := rfl
@[simp] theorem callSub_ringsBuilt (l : SubLabel) (m : Nat) (s : State) : (callSub l m s).ringsBuilt = s.ringsBuilt := rfl
@[simp] theorem callSub_hpc (l : SubLabel) (m : Nat) (s : State) : (callSub l m s).hpc = s.hpc := rfl
@[simp] theorem callSub_hsub (l : SubLabel) (m : Nat) (s : State) : (callSub l m s).hsub = l := rfl
@[simp] theorem callSub_hmic (l : SubLabel) (m : Nat) (s : State) : (callSub l m s).hmic = m := rfl
@[simp] theorem callSub_h (l : SubLabel) (m : Nat) (s : State) : (callSub l m s).h = s.h.noPolls := rfl
@[simp] theorem callSub_inIsr (l : SubLabel) (m : Nat) (s : State) : (callSub l m s).inIsr = s.inIsr := rfl
@[simp] theorem callSub_ipc (l : SubLabel) (m : Nat) (s : State) : (callSub l m s).ipc = s.ipc := rfl
@[simp] theorem callSub_imic (l : SubLabel) (m : Nat) (s : State) : (callSub l m s).imic = s.imic := rfl
@[simp] theorem callSub_icause (l : SubLabel) (m : Nat) (s : State) : (callSub l m s).icause = s.icause := rfl
@[simp] theorem callSub_i (l : SubLabel) (m : Nat) (s : State) : (callSub l m s).i = s.i := rfl
@[simp] theorem callSub_regs (l : SubLabel) (m : Nat) (s : State) : (callSub l m s).regs = s.regs := rfl
@[simp] theorem callSub_rx (l : SubLabel) (m : Nat) (s : State) : (callSub l m s).rx = s.rx := rfl
@[simp] theorem callSub_tx (l : SubLabel) (m : Nat) (s : State) : (callSub l m s).tx = s.tx := rfl
@[simp] theorem callSub_mem (l : SubLabel) (m : Nat) (s : State) : (callSub l m s).mem = s.mem := rfl
@[simp] theorem callSub_hostBuf (l : SubLabel) (m : Nat) (s : State) : (callSub l m s).hostBuf = s.hostBuf := rfl
@[simp] theorem callSub_isrBuf (l : SubLabel) (m : Nat) (s : State) : (callSub l m s).isrBuf = s.isrBuf := rfl
@[simp] theorem callSub_phy (l : SubLabel) (m : Nat) (s : State) : (callSub l m s).phy = s.phy := rfl
@[simp] theorem callSub_phyLog (l : SubLabel) (m : Nat) (s : State) : (callSub l m s).phyLog = s.phyLog := rfl
@[simp] theorem callSub_wireOut (l : SubLabel) (m : Nat) (s : State) : (callSub l m s).wireOut = s.wireOut := rfl
@[simp] theorem callSub_deliverLog (l : SubLabel) (m : Nat) (s : State) : (callSub l m s).deliverLog = s.deliverLog := rfl
@[simp] theorem callSub_busData (l : SubLabel) (m : Nat) (s : State) : (callSub l m s).busData = s.busData := rfl
@[simp] theorem callSub_memData (l : SubLabel) (m : Nat) (s : State) : (callSub l m s).memData = s.memData := rfl
@[simp] theorem callSub_events (l : SubLabel) (m : Nat) (s : State) : (callSub l m s).events = s.events := rfl
@[simp] theorem callSub_dirty (l : SubLabel) (m : Nat) (s : State) : (callSub l m s).dirty = s.dirty := rfl
@[simp] theorem callSub_freeCtr (l : SubLabel) (m : Nat) (s : State) : (callSub l m s).freeCtr = s.freeCtr := rfl
@[simp] theorem callSub_choice (l : SubLabel) (m : Nat) (s : State) : (callSub l m s).choice = s.choice := rfl
@[simp] theorem callSub_moves (l : SubLabel) (m : Nat) (s : State) : (callSub l m s).moves = s.moves := rfl

/-! `drawn` -/

@[simp] theorem drawn_cfg (s : State) : (drawn s).cfg = s.cfg := rfl
@[simp] theorem drawn_link (s : State) : (drawn s).link = s.link := rfl
@[simp] theorem drawn_nsent (s : State) : (drawn s).nsent = s.nsent := rfl
@[simp] theorem drawn_nsentBytes (s : State) : (drawn s).nsentBytes = s.nsentBytes := rfl
@[simp] theorem drawn_nrecv (s : State) : (drawn s).nrecv = s.nrecv := rfl
@[simp] theorem drawn_ndrop (s : State) : (drawn s).ndrop = s.ndrop := rfl
@[simp] theorem drawn_nerr (s : State) : (drawn s).nerr = s.nerr := rfl
@[simp] theorem drawn_phyId (s : State) : (drawn s).phyId = s.phyId := rfl
@[simp] theorem drawn_vendor (s : State) : (drawn s).vendor = s.vendor := rfl
@[simp] theorem drawn_rxIdx (s : State) : (drawn s).rxIdx = s.rxIdx := rfl
@[simp] theorem drawn_txIdx (s : State) : (drawn s).txIdx = s.txIdx := rfl
@[simp] theorem drawn_initialized (s : State) : (drawn s).initialized = s.initialized := rfl
@[simp] theorem drawn_ringsBuilt (s : State) : (drawn s).ringsBuilt = s.ringsBuilt := rfl
@[simp] theorem drawn_hpc (s : State) : (drawn s).hpc = s.hpc := rfl
@[simp] theorem drawn_hsub (s : State) : (drawn s).hsub = s.hsub := rfl
@[simp] theorem drawn_hmic (s : State) : (drawn s).hmic = s.hmic := rfl
@[simp] theorem drawn_h (s : State) : (drawn s).h = s.h := rfl
@[simp] theorem drawn_inIsr (s : State) : (drawn s).inIsr = s.inIsr := rfl
@[simp] theorem drawn_ipc (s : State) : (drawn s).ipc = s.ipc := rfl
@[simp] theorem drawn_imic (s : State) : (drawn s).imic = s.imic := rfl
@[simp] theorem drawn_icause (s : State) : (drawn s).icause = s.icause := rfl
@[simp] theorem drawn_i (s : State) : (drawn s).i = s.i := rfl
@[simp] theorem drawn_regs (s : State) : (drawn s).regs = s.regs := rfl
@[simp] theorem drawn_rx (s : State) : (drawn s).rx = s.rx := rfl
@[simp] theorem drawn_tx (s : State) : (drawn s).tx = s.tx := rfl
@[simp] theorem drawn_mem (s : State) : (drawn s).mem = s.mem := rfl
@[simp] theorem drawn_hostBuf (s : State) : (drawn s).hostBuf = s.hostBuf := rfl
@[simp] theorem drawn_isrBuf (s : State) : (drawn s).isrBuf = s.isrBuf := rfl
@[simp] theorem drawn_phy (s : State) : (drawn s).phy = s.phy := rfl
@[simp] theorem drawn_phyLog (s : State) : (drawn s).phyLog = s.phyLog := rfl
@[simp] theorem drawn_wireOut (s : State) : (drawn s).wireOut = s.wireOut := rfl
@[simp] theorem drawn_deliverLog (s : State) : (drawn s).deliverLog = s.deliverLog := rfl
@[simp] theorem drawn_busData (s : State) : (drawn s).busData = s.busData := rfl
@[simp] theorem drawn_memData (s : State) : (drawn s).memData = s.memData := rfl
@[simp] theorem drawn_events (s : State) : (drawn s).events = s.events := rfl
@[simp] theorem drawn_dirty (s : State) : (drawn s).dirty = s.dirty := rfl
@[simp] theorem drawn_freeCtr (s : State) : (drawn s).freeCtr = s.freeCtr + 1 := rfl
@[simp] theorem drawn_choice (s : State) : (drawn s).choice = s.choice := rfl
@[simp] theorem drawn_moves (s : State) : (drawn s).moves = s.moves := rfl

/-! `phyPut` -/

@[simp] theorem phyPut_cfg (pa ra : BitVec 5) (v : Half) (s : State) : (phyPut pa ra v s).cfg = s.cfg := rfl
@[simp] theorem phyPut_link (pa ra : BitVec 5) (v : Half) (s : State) : (phyPut pa ra v s).link = s.link := rfl
@[simp] theorem phyPut_nsent (pa ra : BitVec 5) (v : Half) (s : State) : (phyPut pa ra v s).nsent = s.nsent := rfl
@[simp] theorem phyPut_nsentBytes (pa ra : BitVec 5) (v : Half) (s : State) : (phyPut pa ra v s).nsentBytes = s.nsentBytes := rfl
@[simp] theorem phyPut_nrecv (pa ra : BitVec 5) (v : Half) (s : State) : (phyPut pa ra v s).nrecv = s.nrecv := rfl
@[simp] theorem phyPut_ndrop (pa ra : BitVec 5) (v : Half) (s : State) : (phyPut pa ra v s).ndrop = s.ndrop := rfl
@[simp] theorem phyPut_nerr (pa ra : BitVec 5) (v : Half) (s : State) : (phyPut pa ra v s).nerr = s.nerr := rfl
@[simp] theorem phyPut_phyId (pa ra : BitVec 5) (v : Half) (s : State) : (phyPut pa ra v s).phyId = s.phyId := rfl
@[simp] theorem phyPut_vendor (pa ra : BitVec 5) (v : Half) (s : State) : (phyPut pa ra v s).vendor = s.vendor := rfl
@[simp] theorem phyPut_rxIdx (pa ra : BitVec 5) (v : Half) (s : State) : (phyPut pa ra v s).rxIdx = s.rxIdx := rfl
@[simp] theorem phyPut_txIdx (pa ra : BitVec 5) (v : Half) (s : State) : (phyPut pa ra v s).txIdx = s.txIdx := rfl
@[simp] theorem phyPut_initialized (pa ra : BitVec 5) (v : Half) (s : State) : (phyPut pa ra v s).initialized = s.initialized := rfl
@[simp] theorem phyPut_ringsBuilt (pa ra : BitVec 5) (v : Half) (s : State) : (phyPut pa ra v s).ringsBuilt = s.ringsBuilt := rfl
@[simp] theorem phyPut_hpc (pa ra : BitVec 5) (v : Half) (s : State) : (phyPut pa ra v s).hpc = s.hpc := rfl
@[simp] theorem phyPut_hsub (pa ra : BitVec 5) (v : Half) (s : State) : (phyPut pa ra v s).hsub = s.hsub := rfl
@[simp] theorem phyPut_hmic (pa ra : BitVec 5) (v : Half) (s : State) : (phyPut pa ra v s).hmic = s.hmic := rfl
@[simp] theorem phyPut_h (pa ra : BitVec 5) (v : Half) (s : State) : (phyPut pa ra v s).h = s.h := rfl
@[simp] theorem phyPut_inIsr (pa ra : BitVec 5) (v : Half) (s : State) : (phyPut pa ra v s).inIsr = s.inIsr := rfl
@[simp] theorem phyPut_ipc (pa ra : BitVec 5) (v : Half) (s : State) : (phyPut pa ra v s).ipc = s.ipc := rfl
@[simp] theorem phyPut_imic (pa ra : BitVec 5) (v : Half) (s : State) : (phyPut pa ra v s).imic = s.imic := rfl
@[simp] theorem phyPut_icause (pa ra : BitVec 5) (v : Half) (s : State) : (phyPut pa ra v s).icause = s.icause := rfl
@[simp] theorem phyPut_i (pa ra : BitVec 5) (v : Half) (s : State) : (phyPut pa ra v s).i = s.i := rfl
@[simp] theorem phyPut_regs (pa ra : BitVec 5) (v : Half) (s : State) : (phyPut pa ra v s).regs = s.regs := rfl
@[simp] theorem phyPut_rx (pa ra : BitVec 5) (v : Half) (s : State) : (phyPut pa ra v s).rx = s.rx := rfl
@[simp] theorem phyPut_tx (pa ra : BitVec 5) (v : Half) (s : State) : (phyPut pa ra v s).tx = s.tx := rfl
@[simp] theorem phyPut_mem (pa ra : BitVec 5) (v : Half) (s : State) : (phyPut pa ra v s).mem = s.mem := rfl
@[simp] theorem phyPut_hostBuf (pa ra : BitVec 5) (v : Half) (s : State) : (phyPut pa ra v s).hostBuf = s.hostBuf := rfl
@[simp] theorem phyPut_isrBuf (pa ra : BitVec 5) (v : Half) (s : State) : (phyPut pa ra v s).isrBuf = s.isrBuf := rfl
@[simp] theorem phyPut_phy (pa ra : BitVec 5) (v : Half) (s : State) : (phyPut pa ra v s).phy = Phy.set s.phy pa ra v := rfl
@[simp] theorem phyPut_phyLog (pa ra : BitVec 5) (v : Half) (s : State) : (phyPut pa ra v s).phyLog = s.phyLog := rfl
@[simp] theorem phyPut_wireOut (pa ra : BitVec 5) (v : Half) (s : State) : (phyPut pa ra v s).wireOut = s.wireOut := rfl
@[simp] theorem phyPut_deliverLog (pa ra : BitVec 5) (v : Half) (s : State) : (phyPut pa ra v s).deliverLog = s.deliverLog := rfl
@[simp] theorem phyPut_busData (pa ra : BitVec 5) (v : Half) (s : State) : (phyPut pa ra v s).busData = s.busData := rfl
@[simp] theorem phyPut_memData (pa ra : BitVec 5) (v : Half) (s : State) : (phyPut pa ra v s).memData = s.memData := rfl
@[simp] theorem phyPut_events (pa ra : BitVec 5) (v : Half) (s : State) : (phyPut pa ra v s).events = s.events := rfl
@[simp] theorem phyPut_dirty (pa ra : BitVec 5) (v : Half) (s : State) : (phyPut pa ra v s).dirty = s.dirty := rfl
@[simp] theorem phyPut_freeCtr (pa ra : BitVec 5) (v : Half) (s : State) : (phyPut pa ra v s).freeCtr = s.freeCtr := rfl
@[simp] theorem phyPut_choice (pa ra : BitVec 5) (v : Half) (s : State) : (phyPut pa ra v s).choice = s.choice := rfl
@[simp] theorem phyPut_moves (pa ra : BitVec 5) (v : Half) (s : State) : (phyPut pa ra v s).moves = s.moves := rfl

/-! `setRxJob` -/

@[simp] theorem setRxJob_cfg (j : RxJob) (s : State) : (setRxJob j s).cfg = s.cfg := rfl
@[simp] theorem setRxJob_link (j : RxJob) (s : State) : (setRxJob j s).link = s.link := rfl
@[simp] theorem setRxJob_nsent (j : RxJob) (s : State) : (setRxJob j s).nsent = s.nsent := rfl
@[simp] theorem setRxJob_nsentBytes (j : RxJob) (s : State) : (setRxJob j s).nsentBytes = s.nsentBytes := rfl
@[simp] theorem setRxJob_nrecv (j : RxJob) (s : State) : (setRxJob j s).nrecv = s.nrecv := rfl
@[simp] theorem setRxJob_ndrop (j : RxJob) (s : State) : (setRxJob j s).ndrop = s.ndrop := rfl
@[simp] theorem setRxJob_nerr (j : RxJob) (s : State) : (setRxJob j s).nerr = s.nerr := rfl
@[simp] theorem setRxJob_phyId (j : RxJob) (s : State) : (setRxJob j s).phyId = s.phyId := rfl
@[simp] theorem setRxJob_vendor (j : RxJob) (s : State) : (setRxJob j s).vendor = s.vendor := rfl
@[simp] theorem setRxJob_rxIdx (j : RxJob) (s : State) : (setRxJob j s).rxIdx = s.rxIdx := rfl
@[simp] theorem setRxJob_txIdx (j : RxJob) (s : State) : (setRxJob j s).txIdx = s.txIdx := rfl
@[simp] theorem setRxJob_initialized (j : RxJob) (s : State) : (setRxJob j s).initialized = s.initialized := rfl
@[simp] theorem setRxJob_ringsBuilt (j : RxJob) (s : State) : (setRxJob j s).ringsBuilt = s.ringsBuilt := rfl
@[simp] theorem setRxJob_hpc (j : RxJob) (s : State) : (setRxJob j s).hpc = s.hpc := rfl
@[simp] theorem setRxJob_hsub (j : RxJob) (s : State) : (setRxJob j s).hsub = s.hsub := rfl
@[simp] theorem setRxJob_hmic (j : RxJob) (s : State) : (setRxJob j s).hmic = s.hmic := rfl
@[simp] theorem setRxJob_h (j : RxJob) (s : State) : (setRxJob j s).h = s.h := rfl
@[simp] theorem setRxJob_inIsr (j : RxJob) (s : State) : (setRxJob j s).inIsr = s.inIsr := rfl
@[simp] theorem setRxJob_ipc (j : RxJob) (s : State) : (setRxJob j s).ipc = s.ipc := rfl
@[simp] theorem setRxJob_imic (j : RxJob) (s : State) : (setRxJob j s).imic = s.imic := rfl
@[simp] theorem setRxJob_icause (j : RxJob) (s : State) : (setRxJob j s).icause = s.icause := rfl
@[simp] theorem setRxJob_i (j : RxJob) (s : State) : (setRxJob j s).i = s.i := rfl
@[simp] theorem setRxJob_regs (j : RxJob) (s : State) : (setRxJob j s).regs = s.regs := rfl
@[simp] theorem setRxJob_rx (j : RxJob) (s : State) : (setRxJob j s).rx = { s.rx with job := some j } := rfl
@[simp] theorem setRxJob_tx (j : RxJob) (s : State) : (setRxJob j s).tx = s.tx := rfl
@[simp] theorem setRxJob_mem (j : RxJob) (s : State) : (setRxJob j s).mem = s.mem := rfl
@[simp] theorem setRxJob_hostBuf (j : RxJob) (s : State) : (setRxJob j s).hostBuf = s.hostBuf := rfl
@[simp] theorem setRxJob_isrBuf (j : RxJob) (s : State) : (setRxJob j s).isrBuf = s.isrBuf := rfl
@[simp] theorem setRxJob_phy (j : RxJob) (s : State) : (setRxJob j s).phy = s.phy := rfl
@[simp] theorem setRxJob_phyLog (j : RxJob) (s : State) : (setRxJob j s).phyLog = s.phyLog := rfl
@[simp] theorem setRxJob_wireOut (j : RxJob) (s : State) : (setRxJob j s).wireOut = s.wireOut := rfl
@[simp] theorem setRxJob_deliverLog (j : RxJob) (s : State) : (setRxJob j s).deliverLog = s.deliverLog := rfl
@[simp] theorem setRxJob_busData (j : RxJob) (s : State) : (setRxJob j s).busData = s.busData := rfl
@[simp] theorem setRxJob_memData (j : RxJob) (s : State) : (setRxJob j s).memData = s.memData := rfl
@[simp] theorem setRxJob_events (j : RxJob) (s : State) : (setRxJob j s).events = s.events := rfl
@[simp] theorem setRxJob_dirty (j : RxJob) (s : State) : (setRxJob j s).dirty = s.dirty := rfl
@[simp] theorem setRxJob_freeCtr (j : RxJob) (s : State) : (setRxJob j s).freeCtr = s.freeCtr := rfl
@[simp] theorem setRxJob_choice (j : RxJob) (s : State) : (setRxJob j s).choice = s.choice := rfl
@[simp] theorem setRxJob_moves (j : RxJob) (s : State) : (setRxJob j s).moves = s.moves := rfl

/-! `setTxJob` -/

@[simp] theorem setTxJob_cfg (j : TxJob) (s : State) : (setTxJob j s).cfg = s.cfg := rfl
@[simp] theorem setTxJob_link (j : TxJob) (s : State) : (setTxJob j s).link = s.link := rfl
@[simp] theorem setTxJob_nsent (j : TxJob) (s : State) : (setTxJob j s).nsent = s.nsent := rfl
@[simp] theorem setTxJob_nsentBytes (j : TxJob) (s : State) : (setTxJob j s).nsentBytes = s.nsentBytes := rfl
@[simp] theorem setTxJob_nrecv (j : TxJob) (s : State) : (setTxJob j s).nrecv = s.nrecv := rfl
@[simp] theorem setTxJob_ndrop (j : TxJob) (s : State) : (setTxJob j s).ndrop = s.ndrop := rfl
@[simp] theorem setTxJob_nerr (j : TxJob) (s : State) : (setTxJob j s).nerr = s.nerr := rfl
@[simp] theorem setTxJob_phyId (j : TxJob) (s : State) : (setTxJob j s).phyId = s.phyId := rfl
@[simp] theorem setTxJob_vendor (j : TxJob) (s : State) : (setTxJob j s).vendor = s.vendor := rfl
@[simp] theorem setTxJob_rxIdx (j : TxJob) (s : State) : (setTxJob j s).rxIdx = s.rxIdx := rfl
@[simp] theorem setTxJob_txIdx (j : TxJob) (s : State) : (setTxJob j s).txIdx = s.txIdx := rfl
@[simp] theorem setTxJob_initialized (j : TxJob) (s : State) : (setTxJob j s).initialized = s.initialized := rfl
@[simp] theorem setTxJob_ringsBuilt (j : TxJob) (s : State) : (setTxJob j s).ringsBuilt = s.ringsBuilt := rfl
@[simp] theorem setTxJob_hpc (j : TxJob) (s : State) : (setTxJob j s).hpc = s.hpc := rfl
@[simp] theorem setTxJob_hsub (j : TxJob) (s : State) : (setTxJob j s).hsub = s.hsub := rfl
@[simp] theorem setTxJob_hmic (j : TxJob) (s : State) : (setTxJob j s).hmic = s.hmic := rfl
@[simp] theorem setTxJob_h (j : TxJob) (s : State) : (setTxJob j s).h = s.h := rfl
@[simp] theorem setTxJob_inIsr (j : TxJob) (s : State) : (setTxJob j s).inIsr = s.inIsr := rfl
@[simp] theorem setTxJob_ipc (j : TxJob) (s : State) : (setTxJob j s).ipc = s.ipc := rfl
@[simp] theorem setTxJob_imic (j : TxJob) (s : State) : (setTxJob j s).imic = s.imic := rfl
@[simp] theorem setTxJob_icause (j : TxJob) (s : State) : (setTxJob j s).icause = s.icause := rfl
@[simp] theorem setTxJob_i (j : TxJob) (s : State) : (setTxJob j s).i = s.i := rfl
@[simp] theorem setTxJob_regs (j : TxJob) (s : State) : (setTxJob j s).regs = s.regs := rfl
@[simp] theorem setTxJob_rx (j : TxJob) (s : State) : (setTxJob j s).rx = s.rx := rfl
@[simp] theorem setTxJob_tx (j : TxJob) (s : State) : (setTxJob j s).tx = { s.tx with job := some j } := rfl
@[simp] theorem setTxJob_mem (j : TxJob) (s : State) : (setTxJob j s).mem = s.mem := rfl
@[simp] theorem setTxJob_hostBuf (j : TxJob) (s : State) : (setTxJob j s).hostBuf = s.hostBuf := rfl
@[simp] theorem setTxJob_isrBuf (j : TxJob) (s : State) : (setTxJob j s).isrBuf = s.isrBuf := rfl
@[simp] theorem setTxJob_phy (j : TxJob) (s : State) : (setTxJob j s).phy = s.phy := rfl
@[simp] theorem setTxJob_phyLog (j : TxJob) (s : State) : (setTxJob j s).phyLog = s.phyLog := rfl
@[simp] theorem setTxJob_wireOut (j : TxJob) (s : State) : (setTxJob j s).wireOut = s.wireOut := rfl
@[simp] theorem setTxJob_deliverLog (j : TxJob) (s : State) : (setTxJob j s).deliverLog = s.deliverLog := rfl
@[simp] theorem setTxJob_busData (j : TxJob) (s : State) : (setTxJob j s).busData = s.busData := rfl
@[simp] theorem setTxJob_memData (j : TxJob) (s : State) : (setTxJob j s).memData = s.memData := rfl
@[simp] theorem setTxJob_events (j : TxJob) (s : State) : (setTxJob j s).events = s.events := rfl
@[simp] theorem setTxJob_dirty (j : TxJob) (s : State) : (setTxJob j s).dirty = s.dirty := rfl
@[simp] theorem setTxJob_freeCtr (j : TxJob) (s : State) : (setTxJob j s).freeCtr = s.freeCtr := rfl
@[simp] theorem setTxJob_choice (j : TxJob) (s : State) : (setTxJob j s).choice = s.choice := rfl
@[simp] theorem setTxJob_moves (j : TxJob) (s : State) : (setTxJob j s).moves = s.moves := rfl

/-! `clearBusy` -/

@[simp] theorem clearBusy_cfg (s : State) : (clearBusy s).cfg = s.cfg := rfl
@[simp] theorem clearBusy_link (s : State) : (clearBusy s).link = s.link := rfl
@[simp] theorem clearBusy_nsent (s : State) : (clearBusy s).nsent = s.nsent := rfl
@[simp] theorem clearBusy_nsentBytes (s : State) : (clearBusy s).nsentBytes = s.nsentBytes := rfl
@[simp] theorem clearBusy_nrecv (s : State) : (clearBusy s).nrecv = s.nrecv := rfl
@[simp] theorem clearBusy_ndrop (s : State) : (clearBusy s).ndrop = s.ndrop := rfl
@[simp] theorem clearBusy_nerr (s : State) : (clearBusy s).nerr = s.nerr := rfl
@[simp] theorem clearBusy_phyId (s : State) : (clearBusy s).phyId = s.phyId := rfl
@[simp] theorem clearBusy_vendor (s : State) : (clearBusy s).vendor = s.vendor := rfl
@[simp] theorem clearBusy_rxIdx (s : State) : (clearBusy s).rxIdx = s.rxIdx := rfl
@[simp] theorem clearBusy_txIdx (s : State) : (clearBusy s).txIdx = s.txIdx := rfl
@[simp] theorem clearBusy_initialized (s : State) : (clearBusy s).initialized = s.initialized := rfl
@[simp] theorem clearBusy_ringsBuilt (s : State) : (clearBusy s).ringsBuilt = s.ringsBuilt := rfl
@[simp] theorem clearBusy_hpc (s : State) : (clearBusy s).hpc = s.hpc := rfl
@[simp] theorem clearBusy_hsub (s : State) : (clearBusy s).hsub = s.hsub := rfl
@[simp] theorem clearBusy_hmic (s : State) : (clearBusy s).hmic = s.hmic := rfl
@[simp] theorem clearBusy_h (s : State) : (clearBusy s).h = s.h := rfl
@[simp] theorem clearBusy_inIsr (s : State) : (clearBusy s).inIsr = s.inIsr := rfl
@[simp] theorem clearBusy_ipc (s : State) : (clearBusy s).ipc = s.ipc := rfl
@[simp] theorem clearBusy_imic (s : State) : (clearBusy s).imic = s.imic := rfl
@[simp] theorem clearBusy_icause (s : State) : (clearBusy s).icause = s.icause := rfl
@[simp] theorem clearBusy_i (s : State) : (clearBusy s).i = s.i := rfl
@[simp] theorem clearBusy_regs (s : State) : (clearBusy s).regs = { s.regs with mdioCtrl := s.regs.mdioCtrl &&& 0xFFFFFFFE } := rfl
@[simp] theorem clearBusy_rx (s : State) : (clearBusy s).rx = s.rx := rfl
@[simp] theorem clearBusy_tx (s : State) : (clearBusy s).tx = s.tx := rfl
@[simp] theorem clearBusy_mem (s : State) : (clearBusy s).mem = s.mem := rfl
@[simp] theorem clearBusy_hostBuf (s : State) : (clearBusy s).hostBuf = s.hostBuf := rfl
@[simp] theorem clearBusy_isrBuf (s : State) : (clearBusy s).isrBuf = s.isrBuf := rfl
@[simp] theorem clearBusy_phy (s : State) : (clearBusy s).phy = s.phy := rfl
@[simp] theorem clearBusy_phyLog (s : State) : (clearBusy s).phyLog = s.phyLog := rfl
@[simp] theorem clearBusy_wireOut (s : State) : (clearBusy s).wireOut = s.wireOut := rfl
@[simp] theorem clearBusy_deliverLog (s : State) : (clearBusy s).deliverLog = s.deliverLog := rfl
@[simp] theorem clearBusy_busData (s : State) : (clearBusy s).busData = s.busData := rfl
@[simp] theorem clearBusy_memData (s : State) : (clearBusy s).memData = s.memData := rfl
@[simp] theorem clearBusy_events (s : State) : (clearBusy s).events = s.events := rfl
@[simp] theorem clearBusy_dirty (s : State) : (clearBusy s).dirty = s.dirty := rfl
@[simp] theorem clearBusy_freeCtr (s : State) : (clearBusy s).freeCtr = s.freeCtr := rfl
@[simp] theorem clearBusy_choice (s : State) : (clearBusy s).choice = s.choice := rfl
@[simp] theorem clearBusy_moves (s : State) : (clearBusy s).moves = s.moves := rfl

/-! `deliver` -/

@[simp] theorem deliver_cfg (s : State) : (deliver s).cfg = s.cfg := rfl
@[simp] theorem deliver_link (s : State) : (deliver s).link = s.link := rfl
@[simp] theorem deliver_nsent (s : State) : (deliver s).nsent = s.nsent := rfl
@[simp] theorem deliver_nsentBytes (s : State) : (deliver s).nsentBytes = s.nsentBytes := rfl
@[simp] theorem deliver_nrecv (s : State) : (deliver s).nrecv = s.nrecv := rfl
@[simp] theorem deliver_ndrop (s : State) : (deliver s).ndrop = s.ndrop := rfl
@[simp] theorem deliver_nerr (s : State) : (deliver s).nerr = s.nerr := rfl
@[simp] theorem deliver_phyId (s : State) : (deliver s).phyId = s.phyId := rfl
@[simp] theorem deliver_vendor (s : State) : (deliver s).vendor = s.vendor := rfl
@[simp] theorem deliver_rxIdx (s : State) : (deliver s).rxIdx = s.rxIdx := rfl
@[simp] theorem deliver_txIdx (s : State) : (deliver s).txIdx = s.txIdx := rfl
@[simp] theorem deliver_initialized (s : State) : (deliver s).initialized = s.initialized := rfl
@[simp] theorem deliver_ringsBuilt (s : State) : (deliver s).ringsBuilt = s.ringsBuilt := rfl
@[simp] theorem deliver_hpc (s : State) : (deliver s).hpc = s.hpc := rfl
@[simp] theorem deliver_hsub (s : State) : (deliver s).hsub = s.hsub := rfl
@[simp] theorem deliver_hmic (s : State) : (deliver s).hmic = s.hmic := rfl
@[simp] theorem deliver_h (s : State) : (deliver s).h = s.h := rfl
@[simp] theorem deliver_inIsr (s : State) : (deliver s).inIsr = s.inIsr := rfl
@[simp] theorem deliver_ipc (s : State) : (deliver s).ipc = s.ipc := rfl
@[simp] theorem deliver_imic (s : State) : (deliver s).imic = s.imic := rfl
@[simp] theorem deliver_icause (s : State) : (deliver s).icause = s.icause := rfl
@[simp] theorem deliver_i (s : State) : (deliver s).i = s.i := rfl
@[simp] theorem deliver_regs (s : State) : (deliver s).regs = s.regs := rfl
@[simp] theorem deliver_rx (s : State) : (deliver s).rx = s.rx := rfl
@[simp] theorem deliver_tx (s : State) : (deliver s).tx = s.tx := rfl
@[simp] theorem deliver_mem (s : State) : (deliver s).mem = s.mem := rfl
@[simp] theorem deliver_hostBuf (s : State) : (deliver s).hostBuf = s.hostBuf := rfl
@[simp] theorem deliver_isrBuf (s : State) : (deliver s).isrBuf = s.isrBuf := rfl
@[simp] theorem deliver_phy (s : State) : (deliver s).phy = s.phy := rfl
@[simp] theorem deliver_phyLog (s : State) : (deliver s).phyLog = s.phyLog := rfl
@[simp] theorem deliver_wireOut (s : State) : (deliver s).wireOut = s.wireOut := rfl
@[simp] theorem deliver_deliverLog (s : State) : (deliver s).deliverLog = s.deliverLog ++ [s.bytesAt s.i.bufp s.i.len.toNat] := rfl
@[simp] theorem deliver_busData (s : State) : (deliver s).busData = s.busData := rfl
@[simp] theorem deliver_memData (s : State) : (deliver s).memData = s.memData := rfl
@[simp] theorem deliver_events (s : State) : (deliver s).events = s.events := rfl
@[simp] theorem deliver_dirty (s : State) : (deliver s).dirty = s.dirty := rfl
@[simp] theorem deliver_freeCtr (s : State) : (deliver s).freeCtr = s.freeCtr := rfl
@[simp] theorem deliver_choice (s : State) : (deliver s).choice = s.choice := rfl
@[simp] theorem deliver_moves (s : State) : (deliver s).moves = s.moves := rfl

/-! `endReception` -/

@[simp] theorem endReception_cfg (s : State) : (endReception s).cfg = s.cfg := rfl
@[simp] theorem endReception_link (s : State) : (endReception s).link = s.link := rfl
@[simp] theorem endReception_nsent (s : State) : (endReception s).nsent = s.nsent := rfl
@[simp] theorem endReception_nsentBytes (s : State) : (endReception s).nsentBytes = s.nsentBytes := rfl
@[simp] theorem endReception_nrecv (s : State) : (endReception s).nrecv = s.nrecv := rfl
@[simp] theorem endReception_ndrop (s : State) : (endReception s).ndrop = s.ndrop := rfl
@[simp] theorem endReception_nerr (s : State) : (endReception s).nerr = s.nerr := rfl
@[simp] theorem endReception_phyId (s : State) : (endReception s).phyId = s.phyId := rfl
@[simp] theorem endReception_vendor (s : State) : (endReception s).vendor = s.vendor := rfl
@[simp] theorem endReception_rxIdx (s : State) : (endReception s).rxIdx = s.rxIdx := rfl
@[simp] theorem endReception_txIdx (s : State) : (endReception s).txIdx = s.txIdx := rfl
@[simp] theorem endReception_initialized (s : State) : (endReception s).initialized = s.initialized := rfl
@[simp] theorem endReception_ringsBuilt (s : State) : (endReception s).ringsBuilt = s.ringsBuilt := rfl
@[simp] theorem endReception_hpc (s : State) : (endReception s).hpc = s.hpc := rfl
@[simp] theorem endReception_hsub (s : State) : (endReception s).hsub = s.hsub := rfl
@[simp] theorem endReception_hmic (s : State) : (endReception s).hmic = s.hmic := rfl
@[simp] theorem endReception_h (s : State) : (endReception s).h = s.h := rfl
@[simp] theorem endReception_inIsr (s : State) : (endReception s).inIsr = s.inIsr := rfl
@[simp] theorem endReception_ipc (s : State) : (endReception s).ipc = s.ipc := rfl
@[simp] theorem endReception_imic (s : State) : (endReception s).imic = s.imic := rfl
@[simp] theorem endReception_icause (s : State) : (endReception s).icause = s.icause := rfl
@[simp] theorem endReception_i (s : State) : (endReception s).i = s.i := rfl
@[simp] theorem endReception_regs (s : State) : (endReception s).regs = s.regs := rfl
@[simp] theorem endReception_rx (s : State) : (endReception s).rx = { s.rx with job := none, run := if rxenBit s.regs.ctrl then s.rx.run else .stopped } := rfl
@[simp] theorem endReception_tx (s : State) : (endReception s).tx = s.tx := rfl
@[simp] theorem endReception_mem (s : State) : (endReception s).mem = s.mem := rfl
@[simp] theorem endReception_hostBuf (s : State) : (endReception s).hostBuf = s.hostBuf := rfl
@[simp] theorem endReception_isrBuf (s : State) : (endReception s).isrBuf = s.isrBuf := rfl
@[simp] theorem endReception_phy (s : State) : (endReception s).phy = s.phy := rfl
@[simp] theorem endReception_phyLog (s : State) : (endReception s).phyLog = s.phyLog := rfl
@[simp] theorem endReception_wireOut (s : State) : (endReception s).wireOut = s.wireOut := rfl
@[simp] theorem endReception_deliverLog (s : State) : (endReception s).deliverLog = s.deliverLog := rfl
@[simp] theorem endReception_busData (s : State) : (endReception s).busData = s.busData := rfl
@[simp] theorem endReception_memData (s : State) : (endReception s).memData = s.memData := rfl
@[simp] theorem endReception_events (s : State) : (endReception s).events = s.events := rfl
@[simp] theorem endReception_dirty (s : State) : (endReception s).dirty = s.dirty := rfl
@[simp] theorem endReception_freeCtr (s : State) : (endReception s).freeCtr = s.freeCtr := rfl
@[simp] theorem endReception_choice (s : State) : (endReception s).choice = s.choice := rfl
@[simp] theorem endReception_moves (s : State) : (endReception s).moves = s.moves := rfl

/-! The counts that bound a loop (log 23) -/

/-- One more increment counts one more, past a wrap too. -/
theorem countOf_succ (w : Word) (n : Nat) : countOf (w + 1) (wrapsAfter w n) = countOf w n + 1 := by
  unfold countOf wrapsAfter
  by_cases h : w + 1 = 0
  · have e : w.toNat + 1 = 2 ^ 32 := by bv_omega
    rw [if_pos h, h]; simp; omega
  · have e : w.toNat + 1 < 2 ^ 32 := by bv_omega
    rw [if_neg h, BitVec.toNat_add, Nat.mod_eq_of_lt (by simpa using e)]; simp; omega

@[simp] theorem polls_onePoll (h : HostRegs) : h.onePoll.polls = h.polls + 1 := countOf_succ ..
@[simp] theorem polls_noPolls (h : HostRegs) : h.noPolls.polls = 0 := rfl
@[simp] theorem iterations_oneIteration (i : IsrRegs) : i.oneIteration.iterations = i.iterations + 1 := countOf_succ ..
@[simp] theorem onePoll_buf (h : HostRegs) : h.onePoll.buf = h.buf := rfl
@[simp] theorem noPolls_buf (h : HostRegs) : h.noPolls.buf = h.buf := rfl
@[simp] theorem onePoll_len (h : HostRegs) : h.onePoll.len = h.len := rfl
@[simp] theorem noPolls_len (h : HostRegs) : h.noPolls.len = h.len := rfl
@[simp] theorem onePoll_w0 (h : HostRegs) : h.onePoll.w0 = h.w0 := rfl
@[simp] theorem noPolls_w0 (h : HostRegs) : h.noPolls.w0 = h.w0 := rfl
@[simp] theorem onePoll_bufp (h : HostRegs) : h.onePoll.bufp = h.bufp := rfl
@[simp] theorem noPolls_bufp (h : HostRegs) : h.noPolls.bufp = h.bufp := rfl
@[simp] theorem onePoll_j (h : HostRegs) : h.onePoll.j = h.j := rfl
@[simp] theorem noPolls_j (h : HostRegs) : h.noPolls.j = h.j := rfl
@[simp] theorem onePoll_c (h : HostRegs) : h.onePoll.c = h.c := rfl
@[simp] theorem noPolls_c (h : HostRegs) : h.noPolls.c = h.c := rfl
@[simp] theorem onePoll_v (h : HostRegs) : h.onePoll.v = h.v := rfl
@[simp] theorem noPolls_v (h : HostRegs) : h.noPolls.v = h.v := rfl
@[simp] theorem onePoll_ok (h : HostRegs) : h.onePoll.ok = h.ok := rfl
@[simp] theorem noPolls_ok (h : HostRegs) : h.noPolls.ok = h.ok := rfl
@[simp] theorem onePoll_id1 (h : HostRegs) : h.onePoll.id1 = h.id1 := rfl
@[simp] theorem noPolls_id1 (h : HostRegs) : h.noPolls.id1 = h.id1 := rfl
@[simp] theorem onePoll_id2 (h : HostRegs) : h.onePoll.id2 = h.id2 := rfl
@[simp] theorem noPolls_id2 (h : HostRegs) : h.noPolls.id2 = h.id2 := rfl
@[simp] theorem onePoll_code (h : HostRegs) : h.onePoll.code = h.code := rfl
@[simp] theorem noPolls_code (h : HostRegs) : h.noPolls.code = h.code := rfl
@[simp] theorem onePoll_up (h : HostRegs) : h.onePoll.up = h.up := rfl
@[simp] theorem noPolls_up (h : HostRegs) : h.noPolls.up = h.up := rfl
@[simp] theorem onePoll_spd (h : HostRegs) : h.onePoll.spd = h.spd := rfl
@[simp] theorem noPolls_spd (h : HostRegs) : h.noPolls.spd = h.spd := rfl
@[simp] theorem onePoll_dup (h : HostRegs) : h.onePoll.dup = h.dup := rfl
@[simp] theorem noPolls_dup (h : HostRegs) : h.noPolls.dup = h.dup := rfl
@[simp] theorem onePoll_byte (h : HostRegs) : h.onePoll.byte = h.byte := rfl
@[simp] theorem noPolls_byte (h : HostRegs) : h.noPolls.byte = h.byte := rfl
@[simp] theorem oneIteration_snap (i : IsrRegs) : i.oneIteration.snap = i.snap := rfl
@[simp] theorem oneIteration_cap (i : IsrRegs) : i.oneIteration.cap = i.cap := rfl
@[simp] theorem oneIteration_w0 (i : IsrRegs) : i.oneIteration.w0 = i.w0 := rfl
@[simp] theorem oneIteration_len (i : IsrRegs) : i.oneIteration.len = i.len := rfl
@[simp] theorem oneIteration_bufp (i : IsrRegs) : i.oneIteration.bufp = i.bufp := rfl

/-! `State.setPending`, for either context -/

@[simp] theorem setPending_cfg (s : State) (c : Ctx) (b : List Pending) : (s.setPending c b).cfg = s.cfg := by cases c <;> rfl
@[simp] theorem setPending_link (s : State) (c : Ctx) (b : List Pending) : (s.setPending c b).link = s.link := by cases c <;> rfl
@[simp] theorem setPending_nsent (s : State) (c : Ctx) (b : List Pending) : (s.setPending c b).nsent = s.nsent := by cases c <;> rfl
@[simp] theorem setPending_nsentBytes (s : State) (c : Ctx) (b : List Pending) : (s.setPending c b).nsentBytes = s.nsentBytes := by cases c <;> rfl
@[simp] theorem setPending_nrecv (s : State) (c : Ctx) (b : List Pending) : (s.setPending c b).nrecv = s.nrecv := by cases c <;> rfl
@[simp] theorem setPending_ndrop (s : State) (c : Ctx) (b : List Pending) : (s.setPending c b).ndrop = s.ndrop := by cases c <;> rfl
@[simp] theorem setPending_nerr (s : State) (c : Ctx) (b : List Pending) : (s.setPending c b).nerr = s.nerr := by cases c <;> rfl
@[simp] theorem setPending_phyId (s : State) (c : Ctx) (b : List Pending) : (s.setPending c b).phyId = s.phyId := by cases c <;> rfl
@[simp] theorem setPending_vendor (s : State) (c : Ctx) (b : List Pending) : (s.setPending c b).vendor = s.vendor := by cases c <;> rfl
@[simp] theorem setPending_rxIdx (s : State) (c : Ctx) (b : List Pending) : (s.setPending c b).rxIdx = s.rxIdx := by cases c <;> rfl
@[simp] theorem setPending_txIdx (s : State) (c : Ctx) (b : List Pending) : (s.setPending c b).txIdx = s.txIdx := by cases c <;> rfl
@[simp] theorem setPending_initialized (s : State) (c : Ctx) (b : List Pending) : (s.setPending c b).initialized = s.initialized := by cases c <;> rfl
@[simp] theorem setPending_ringsBuilt (s : State) (c : Ctx) (b : List Pending) : (s.setPending c b).ringsBuilt = s.ringsBuilt := by cases c <;> rfl
@[simp] theorem setPending_hpc (s : State) (c : Ctx) (b : List Pending) : (s.setPending c b).hpc = s.hpc := by cases c <;> rfl
@[simp] theorem setPending_hsub (s : State) (c : Ctx) (b : List Pending) : (s.setPending c b).hsub = s.hsub := by cases c <;> rfl
@[simp] theorem setPending_hmic (s : State) (c : Ctx) (b : List Pending) : (s.setPending c b).hmic = s.hmic := by cases c <;> rfl
@[simp] theorem setPending_h (s : State) (c : Ctx) (b : List Pending) : (s.setPending c b).h = s.h := by cases c <;> rfl
@[simp] theorem setPending_inIsr (s : State) (c : Ctx) (b : List Pending) : (s.setPending c b).inIsr = s.inIsr := by cases c <;> rfl
@[simp] theorem setPending_ipc (s : State) (c : Ctx) (b : List Pending) : (s.setPending c b).ipc = s.ipc := by cases c <;> rfl
@[simp] theorem setPending_imic (s : State) (c : Ctx) (b : List Pending) : (s.setPending c b).imic = s.imic := by cases c <;> rfl
@[simp] theorem setPending_icause (s : State) (c : Ctx) (b : List Pending) : (s.setPending c b).icause = s.icause := by cases c <;> rfl
@[simp] theorem setPending_i (s : State) (c : Ctx) (b : List Pending) : (s.setPending c b).i = s.i := by cases c <;> rfl
@[simp] theorem setPending_regs (s : State) (c : Ctx) (b : List Pending) : (s.setPending c b).regs = s.regs := by cases c <;> rfl
@[simp] theorem setPending_rx (s : State) (c : Ctx) (b : List Pending) : (s.setPending c b).rx = s.rx := by cases c <;> rfl
@[simp] theorem setPending_tx (s : State) (c : Ctx) (b : List Pending) : (s.setPending c b).tx = s.tx := by cases c <;> rfl
@[simp] theorem setPending_mem (s : State) (c : Ctx) (b : List Pending) : (s.setPending c b).mem = s.mem := by cases c <;> rfl
@[simp] theorem setPending_phy (s : State) (c : Ctx) (b : List Pending) : (s.setPending c b).phy = s.phy := by cases c <;> rfl
@[simp] theorem setPending_phyLog (s : State) (c : Ctx) (b : List Pending) : (s.setPending c b).phyLog = s.phyLog := by cases c <;> rfl
@[simp] theorem setPending_wireOut (s : State) (c : Ctx) (b : List Pending) : (s.setPending c b).wireOut = s.wireOut := by cases c <;> rfl
@[simp] theorem setPending_deliverLog (s : State) (c : Ctx) (b : List Pending) : (s.setPending c b).deliverLog = s.deliverLog := by cases c <;> rfl
@[simp] theorem setPending_busData (s : State) (c : Ctx) (b : List Pending) : (s.setPending c b).busData = s.busData := by cases c <;> rfl
@[simp] theorem setPending_memData (s : State) (c : Ctx) (b : List Pending) : (s.setPending c b).memData = s.memData := by cases c <;> rfl
@[simp] theorem setPending_events (s : State) (c : Ctx) (b : List Pending) : (s.setPending c b).events = s.events := by cases c <;> rfl
@[simp] theorem setPending_dirty (s : State) (c : Ctx) (b : List Pending) : (s.setPending c b).dirty = s.dirty := by cases c <;> rfl
@[simp] theorem setPending_freeCtr (s : State) (c : Ctx) (b : List Pending) : (s.setPending c b).freeCtr = s.freeCtr := by cases c <;> rfl
@[simp] theorem setPending_choice (s : State) (c : Ctx) (b : List Pending) : (s.setPending c b).choice = s.choice := by cases c <;> rfl
@[simp] theorem setPending_moves (s : State) (c : Ctx) (b : List Pending) : (s.setPending c b).moves = s.moves := by cases c <;> rfl
@[simp] theorem setPending_host_hostBuf (s : State) (b : List Pending) : (s.setPending .host b).hostBuf = b := rfl
@[simp] theorem setPending_host_isrBuf (s : State) (b : List Pending) : (s.setPending .host b).isrBuf = s.isrBuf := rfl
@[simp] theorem setPending_isr_hostBuf (s : State) (b : List Pending) : (s.setPending .isr b).hostBuf = s.hostBuf := rfl
@[simp] theorem setPending_isr_isrBuf (s : State) (b : List Pending) : (s.setPending .isr b).isrBuf = b := rfl
@[simp] theorem setPending_pending (s : State) (c : Ctx) (b : List Pending) : (s.setPending c b).pending c = b := by cases c <;> rfl
@[simp] theorem pending_host (s : State) : s.pending .host = s.hostBuf := rfl
@[simp] theorem pending_isr (s : State) : s.pending .isr = s.isrBuf := rfl
@[simp] theorem fence_eq_flush (c : Ctx) (s : State) : fence c s = flush c s := rfl

/-! `performAccess`: memory, or one of the four registers a late load fills (`h.byte`, `h.bufp`, `i.len`, `i.bufp`) -/

@[simp] theorem performAccess_cfg (p : Pending) (s : State) : (performAccess p s).cfg = s.cfg := by rcases p with _ | _ | ⟨_, _ | _⟩ | _ <;> rfl
@[simp] theorem performAccess_link (p : Pending) (s : State) : (performAccess p s).link = s.link := by rcases p with _ | _ | ⟨_, _ | _⟩ | _ <;> rfl
@[simp] theorem performAccess_nsent (p : Pending) (s : State) : (performAccess p s).nsent = s.nsent := by rcases p with _ | _ | ⟨_, _ | _⟩ | _ <;> rfl
@[simp] theorem performAccess_nsentBytes (p : Pending) (s : State) : (performAccess p s).nsentBytes = s.nsentBytes := by rcases p with _ | _ | ⟨_, _ | _⟩ | _ <;> rfl
@[simp] theorem performAccess_nrecv (p : Pending) (s : State) : (performAccess p s).nrecv = s.nrecv := by rcases p with _ | _ | ⟨_, _ | _⟩ | _ <;> rfl
@[simp] theorem performAccess_ndrop (p : Pending) (s : State) : (performAccess p s).ndrop = s.ndrop := by rcases p with _ | _ | ⟨_, _ | _⟩ | _ <;> rfl
@[simp] theorem performAccess_nerr (p : Pending) (s : State) : (performAccess p s).nerr = s.nerr := by rcases p with _ | _ | ⟨_, _ | _⟩ | _ <;> rfl
@[simp] theorem performAccess_phyId (p : Pending) (s : State) : (performAccess p s).phyId = s.phyId := by rcases p with _ | _ | ⟨_, _ | _⟩ | _ <;> rfl
@[simp] theorem performAccess_vendor (p : Pending) (s : State) : (performAccess p s).vendor = s.vendor := by rcases p with _ | _ | ⟨_, _ | _⟩ | _ <;> rfl
@[simp] theorem performAccess_rxIdx (p : Pending) (s : State) : (performAccess p s).rxIdx = s.rxIdx := by rcases p with _ | _ | ⟨_, _ | _⟩ | _ <;> rfl
@[simp] theorem performAccess_txIdx (p : Pending) (s : State) : (performAccess p s).txIdx = s.txIdx := by rcases p with _ | _ | ⟨_, _ | _⟩ | _ <;> rfl
@[simp] theorem performAccess_initialized (p : Pending) (s : State) : (performAccess p s).initialized = s.initialized := by rcases p with _ | _ | ⟨_, _ | _⟩ | _ <;> rfl
@[simp] theorem performAccess_ringsBuilt (p : Pending) (s : State) : (performAccess p s).ringsBuilt = s.ringsBuilt := by rcases p with _ | _ | ⟨_, _ | _⟩ | _ <;> rfl
@[simp] theorem performAccess_hpc (p : Pending) (s : State) : (performAccess p s).hpc = s.hpc := by rcases p with _ | _ | ⟨_, _ | _⟩ | _ <;> rfl
@[simp] theorem performAccess_hsub (p : Pending) (s : State) : (performAccess p s).hsub = s.hsub := by rcases p with _ | _ | ⟨_, _ | _⟩ | _ <;> rfl
@[simp] theorem performAccess_hmic (p : Pending) (s : State) : (performAccess p s).hmic = s.hmic := by rcases p with _ | _ | ⟨_, _ | _⟩ | _ <;> rfl
@[simp] theorem performAccess_inIsr (p : Pending) (s : State) : (performAccess p s).inIsr = s.inIsr := by rcases p with _ | _ | ⟨_, _ | _⟩ | _ <;> rfl
@[simp] theorem performAccess_ipc (p : Pending) (s : State) : (performAccess p s).ipc = s.ipc := by rcases p with _ | _ | ⟨_, _ | _⟩ | _ <;> rfl
@[simp] theorem performAccess_imic (p : Pending) (s : State) : (performAccess p s).imic = s.imic := by rcases p with _ | _ | ⟨_, _ | _⟩ | _ <;> rfl
@[simp] theorem performAccess_icause (p : Pending) (s : State) : (performAccess p s).icause = s.icause := by rcases p with _ | _ | ⟨_, _ | _⟩ | _ <;> rfl
@[simp] theorem performAccess_regs (p : Pending) (s : State) : (performAccess p s).regs = s.regs := by rcases p with _ | _ | ⟨_, _ | _⟩ | _ <;> rfl
@[simp] theorem performAccess_rx (p : Pending) (s : State) : (performAccess p s).rx = s.rx := by rcases p with _ | _ | ⟨_, _ | _⟩ | _ <;> rfl
@[simp] theorem performAccess_tx (p : Pending) (s : State) : (performAccess p s).tx = s.tx := by rcases p with _ | _ | ⟨_, _ | _⟩ | _ <;> rfl
@[simp] theorem performAccess_phy (p : Pending) (s : State) : (performAccess p s).phy = s.phy := by rcases p with _ | _ | ⟨_, _ | _⟩ | _ <;> rfl
@[simp] theorem performAccess_phyLog (p : Pending) (s : State) : (performAccess p s).phyLog = s.phyLog := by rcases p with _ | _ | ⟨_, _ | _⟩ | _ <;> rfl
@[simp] theorem performAccess_wireOut (p : Pending) (s : State) : (performAccess p s).wireOut = s.wireOut := by rcases p with _ | _ | ⟨_, _ | _⟩ | _ <;> rfl
@[simp] theorem performAccess_deliverLog (p : Pending) (s : State) : (performAccess p s).deliverLog = s.deliverLog := by rcases p with _ | _ | ⟨_, _ | _⟩ | _ <;> rfl
@[simp] theorem performAccess_busData (p : Pending) (s : State) : (performAccess p s).busData = s.busData := by rcases p with _ | _ | ⟨_, _ | _⟩ | _ <;> rfl
@[simp] theorem performAccess_memData (p : Pending) (s : State) : (performAccess p s).memData = s.memData := by rcases p with _ | _ | ⟨_, _ | _⟩ | _ <;> rfl
@[simp] theorem performAccess_events (p : Pending) (s : State) : (performAccess p s).events = s.events := by rcases p with _ | _ | ⟨_, _ | _⟩ | _ <;> rfl
@[simp] theorem performAccess_dirty (p : Pending) (s : State) : (performAccess p s).dirty = s.dirty := by rcases p with _ | _ | ⟨_, _ | _⟩ | _ <;> rfl
@[simp] theorem performAccess_freeCtr (p : Pending) (s : State) : (performAccess p s).freeCtr = s.freeCtr := by rcases p with _ | _ | ⟨_, _ | _⟩ | _ <;> rfl
@[simp] theorem performAccess_choice (p : Pending) (s : State) : (performAccess p s).choice = s.choice := by rcases p with _ | _ | ⟨_, _ | _⟩ | _ <;> rfl
@[simp] theorem performAccess_moves (p : Pending) (s : State) : (performAccess p s).moves = s.moves := by rcases p with _ | _ | ⟨_, _ | _⟩ | _ <;> rfl
@[simp] theorem performAccess_h_buf (p : Pending) (s : State) : (performAccess p s).h.buf = s.h.buf := by rcases p with _ | _ | ⟨_, _ | _⟩ | _ <;> rfl
@[simp] theorem performAccess_h_len (p : Pending) (s : State) : (performAccess p s).h.len = s.h.len := by rcases p with _ | _ | ⟨_, _ | _⟩ | _ <;> rfl
@[simp] theorem performAccess_h_w0 (p : Pending) (s : State) : (performAccess p s).h.w0 = s.h.w0 := by rcases p with _ | _ | ⟨_, _ | _⟩ | _ <;> rfl
@[simp] theorem performAccess_h_j (p : Pending) (s : State) : (performAccess p s).h.j = s.h.j := by rcases p with _ | _ | ⟨_, _ | _⟩ | _ <;> rfl
@[simp] theorem performAccess_h_k (p : Pending) (s : State) : (performAccess p s).h.k = s.h.k := by rcases p with _ | _ | ⟨_, _ | _⟩ | _ <;> rfl
@[simp] theorem performAccess_h_kWraps (p : Pending) (s : State) : (performAccess p s).h.kWraps = s.h.kWraps := by rcases p with _ | _ | ⟨_, _ | _⟩ | _ <;> rfl
@[simp] theorem performAccess_h_c (p : Pending) (s : State) : (performAccess p s).h.c = s.h.c := by rcases p with _ | _ | ⟨_, _ | _⟩ | _ <;> rfl
@[simp] theorem performAccess_h_v (p : Pending) (s : State) : (performAccess p s).h.v = s.h.v := by rcases p with _ | _ | ⟨_, _ | _⟩ | _ <;> rfl
@[simp] theorem performAccess_h_ok (p : Pending) (s : State) : (performAccess p s).h.ok = s.h.ok := by rcases p with _ | _ | ⟨_, _ | _⟩ | _ <;> rfl
@[simp] theorem performAccess_h_id1 (p : Pending) (s : State) : (performAccess p s).h.id1 = s.h.id1 := by rcases p with _ | _ | ⟨_, _ | _⟩ | _ <;> rfl
@[simp] theorem performAccess_h_id2 (p : Pending) (s : State) : (performAccess p s).h.id2 = s.h.id2 := by rcases p with _ | _ | ⟨_, _ | _⟩ | _ <;> rfl
@[simp] theorem performAccess_h_code (p : Pending) (s : State) : (performAccess p s).h.code = s.h.code := by rcases p with _ | _ | ⟨_, _ | _⟩ | _ <;> rfl
@[simp] theorem performAccess_h_up (p : Pending) (s : State) : (performAccess p s).h.up = s.h.up := by rcases p with _ | _ | ⟨_, _ | _⟩ | _ <;> rfl
@[simp] theorem performAccess_h_spd (p : Pending) (s : State) : (performAccess p s).h.spd = s.h.spd := by rcases p with _ | _ | ⟨_, _ | _⟩ | _ <;> rfl
@[simp] theorem performAccess_h_dup (p : Pending) (s : State) : (performAccess p s).h.dup = s.h.dup := by rcases p with _ | _ | ⟨_, _ | _⟩ | _ <;> rfl
@[simp] theorem performAccess_i_snap (p : Pending) (s : State) : (performAccess p s).i.snap = s.i.snap := by rcases p with _ | _ | ⟨_, _ | _⟩ | _ <;> rfl
@[simp] theorem performAccess_i_iter (p : Pending) (s : State) : (performAccess p s).i.iter = s.i.iter := by rcases p with _ | _ | ⟨_, _ | _⟩ | _ <;> rfl
@[simp] theorem performAccess_i_iterWraps (p : Pending) (s : State) : (performAccess p s).i.iterWraps = s.i.iterWraps := by rcases p with _ | _ | ⟨_, _ | _⟩ | _ <;> rfl
@[simp] theorem performAccess_i_cap (p : Pending) (s : State) : (performAccess p s).i.cap = s.i.cap := by rcases p with _ | _ | ⟨_, _ | _⟩ | _ <;> rfl
@[simp] theorem performAccess_i_w0 (p : Pending) (s : State) : (performAccess p s).i.w0 = s.i.w0 := by rcases p with _ | _ | ⟨_, _ | _⟩ | _ <;> rfl
@[simp] theorem performAccess_hostBuf (p : Pending) (s : State) : (performAccess p s).hostBuf = s.hostBuf := by rcases p with _ | _ | ⟨_, _ | _⟩ | _ <;> rfl
@[simp] theorem performAccess_isrBuf (p : Pending) (s : State) : (performAccess p s).isrBuf = s.isrBuf := by rcases p with _ | _ | ⟨_, _ | _⟩ | _ <;> rfl
@[simp] theorem performAccess_mem (p : Pending) (s : State) : (performAccess p s).mem = Memory.perform s.mem p := by rcases p with _ | _ | ⟨_, _ | _⟩ | _ <;> rfl
@[simp] theorem performAccess_pending (p : Pending) (s : State) (c : Ctx) : (performAccess p s).pending c = s.pending c := by cases c <;> simp

/-! `performAccesses` -/

@[simp] theorem performAccesses_nil (s : State) : performAccesses [] s = s := rfl
@[simp] theorem performAccesses_cons (p : Pending) (ps : List Pending) (s : State) :
    performAccesses (p :: ps) s = performAccesses ps (performAccess p s) := rfl

/-- What every access leaves alone, every list of accesses leaves alone. -/
theorem performAccesses_keeps {α : Type} (f : State → α) (h : ∀ p s, f (performAccess p s) = f s) :
    ∀ (ps : List Pending) (s : State), f (performAccesses ps s) = f s
  | [], _ => rfl
  | p :: ps, s => by rw [performAccesses_cons, performAccesses_keeps f h ps, h]

@[simp] theorem performAccesses_cfg (ps : List Pending) (s : State) : (performAccesses ps s).cfg = s.cfg := performAccesses_keeps (·.cfg) (by simp) ps s
@[simp] theorem performAccesses_link (ps : List Pending) (s : State) : (performAccesses ps s).link = s.link := performAccesses_keeps (·.link) (by simp) ps s
@[simp] theorem performAccesses_nsent (ps : List Pending) (s : State) : (performAccesses ps s).nsent = s.nsent := performAccesses_keeps (·.nsent) (by simp) ps s
@[simp] theorem performAccesses_nsentBytes (ps : List Pending) (s : State) : (performAccesses ps s).nsentBytes = s.nsentBytes := performAccesses_keeps (·.nsentBytes) (by simp) ps s
@[simp] theorem performAccesses_nrecv (ps : List Pending) (s : State) : (performAccesses ps s).nrecv = s.nrecv := performAccesses_keeps (·.nrecv) (by simp) ps s
@[simp] theorem performAccesses_ndrop (ps : List Pending) (s : State) : (performAccesses ps s).ndrop = s.ndrop := performAccesses_keeps (·.ndrop) (by simp) ps s
@[simp] theorem performAccesses_nerr (ps : List Pending) (s : State) : (performAccesses ps s).nerr = s.nerr := performAccesses_keeps (·.nerr) (by simp) ps s
@[simp] theorem performAccesses_phyId (ps : List Pending) (s : State) : (performAccesses ps s).phyId = s.phyId := performAccesses_keeps (·.phyId) (by simp) ps s
@[simp] theorem performAccesses_vendor (ps : List Pending) (s : State) : (performAccesses ps s).vendor = s.vendor := performAccesses_keeps (·.vendor) (by simp) ps s
@[simp] theorem performAccesses_rxIdx (ps : List Pending) (s : State) : (performAccesses ps s).rxIdx = s.rxIdx := performAccesses_keeps (·.rxIdx) (by simp) ps s
@[simp] theorem performAccesses_txIdx (ps : List Pending) (s : State) : (performAccesses ps s).txIdx = s.txIdx := performAccesses_keeps (·.txIdx) (by simp) ps s
@[simp] theorem performAccesses_initialized (ps : List Pending) (s : State) : (performAccesses ps s).initialized = s.initialized := performAccesses_keeps (·.initialized) (by simp) ps s
@[simp] theorem performAccesses_ringsBuilt (ps : List Pending) (s : State) : (performAccesses ps s).ringsBuilt = s.ringsBuilt := performAccesses_keeps (·.ringsBuilt) (by simp) ps s
@[simp] theorem performAccesses_hpc (ps : List Pending) (s : State) : (performAccesses ps s).hpc = s.hpc := performAccesses_keeps (·.hpc) (by simp) ps s
@[simp] theorem performAccesses_hsub (ps : List Pending) (s : State) : (performAccesses ps s).hsub = s.hsub := performAccesses_keeps (·.hsub) (by simp) ps s
@[simp] theorem performAccesses_hmic (ps : List Pending) (s : State) : (performAccesses ps s).hmic = s.hmic := performAccesses_keeps (·.hmic) (by simp) ps s
@[simp] theorem performAccesses_inIsr (ps : List Pending) (s : State) : (performAccesses ps s).inIsr = s.inIsr := performAccesses_keeps (·.inIsr) (by simp) ps s
@[simp] theorem performAccesses_ipc (ps : List Pending) (s : State) : (performAccesses ps s).ipc = s.ipc := performAccesses_keeps (·.ipc) (by simp) ps s
@[simp] theorem performAccesses_imic (ps : List Pending) (s : State) : (performAccesses ps s).imic = s.imic := performAccesses_keeps (·.imic) (by simp) ps s
@[simp] theorem performAccesses_icause (ps : List Pending) (s : State) : (performAccesses ps s).icause = s.icause := performAccesses_keeps (·.icause) (by simp) ps s
@[simp] theorem performAccesses_regs (ps : List Pending) (s : State) : (performAccesses ps s).regs = s.regs := performAccesses_keeps (·.regs) (by simp) ps s
@[simp] theorem performAccesses_rx (ps : List Pending) (s : State) : (performAccesses ps s).rx = s.rx := performAccesses_keeps (·.rx) (by simp) ps s
@[simp] theorem performAccesses_tx (ps : List Pending) (s : State) : (performAccesses ps s).tx = s.tx := performAccesses_keeps (·.tx) (by simp) ps s
@[simp] theorem performAccesses_phy (ps : List Pending) (s : State) : (performAccesses ps s).phy = s.phy := performAccesses_keeps (·.phy) (by simp) ps s
@[simp] theorem performAccesses_phyLog (ps : List Pending) (s : State) : (performAccesses ps s).phyLog = s.phyLog := performAccesses_keeps (·.phyLog) (by simp) ps s
@[simp] theorem performAccesses_wireOut (ps : List Pending) (s : State) : (performAccesses ps s).wireOut = s.wireOut := performAccesses_keeps (·.wireOut) (by simp) ps s
@[simp] theorem performAccesses_deliverLog (ps : List Pending) (s : State) : (performAccesses ps s).deliverLog = s.deliverLog := performAccesses_keeps (·.deliverLog) (by simp) ps s
@[simp] theorem performAccesses_busData (ps : List Pending) (s : State) : (performAccesses ps s).busData = s.busData := performAccesses_keeps (·.busData) (by simp) ps s
@[simp] theorem performAccesses_memData (ps : List Pending) (s : State) : (performAccesses ps s).memData = s.memData := performAccesses_keeps (·.memData) (by simp) ps s
@[simp] theorem performAccesses_events (ps : List Pending) (s : State) : (performAccesses ps s).events = s.events := performAccesses_keeps (·.events) (by simp) ps s
@[simp] theorem performAccesses_dirty (ps : List Pending) (s : State) : (performAccesses ps s).dirty = s.dirty := performAccesses_keeps (·.dirty) (by simp) ps s
@[simp] theorem performAccesses_freeCtr (ps : List Pending) (s : State) : (performAccesses ps s).freeCtr = s.freeCtr := performAccesses_keeps (·.freeCtr) (by simp) ps s
@[simp] theorem performAccesses_choice (ps : List Pending) (s : State) : (performAccesses ps s).choice = s.choice := performAccesses_keeps (·.choice) (by simp) ps s
@[simp] theorem performAccesses_moves (ps : List Pending) (s : State) : (performAccesses ps s).moves = s.moves := performAccesses_keeps (·.moves) (by simp) ps s
@[simp] theorem performAccesses_h_buf (ps : List Pending) (s : State) : (performAccesses ps s).h.buf = s.h.buf := performAccesses_keeps (·.h.buf) (by simp) ps s
@[simp] theorem performAccesses_h_len (ps : List Pending) (s : State) : (performAccesses ps s).h.len = s.h.len := performAccesses_keeps (·.h.len) (by simp) ps s
@[simp] theorem performAccesses_h_w0 (ps : List Pending) (s : State) : (performAccesses ps s).h.w0 = s.h.w0 := performAccesses_keeps (·.h.w0) (by simp) ps s
@[simp] theorem performAccesses_h_j (ps : List Pending) (s : State) : (performAccesses ps s).h.j = s.h.j := performAccesses_keeps (·.h.j) (by simp) ps s
@[simp] theorem performAccesses_h_k (ps : List Pending) (s : State) : (performAccesses ps s).h.k = s.h.k := performAccesses_keeps (·.h.k) (by simp) ps s
@[simp] theorem performAccesses_h_kWraps (ps : List Pending) (s : State) : (performAccesses ps s).h.kWraps = s.h.kWraps := performAccesses_keeps (·.h.kWraps) (by simp) ps s
@[simp] theorem performAccesses_h_c (ps : List Pending) (s : State) : (performAccesses ps s).h.c = s.h.c := performAccesses_keeps (·.h.c) (by simp) ps s
@[simp] theorem performAccesses_h_v (ps : List Pending) (s : State) : (performAccesses ps s).h.v = s.h.v := performAccesses_keeps (·.h.v) (by simp) ps s
@[simp] theorem performAccesses_h_ok (ps : List Pending) (s : State) : (performAccesses ps s).h.ok = s.h.ok := performAccesses_keeps (·.h.ok) (by simp) ps s
@[simp] theorem performAccesses_h_id1 (ps : List Pending) (s : State) : (performAccesses ps s).h.id1 = s.h.id1 := performAccesses_keeps (·.h.id1) (by simp) ps s
@[simp] theorem performAccesses_h_id2 (ps : List Pending) (s : State) : (performAccesses ps s).h.id2 = s.h.id2 := performAccesses_keeps (·.h.id2) (by simp) ps s
@[simp] theorem performAccesses_h_code (ps : List Pending) (s : State) : (performAccesses ps s).h.code = s.h.code := performAccesses_keeps (·.h.code) (by simp) ps s
@[simp] theorem performAccesses_h_up (ps : List Pending) (s : State) : (performAccesses ps s).h.up = s.h.up := performAccesses_keeps (·.h.up) (by simp) ps s
@[simp] theorem performAccesses_h_spd (ps : List Pending) (s : State) : (performAccesses ps s).h.spd = s.h.spd := performAccesses_keeps (·.h.spd) (by simp) ps s
@[simp] theorem performAccesses_h_dup (ps : List Pending) (s : State) : (performAccesses ps s).h.dup = s.h.dup := performAccesses_keeps (·.h.dup) (by simp) ps s
@[simp] theorem performAccesses_i_snap (ps : List Pending) (s : State) : (performAccesses ps s).i.snap = s.i.snap := performAccesses_keeps (·.i.snap) (by simp) ps s
@[simp] theorem performAccesses_i_iter (ps : List Pending) (s : State) : (performAccesses ps s).i.iter = s.i.iter := performAccesses_keeps (·.i.iter) (by simp) ps s
@[simp] theorem performAccesses_i_iterWraps (ps : List Pending) (s : State) : (performAccesses ps s).i.iterWraps = s.i.iterWraps := performAccesses_keeps (·.i.iterWraps) (by simp) ps s
@[simp] theorem performAccesses_i_cap (ps : List Pending) (s : State) : (performAccesses ps s).i.cap = s.i.cap := performAccesses_keeps (·.i.cap) (by simp) ps s
@[simp] theorem performAccesses_i_w0 (ps : List Pending) (s : State) : (performAccesses ps s).i.w0 = s.i.w0 := performAccesses_keeps (·.i.w0) (by simp) ps s
@[simp] theorem performAccesses_hostBuf (ps : List Pending) (s : State) : (performAccesses ps s).hostBuf = s.hostBuf := performAccesses_keeps (·.hostBuf) (by simp) ps s
@[simp] theorem performAccesses_isrBuf (ps : List Pending) (s : State) : (performAccesses ps s).isrBuf = s.isrBuf := performAccesses_keeps (·.isrBuf) (by simp) ps s
@[simp] theorem performAccesses_pending (ps : List Pending) (s : State) (c : Ctx) : (performAccesses ps s).pending c = s.pending c := by cases c <;> simp
@[simp] theorem performAccesses_mem : ∀ (ps : List Pending) (s : State), (performAccesses ps s).mem = Memory.performAll s.mem ps
  | [], _ => rfl
  | p :: ps, s => by rw [performAccesses_cons, performAccesses_mem ps, performAccess_mem]; rfl

/-! `flush` -/

@[simp] theorem flush_cfg (c : Ctx) (s : State) : (flush c s).cfg = s.cfg := by simp [flush]
@[simp] theorem flush_link (c : Ctx) (s : State) : (flush c s).link = s.link := by simp [flush]
@[simp] theorem flush_nsent (c : Ctx) (s : State) : (flush c s).nsent = s.nsent := by simp [flush]
@[simp] theorem flush_nsentBytes (c : Ctx) (s : State) : (flush c s).nsentBytes = s.nsentBytes := by simp [flush]
@[simp] theorem flush_nrecv (c : Ctx) (s : State) : (flush c s).nrecv = s.nrecv := by simp [flush]
@[simp] theorem flush_ndrop (c : Ctx) (s : State) : (flush c s).ndrop = s.ndrop := by simp [flush]
@[simp] theorem flush_nerr (c : Ctx) (s : State) : (flush c s).nerr = s.nerr := by simp [flush]
@[simp] theorem flush_phyId (c : Ctx) (s : State) : (flush c s).phyId = s.phyId := by simp [flush]
@[simp] theorem flush_vendor (c : Ctx) (s : State) : (flush c s).vendor = s.vendor := by simp [flush]
@[simp] theorem flush_rxIdx (c : Ctx) (s : State) : (flush c s).rxIdx = s.rxIdx := by simp [flush]
@[simp] theorem flush_txIdx (c : Ctx) (s : State) : (flush c s).txIdx = s.txIdx := by simp [flush]
@[simp] theorem flush_initialized (c : Ctx) (s : State) : (flush c s).initialized = s.initialized := by simp [flush]
@[simp] theorem flush_ringsBuilt (c : Ctx) (s : State) : (flush c s).ringsBuilt = s.ringsBuilt := by simp [flush]
@[simp] theorem flush_hpc (c : Ctx) (s : State) : (flush c s).hpc = s.hpc := by simp [flush]
@[simp] theorem flush_hsub (c : Ctx) (s : State) : (flush c s).hsub = s.hsub := by simp [flush]
@[simp] theorem flush_hmic (c : Ctx) (s : State) : (flush c s).hmic = s.hmic := by simp [flush]
@[simp] theorem flush_inIsr (c : Ctx) (s : State) : (flush c s).inIsr = s.inIsr := by simp [flush]
@[simp] theorem flush_ipc (c : Ctx) (s : State) : (flush c s).ipc = s.ipc := by simp [flush]
@[simp] theorem flush_imic (c : Ctx) (s : State) : (flush c s).imic = s.imic := by simp [flush]
@[simp] theorem flush_icause (c : Ctx) (s : State) : (flush c s).icause = s.icause := by simp [flush]
@[simp] theorem flush_regs (c : Ctx) (s : State) : (flush c s).regs = s.regs := by simp [flush]
@[simp] theorem flush_rx (c : Ctx) (s : State) : (flush c s).rx = s.rx := by simp [flush]
@[simp] theorem flush_tx (c : Ctx) (s : State) : (flush c s).tx = s.tx := by simp [flush]
@[simp] theorem flush_phy (c : Ctx) (s : State) : (flush c s).phy = s.phy := by simp [flush]
@[simp] theorem flush_phyLog (c : Ctx) (s : State) : (flush c s).phyLog = s.phyLog := by simp [flush]
@[simp] theorem flush_wireOut (c : Ctx) (s : State) : (flush c s).wireOut = s.wireOut := by simp [flush]
@[simp] theorem flush_deliverLog (c : Ctx) (s : State) : (flush c s).deliverLog = s.deliverLog := by simp [flush]
@[simp] theorem flush_busData (c : Ctx) (s : State) : (flush c s).busData = s.busData := by simp [flush]
@[simp] theorem flush_memData (c : Ctx) (s : State) : (flush c s).memData = s.memData := by simp [flush]
@[simp] theorem flush_events (c : Ctx) (s : State) : (flush c s).events = s.events := by simp [flush]
@[simp] theorem flush_dirty (c : Ctx) (s : State) : (flush c s).dirty = s.dirty := by simp [flush]
@[simp] theorem flush_freeCtr (c : Ctx) (s : State) : (flush c s).freeCtr = s.freeCtr := by simp [flush]
@[simp] theorem flush_choice (c : Ctx) (s : State) : (flush c s).choice = s.choice := by simp [flush]
@[simp] theorem flush_moves (c : Ctx) (s : State) : (flush c s).moves = s.moves := by simp [flush]
@[simp] theorem flush_h_buf (c : Ctx) (s : State) : (flush c s).h.buf = s.h.buf := by simp [flush]
@[simp] theorem flush_h_len (c : Ctx) (s : State) : (flush c s).h.len = s.h.len := by simp [flush]
@[simp] theorem flush_h_w0 (c : Ctx) (s : State) : (flush c s).h.w0 = s.h.w0 := by simp [flush]
@[simp] theorem flush_h_j (c : Ctx) (s : State) : (flush c s).h.j = s.h.j := by simp [flush]
@[simp] theorem flush_h_k (c : Ctx) (s : State) : (flush c s).h.k = s.h.k := by simp [flush]
@[simp] theorem flush_h_kWraps (c : Ctx) (s : State) : (flush c s).h.kWraps = s.h.kWraps := by simp [flush]
@[simp] theorem flush_h_c (c : Ctx) (s : State) : (flush c s).h.c = s.h.c := by simp [flush]
@[simp] theorem flush_h_v (c : Ctx) (s : State) : (flush c s).h.v = s.h.v := by simp [flush]
@[simp] theorem flush_h_ok (c : Ctx) (s : State) : (flush c s).h.ok = s.h.ok := by simp [flush]
@[simp] theorem flush_h_id1 (c : Ctx) (s : State) : (flush c s).h.id1 = s.h.id1 := by simp [flush]
@[simp] theorem flush_h_id2 (c : Ctx) (s : State) : (flush c s).h.id2 = s.h.id2 := by simp [flush]
@[simp] theorem flush_h_code (c : Ctx) (s : State) : (flush c s).h.code = s.h.code := by simp [flush]
@[simp] theorem flush_h_up (c : Ctx) (s : State) : (flush c s).h.up = s.h.up := by simp [flush]
@[simp] theorem flush_h_spd (c : Ctx) (s : State) : (flush c s).h.spd = s.h.spd := by simp [flush]
@[simp] theorem flush_h_dup (c : Ctx) (s : State) : (flush c s).h.dup = s.h.dup := by simp [flush]
@[simp] theorem flush_i_snap (c : Ctx) (s : State) : (flush c s).i.snap = s.i.snap := by simp [flush]
@[simp] theorem flush_i_iter (c : Ctx) (s : State) : (flush c s).i.iter = s.i.iter := by simp [flush]
@[simp] theorem flush_i_iterWraps (c : Ctx) (s : State) : (flush c s).i.iterWraps = s.i.iterWraps := by simp [flush]
@[simp] theorem flush_i_cap (c : Ctx) (s : State) : (flush c s).i.cap = s.i.cap := by simp [flush]
@[simp] theorem flush_i_w0 (c : Ctx) (s : State) : (flush c s).i.w0 = s.i.w0 := by simp [flush]
@[simp] theorem flush_polls (c : Ctx) (s : State) : (flush c s).h.polls = s.h.polls := by simp [HostRegs.polls]
@[simp] theorem flush_iterations (c : Ctx) (s : State) : (flush c s).i.iterations = s.i.iterations := by simp [IsrRegs.iterations]
@[simp] theorem flush_mem (c : Ctx) (s : State) : (flush c s).mem = Memory.performAll s.mem (s.pending c) := by simp [flush]
@[simp] theorem flush_host_hostBuf (s : State) : (flush .host s).hostBuf = [] := rfl
@[simp] theorem flush_host_isrBuf (s : State) : (flush .host s).isrBuf = s.isrBuf := by simp [flush]
@[simp] theorem flush_isr_hostBuf (s : State) : (flush .isr s).hostBuf = s.hostBuf := by simp [flush]
@[simp] theorem flush_isr_isrBuf (s : State) : (flush .isr s).isrBuf = [] := rfl
@[simp] theorem flush_pending (c : Ctx) (s : State) : (flush c s).pending c = [] := setPending_pending ..

end Sys2Proof.Machine
end

