-- ==== Sys2Proof/Laws/Memory.lean ====
section
/-! SUPPORT. Laws/Memory.lean: reads after writes, the canonical form, and what performing pending accesses does. -/

namespace Sys2Proof.Machine

/-! ### One byte -/

theorem Memory.get_set (m : List Host.Cell) (a b : Nat) (v : Byte) :
    Memory.get (Memory.set m a v) b = if b = a then some v else Memory.get m b := by
  induction m with
  | nil => simp [Memory.set, Memory.get, eq_comm]
  | cons c t ih =>
    unfold Memory.set
    split
    · simp [Memory.get, eq_comm]
    · split
      · next h => subst h; simp only [Memory.get]; split <;> simp_all [eq_comm]
      · simp only [Memory.get, ih]; split <;> split <;> simp_all

theorem Memory.get_set_same (m : List Host.Cell) (a : Nat) (v : Byte) :
    Memory.get (Memory.set m a v) a = some v := by simp [Memory.get_set]

theorem Memory.get_set_other (m : List Host.Cell) (a b : Nat) (v : Byte) (h : b ≠ a) :
    Memory.get (Memory.set m a v) b = Memory.get m b := by simp [Memory.get_set, h]

/-! ### The canonical form -/

theorem Memory.allAbove_trans {x y : Nat} (h : x < y) :
    ∀ m : List Host.Cell, Memory.allAbove y m = true → Memory.allAbove x m = true
  | [], _ => rfl
  | c :: m, hm => by
    simp only [Memory.allAbove, Bool.and_eq_true, decide_eq_true_eq] at hm ⊢
    exact ⟨by omega, Memory.allAbove_trans h m hm.2⟩

theorem Memory.allAbove_set (x a : Nat) (v : Byte) (h : x < a) :
    ∀ m : List Host.Cell, Memory.allAbove x m = true → Memory.allAbove x (Memory.set m a v) = true
  | [], _ => by simp [Memory.set, Memory.allAbove, h]
  | c :: m, hm => by
    simp only [Memory.allAbove, Bool.and_eq_true, decide_eq_true_eq] at hm
    unfold Memory.set
    split
    · simp [Memory.allAbove, h, hm]
    · split
      · simp [Memory.allAbove, h, hm]
      · simp [Memory.allAbove, hm.1, Memory.allAbove_set x a v h m hm.2]

/-- A byte store keeps the canonical form. -/
theorem Memory.wf_set (a : Nat) (v : Byte) :
    ∀ m : List Host.Cell, Memory.wf m = true → Memory.wf (Memory.set m a v) = true
  | [], _ => rfl
  | c :: m, hm => by
    simp only [Memory.wf, Bool.and_eq_true] at hm
    unfold Memory.set
    split
    · next h =>
      simp only [Memory.wf, Memory.allAbove, Bool.and_eq_true, decide_eq_true_eq]
      exact ⟨⟨h, Memory.allAbove_trans h m hm.1⟩, hm⟩
    · split
      · next h => subst h; simpa [Memory.wf] using hm
      · simp only [Memory.wf, Bool.and_eq_true]
        exact ⟨Memory.allAbove_set _ _ _ (by omega) m hm.1, Memory.wf_set a v m hm.2⟩

/-- A word store keeps the canonical form. -/
theorem Memory.wf_setWord (m : List Host.Cell) (a : Nat) (v : Word) (h : Memory.wf m = true) :
    Memory.wf (Memory.setWord m a v) = true := by
  unfold Memory.setWord
  exact Memory.wf_set _ _ _ (Memory.wf_set _ _ _ (Memory.wf_set _ _ _ (Memory.wf_set _ _ _ h)))

/-- Performing a pending access keeps the canonical form. -/
theorem Memory.wf_perform (m : List Host.Cell) (p : Pending) (h : Memory.wf m = true) :
    Memory.wf (Memory.perform m p) = true := by
  cases p with
  | byte a v => exact Memory.wf_set _ _ _ h
  | word a v => exact Memory.wf_setWord _ _ _ h
  | load a r => exact h
  | copy a d => exact Memory.wf_set _ _ _ h

/-- Performing pending accesses keeps the canonical form. -/
theorem Memory.wf_performAll (ps : List Pending) :
    ∀ m : List Host.Cell, Memory.wf m = true → Memory.wf (Memory.performAll m ps) = true := by
  induction ps with
  | nil => exact fun _ h => h
  | cons p ps ih => exact fun m h => ih _ (Memory.wf_perform m p h)

/-! ### Words and pending accesses -/

@[simp] theorem Memory.performAll_nil (m : List Host.Cell) : Memory.performAll m [] = m := rfl

@[simp] theorem Memory.performAll_cons (m : List Host.Cell) (p : Pending) (ps : List Pending) :
    Memory.performAll m (p :: ps) = Memory.performAll (Memory.perform m p) ps := rfl

theorem Memory.performAll_append (m : List Host.Cell) (ps qs : List Pending) :
    Memory.performAll m (ps ++ qs) = Memory.performAll (Memory.performAll m ps) qs := by
  simp [Memory.performAll, List.foldl_append]

/-- A word store leaves every byte outside its word alone. -/
theorem Memory.get_setWord_other (m : List Host.Cell) (a : Nat) (v : Word) (b : Nat) (h : b ∉ wordAddrs a) :
    Memory.get (Memory.setWord m a v) b = Memory.get m b := by
  simp only [wordAddrs, List.mem_cons, List.not_mem_nil, or_false, not_or] at h
  obtain ⟨h0, h1, h2, h3⟩ := h
  unfold Memory.setWord
  rw [Memory.get_set_other _ _ _ _ h3, Memory.get_set_other _ _ _ _ h2, Memory.get_set_other _ _ _ _ h1,
    Memory.get_set_other _ _ _ _ h0]

/-- A pending access leaves every byte it does not write alone. -/
theorem Memory.get_perform_other (m : List Host.Cell) (p : Pending) (b : Nat) (h : b ∉ p.writes) :
    Memory.get (Memory.perform m p) b = Memory.get m b := by
  cases p with
  | byte a v =>
    simp only [Pending.writes, List.mem_singleton] at h
    simp [Memory.perform, Memory.get_set, h]
  | word a v => exact Memory.get_setWord_other m a v b h
  | load a r => rfl
  | copy a d =>
    simp only [Pending.writes, List.mem_singleton] at h
    simp [Memory.perform, Memory.get_set, h]

/-- Pending accesses leave every byte they do not write alone. -/
theorem Memory.get_performAll_other (ps : List Pending) (b : Nat) :
    ∀ m : List Host.Cell, spares ps b → Memory.get (Memory.performAll m ps) b = Memory.get m b := by
  induction ps with
  | nil => exact fun _ _ => rfl
  | cons p ps ih =>
    intro m h
    rw [Memory.performAll_cons, ih _ fun q hq => h q (List.mem_cons_of_mem _ hq),
      Memory.get_perform_other m p b (h p List.mem_cons_self)]

/-- The byte memory holds depends on the memory alone. -/
theorem State.byteAt_congr {s t : State} {a : Nat} (h : Memory.get t.mem a = Memory.get s.mem a) :
    t.byteAt a = s.byteAt a := by simp [State.byteAt, Memory.read, h]

/-- Two states of one memory hold the same words. -/
theorem State.wordAt_congr {s t : State} (h : t.mem = s.mem) (a : Nat) : t.wordAt a = s.wordAt a := by
  simp [State.wordAt, State.byteAt, h]

/-- An ordering point leaves alone every byte its context has no store outstanding to. -/
theorem flush_byteAt (c : Ctx) (s : State) (a : Nat) (h : spares (s.pending c) a) :
    (flush c s).byteAt a = s.byteAt a :=
  State.byteAt_congr (by rw [flush_mem]; exact Memory.get_performAll_other _ _ _ h)

/-- Memory as a context sees it does not change at an ordering point of that context. -/
theorem flush_seenBy (c : Ctx) (s : State) : (flush c s).seenBy c = s.seenBy c := by
  simp [State.seenBy]

/-- An access a context issues is seen by that context at once, under either memory model (20_memory.md R97). -/
theorem issue_seenBy (c : Ctx) (p : Pending) (s : State) (h : s.cfg.memModel = .sc → s.pending c = []) :
    (issue c p s).seenBy c = Memory.perform (s.seenBy c) p := by
  unfold issue
  split
  · next hm => simp [State.seenBy, h hm]
  · simp [State.seenBy, Memory.performAll_append]

end Sys2Proof.Machine
end

