-- ==== Sys2Proof/Laws/Contexts.lean ====
section
/-! SUPPORT. Laws/Contexts.lean: what `settle`, `issue` and `drain`, the memory accesses of a software context, leave in
each field, and what each can do. -/

namespace Sys2Proof.Machine

/-- The memory system performs one pending access, or the load of a pending copy, or nothing. -/
theorem drain_cases (c : Ctx) (k : Nat) (s : State) :
    drain c k s = s ∨
    (∃ p, (p ∈ s.pending c ∧ drain c k s = (performAccess p s).setPending c ((s.pending c).eraseIdx k))) ∨
    (∃ src dst, .copy src dst ∈ s.pending c ∧
      drain c k s = s.setPending c ((s.pending c).set k (.byte dst (s.byteAt src)))) := by
  unfold drain
  split
  · exact .inl rfl
  · next p hp =>
    split
    · exact .inl rfl
    · split
      · exact .inr (.inr ⟨_, _, List.mem_of_getElem? hp, rfl⟩)
      · exact .inr (.inl ⟨_, List.mem_of_getElem? hp, rfl⟩)


@[simp] theorem settle_cfg (c : Ctx) (w : Pending → Bool) (s : State) : (settle c w s).cfg = s.cfg := by simp [settle]
@[simp] theorem settle_link (c : Ctx) (w : Pending → Bool) (s : State) : (settle c w s).link = s.link := by simp [settle]
@[simp] theorem settle_nsent (c : Ctx) (w : Pending → Bool) (s : State) : (settle c w s).nsent = s.nsent := by simp [settle]
@[simp] theorem settle_nsentBytes (c : Ctx) (w : Pending → Bool) (s : State) : (settle c w s).nsentBytes = s.nsentBytes := by simp [settle]
@[simp] theorem settle_nrecv (c : Ctx) (w : Pending → Bool) (s : State) : (settle c w s).nrecv = s.nrecv := by simp [settle]
@[simp] theorem settle_ndrop (c : Ctx) (w : Pending → Bool) (s : State) : (settle c w s).ndrop = s.ndrop := by simp [settle]
@[simp] theorem settle_nerr (c : Ctx) (w : Pending → Bool) (s : State) : (settle c w s).nerr = s.nerr := by simp [settle]
@[simp] theorem settle_phyId (c : Ctx) (w : Pending → Bool) (s : State) : (settle c w s).phyId = s.phyId := by simp [settle]
@[simp] theorem settle_vendor (c : Ctx) (w : Pending → Bool) (s : State) : (settle c w s).vendor = s.vendor := by simp [settle]
@[simp] theorem settle_rxIdx (c : Ctx) (w : Pending → Bool) (s : State) : (settle c w s).rxIdx = s.rxIdx := by simp [settle]
@[simp] theorem settle_txIdx (c : Ctx) (w : Pending → Bool) (s : State) : (settle c w s).txIdx = s.txIdx := by simp [settle]
@[simp] theorem settle_initialized (c : Ctx) (w : Pending → Bool) (s : State) : (settle c w s).initialized = s.initialized := by simp [settle]
@[simp] theorem settle_ringsBuilt (c : Ctx) (w : Pending → Bool) (s : State) : (settle c w s).ringsBuilt = s.ringsBuilt := by simp [settle]
@[simp] theorem settle_hpc (c : Ctx) (w : Pending → Bool) (s : State) : (settle c w s).hpc = s.hpc := by simp [settle]
@[simp] theorem settle_hsub (c : Ctx) (w : Pending → Bool) (s : State) : (settle c w s).hsub = s.hsub := by simp [settle]
@[simp] theorem settle_hmic (c : Ctx) (w : Pending → Bool) (s : State) : (settle c w s).hmic = s.hmic := by simp [settle]
@[simp] theorem settle_inIsr (c : Ctx) (w : Pending → Bool) (s : State) : (settle c w s).inIsr = s.inIsr := by simp [settle]
@[simp] theorem settle_ipc (c : Ctx) (w : Pending → Bool) (s : State) : (settle c w s).ipc = s.ipc := by simp [settle]
@[simp] theorem settle_imic (c : Ctx) (w : Pending → Bool) (s : State) : (settle c w s).imic = s.imic := by simp [settle]
@[simp] theorem settle_icause (c : Ctx) (w : Pending → Bool) (s : State) : (settle c w s).icause = s.icause := by simp [settle]
@[simp] theorem settle_regs (c : Ctx) (w : Pending → Bool) (s : State) : (settle c w s).regs = s.regs := by simp [settle]
@[simp] theorem settle_rx (c : Ctx) (w : Pending → Bool) (s : State) : (settle c w s).rx = s.rx := by simp [settle]
@[simp] theorem settle_tx (c : Ctx) (w : Pending → Bool) (s : State) : (settle c w s).tx = s.tx := by simp [settle]
@[simp] theorem settle_phy (c : Ctx) (w : Pending → Bool) (s : State) : (settle c w s).phy = s.phy := by simp [settle]
@[simp] theorem settle_phyLog (c : Ctx) (w : Pending → Bool) (s : State) : (settle c w s).phyLog = s.phyLog := by simp [settle]
@[simp] theorem settle_wireOut (c : Ctx) (w : Pending → Bool) (s : State) : (settle c w s).wireOut = s.wireOut := by simp [settle]
@[simp] theorem settle_deliverLog (c : Ctx) (w : Pending → Bool) (s : State) : (settle c w s).deliverLog = s.deliverLog := by simp [settle]
@[simp] theorem settle_busData (c : Ctx) (w : Pending → Bool) (s : State) : (settle c w s).busData = s.busData := by simp [settle]
@[simp] theorem settle_memData (c : Ctx) (w : Pending → Bool) (s : State) : (settle c w s).memData = s.memData := by simp [settle]
@[simp] theorem settle_events (c : Ctx) (w : Pending → Bool) (s : State) : (settle c w s).events = s.events := by simp [settle]
@[simp] theorem settle_dirty (c : Ctx) (w : Pending → Bool) (s : State) : (settle c w s).dirty = s.dirty := by simp [settle]
@[simp] theorem settle_freeCtr (c : Ctx) (w : Pending → Bool) (s : State) : (settle c w s).freeCtr = s.freeCtr := by simp [settle]
@[simp] theorem settle_choice (c : Ctx) (w : Pending → Bool) (s : State) : (settle c w s).choice = s.choice := by simp [settle]
@[simp] theorem settle_moves (c : Ctx) (w : Pending → Bool) (s : State) : (settle c w s).moves = s.moves := by simp [settle]
@[simp] theorem settle_h_buf (c : Ctx) (w : Pending → Bool) (s : State) : (settle c w s).h.buf = s.h.buf := by simp [settle]
@[simp] theorem settle_h_len (c : Ctx) (w : Pending → Bool) (s : State) : (settle c w s).h.len = s.h.len := by simp [settle]
@[simp] theorem settle_h_w0 (c : Ctx) (w : Pending → Bool) (s : State) : (settle c w s).h.w0 = s.h.w0 := by simp [settle]
@[simp] theorem settle_h_j (c : Ctx) (w : Pending → Bool) (s : State) : (settle c w s).h.j = s.h.j := by simp [settle]
@[simp] theorem settle_h_k (c : Ctx) (w : Pending → Bool) (s : State) : (settle c w s).h.k = s.h.k := by simp [settle]
@[simp] theorem settle_h_kWraps (c : Ctx) (w : Pending → Bool) (s : State) : (settle c w s).h.kWraps = s.h.kWraps := by simp [settle]
@[simp] theorem settle_h_c (c : Ctx) (w : Pending → Bool) (s : State) : (settle c w s).h.c = s.h.c := by simp [settle]
@[simp] theorem settle_h_v (c : Ctx) (w : Pending → Bool) (s : State) : (settle c w s).h.v = s.h.v := by simp [settle]
@[simp] theorem settle_h_ok (c : Ctx) (w : Pending → Bool) (s : State) : (settle c w s).h.ok = s.h.ok := by simp [settle]
@[simp] theorem settle_h_id1 (c : Ctx) (w : Pending → Bool) (s : State) : (settle c w s).h.id1 = s.h.id1 := by simp [settle]
@[simp] theorem settle_h_id2 (c : Ctx) (w : Pending → Bool) (s : State) : (settle c w s).h.id2 = s.h.id2 := by simp [settle]
@[simp] theorem settle_h_code (c : Ctx) (w : Pending → Bool) (s : State) : (settle c w s).h.code = s.h.code := by simp [settle]
@[simp] theorem settle_h_up (c : Ctx) (w : Pending → Bool) (s : State) : (settle c w s).h.up = s.h.up := by simp [settle]
@[simp] theorem settle_h_spd (c : Ctx) (w : Pending → Bool) (s : State) : (settle c w s).h.spd = s.h.spd := by simp [settle]
@[simp] theorem settle_h_dup (c : Ctx) (w : Pending → Bool) (s : State) : (settle c w s).h.dup = s.h.dup := by simp [settle]
@[simp] theorem settle_i_snap (c : Ctx) (w : Pending → Bool) (s : State) : (settle c w s).i.snap = s.i.snap := by simp [settle]
@[simp] theorem settle_i_iter (c : Ctx) (w : Pending → Bool) (s : State) : (settle c w s).i.iter = s.i.iter := by simp [settle]
@[simp] theorem settle_i_iterWraps (c : Ctx) (w : Pending → Bool) (s : State) : (settle c w s).i.iterWraps = s.i.iterWraps := by simp [settle]
@[simp] theorem settle_i_cap (c : Ctx) (w : Pending → Bool) (s : State) : (settle c w s).i.cap = s.i.cap := by simp [settle]
@[simp] theorem settle_i_w0 (c : Ctx) (w : Pending → Bool) (s : State) : (settle c w s).i.w0 = s.i.w0 := by simp [settle]

@[simp] theorem issue_cfg (c : Ctx) (p : Pending) (s : State) : (issue c p s).cfg = s.cfg := by unfold issue; split <;> simp
@[simp] theorem issue_link (c : Ctx) (p : Pending) (s : State) : (issue c p s).link = s.link := by unfold issue; split <;> simp
@[simp] theorem issue_nsent (c : Ctx) (p : Pending) (s : State) : (issue c p s).nsent = s.nsent := by unfold issue; split <;> simp
@[simp] theorem issue_nsentBytes (c : Ctx) (p : Pending) (s : State) : (issue c p s).nsentBytes = s.nsentBytes := by unfold issue; split <;> simp
@[simp] theorem issue_nrecv (c : Ctx) (p : Pending) (s : State) : (issue c p s).nrecv = s.nrecv := by unfold issue; split <;> simp
@[simp] theorem issue_ndrop (c : Ctx) (p : Pending) (s : State) : (issue c p s).ndrop = s.ndrop := by unfold issue; split <;> simp
@[simp] theorem issue_nerr (c : Ctx) (p : Pending) (s : State) : (issue c p s).nerr = s.nerr := by unfold issue; split <;> simp
@[simp] theorem issue_phyId (c : Ctx) (p : Pending) (s : State) : (issue c p s).phyId = s.phyId := by unfold issue; split <;> simp
@[simp] theorem issue_vendor (c : Ctx) (p : Pending) (s : State) : (issue c p s).vendor = s.vendor := by unfold issue; split <;> simp
@[simp] theorem issue_rxIdx (c : Ctx) (p : Pending) (s : State) : (issue c p s).rxIdx = s.rxIdx := by unfold issue; split <;> simp
@[simp] theorem issue_txIdx (c : Ctx) (p : Pending) (s : State) : (issue c p s).txIdx = s.txIdx := by unfold issue; split <;> simp
@[simp] theorem issue_initialized (c : Ctx) (p : Pending) (s : State) : (issue c p s).initialized = s.initialized := by unfold issue; split <;> simp
@[simp] theorem issue_ringsBuilt (c : Ctx) (p : Pending) (s : State) : (issue c p s).ringsBuilt = s.ringsBuilt := by unfold issue; split <;> simp
@[simp] theorem issue_hpc (c : Ctx) (p : Pending) (s : State) : (issue c p s).hpc = s.hpc := by unfold issue; split <;> simp
@[simp] theorem issue_hsub (c : Ctx) (p : Pending) (s : State) : (issue c p s).hsub = s.hsub := by unfold issue; split <;> simp
@[simp] theorem issue_hmic (c : Ctx) (p : Pending) (s : State) : (issue c p s).hmic = s.hmic := by unfold issue; split <;> simp
@[simp] theorem issue_inIsr (c : Ctx) (p : Pending) (s : State) : (issue c p s).inIsr = s.inIsr := by unfold issue; split <;> simp
@[simp] theorem issue_ipc (c : Ctx) (p : Pending) (s : State) : (issue c p s).ipc = s.ipc := by unfold issue; split <;> simp
@[simp] theorem issue_imic (c : Ctx) (p : Pending) (s : State) : (issue c p s).imic = s.imic := by unfold issue; split <;> simp
@[simp] theorem issue_icause (c : Ctx) (p : Pending) (s : State) : (issue c p s).icause = s.icause := by unfold issue; split <;> simp
@[simp] theorem issue_regs (c : Ctx) (p : Pending) (s : State) : (issue c p s).regs = s.regs := by unfold issue; split <;> simp
@[simp] theorem issue_rx (c : Ctx) (p : Pending) (s : State) : (issue c p s).rx = s.rx := by unfold issue; split <;> simp
@[simp] theorem issue_tx (c : Ctx) (p : Pending) (s : State) : (issue c p s).tx = s.tx := by unfold issue; split <;> simp
@[simp] theorem issue_phy (c : Ctx) (p : Pending) (s : State) : (issue c p s).phy = s.phy := by unfold issue; split <;> simp
@[simp] theorem issue_phyLog (c : Ctx) (p : Pending) (s : State) : (issue c p s).phyLog = s.phyLog := by unfold issue; split <;> simp
@[simp] theorem issue_wireOut (c : Ctx) (p : Pending) (s : State) : (issue c p s).wireOut = s.wireOut := by unfold issue; split <;> simp
@[simp] theorem issue_deliverLog (c : Ctx) (p : Pending) (s : State) : (issue c p s).deliverLog = s.deliverLog := by unfold issue; split <;> simp
@[simp] theorem issue_busData (c : Ctx) (p : Pending) (s : State) : (issue c p s).busData = s.busData := by unfold issue; split <;> simp
@[simp] theorem issue_memData (c : Ctx) (p : Pending) (s : State) : (issue c p s).memData = s.memData := by unfold issue; split <;> simp
@[simp] theorem issue_events (c : Ctx) (p : Pending) (s : State) : (issue c p s).events = s.events := by unfold issue; split <;> simp
@[simp] theorem issue_dirty (c : Ctx) (p : Pending) (s : State) : (issue c p s).dirty = s.dirty := by unfold issue; split <;> simp
@[simp] theorem issue_freeCtr (c : Ctx) (p : Pending) (s : State) : (issue c p s).freeCtr = s.freeCtr := by unfold issue; split <;> simp
@[simp] theorem issue_choice (c : Ctx) (p : Pending) (s : State) : (issue c p s).choice = s.choice := by unfold issue; split <;> simp
@[simp] theorem issue_moves (c : Ctx) (p : Pending) (s : State) : (issue c p s).moves = s.moves := by unfold issue; split <;> simp
@[simp] theorem issue_h_buf (c : Ctx) (p : Pending) (s : State) : (issue c p s).h.buf = s.h.buf := by unfold issue; split <;> simp
@[simp] theorem issue_h_len (c : Ctx) (p : Pending) (s : State) : (issue c p s).h.len = s.h.len := by unfold issue; split <;> simp
@[simp] theorem issue_h_w0 (c : Ctx) (p : Pending) (s : State) : (issue c p s).h.w0 = s.h.w0 := by unfold issue; split <;> simp
@[simp] theorem issue_h_j (c : Ctx) (p : Pending) (s : State) : (issue c p s).h.j = s.h.j := by unfold issue; split <;> simp
@[simp] theorem issue_h_k (c : Ctx) (p : Pending) (s : State) : (issue c p s).h.k = s.h.k := by unfold issue; split <;> simp
@[simp] theorem issue_h_kWraps (c : Ctx) (p : Pending) (s : State) : (issue c p s).h.kWraps = s.h.kWraps := by unfold issue; split <;> simp
@[simp] theorem issue_h_c (c : Ctx) (p : Pending) (s : State) : (issue c p s).h.c = s.h.c := by unfold issue; split <;> simp
@[simp] theorem issue_h_v (c : Ctx) (p : Pending) (s : State) : (issue c p s).h.v = s.h.v := by unfold issue; split <;> simp
@[simp] theorem issue_h_ok (c : Ctx) (p : Pending) (s : State) : (issue c p s).h.ok = s.h.ok := by unfold issue; split <;> simp
@[simp] theorem issue_h_id1 (c : Ctx) (p : Pending) (s : State) : (issue c p s).h.id1 = s.h.id1 := by unfold issue; split <;> simp
@[simp] theorem issue_h_id2 (c : Ctx) (p : Pending) (s : State) : (issue c p s).h.id2 = s.h.id2 := by unfold issue; split <;> simp
@[simp] theorem issue_h_code (c : Ctx) (p : Pending) (s : State) : (issue c p s).h.code = s.h.code := by unfold issue; split <;> simp
@[simp] theorem issue_h_up (c : Ctx) (p : Pending) (s : State) : (issue c p s).h.up = s.h.up := by unfold issue; split <;> simp
@[simp] theorem issue_h_spd (c : Ctx) (p : Pending) (s : State) : (issue c p s).h.spd = s.h.spd := by unfold issue; split <;> simp
@[simp] theorem issue_h_dup (c : Ctx) (p : Pending) (s : State) : (issue c p s).h.dup = s.h.dup := by unfold issue; split <;> simp
@[simp] theorem issue_i_snap (c : Ctx) (p : Pending) (s : State) : (issue c p s).i.snap = s.i.snap := by unfold issue; split <;> simp
@[simp] theorem issue_i_iter (c : Ctx) (p : Pending) (s : State) : (issue c p s).i.iter = s.i.iter := by unfold issue; split <;> simp
@[simp] theorem issue_i_iterWraps (c : Ctx) (p : Pending) (s : State) : (issue c p s).i.iterWraps = s.i.iterWraps := by unfold issue; split <;> simp
@[simp] theorem issue_i_cap (c : Ctx) (p : Pending) (s : State) : (issue c p s).i.cap = s.i.cap := by unfold issue; split <;> simp
@[simp] theorem issue_i_w0 (c : Ctx) (p : Pending) (s : State) : (issue c p s).i.w0 = s.i.w0 := by unfold issue; split <;> simp

@[simp] theorem drain_cfg (c : Ctx) (k : Nat) (s : State) : (drain c k s).cfg = s.cfg := by rcases drain_cases c k s with e | ⟨_, e⟩ | ⟨_, _, _, e⟩ <;> simp [e]
@[simp] theorem drain_link (c : Ctx) (k : Nat) (s : State) : (drain c k s).link = s.link := by rcases drain_cases c k s with e | ⟨_, e⟩ | ⟨_, _, _, e⟩ <;> simp [e]
@[simp] theorem drain_nsent (c : Ctx) (k : Nat) (s : State) : (drain c k s).nsent = s.nsent := by rcases drain_cases c k s with e | ⟨_, e⟩ | ⟨_, _, _, e⟩ <;> simp [e]
@[simp] theorem drain_nsentBytes (c : Ctx) (k : Nat) (s : State) : (drain c k s).nsentBytes = s.nsentBytes := by rcases drain_cases c k s with e | ⟨_, e⟩ | ⟨_, _, _, e⟩ <;> simp [e]
@[simp] theorem drain_nrecv (c : Ctx) (k : Nat) (s : State) : (drain c k s).nrecv = s.nrecv := by rcases drain_cases c k s with e | ⟨_, e⟩ | ⟨_, _, _, e⟩ <;> simp [e]
@[simp] theorem drain_ndrop (c : Ctx) (k : Nat) (s : State) : (drain c k s).ndrop = s.ndrop := by rcases drain_cases c k s with e | ⟨_, e⟩ | ⟨_, _, _, e⟩ <;> simp [e]
@[simp] theorem drain_nerr (c : Ctx) (k : Nat) (s : State) : (drain c k s).nerr = s.nerr := by rcases drain_cases c k s with e | ⟨_, e⟩ | ⟨_, _, _, e⟩ <;> simp [e]
@[simp] theorem drain_phyId (c : Ctx) (k : Nat) (s : State) : (drain c k s).phyId = s.phyId := by rcases drain_cases c k s with e | ⟨_, e⟩ | ⟨_, _, _, e⟩ <;> simp [e]
@[simp] theorem drain_vendor (c : Ctx) (k : Nat) (s : State) : (drain c k s).vendor = s.vendor := by rcases drain_cases c k s with e | ⟨_, e⟩ | ⟨_, _, _, e⟩ <;> simp [e]
@[simp] theorem drain_rxIdx (c : Ctx) (k : Nat) (s : State) : (drain c k s).rxIdx = s.rxIdx := by rcases drain_cases c k s with e | ⟨_, e⟩ | ⟨_, _, _, e⟩ <;> simp [e]
@[simp] theorem drain_txIdx (c : Ctx) (k : Nat) (s : State) : (drain c k s).txIdx = s.txIdx := by rcases drain_cases c k s with e | ⟨_, e⟩ | ⟨_, _, _, e⟩ <;> simp [e]
@[simp] theorem drain_initialized (c : Ctx) (k : Nat) (s : State) : (drain c k s).initialized = s.initialized := by rcases drain_cases c k s with e | ⟨_, e⟩ | ⟨_, _, _, e⟩ <;> simp [e]
@[simp] theorem drain_ringsBuilt (c : Ctx) (k : Nat) (s : State) : (drain c k s).ringsBuilt = s.ringsBuilt := by rcases drain_cases c k s with e | ⟨_, e⟩ | ⟨_, _, _, e⟩ <;> simp [e]
@[simp] theorem drain_hpc (c : Ctx) (k : Nat) (s : State) : (drain c k s).hpc = s.hpc := by rcases drain_cases c k s with e | ⟨_, e⟩ | ⟨_, _, _, e⟩ <;> simp [e]
@[simp] theorem drain_hsub (c : Ctx) (k : Nat) (s : State) : (drain c k s).hsub = s.hsub := by rcases drain_cases c k s with e | ⟨_, e⟩ | ⟨_, _, _, e⟩ <;> simp [e]
@[simp] theorem drain_hmic (c : Ctx) (k : Nat) (s : State) : (drain c k s).hmic = s.hmic := by rcases drain_cases c k s with e | ⟨_, e⟩ | ⟨_, _, _, e⟩ <;> simp [e]
@[simp] theorem drain_inIsr (c : Ctx) (k : Nat) (s : State) : (drain c k s).inIsr = s.inIsr := by rcases drain_cases c k s with e | ⟨_, e⟩ | ⟨_, _, _, e⟩ <;> simp [e]
@[simp] theorem drain_ipc (c : Ctx) (k : Nat) (s : State) : (drain c k s).ipc = s.ipc := by rcases drain_cases c k s with e | ⟨_, e⟩ | ⟨_, _, _, e⟩ <;> simp [e]
@[simp] theorem drain_imic (c : Ctx) (k : Nat) (s : State) : (drain c k s).imic = s.imic := by rcases drain_cases c k s with e | ⟨_, e⟩ | ⟨_, _, _, e⟩ <;> simp [e]
@[simp] theorem drain_icause (c : Ctx) (k : Nat) (s : State) : (drain c k s).icause = s.icause := by rcases drain_cases c k s with e | ⟨_, e⟩ | ⟨_, _, _, e⟩ <;> simp [e]
@[simp] theorem drain_regs (c : Ctx) (k : Nat) (s : State) : (drain c k s).regs = s.regs := by rcases drain_cases c k s with e | ⟨_, e⟩ | ⟨_, _, _, e⟩ <;> simp [e]
@[simp] theorem drain_rx (c : Ctx) (k : Nat) (s : State) : (drain c k s).rx = s.rx := by rcases drain_cases c k s with e | ⟨_, e⟩ | ⟨_, _, _, e⟩ <;> simp [e]
@[simp] theorem drain_tx (c : Ctx) (k : Nat) (s : State) : (drain c k s).tx = s.tx := by rcases drain_cases c k s with e | ⟨_, e⟩ | ⟨_, _, _, e⟩ <;> simp [e]
@[simp] theorem drain_phy (c : Ctx) (k : Nat) (s : State) : (drain c k s).phy = s.phy := by rcases drain_cases c k s with e | ⟨_, e⟩ | ⟨_, _, _, e⟩ <;> simp [e]
@[simp] theorem drain_phyLog (c : Ctx) (k : Nat) (s : State) : (drain c k s).phyLog = s.phyLog := by rcases drain_cases c k s with e | ⟨_, e⟩ | ⟨_, _, _, e⟩ <;> simp [e]
@[simp] theorem drain_wireOut (c : Ctx) (k : Nat) (s : State) : (drain c k s).wireOut = s.wireOut := by rcases drain_cases c k s with e | ⟨_, e⟩ | ⟨_, _, _, e⟩ <;> simp [e]
@[simp] theorem drain_deliverLog (c : Ctx) (k : Nat) (s : State) : (drain c k s).deliverLog = s.deliverLog := by rcases drain_cases c k s with e | ⟨_, e⟩ | ⟨_, _, _, e⟩ <;> simp [e]
@[simp] theorem drain_busData (c : Ctx) (k : Nat) (s : State) : (drain c k s).busData = s.busData := by rcases drain_cases c k s with e | ⟨_, e⟩ | ⟨_, _, _, e⟩ <;> simp [e]
@[simp] theorem drain_memData (c : Ctx) (k : Nat) (s : State) : (drain c k s).memData = s.memData := by rcases drain_cases c k s with e | ⟨_, e⟩ | ⟨_, _, _, e⟩ <;> simp [e]
@[simp] theorem drain_events (c : Ctx) (k : Nat) (s : State) : (drain c k s).events = s.events := by rcases drain_cases c k s with e | ⟨_, e⟩ | ⟨_, _, _, e⟩ <;> simp [e]
@[simp] theorem drain_dirty (c : Ctx) (k : Nat) (s : State) : (drain c k s).dirty = s.dirty := by rcases drain_cases c k s with e | ⟨_, e⟩ | ⟨_, _, _, e⟩ <;> simp [e]
@[simp] theorem drain_freeCtr (c : Ctx) (k : Nat) (s : State) : (drain c k s).freeCtr = s.freeCtr := by rcases drain_cases c k s with e | ⟨_, e⟩ | ⟨_, _, _, e⟩ <;> simp [e]
@[simp] theorem drain_choice (c : Ctx) (k : Nat) (s : State) : (drain c k s).choice = s.choice := by rcases drain_cases c k s with e | ⟨_, e⟩ | ⟨_, _, _, e⟩ <;> simp [e]
@[simp] theorem drain_moves (c : Ctx) (k : Nat) (s : State) : (drain c k s).moves = s.moves := by rcases drain_cases c k s with e | ⟨_, e⟩ | ⟨_, _, _, e⟩ <;> simp [e]
@[simp] theorem drain_h_buf (c : Ctx) (k : Nat) (s : State) : (drain c k s).h.buf = s.h.buf := by rcases drain_cases c k s with e | ⟨_, e⟩ | ⟨_, _, _, e⟩ <;> simp [e]
@[simp] theorem drain_h_len (c : Ctx) (k : Nat) (s : State) : (drain c k s).h.len = s.h.len := by rcases drain_cases c k s with e | ⟨_, e⟩ | ⟨_, _, _, e⟩ <;> simp [e]
@[simp] theorem drain_h_w0 (c : Ctx) (k : Nat) (s : State) : (drain c k s).h.w0 = s.h.w0 := by rcases drain_cases c k s with e | ⟨_, e⟩ | ⟨_, _, _, e⟩ <;> simp [e]
@[simp] theorem drain_h_j (c : Ctx) (k : Nat) (s : State) : (drain c k s).h.j = s.h.j := by rcases drain_cases c k s with e | ⟨_, e⟩ | ⟨_, _, _, e⟩ <;> simp [e]
@[simp] theorem drain_h_k (c : Ctx) (k : Nat) (s : State) : (drain c k s).h.k = s.h.k := by rcases drain_cases c k s with e | ⟨_, e⟩ | ⟨_, _, _, e⟩ <;> simp [e]
@[simp] theorem drain_h_kWraps (c : Ctx) (k : Nat) (s : State) : (drain c k s).h.kWraps = s.h.kWraps := by rcases drain_cases c k s with e | ⟨_, e⟩ | ⟨_, _, _, e⟩ <;> simp [e]
@[simp] theorem drain_h_c (c : Ctx) (k : Nat) (s : State) : (drain c k s).h.c = s.h.c := by rcases drain_cases c k s with e | ⟨_, e⟩ | ⟨_, _, _, e⟩ <;> simp [e]
@[simp] theorem drain_h_v (c : Ctx) (k : Nat) (s : State) : (drain c k s).h.v = s.h.v := by rcases drain_cases c k s with e | ⟨_, e⟩ | ⟨_, _, _, e⟩ <;> simp [e]
@[simp] theorem drain_h_ok (c : Ctx) (k : Nat) (s : State) : (drain c k s).h.ok = s.h.ok := by rcases drain_cases c k s with e | ⟨_, e⟩ | ⟨_, _, _, e⟩ <;> simp [e]
@[simp] theorem drain_h_id1 (c : Ctx) (k : Nat) (s : State) : (drain c k s).h.id1 = s.h.id1 := by rcases drain_cases c k s with e | ⟨_, e⟩ | ⟨_, _, _, e⟩ <;> simp [e]
@[simp] theorem drain_h_id2 (c : Ctx) (k : Nat) (s : State) : (drain c k s).h.id2 = s.h.id2 := by rcases drain_cases c k s with e | ⟨_, e⟩ | ⟨_, _, _, e⟩ <;> simp [e]
@[simp] theorem drain_h_code (c : Ctx) (k : Nat) (s : State) : (drain c k s).h.code = s.h.code := by rcases drain_cases c k s with e | ⟨_, e⟩ | ⟨_, _, _, e⟩ <;> simp [e]
@[simp] theorem drain_h_up (c : Ctx) (k : Nat) (s : State) : (drain c k s).h.up = s.h.up := by rcases drain_cases c k s with e | ⟨_, e⟩ | ⟨_, _, _, e⟩ <;> simp [e]
@[simp] theorem drain_h_spd (c : Ctx) (k : Nat) (s : State) : (drain c k s).h.spd = s.h.spd := by rcases drain_cases c k s with e | ⟨_, e⟩ | ⟨_, _, _, e⟩ <;> simp [e]
@[simp] theorem drain_h_dup (c : Ctx) (k : Nat) (s : State) : (drain c k s).h.dup = s.h.dup := by rcases drain_cases c k s with e | ⟨_, e⟩ | ⟨_, _, _, e⟩ <;> simp [e]
@[simp] theorem drain_i_snap (c : Ctx) (k : Nat) (s : State) : (drain c k s).i.snap = s.i.snap := by rcases drain_cases c k s with e | ⟨_, e⟩ | ⟨_, _, _, e⟩ <;> simp [e]
@[simp] theorem drain_i_iter (c : Ctx) (k : Nat) (s : State) : (drain c k s).i.iter = s.i.iter := by rcases drain_cases c k s with e | ⟨_, e⟩ | ⟨_, _, _, e⟩ <;> simp [e]
@[simp] theorem drain_i_iterWraps (c : Ctx) (k : Nat) (s : State) : (drain c k s).i.iterWraps = s.i.iterWraps := by rcases drain_cases c k s with e | ⟨_, e⟩ | ⟨_, _, _, e⟩ <;> simp [e]
@[simp] theorem drain_i_cap (c : Ctx) (k : Nat) (s : State) : (drain c k s).i.cap = s.i.cap := by rcases drain_cases c k s with e | ⟨_, e⟩ | ⟨_, _, _, e⟩ <;> simp [e]
@[simp] theorem drain_i_w0 (c : Ctx) (k : Nat) (s : State) : (drain c k s).i.w0 = s.i.w0 := by rcases drain_cases c k s with e | ⟨_, e⟩ | ⟨_, _, _, e⟩ <;> simp [e]
@[simp] theorem settle_polls (c : Ctx) (w : Pending → Bool) (s : State) : (settle c w s).h.polls = s.h.polls := by simp [HostRegs.polls]
@[simp] theorem settle_iterations (c : Ctx) (w : Pending → Bool) (s : State) : (settle c w s).i.iterations = s.i.iterations := by simp [IsrRegs.iterations]
@[simp] theorem issue_polls (c : Ctx) (p : Pending) (s : State) : (issue c p s).h.polls = s.h.polls := by simp [HostRegs.polls]
@[simp] theorem issue_iterations (c : Ctx) (p : Pending) (s : State) : (issue c p s).i.iterations = s.i.iterations := by simp [IsrRegs.iterations]
@[simp] theorem drain_polls (c : Ctx) (k : Nat) (s : State) : (drain c k s).h.polls = s.h.polls := by simp [HostRegs.polls]
@[simp] theorem drain_iterations (c : Ctx) (k : Nat) (s : State) : (drain c k s).i.iterations = s.i.iterations := by simp [IsrRegs.iterations]
@[simp] theorem ctxStoreWord_eq (c : Ctx) (a : Nat) (v : Word) (s : State) : ctxStoreWord c a v s = issue c (.word a v) s := rfl
@[simp] theorem ctxStoreByte_eq (c : Ctx) (a : Nat) (v : Byte) (s : State) : ctxStoreByte c a v s = issue c (.byte a v) s := rfl
@[simp] theorem settleAddrs_eq (c : Ctx) (as : List Nat) (s : State) : settleAddrs c as s = settle c (Pending.hits as) s := rfl
@[simp] theorem settleReg_eq (c : Ctx) (r : LoadReg) (s : State) : settleReg c r s = settle c (fun p => decide (p.fills = some r)) s := rfl

/-- An access is performed at once under SC and waits, last, under WEAK (20_memory.md R96). -/
theorem issue_cases (c : Ctx) (p : Pending) (s : State) :
    (s.cfg.memModel = .sc ∧ issue c p s = performAccess p s) ∨
    (s.cfg.memModel = .weak ∧ issue c p s = s.setPending c (s.pending c ++ [p])) := by
  unfold issue; split <;> simp_all

/-- What must be performed now and what may wait are both among the accesses that were pending. -/
theorem splitNeeded_mem (want : Pending → Bool) :
    ∀ (ps : List Pending) (q : Pending), q ∈ (splitNeeded want ps).1 ∨ q ∈ (splitNeeded want ps).2 ↔ q ∈ ps
  | [], q => by simp [splitNeeded]
  | p :: ps, q => by
    have ih := splitNeeded_mem want ps q
    simp only [splitNeeded]
    split <;> simp only [List.mem_cons, ← ih] <;> tauto

/-- Nothing pending needs to be performed where nothing pending is wanted. -/
theorem splitNeeded_none (want : Pending → Bool) :
    ∀ ps : List Pending, (∀ p ∈ ps, want p = false) → splitNeeded want ps = ([], ps)
  | [], _ => rfl
  | p :: ps, h => by
    have ih := splitNeeded_none want ps fun q hq => h q (List.mem_cons_of_mem _ hq)
    simp [splitNeeded, ih, h p List.mem_cons_self]

/-- Where nothing pending is wanted, nothing happens. -/
theorem settle_none (c : Ctx) (want : Pending → Bool) (s : State) (h : ∀ p ∈ s.pending c, want p = false) :
    settle c want s = s := by
  unfold settle; rw [splitNeeded_none want _ h]; cases c <;> rfl

@[simp] theorem settle_mem (c : Ctx) (want : Pending → Bool) (s : State) :
    (settle c want s).mem = Memory.performAll s.mem (splitNeeded want (s.pending c)).1 := by simp [settle]

@[simp] theorem settle_pending (c : Ctx) (want : Pending → Bool) (s : State) :
    (settle c want s).pending c = (splitNeeded want (s.pending c)).2 := setPending_pending ..

/-- What a context performs early leaves alone every byte its pending accesses do not write. -/
theorem settle_byteAt (c : Ctx) (want : Pending → Bool) (s : State) (a : Nat) (h : spares (s.pending c) a) :
    (settle c want s).byteAt a = s.byteAt a :=
  State.byteAt_congr (by
    rw [settle_mem]
    exact Memory.get_performAll_other _ _ _ fun p hp => h p ((splitNeeded_mem want _ p).1 (.inl hp)))

/-- An access a context issues writes no byte but its own. -/
theorem issue_byteAt (c : Ctx) (p : Pending) (s : State) (a : Nat) (h : a ∉ p.writes) :
    (issue c p s).byteAt a = s.byteAt a := by
  rcases issue_cases c p s with ⟨_, e⟩ | ⟨_, e⟩ <;> rw [e]
  · exact State.byteAt_congr (by rw [performAccess_mem]; exact Memory.get_perform_other _ _ _ h)
  · exact State.byteAt_congr (by rw [setPending_mem])

end Sys2Proof.Machine
end

