-- ==== Sys2Proof/Laws/Operands.lean ====
section
/-! SUPPORT. Laws/Operands.lean: words taken apart and put together again. -/

namespace Sys2Proof.Machine

/-- The four bytes of a word make the word (20_memory.md R85). -/
theorem leWord_byteOf (w : Word) : leWord (byteOf w 0) (byteOf w 1) (byteOf w 2) (byteOf w 3) = w := by
  unfold leWord byteOf
  apply BitVec.eq_of_getLsbD_eq
  intro i hi
  simp only [BitVec.getLsbD_append, BitVec.getLsbD_extractLsb']
  by_cases h1 : i < 8
  · simp [h1]
  · by_cases h2 : i < 16
    · have : i - 8 < 8 := by omega
      simp [h1, this]; congr 1; omega
    · by_cases h3 : i < 24
      · have a : ¬ i - 8 < 8 := by omega
        have b : i - 8 - 8 < 8 := by omega
        simp [h1, a, b]; congr 1; omega
      · have a : ¬ i - 8 < 8 := by omega
        have b : ¬ i - 8 - 8 < 8 := by omega
        have c : i - 8 - 8 - 8 < 8 := by omega
        simp [h1, a, b, c]; congr 1; omega

/-- One bit of a word, as a flag. -/
theorem and_bit (w k : Word) (n : Nat) (hk : k = BitVec.twoPow 32 n) : w &&& k = flagWord (w.getLsbD n) k := by
  subst hk; rw [BitVec.and_twoPow]; unfold flagWord; split <;> simp_all

/-- OWN, as a mask. -/
theorem and_own (w : Word) : w &&& 0x80000000 = flagWord (ownBit w) 0x80000000 := and_bit w _ 31 (by decide)

/-- OWN, FS and LS, as a mask. -/
theorem and_own_fs_ls (w : Word) :
    w &&& 0xB0000000 = flagWord (ownBit w) 0x80000000 ||| flagWord (fsBit w) 0x20000000
      ||| flagWord (lsBit w) 0x10000000 := by
  have e : (0xB0000000 : Word) = 0x80000000 ||| 0x20000000 ||| 0x10000000 := by decide
  rw [e, BitVec.and_or_distrib_left, BitVec.and_or_distrib_left, and_bit w 0x80000000 31 (by decide),
    and_bit w 0x20000000 29 (by decide), and_bit w 0x10000000 28 (by decide)]
  rfl

/-- The low two bits of a word, as a mask. -/
theorem and_three (w : Word) : w &&& 3 = (w.extractLsb' 0 2).setWidth 32 := by
  apply BitVec.eq_of_getLsbD_eq
  intro i hi
  simp only [BitVec.getLsbD_and, BitVec.getLsbD_setWidth, BitVec.getLsbD_extractLsb', Nat.zero_add, hi, decide_true,
    Bool.true_and]
  by_cases h : i < 2
  · interval_cases i <;> simp
  · simp only [h, decide_false, Bool.false_and]
    interval_cases i <;> simp

/-- BUSY and WRITE of an MDIO control word (30_encoding.md R136). -/
theorem mdioWord_low (pa ra : BitVec 5) (cr : BitVec 4) (wr : Bool) :
    mdioWord pa ra cr wr &&& 3 = flagWord wr 2 ||| 1 := by
  have h : (mdioWord pa ra cr wr).extractLsb' 0 2 = if wr then 3 else 1 := by
    apply BitVec.eq_of_getLsbD_eq
    intro i hi
    interval_cases i <;> cases wr <;> simp [mdioWord, flagWord]
  rw [and_three, h]; cases wr <;> rfl

end Sys2Proof.Machine
end

