-- ==== Sys2Proof/Laws/Ops.lean ====
section
/-! SUPPORT. Laws/Ops.lean: for each shared operation, once, everything it can do where it answers a next state. -/

namespace Sys2Proof.Machine

/-! ### Outcomes -/

/-- A continuation answers a next state exactly where its first part does. -/
@[simp] theorem andNext_next (o : Out) (f : State → State) (t : State) :
    andNext o f = .next t ↔ ∃ u, o = .next u ∧ f u = t := by
  cases o <;> simp [andNext]

@[simp] theorem andNext_fault (o : Out) (f : State → State) (e : Fault) : andNext o f = .fault e ↔ o = .fault e := by
  cases o <;> simp [andNext]

@[simp] theorem andNext_refused (o : Out) (f : State → State) (e : Refusal) :
    andNext o f = .refused e ↔ o = .refused e := by
  cases o <;> simp [andNext]

/-! ### Command dispatch -/

/-- A command is let through exactly where HOST is Idle and the handler is not running. -/
theorem commandGate_none (s : State) : commandGate s = none ↔ s.hpc = .idle ∧ s.inIsr = false := by
  unfold commandGate; split <;> (try split) <;> simp_all

/-- A command starts exactly where the gate lets it through and `initialized` is as it needs. -/
theorem startCommand_next (b : Bool) (l : HostLabel) (s t : State) :
    startCommand b l s = .next t ↔
      s.hpc = .idle ∧ s.inIsr = false ∧ (b = true → s.initialized = true) ∧
        t = { s with hpc := l, hsub := .off, hmic := 0, dirty := [] } := by
  unfold startCommand
  split
  · next r h =>
    have : ¬ (s.hpc = .idle ∧ s.inIsr = false) := by rw [← commandGate_none]; simp [h]
    simp only [reduceCtorEq, false_iff]; tauto
  · next h =>
    have hg := (commandGate_none s).1 h
    split
    · next hb => simp_all
    · next hb =>
      simp only [Host.Outcome.next.injEq, hg.1, hg.2, true_and]
      constructor
      · rintro rfl; refine ⟨fun hb' => ?_, rfl⟩; simp_all
      · rintro ⟨-, rfl⟩; rfl

/-- A reserved word only raises `BAD_CMD`. -/
theorem badCommand_next (s t : State) :
    badCommand s = .next t ↔ s.hpc = .idle ∧ s.inIsr = false ∧ t = raise .badCmd s := by
  unfold badCommand
  split
  · next r h =>
    have : ¬ (s.hpc = .idle ∧ s.inIsr = false) := by rw [← commandGate_none]; simp [h]
    simp only [reduceCtorEq, false_iff]; tauto
  · next h =>
    have hg := (commandGate_none s).1 h
    simp [hg, eq_comm]

/-- A write of CMD starts INIT, TX or UP, or raises `BAD_CMD`. -/
theorem commandWrite_next {v : Word} {s t : State} (h : commandWrite v s = .next t) :
    s.hpc = .idle ∧ s.inIsr = false ∧
      (t = { s with hpc := .n0, hsub := .off, hmic := 0, dirty := [] } ∨
       (s.initialized = true ∧ t = { s with hpc := .t0, hsub := .off, hmic := 0, dirty := [] }) ∨
       (s.initialized = true ∧ t = { s with hpc := .u0, hsub := .off, hmic := 0, dirty := [] }) ∨
       t = raise .badCmd s) := by
  unfold commandWrite at h
  split at h
  · rw [startCommand_next] at h; tauto
  · rw [startCommand_next] at h; tauto
  · rw [startCommand_next] at h; tauto
  · rw [badCommand_next] at h; tauto

/-! ### The register file -/

/-- A register write answers a next state by changing the register file, an engine's run state, or by dispatching a
command; nothing else of the machine changes. -/
theorem regWrite_next {r : RegName} {v : Word} {s t : State} (h : regWrite r v s = .next t) :
    (r ≠ .cmd ∧ ∃ regs rx tx, t = { s with regs := regs, rx := rx, tx := tx }) ∨
    (r = .cmd ∧ commandWrite v s = .next t) := by
  cases r
  case cmd => exact .inr ⟨rfl, h⟩
  case ctrl =>
    refine .inl ⟨by simp, ?_⟩
    simp only [regWrite, Host.Outcome.next.injEq] at h
    subst h
    unfold ctrlWrite
    split <;> exact ⟨_, _, _, rfl⟩
  case txDoorbell =>
    refine .inl ⟨by simp, ?_⟩
    simp only [regWrite, Host.Outcome.next.injEq] at h
    subst h
    unfold doorbell
    split <;> exact ⟨_, _, _, rfl⟩
  all_goals
    refine .inl ⟨by simp, ?_⟩
    simp only [regWrite] at h
    try split at h
    all_goals first
      | (cases h; exact ⟨_, _, _, rfl⟩)
      | cases h

/-- The register writes HOST and ISR make never meet a fault or a refusal but where the rule says so; each is one
assignment. -/
@[simp] theorem ctxRegRead_fst (c : Ctx) (r : RegName) (s : State) : (ctxRegRead c r s).1 = regRead r s := rfl
@[simp] theorem ctxRegRead_snd (c : Ctx) (r : RegName) (s : State) : (ctxRegRead c r s).2 = flush c s := rfl

/-- A read of a register sees the same value on either side of an ordering point. -/
@[simp] theorem regRead_flush (c : Ctx) (r : RegName) (s : State) : regRead r (flush c s) = regRead r s := by
  cases r <;> simp [regRead]

/-- An engine's start or stop leaves a position below `n` below `n`. -/
theorem rxEnableEdge_idx (o n : Bool) (r : RxDma) : (rxEnableEdge o n r).idx = r.idx ∨ (rxEnableEdge o n r).idx = 0 := by
  unfold rxEnableEdge; split <;> (try split) <;> simp

theorem txEnableEdge_idx (o n : Bool) (r : TxDma) : (txEnableEdge o n r).idx = r.idx ∨ (txEnableEdge o n r).idx = 0 := by
  unfold txEnableEdge; split <;> (try split) <;> simp

/-- RXEN's edge keeps a reception as it is, or leaves none. -/
theorem rxEnableEdge_job (o n : Bool) (r : RxDma) :
    (rxEnableEdge o n r).job = none ∨ rxEnableEdge o n r = r := by
  unfold rxEnableEdge; split <;> (try split) <;> simp_all

/-- TXEN's edge keeps a transmission as it is, or leaves none. -/
theorem txEnableEdge_job (o n : Bool) (r : TxDma) :
    (txEnableEdge o n r).job = none ∨ txEnableEdge o n r = r := by
  unfold txEnableEdge; split <;> (try split) <;> simp_all

/-- The index after an index of the ring is one of the ring. -/
theorem nextIdx_lt (s : State) (i : Nat) (h : 0 < s.cfg.n) : nextIdx s i < s.cfg.n := Nat.mod_lt _ h

/-! ### The contexts -/

/-- A contract operation's micro-step: its start, or its label's or sub-procedure's, or none while the handler runs. -/
theorem contractOp_next {op : Instr} {b : Bool} {l : HostLabel} {f : State → Out} {s t : State}
    (h : contractOp op b l f s = .next t) :
    (opOf s.hpc = none ∧ startCommand b l s = .next t) ∨ (opOf s.hpc = some op ∧ hostStep f s = .next t) := by
  unfold contractOp at h
  split at h
  · next hn => exact .inl ⟨hn, h⟩
  · next i hi =>
    split at h
    · next he => subst he; exact .inr ⟨hi, h⟩
    · cases h

/-- No operation is at the label Idle, and every other label belongs to one. -/
theorem opOf_none (l : HostLabel) : opOf l = none ↔ l = .idle := by cases l <;> simp [opOf]

/-- HOST's micro-step inside an operation. -/
theorem hostStep_next {f : State → Out} {s t : State} (h : hostStep f s = .next t) :
    (s.inIsr = true ∧ t = s) ∨ (s.inIsr = false ∧ s.hsub = .off ∧ f s = .next t) ∨
      (s.inIsr = false ∧ s.hsub ≠ .off ∧ subStep s = .next t) := by
  unfold hostStep at h
  split at h
  · next hi => simp only [Host.Outcome.next.injEq] at h; exact .inl ⟨hi, h.symm⟩
  · next hi =>
    split at h
    · next hs => exact .inr (.inl ⟨by simpa using hi, hs, h⟩)
    · next hs => exact .inr (.inr ⟨by simpa using hi, hs, h⟩)

/-- The handler's micro-step: its label's, its entry, or none. -/
theorem handler_next {b : Bool} {s t : State} (h : handler b s = .next t) :
    (s.inIsr = true ∧ isrLabel s = .next t) ∨ (s.inIsr = false ∧ b = true ∧ t = takeInterrupt s) ∨
      (s.inIsr = false ∧ b = false ∧ t = s) := by
  unfold handler at h
  split at h
  · next hi => exact .inl ⟨hi, h⟩
  · next hi =>
    split at h
    · next hb => simp only [Host.Outcome.next.injEq] at h; exact .inr (.inl ⟨by simpa using hi, hb, h.symm⟩)
    · next hb =>
      simp only [Host.Outcome.next.injEq] at h; exact .inr (.inr ⟨by simpa using hi, by simpa using hb, h.symm⟩)

/-- An access to a TX slot goes on only where software owns it. -/
theorem txOwned_next {f : State → Out} {s t : State} (h : txOwned f s = .next t) :
    hwOwns s (txSlot s 0) = false ∧ f s = .next t := by
  unfold txOwned at h
  split at h
  · cases h
  · next hb => exact ⟨by simpa using hb, h⟩

/-- An access to an RX slot goes on only where software owns it. -/
theorem rxOwned_next {f : State → Out} {s t : State} (h : rxOwned f s = .next t) :
    hwOwns s (rxSlot s 0) = false ∧ f s = .next t := by
  unfold rxOwned at h
  split at h
  · cases h
  · next hb => exact ⟨by simpa using hb, h⟩

/-- One pass of a bounded wait: done, one poll more, or the timeout. -/
theorem mdioPoll_cases (d : SubLabel) (s : State) :
    (busyBit s.regs.mdioCtrl = false ∧
      mdioPoll d s = { flush .host s with hsub := d, h := { (flush .host s).h with c := s.regs.mdioCtrl } }) ∨
    (busyBit s.regs.mdioCtrl = true ∧ s.h.polls + 1 ≠ s.cfg.mdioBudget ∧
      mdioPoll d s = { flush .host s with h := { (flush .host s).h.onePoll with c := s.regs.mdioCtrl } }) ∨
    (busyBit s.regs.mdioCtrl = true ∧ s.h.polls + 1 = s.cfg.mdioBudget ∧
      mdioPoll d s = { raise .phyTimeout (flush .host s) with
        hsub := .off, h := { (flush .host s).h.onePoll with c := s.regs.mdioCtrl, ok := false } }) := by
  have e : HostRegs.polls { (flush .host s).h.onePoll with c := s.regs.mdioCtrl } = (flush .host s).cfg.mdioBudget ↔
      s.h.polls + 1 = s.cfg.mdioBudget := by
    rw [← polls_onePoll]; simp [HostRegs.polls, HostRegs.onePoll]
  unfold mdioPoll mdioTimeout
  by_cases h1 : busyBit s.regs.mdioCtrl = true
  · by_cases h2 : s.h.polls + 1 = s.cfg.mdioBudget
    · refine .inr (.inr ⟨h1, h2, ?_⟩)
      exact (if_pos h1).trans (if_pos (e.2 h2))
    · refine .inr (.inl ⟨h1, h2, ?_⟩)
      exact (if_pos h1).trans (if_neg (mt e.1 h2))
  · exact .inl ⟨by simpa using h1, if_neg h1⟩

/-- After a word store of `RING.BUILD`: the next word, the next slot, or the next step. -/
theorem buildNext_cases (d : SubLabel) (s : State) :
    (s.hmic < 3 ∧ buildNext d s = { s with hmic := s.hmic + 1 }) ∨
    (¬ s.hmic < 3 ∧ s.h.j.toNat + 1 < s.cfg.n ∧
      buildNext d s = { s with hmic := 0, h := { s.h with j := s.h.j + 1 } }) ∨
    (¬ s.hmic < 3 ∧ ¬ s.h.j.toNat + 1 < s.cfg.n ∧
      buildNext d s = { s with hmic := 0, hsub := d, h := { s.h with j := 0 } }) := by
  by_cases h1 : s.hmic < 3
  · exact .inl ⟨h1, if_pos h1⟩
  · by_cases h2 : s.h.j.toNat + 1 < s.cfg.n
    · exact .inr (.inl ⟨h1, h2, (if_neg h1).trans (if_pos h2)⟩)
    · exact .inr (.inr ⟨h1, h2, (if_neg h1).trans (if_neg h2)⟩)

/-- A redrawn byte changes the access that waits to store it, or one byte of memory. -/
theorem redraw_cases (d : Nat) (v : Byte) (s : State) :
    redraw d v s = storeByte d v s ∨ ∃ b, b.length = s.hostBuf.length ∧ redraw d v s = { s with hostBuf := b } := by
  unfold redraw
  split
  · exact .inr ⟨_, List.length_map _, rfl⟩
  · exact .inl rfl

/-- A redrawn fetched byte changes TXDMA's data and nothing else. -/
theorem redrawFetched_cases (off : Nat) (v : Byte) (s : State) :
    redrawFetched off v s = s ∨
      ∃ j, s.tx.job = some j ∧
        redrawFetched off v s = { s with tx := { s.tx with job := some { j with data := j.data.set off v } } } := by
  unfold redrawFetched
  split
  · exact .inl rfl
  · next j hj =>
    split
    · exact .inr ⟨j, hj, rfl⟩
    · exact .inl rfl

/-- The last frame of the wire log gets the byte, the frames before it stay. -/
theorem wireSetByte_append (off : Nat) (v : Byte) (es : List WireEntry) (e : WireEntry) :
    wireSetByte off v (es ++ [e]) = es ++ [{ e with bytes := e.bytes.set off v }] := by
  induction es with
  | nil => rfl
  | cons x es ih => cases es with
    | nil => rfl
    | cons y es => exact congrArg (x :: ·) ih

/-- A byte set in the wire log changes no frame's length. -/
theorem length_of_mem_wireSetByte (off : Nat) (v : Byte) {es : List WireEntry} {e : WireEntry}
    (h : e ∈ wireSetByte off v es) : ∃ e' ∈ es, e.bytes.length = e'.bytes.length := by
  rcases es.eq_nil_or_concat with rfl | ⟨es, x, rfl⟩
  · exact ⟨e, h, rfl⟩
  · rw [List.concat_eq_append, wireSetByte_append] at h
    rcases List.mem_append.1 h with h | h
    · exact ⟨e, by simp [h], rfl⟩
    · exact ⟨x, by simp, by simp [List.mem_singleton.1 h]⟩

/-- A redrawn byte of the frame handed over changes the wire log, or TXDMA's data, and nothing else. -/
theorem redrawHandedOver_cases (sent : Bool) (off : Nat) (v : Byte) (s : State) :
    ∃ tx w, (tx = s.tx ∨ ∃ j, s.tx.job = some j ∧ tx = { s.tx with job := some { j with data := j.data.set off v } }) ∧
      (w = s.wireOut ∨ w = wireSetByte off v s.wireOut) ∧
      redrawHandedOver sent off v s = { s with tx := tx, wireOut := w } := by
  unfold redrawHandedOver
  split
  · exact ⟨_, _, .inl rfl, .inr rfl, rfl⟩
  · rcases redrawFetched_cases off v s with e | ⟨j, hj, e⟩
    · exact ⟨_, _, .inl rfl, .inl rfl, e⟩
    · exact ⟨_, _, .inr ⟨j, hj, rfl⟩, .inl rfl, e⟩

/-- A redrawn byte of the copy changes the access that waits to store it, or one byte of memory; and what TXDMA has of
it. -/
theorem redrawCopied_cases (off : Nat) (s : State) :
    ∃ mem hb tx w c, (mem = s.mem ∨ ∃ x v, mem = Memory.set s.mem x v) ∧ hb.length = s.hostBuf.length ∧
      (tx = s.tx ∨ ∃ j v, s.tx.job = some j ∧ tx = { s.tx with job := some { j with data := j.data.set off v } }) ∧
      (w = s.wireOut ∨ ∃ v, w = wireSetByte off v s.wireOut) ∧
      redrawCopied off s = { s with mem := mem, hostBuf := hb, tx := tx, wireOut := w, freeCtr := c } := by
  unfold redrawCopied
  obtain ⟨mem, hb, hm, hl, e⟩ :
      ∃ mem hb, (mem = s.mem ∨ ∃ x v, mem = Memory.set s.mem x v) ∧ hb.length = s.hostBuf.length ∧
        redraw (addrAt s.cfg s.h.bufp off) (freeByte s) s = { s with mem := mem, hostBuf := hb } := by
    rcases redraw_cases (addrAt s.cfg s.h.bufp off) (freeByte s) s with e | ⟨b, hb, e⟩
    · exact ⟨_, _, .inr ⟨_, _, rfl⟩, rfl, e⟩
    · exact ⟨_, _, .inl rfl, hb, e⟩
  rw [e]
  dsimp only
  split
  · obtain ⟨tx, w, ht, hw, e'⟩ := redrawHandedOver_cases (frameSent s) off
      (freeByte (drawn { s with mem := mem, hostBuf := hb })) (drawn { s with mem := mem, hostBuf := hb })
    rw [e']
    exact ⟨_, _, _, _, _, hm, hl, ht.imp_right fun ⟨j, hj, h⟩ => ⟨j, _, hj, h⟩, hw.imp_right fun h => ⟨_, h⟩, rfl⟩
  · exact ⟨_, _, _, _, _, hm, hl, .inl rfl, .inl rfl, rfl⟩

/-- UPPER's write inside a frame being copied changes only the byte copied, in the slot, on its way there or on its way
out, and the model's own record of it. -/
theorem taint_cases (a : Nat) (s : State) :
    ∃ mem hb h tx w d c, (mem = s.mem ∨ ∃ x v, mem = Memory.set s.mem x v) ∧ hb.length ≤ s.hostBuf.length ∧
      (∃ b, h = { s.h with byte := b }) ∧
      (tx = s.tx ∨ ∃ j off v, s.tx.job = some j ∧ tx = { s.tx with job := some { j with data := j.data.set off v } }) ∧
      (w = s.wireOut ∨ ∃ off v, w = wireSetByte off v s.wireOut) ∧
      taint a s = { s with mem := mem, hostBuf := hb, h := h, tx := tx, wireOut := w, dirty := d, freeCtr := c } := by
  unfold taint
  split
  · dsimp only
    split
    · obtain ⟨mem, hb, tx, w, c, hm, hl, ht, hw, e⟩ :=
        redrawCopied_cases (frameOffset s a) { s with dirty := a :: s.dirty }
      exact ⟨mem, hb, s.h, tx, w, a :: s.dirty, c, hm, hl.le, ⟨_, rfl⟩, ht.imp_right fun ⟨j, v, h⟩ => ⟨j, _, v, h⟩,
        hw.imp_right fun ⟨v, h⟩ => ⟨_, v, h⟩, e⟩
    · split
      · exact ⟨_, _, _, _, _, _, _, .inl rfl, List.length_filter_le _ _, ⟨_, rfl⟩, .inl rfl, .inl rfl, rfl⟩
      · exact ⟨_, _, _, _, _, _, _, .inl rfl, le_refl _, ⟨_, rfl⟩, .inl rfl, .inl rfl, rfl⟩
  · exact ⟨_, _, _, _, _, _, _, .inl rfl, le_refl _, ⟨_, rfl⟩, .inl rfl, .inl rfl, rfl⟩

/-! ### The step -/

/-- The outcome of a step that answers a next state, in an admissible configuration. -/
theorem admitted_next {c : Cfg} {o : Out} {t : State} (h : admitted c o = .next t) :
    c.admissible = true ∧ o = .next t := by
  unfold admitted at h
  split at h
  · next ha => exact ⟨ha, h⟩
  · cases h

/-- A step that answers a next state ran an instruction or a move that no word selects, in an admissible configuration. -/
theorem step_next {s t : State} (h : step s = .next t) :
    s.cfg.admissible = true ∧
      ((∃ i u, fetch s = .run i u ∧ exec i u = .next t) ∨ fetch s = .done (.next t)) := by
  unfold step at h
  split at h
  · next i u e =>
    obtain ⟨ha, hx⟩ := admitted_next h
    exact ⟨ha, .inl ⟨i, u, e, hx⟩⟩
  · next o e =>
    obtain ⟨ha, hx⟩ := admitted_next h
    exact ⟨ha, .inr (hx ▸ e)⟩

end Sys2Proof.Machine
end

