-- ==== Sys2Proof/Laws/PerInstr.lean ====
section
/-! SUPPORT. Laws/PerInstr.lean: the family `RowMatch`: the encoding of a well-formed instruction selects its row of
spec/opcode_table.json (30_encoding.md R138: `(w and mask) = match`). -/

namespace Sys2Proof.Laws.RowMatch

open Sys2Proof.Machine

/-- The encoding of `i`, where `i` is well formed, selects the row of `i` in the format of `i`. -/
def Statement (i : Instr) : Prop :=
  WellFormed i = true → (rowOf i).format = formatOf i ∧ (rowOf i).selects (encode i) = true

/-- A word laid out in bytes is the selecting word of a format that has one word. -/
theorem selecting_word (f : Format) (w : Word) (h : f ≠ .bus ∧ f ≠ .irq) : selectingWord f (leBytes w) = w := by
  cases f <;> simp_all [selectingWord, leBytes, leWord_byteOf]

theorem init : Statement .init := fun _ => by decide

theorem tx : Statement .tx := fun _ => by decide

theorem up : Statement .up := fun _ => by decide

theorem regrd (reg : BitVec 5) : Statement (.regrd reg) := fun _ => by
  refine ⟨rfl, decide_eq_true ?_⟩
  show (busSelector false reg).setWidth 32 &&& (0x83 : Word) = 0x00
  revert reg; decide

theorem regwr (reg : BitVec 5) (value : Word) : Statement (.regwr reg value) := fun _ => by
  refine ⟨rfl, decide_eq_true ?_⟩
  show (busSelector true reg).setWidth 32 &&& (0x83 : Word) = 0x80
  clear * - reg; revert reg; decide

theorem mdioRd (pa ra : BitVec 5) (cr : BitVec 4) : Statement (.mdioRd pa ra cr) := fun _ => by
  refine ⟨rfl, ?_⟩
  refine decide_eq_true ?_
  rw [show encode (.mdioRd pa ra cr) = leBytes (mdioWord pa ra cr false) from rfl, selecting_word _ _ ⟨by simp [rowOf], by simp [rowOf]⟩]
  exact mdioWord_low pa ra cr false

theorem mdioWr (pa ra : BitVec 5) (cr : BitVec 4) : Statement (.mdioWr pa ra cr) := fun _ => by
  refine ⟨rfl, ?_⟩
  refine decide_eq_true ?_
  rw [show encode (.mdioWr pa ra cr) = leBytes (mdioWord pa ra cr true) from rfl, selecting_word _ _ ⟨by simp [rowOf], by simp [rowOf]⟩]
  exact mdioWord_low pa ra cr true

theorem txdmaSend (w0 : Word) : Statement (.txdmaSend w0) := fun h => by
  refine ⟨rfl, ?_⟩
  simp only [WellFormed, Bool.and_eq_true] at h
  refine decide_eq_true ?_
  rw [show encode (.txdmaSend w0) = leBytes w0 from rfl, selecting_word _ _ ⟨by simp [rowOf], by simp [rowOf]⟩]
  show w0 &&& 0xB0000000 = 0xB0000000
  rw [and_own_fs_ls, h.1.1, h.1.2, h.2]; rfl

theorem txdmaPark (w0 : Word) : Statement (.txdmaPark w0) := fun h => by
  refine ⟨rfl, ?_⟩
  simp only [WellFormed, Bool.not_eq_true'] at h
  refine decide_eq_true ?_
  rw [show encode (.txdmaPark w0) = leBytes w0 from rfl, selecting_word _ _ ⟨by simp [rowOf], by simp [rowOf]⟩]
  show w0 &&& 0x80000000 = 0
  rw [and_own, h]; rfl

theorem rxdmaFill (w0 : Word) : Statement (.rxdmaFill w0) := fun h => by
  refine ⟨rfl, ?_⟩
  simp only [WellFormed] at h
  refine decide_eq_true ?_
  rw [show encode (.rxdmaFill w0) = leBytes w0 from rfl, selecting_word _ _ ⟨by simp [rowOf], by simp [rowOf]⟩]
  show w0 &&& 0x80000000 = 0x80000000
  rw [and_own, h]; rfl

theorem rxdmaMiss (w0 : Word) : Statement (.rxdmaMiss w0) := fun h => by
  refine ⟨rfl, ?_⟩
  simp only [WellFormed, Bool.not_eq_true'] at h
  refine decide_eq_true ?_
  rw [show encode (.rxdmaMiss w0) = leBytes w0 from rfl, selecting_word _ _ ⟨by simp [rowOf], by simp [rowOf]⟩]
  show w0 &&& 0x80000000 = 0
  rw [and_own, h]; rfl

theorem rxirq (rbu : Bool) : Statement (.rxirq rbu) := fun _ => by cases rbu <;> exact ⟨rfl, by decide⟩

theorem rxirqRbu : Statement .rxirqRbu := fun _ => by decide

end Sys2Proof.Laws.RowMatch
end

