-- ==== Sys2Proof/Machine/Listing.lean ====
section
/-! DEFINITION. Machine/Listing.lean: the notation of 30_encoding.md R142 and R143: what UPPER presents for a line of a
listing, and the pseudo-instructions as their expansions. No step depends on it. -/

namespace Sys2Proof.Machine

/-- `REGRD reg` as the bus access that presents it (30_encoding.md R122). -/
def busRead (reg : BitVec 5) : Move := .bus (busSelector false reg) 0

/-- `REGWR reg, value` as the bus access that presents it (30_encoding.md R122). -/
def busWrite (reg : BitVec 5) (value : Word) : Move := .bus (busSelector true reg) value

/-- A line of a listing that UPPER or the environment presents at once (R142, R143). -/
inductive Line where
  | init
  | tx (buf len : Word)
  | up
  | regrd (reg : BitVec 5)
  | regwr (reg : BitVec 5) (value : Word)
  /-- `STATS` (R143). -/
  | stats
  /-- `CLRDIAG mask` (R143). -/
  | clrdiag (mask : Word)
  /-- `MDIO.RD pa, ra` as its register-bridge sequence with one pass of each wait; `cr` is the CR field read back (R143,
  42_mdio_phy_bridge.md R202 to R205). -/
  | mdioRd (pa ra : BitVec 5) (cr : BitVec 4)
  /-- `MDIO.WR pa, ra, v`, likewise (R143, 42_mdio_phy_bridge.md R207 to R210). -/
  | mdioWr (pa ra : BitVec 5) (cr : BitVec 4) (v : Half)
  /-- `.wire_rx` (R142). -/
  | wireRx (f : Frame)
  /-- `.phy pa, ra, value` (R142). -/
  | phy (pa ra : BitVec 5) (v : Half)
deriving DecidableEq, Repr

/-- The moves a line stands for (R142, R143; register numbers of 10_state.md R35). -/
def Line.moves : Line → List Move
  | .init => [busWrite 24 1]
  | .tx buf len => [busWrite 25 buf, busWrite 26 len, busWrite 24 2]
  | .up => [busWrite 24 3]
  | .regrd reg => [busRead reg]
  | .regwr reg value => [busWrite reg value]
  | .stats => [busRead 16, busRead 17, busRead 18, busRead 19, busRead 20]
  | .clrdiag mask => [busWrite 12 mask]
  | .mdioRd pa ra cr => [busRead 5, busWrite 5 (mdioWord pa ra cr false), busRead 5, busRead 6]
  | .mdioWr pa ra cr v =>
    [busRead 5, busWrite 6 (v.setWidth 32), busWrite 5 (mdioWord pa ra cr true), busRead 5]
  | .wireRx f => [.wire f]
  | .phy pa ra v => [.phy pa ra v]

/-- A line is complete when `hpc` returns to Idle (R142). -/
def lineComplete (s : State) : Bool := decide (s.hpc = .idle)

/-- `SEND` repeats its `TX` until RESULT is not 0 or CNT_ERR has changed (R143). -/
def sendRepeats (errBefore : Word) (s : State) : Bool :=
  decide (s.regs.result = 0) && decide (regRead .cntErr s = errBefore)

/-- `WAITLINK` repeats its `UP` until RESULT is 1 (R143). -/
def waitlinkRepeats (s : State) : Bool := decide (s.regs.result ≠ 1)

end Sys2Proof.Machine
end

