-- ==== Sys2Proof/Tests/Slice0.lean ====
section
/-! SUPPORT. Tests/Slice0.lean: the WellFormed smoke test, the decoding of words written out from the spec, small tests of
one step each (expected values from 95_test_vectors.md), and for each obligation with hypotheses a witness that they can be
met. -/

namespace Sys2Proof.Tests

open Machine

/-! ### WellFormed refuses an ill-formed term for each check (30_encoding.md R128, R129, R139 (d)) -/

theorem test_wellFormed_send_needs_own : WellFormed (.txdmaSend 0x38000000) = false := by decide
theorem test_wellFormed_send_needs_fs : WellFormed (.txdmaSend 0x90000000) = false := by decide
theorem test_wellFormed_send_needs_ls : WellFormed (.txdmaSend 0xA8000000) = false := by decide
theorem test_wellFormed_park_needs_no_own : WellFormed (.txdmaPark 0x80000000) = false := by decide
theorem test_wellFormed_fill_needs_own : WellFormed (.rxdmaFill 0x7FFFFFFF) = false := by decide
theorem test_wellFormed_miss_needs_no_own : WellFormed (.rxdmaMiss 0xC0000000) = false := by decide

/-! ### Decoding: words written out from the encodings (30_encoding.md R121 to R130; 95_test_vectors.md 2.1 to 2.3) -/

/-- CMD: the word 1, little-endian. -/
theorem test_decode_init : decode .cmd [0x01, 0x00, 0x00, 0x00] = .ok .init := by decide
theorem test_decode_tx : decode .cmd [0x02, 0x00, 0x00, 0x00] = .ok .tx := by decide
theorem test_decode_up : decode .cmd [0x03, 0x00, 0x00, 0x00] = .ok .up := by decide
/-- BUS: WE = 0, REGNO = 11011, 00: selector 0x6C reads RESULT. -/
theorem test_decode_regrd : decode .bus [0b01101100, 0, 0, 0, 0] = .ok (.regrd 27) := by decide
/-- BUS: WE = 1, REGNO = 01000, 00: selector 0xA0 writes INT_STATUS. -/
theorem test_decode_regwr : decode .bus [0b10100000, 0x78, 0x56, 0x34, 0x12] = .ok (.regwr 8 0x12345678) := by decide
/-- MDIOC: 0x00011F21 is PHYAD 1, REGAD 31, CR 2, a read. -/
theorem test_decode_mdioRd : decode .mdioc [0x21, 0x1F, 0x01, 0x00] = .ok (.mdioRd 1 31 2) := by decide
/-- MDIOC: 0x00000013 is PHYAD 0, REGAD 0, CR 1, a write. -/
theorem test_decode_mdioWr : decode .mdioc [0x13, 0x00, 0x00, 0x00] = .ok (.mdioWr 0 0 1) := by decide
theorem test_decode_txdmaSend : decode .tdes [0x00, 0x00, 0x00, 0xF8] = .ok (.txdmaSend 0xF8000000) := by decide
theorem test_decode_txdmaPark : decode .tdes [0x00, 0x00, 0x00, 0x38] = .ok (.txdmaPark 0x38000000) := by decide
theorem test_decode_rxdmaFill : decode .rdes [0x00, 0x00, 0x00, 0x80] = .ok (.rxdmaFill 0x80000000) := by decide
theorem test_decode_rxdmaMiss : decode .rdes [0x02, 0x80, 0x00, 0x30] = .ok (.rxdmaMiss 0x30008002) := by decide
theorem test_decode_rxirq : decode .irq [0b11] = .ok (.rxirq true) := by decide
theorem test_decode_rxirqRbu : decode .irq [0b10] = .ok .rxirqRbu := by decide
/-- Reserved words (30_encoding.md R139; 95_test_vectors.md 2.1 vector 23, 2.3 last row). -/
theorem test_decode_refuses :
    decode .cmd [0x12, 0, 0, 0] = .bad .reservedCommand ∧ decode .bus [0x21, 0, 0, 0, 0] = .bad .misalignedSelector ∧
    decode .tdes [0, 0, 0, 0xA8] = .bad .multiDescriptorFrame ∧ decode .irq [0] = .bad .noCause ∧
    decode .mdioc [0x70, 0, 0, 0] = .bad .noTransaction ∧ decode .cmd [1, 0, 0] = .bad .truncated := by decide
theorem test_decodeTableWord :
    decodeTableWord 32 0x00000002 = some .tx ∧ decodeTableWord 8 0xA0 = some (.regwr 8 0) ∧
    decodeTableWord 32 0x00000171 = some (.mdioRd 0 1 7) ∧ decodeTableWord 32 0xB0000000 = some (.txdmaSend 0xB0000000) ∧
    decodeTableWord 8 0x2 = some .rxirqRbu := by decide

/-! ### Small states -/

/-- After reset, in the test configuration (95_test_vectors.md section 0). -/
def base : State := State.resetWith Cfg.test

/-- HOST at a label of an initialized machine. -/
def host (l : HostLabel) (mic : Nat := 0) : State := { base with hpc := l, hmic := mic, initialized := true, ringsBuilt := true }

/-- ISR inside an invocation. -/
def isr (l : IsrLabel) (mic : Nat := 0) : State := { base with inIsr := true, ipc := l, imic := mic, icause := 1 }

/-- The state with a word stored. -/
def withWord (s : State) (a : Nat) (v : Word) : State := { s with mem := Memory.setWord s.mem a v }

/-- An initialized machine whose first descriptors are as built (95_test_vectors.md 2.3), both engines Running. -/
def ready : State :=
  withWord (withWord (withWord (withWord (withWord (withWord (withWord
    { base with
      initialized := true, ringsBuilt := true, rx := ⟨.running, 0, none⟩, tx := ⟨.running, 0, none⟩
      regs :=
        { Regs.zero with
          ctrl := 6, intEn := 1, filter := 2, macLo := 2, macHi := 0x100, rxBase := 0x20000000, txBase := 0x20000040 } }
    0x20000000 0x80000000) 0x20000004 0) 0x20000008 0x20000100) 0x20000010 0x80000000)
    0x20000040 0) 0x20000044 0) 0x20000048 0x20002000

/-- A frame of 14 bytes to the station address of `ready`. -/
def frame14 : Frame := ⟨[2, 0, 0, 0, 0, 1, 2, 0, 0, 0, 0, 2, 8, 0], false, false, false⟩

/-- A reception of `frame14` in a phase. -/
def rxJob (p : RxPhase) (mic : Nat := 0) (off : Nat := 0) : RxJob :=
  ⟨frame14, off, decide (off = 0), p, mic, 0x80000000, 0x20000100, [3]⟩

/-- `ready` with a reception in progress. -/
def receiving (p : RxPhase) (mic : Nat := 0) : State := { ready with rx := ⟨.running, 0, some (rxJob p mic)⟩ }

/-- A transmission of one byte in a phase. -/
def txJob (p : TxPhase) (mic : Nat := 0) (len : Nat := 1) : TxJob :=
  ⟨0xB8000000, len, 0x20002000, List.replicate len 0, List.range len, p, mic⟩

/-- `ready` with `TXD(0)` handed over and a transmission in progress. -/
def sending (p : TxPhase) (mic : Nat := 0) (len : Nat := 1) : State :=
  withWord { ready with tx := ⟨.running, 0, some (txJob p mic len)⟩ } 0x20000040 0xB8000000

/-- One field of the next state an outcome holds. -/
def field {α : Type} (o : Out) (f : State → α) : Option α :=
  match o with
  | .next s => some (f s)
  | _ => none

/-! ### One step each -/

theorem test_memory_is_canonical : Memory.wf base.mem = true ∧ Memory.wf ready.mem = true := by decide

/-- `INIT` starts at N0 (40_driver_contract.md R161). -/
theorem test_init_starts : field (exec .init base) (fun t => t.hpc) = some .n0 := by decide
/-- N3 writes 0x10 for a code of 1 (95_test_vectors.md 2.7). -/
theorem test_init_n3 :
    field (exec .init { host .n3 with h := { HostRegs.zero with code := 1 } }) (fun t => t.regs.mdioCtrl) = some 0x10 := by
  decide
/-- 95_test_vectors.md 2.4 vector 9: a full ring gives RESULT 0 and leaves CNT_ERR. -/
theorem test_tx_ring_full :
    field (exec .tx (withWord (host .t0 2) 0x20000040 0xB8000000)) (fun t => (t.regs.result, t.nerr, t.hpc))
      = some (0, 0, .idle) := by decide
/-- 95_test_vectors.md 2.4 vector 5: 0x4001 is too long, though its low 14 bits are 1. -/
theorem test_tx_oversize :
    field (exec .tx { host .t1 with h := { HostRegs.zero with len := 0x4001 } }) (fun t => (t.regs.result, t.nerr, t.hpc))
      = some (0, 1, .idle) := by decide
/-- 95_test_vectors.md 2.6 vector 2: only bit 2 of the status counts. -/
theorem test_up_link_down :
    field (exec .up { host .u1 with link := .up, h := { HostRegs.zero with v := 0x7809 } })
      (fun t => (t.link, t.regs.result)) = some (.down, 0) := by decide
/-- 95_test_vectors.md 2.6: `Kszx08x`, 0x0005, is 10M full. -/
theorem test_up_decodes :
    field (exec .up { host .u3 with vendor := .kszx08x, h := { HostRegs.zero with v := 0x0005 } })
      (fun t => (t.h.spd, t.h.dup)) = some (false, true) := by decide
/-- 95_test_vectors.md 2.1 vector 2. -/
theorem test_regrd_ctrl : field (exec (.regrd 0) ready) (fun t => t.busData) = some 6 := by decide
/-- 95_test_vectors.md 2.1 vector 9. -/
theorem test_regrd_doorbell : field (exec (.regrd 11) ready) (fun t => t.busData) = some 0 := by decide
/-- 95_test_vectors.md 2.1 vector 7. -/
theorem test_regwr_diag :
    field (exec (.regwr 12 4) { base with regs := { Regs.zero with diag := 0x24 } }) (fun t => t.regs.diag)
      = some 0x20 := by decide
/-- 95_test_vectors.md 2.1 vector 25. -/
theorem test_regwr_mdioCtrl : field (exec (.regwr 5 0xFFFFFFFE) base) (fun t => t.regs.mdioCtrl) = some 0x001F1FF2 := by
  decide
/-- 95_test_vectors.md 2.2 sequence 1: the answer, and BUSY cleared. -/
theorem test_mdioRd_transfers :
    field (exec (.mdioRd 0 1 1) { base with phy := [⟨0, 1, 0x786D⟩], regs := { Regs.zero with mdioCtrl := 0x111 } })
      (fun t => (t.regs.mdioData, t.regs.mdioCtrl)) = some (0x786D, 0x110) := by decide
/-- 95_test_vectors.md 2.2: the control word of PHYAD 1, REGAD 31, CR 2. -/
theorem test_mdioRd_issues : field (exec (.mdioRd 1 31 2) base) (fun t => t.regs.mdioCtrl) = some 0x00011F21 := by decide
/-- 95_test_vectors.md 2.2 sequence 2: the write log, and BUSY cleared. -/
theorem test_mdioWr_transfers :
    field (exec (.mdioWr 0 0 1) { base with regs := { Regs.zero with mdioCtrl := 0x13, mdioData := 0x8000 } })
      (fun t => (t.phyLog, t.regs.mdioCtrl)) = some ([⟨0, 0, 0x8000⟩], 0x12) := by decide
/-- 95_test_vectors.md 2.2: the control word of PHYAD 31, REGAD 31, CR 7, a write. -/
theorem test_mdioWr_issues : field (exec (.mdioWr 31 31 7) base) (fun t => t.regs.mdioCtrl) = some 0x001F1F73 := by decide
/-- 95_test_vectors.md 2.4 vector 12: the release leaves 0x38000000 and index 1. -/
theorem test_txdmaSend_releases :
    field (exec (.txdmaSend 0xB8000000) (sending .qt3)) (fun t => (t.wordAt 0x20000040, t.tx.idx))
      = some (0x38000000, 1) := by decide
/-- 95_test_vectors.md 2.4 vector 7: a frame of no bytes is not put on the wire. -/
theorem test_txdmaSend_empty : field (exec (.txdmaSend 0xB8000000) (sending .qt2 2 0)) (fun t => t.wireOut) = some [] := by
  decide
/-- 95_test_vectors.md 2.4 vector 14. -/
theorem test_txdmaPark : field (exec (.txdmaPark 0) ready) (fun t => (t.tx.st, t.tx.idx)) = some (.suspended, 0) := by
  decide
/-- 95_test_vectors.md 2.5 vector 14: a whole frame of 14 bytes, no error. -/
theorem test_rxdmaFill_publishes :
    field (exec (.rxdmaFill 0x80000000) (receiving .qr4)) (fun t => (t.wordAt 0x20000000, t.rx.idx))
      = some (0x30000000, 1) := by decide
theorem test_rxdmaFill_length :
    field (exec (.rxdmaFill 0x80000000) (receiving .qr3)) (fun t => t.wordAt 0x20000004) = some 14 := by decide
/-- 95_test_vectors.md 2.5 vector 11. -/
theorem test_rxdmaMiss :
    field (exec (.rxdmaMiss 0x30000000) { receiving .qr1 with regs := { ready.regs with intStatus := 1 } })
      (fun t => (t.regs.intStatus, t.ndrop)) = some (3, 1) := by decide
/-- 95_test_vectors.md 2.5 vector 16: a frame with a CRC error is dropped. -/
theorem test_rxirq_drops :
    field (exec (.rxirq false)
        (withWord { isr .i4 with i := { IsrRegs.zero with w0 := 0x30008002 } } 0x20000000 0x30008002))
      (fun t => (t.ndrop, t.deliverLog)) = some (1, []) := by decide
/-- 45_receive_irq.md R300: after a cap hit RXC is left set. -/
theorem test_rxirq_cap :
    field (exec (.rxirq false)
        { isr .i7 with i := { IsrRegs.zero with snap := 3, cap := true }, regs := { Regs.zero with intStatus := 3 } })
      (fun t => t.regs.intStatus) = some 1 := by decide
/-- 95_test_vectors.md 2.8: status 2 enters with both enables, and does not with RXC_EN alone. -/
theorem test_rxirqRbu_enters :
    field (exec .rxirqRbu { base with regs := { Regs.zero with intStatus := 2, intEn := 3 } }) (fun t => t.inIsr)
        = some true ∧
      field (exec .rxirqRbu { base with regs := { Regs.zero with intStatus := 2, intEn := 1 } }) (fun t => t.inIsr)
        = some false := by decide
/-- The interface of the first step after reset (log 13). -/
theorem test_withFetchWord :
    field (step (State.reset.withFetchWord 32 1)) (fun t => t.hpc) = some .n0 ∧
    field (step (State.reset.withFetchWord 32 0xB0000000)) (fun t => t.tx.job) = some (some (newTxJob 0xB0000000)) := by
  decide
/-- 95_test_vectors.md 2.7. -/
theorem test_mdcSel :
    mdcSel { Cfg.test with busHz := some 38000001 } = (3, none) ∧ mdcSel Cfg.test = (1, none) ∧
    mdcSel { Cfg.test with busHz := some 769500001 } = (7, some .mdcClkHigh) ∧
    mdcSel { Cfg.test with busHz := none, mdcOverride := some 5 } = (5, none) := by decide
/-- 95_test_vectors.md 2.3: the built words of both rings' last descriptors. -/
theorem test_built_words :
    builtRxW0 4 3 = 0xC0000000 ∧ builtTxW0 4 3 = 0x40000000 ∧ slotBuf Cfg.test 0x20002000 3 = 0x2000320C := by decide

/-! ### Witnesses: the hypotheses of each obligation that has some can be met, clause by clause, at boundary values -/

theorem witness_DecodeEncodeRoundTrip :
    WellFormed .init = true ∧ WellFormed .tx = true ∧ WellFormed .up = true ∧ WellFormed (.regrd 31) = true ∧
    WellFormed (.regwr 0 0xFFFFFFFF) = true ∧ WellFormed (.mdioRd 31 31 15) = true ∧ WellFormed (.mdioWr 0 0 0) = true ∧
    WellFormed (.txdmaSend 0xB0000000) = true ∧ WellFormed (.txdmaSend 0xFFFFFFFF) = true ∧
    WellFormed (.txdmaPark 0) = true ∧ WellFormed (.txdmaPark 0x7FFFFFFF) = true ∧
    WellFormed (.rxdmaFill 0x80000000) = true ∧ WellFormed (.rxdmaFill 0xFFFFFFFF) = true ∧
    WellFormed (.rxdmaMiss 0) = true ∧ WellFormed (.rxdmaMiss 0x7FFFFFFF) = true ∧
    WellFormed (.rxirq false) = true ∧ WellFormed .rxirqRbu = true := by decide

theorem witness_MaskAndMatchSelectTheRow :
    portBytes (formatOf (.regrd 0)) ≤ [0x7C, 0, 0, 0, 0].length ∧ (rowOf (.regrd 0)).selects [0x7C, 0, 0, 0, 0] = true ∧
    portBytes (formatOf .rxirqRbu) ≤ [2].length ∧ (rowOf .rxirqRbu).selects [2] = true := by decide

theorem witness_ReservedWordsStartNothing :
    ((0 : Word) ≠ 1 ∧ (0 : Word) ≠ 2 ∧ (0 : Word) ≠ 3) ∧ ((4 : Word) ≠ 1 ∧ (4 : Word) ≠ 2 ∧ (4 : Word) ≠ 3) ∧
    (base.cfg.admissible = true ∧ base.hpc = .idle ∧ base.inIsr = false) ∧
    (0x81 : Byte).extractLsb' 0 2 ≠ 0 ∧ (0x83 : Byte).extractLsb' 0 2 ≠ 0 ∧
    (ownBit 0xA8000000 = true ∧ lsBit 0xA8000000 = false) ∧ (ownBit 0x90000000 = true ∧ fsBit 0x90000000 = false) := by
  decide

theorem witness_StepRunsTheDecodedInstruction :
    base.cfg.admissible = true ∧ decode .bus (0x6C :: leBytes 0) = .ok (.regrd 27) ∧
    (base.hpc = .idle ∧ base.inIsr = false ∧ decode .cmd (leBytes 1) = .ok .init) ∧
    decode .mdioc (leBytes (0x111 : Word)) = .ok (.mdioRd 0 1 1) ∧
    (ready.tx.st = .running ∧ ready.tx.job = none ∧
      decode .tdes (leBytes (ready.wordAt (engTxd ready ready.tx.idx 0))) = .ok (.txdmaPark 0)) ∧
    ((receiving .qr1).rx.job = some (rxJob .qr1) ∧
      decode .rdes (leBytes ((receiving .qr1).wordAt (engRxd (receiving .qr1) 0 0))) = .ok (.rxdmaFill 0x80000000)) ∧
    decode .irq [({ ready with regs := { ready.regs with intStatus := 3 } }).cause.setWidth 8] = .ok (.rxirq false) ∧
    opOf (host .t3).hpc = some .tx ∧
    ((isr .i3).inIsr = true ∧ decode .irq [(isr .i3).icause.setWidth 8] = .ok (.rxirq false)) ∧
    (sending .qt2).tx.job = some (txJob .qt2) ∧
    ((receiving .qr4).rx.job = some (rxJob .qr4) ∧ (rxJob .qr4).phase ≠ .qr1) := by decide

theorem witness_ResetMeetsTheInvariants :
    Cfg.test.admissible = true ∧ ({ Cfg.test with n := 1 }).admissible = true ∧
    ({ Cfg.test with bufSize := 64, mdioBudget := 1, rxLoopCap := 1 }).admissible = true := by decide

/-- `base` with a command to come: the state that witnesses the step-kept invariants. -/
def commanded : State := { base with moves := [.cmd 1] }

theorem witness_StepKeepsMemoryOk : MemoryOk commanded ∧ step commanded = .next { base with hpc := .n0 } :=
  ⟨⟨by decide, by decide, by decide⟩, by rfl⟩

theorem witness_StepKeepsReservedBitsZero : RegsOk commanded.regs ∧ step commanded = .next { base with hpc := .n0 } :=
  ⟨⟨by decide, by decide, by decide, by decide, by decide, by decide, by decide, by decide, by decide, by decide,
    by decide⟩, by rfl⟩

theorem witness_StepKeepsIndicesInRing : IndexOk commanded ∧ step commanded = .next { base with hpc := .n0 } :=
  ⟨⟨by decide, by decide, by decide, by decide, by decide, by decide, by decide, by decide, by decide⟩, by rfl⟩

/-- A state in which both engines have a job, about to take a step of the receive engine. -/
def busy : State :=
  { receiving .qr3 with
    tx := ⟨.running, 0, some ⟨0xB8000000, 1, 0x20002000, [7], [0], .qt1, 2⟩⟩, moves := [.rxdma 0]
    wireOut := [⟨[1], true⟩] }

theorem witness_StepKeepsEnginesOk : EnginesOk busy ∧ ∃ t, step busy = .next t ∧ t.wordAt 0x20000004 = 14 := by
  refine ⟨⟨?_, ?_, ?_⟩, _, rfl, by decide⟩
  · intro j h
    cases h
    exact ⟨by decide, by decide, by decide, by decide, by decide, by decide, by decide⟩
  · intro j h
    cases h
    exact ⟨by decide, by decide, by decide, by decide, by decide, by decide, by decide⟩
  · decide

/-- `TX` about to store a byte it has read, under WEAK, with an earlier byte outstanding. -/
def copying : State :=
  { withWord (host .t2 2) 0x20000040 0 with
    h := { HostRegs.zero with len := 2, j := 1, bufp := 0x20002000, byte := 9 }
    hostBuf := [.byte 0x20002000 8], moves := [.host] }

theorem contexts_copying : ContextsOk copying :=
  ⟨by decide, by decide, by decide, by intro b h; cases h; decide, by decide⟩

theorem stores_copying : StoresOk copying := ⟨by decide, by decide, by decide, by decide, by decide⟩

theorem witness_StepKeepsContextsOk : ContextsOk copying ∧ field (step copying) (fun t => t.hpc) = some .t2 :=
  ⟨contexts_copying, by decide⟩

theorem witness_StepKeepsLoopBounds :
    ContextsOk copying ∧ BoundsOk copying ∧ field (step copying) (fun t => t.h.j) = some 2 :=
  ⟨contexts_copying, ⟨by decide, by decide, by decide, by decide, by decide, by decide, by decide, by decide, by decide⟩,
    by decide⟩

theorem witness_StepKeepsStoresOk :
    ContextsOk copying ∧ StoresOk copying ∧ field (step copying) (fun t => t.hostBuf.length) = some 2 :=
  ⟨contexts_copying, stores_copying, by decide⟩

theorem witness_WordStoreReadsBackLittleEndian :
    (0 < 4 ∧ 3 < 4) ∧ (0x20000004 : Nat) ∉ wordAddrs 0x20000000 ∧ (0x1FFFFFFF : Nat) ∉ wordAddrs 0x20000000 := by decide

theorem witness_StoresWaitOnlyUnderWeak :
    base.cfg.memModel = .weak ∧ ({ Cfg.test with memModel := .sc }).memModel = .sc ∧ base.pending .host = [] ∧
    base.pending .isr = [] ∧ copying.pending .host = [.byte 0x20002000 8] := by decide

/-- `TX` with its pointer's load, a copy and a byte's load outstanding. -/
def loading : State :=
  { copying with hostBuf := [.load 0x20000048 .hostBufp, .copy 0x20004000 0x20002000, .load 0x20004001 .hostByte] }

theorem witness_DrainOrderDoesNotShow :
    ((loading.pending .host).filterMap Pending.fills).Nodup ∧
    (drain .host 1 loading).pending .host =
      [.load 0x20000048 .hostBufp, .byte 0x20002000 (loading.byteAt 0x20004000), .load 0x20004001 .hostByte] ∧
    (drain .host 0 loading).h.bufp = loading.wordAt 0x20000048 := ⟨by decide, by rfl, by rfl⟩

/-- `TX` in a label, its frame of two bytes at 0x20004000, with the second byte in hand. -/
def sendingFrame (l : HostLabel) (mic : Nat) (b : List Pending) : State :=
  { host l mic with
    h := { HostRegs.zero with len := 2, j := 1, buf := 0x20004000, bufp := 0x20002000 }, hostBuf := b
    tx := ⟨.running, 0, some (txJob .qt2 2 2)⟩ }

/-- The same, with word 0 of the slot as given: handed over, or released with the frame on the wire. -/
def handedOver (l : HostLabel) (w0 : Word) : State :=
  { withWord (sendingFrame l 0 []) 0x20000040 w0 with wireOut := [⟨[1], true⟩, ⟨[2, 3], true⟩] }

theorem witness_UpperAccessesAreGuarded :
    ready.cfg.admissible = true ∧ ringsLive ready = true ∧ (0x120000000 : Nat) % 2 ^ ready.cfg.addrW = 0x20000000 ∧
    (placeOf ready.cfg 0x20000000).isDesc = true ∧ (placeOf ready.cfg 0x2000007F).isDesc = true ∧
    placeHwOwned ready (placeOf ready.cfg 0x20000100) = true ∧ placeHwOwned ready (placeOf ready.cfg 0x20000703) = true ∧
    ((placeOf ready.cfg 0x20000004).isW0 = false ∧ placeHwOwned ready (placeOf ready.cfg 0x20000004) = true) ∧
    (placeOf ready.cfg 0x20000003).isW0 = true ∧
    ((placeOf ready.cfg 0x20002000).isDesc = false ∧ placeHwOwned ready (placeOf ready.cfg 0x20002000) = false) ∧
    ((placeOf ready.cfg 0x20000080).isDesc = false ∧ opOf ready.hpc ≠ some .tx ∧ ringsLive base = false) ∧
    (let s := sendingFrame .t2 2 [];
      opOf s.hpc = some .tx ∧ (placeOf s.cfg 0x20004001).isDesc = false ∧
        placeHwOwned s (placeOf s.cfg 0x20004001) = false ∧
        (frameOffset s 0x20004001 = 1 ∧ byteCopied s 1 = false ∧ byteInHand s 1 = true) ∧
        (frameOffset s 0x20004002 = 2 ∧ byteCopied s 2 = false ∧ byteInHand s 2 = false) ∧
        (frameOffset s 0x20004000 = 0 ∧ byteCopied s 0 = true ∧ addrAt s.cfg s.h.bufp 0 = 0x20002000 ∧
          s.hostBuf.any (Pending.storesByteAt 0x20002000) = false)) ∧
    (sendingFrame .t2 2 [.copy 0x20004000 0x20002000]).hostBuf.any (Pending.storesByteAt 0x20002000) = true ∧
    (let s := handedOver .t7 0xB8000000;
      opOf s.hpc = some .tx ∧ byteCopied s 0 = true ∧ s.tx.idx = s.txIdx ∧ s.tx.job = some (txJob .qt2 2 2) ∧
        (txJob .qt2 2 2).phase ≠ .qt3 ∧ (2 : Nat) ∉ (txJob .qt2 2 2).todo ∧
        frameSent { s with mem := Memory.set s.mem 0x20004000 7 } = false) ∧
    (let s := handedOver .t8 0x38000000;
      s.wireOut = [⟨[1], true⟩] ++ [⟨[2, 3], true⟩] ∧ byteCopied s 0 = true ∧
        frameSent { s with mem := Memory.set s.mem 0x20004000 7 } = true) := by decide

/-- 93_implementation_defined.md U15: a byte written in T0, before its capture, or in T8 is no definite value any more. -/
theorem test_upper_write_taints :
    field (step { sendingFrame .t0 0 [] with moves := [.store 0x20004000 7] }) (fun t => t.dirty) = some [0x20004000] ∧
    field (step { handedOver .t8 0x38000000 with moves := [.store 0x20004001 7] })
      (fun t => ((Memory.get t.mem 0x20002001).isSome, t.wireOut.map fun e => e.bytes.length, t.freeCtr)) =
        some (true, [1, 2], 2) := by decide

theorem witness_PhyAndMemorySystemMoves :
    loading.cfg.admissible = true ∧ (loading.pending .isr).length ≤ 0 ∧
    (loading.pending .host)[0]? = some (.load 0x20000048 .hostBufp) ∧
    ((loading.pending .host)[1]? = some (.copy 0x20004000 0x20002000) ∧
      ∀ q ∈ (loading.pending .host).take 1, ∀ a ∈ q.addrs, a ∉ (Pending.copy 0x20004000 0x20002000).firstAddrs) ∧
    (let s := { loading with hostBuf := [.word 0x20002000 0, .byte 0x20002003 1] };
      (s.pending .host)[1]? = some (.byte 0x20002003 1) ∧
        ∃ q ∈ (s.pending .host).take 1, ∃ a ∈ q.addrs, a ∈ (Pending.byte 0x20002003 1).firstAddrs) :=
  ⟨by decide, by decide, by decide, by decide, by decide⟩

theorem witness_FrameArrivalAndFilter :
    ready.cfg.admissible = true ∧ (List.replicate 13 (0 : Byte)).length < 14 ∧ 14 ≤ frame14.bytes.length ∧
    frame14.bytes.length ≤ ready.cfg.maxWireLen ∧ ({ Cfg.test with maxWireLen := 14 }).maxWireLen < 15 ∧
    (receiving .qr1).rx.job ≠ none ∧ (base.rx.job = none ∧ base.rx.run = .stopped) ∧
    (ready.rx.job = none ∧ ready.rx.run = .running ∧ accepts ready frame14 = true) ∧
    accepts ready ⟨List.replicate 14 0, false, false, false⟩ = false := by decide

theorem witness_RegrdReturnsEachRegister :
    (11 : BitVec 5) ∈ ([11, 14, 15, 22, 23, 24, 28, 29, 30, 31] : List (BitVec 5)) ∧
    (31 : BitVec 5) ∈ ([11, 14, 15, 22, 23, 24, 28, 29, 30, 31] : List (BitVec 5)) := by decide

theorem witness_ReservedAndReadOnlyIgnoreWrites :
    (14 : BitVec 5) ∈ ([14, 15, 22, 23, 28, 29, 30, 31] : List (BitVec 5)) ∧
    (31 : BitVec 5) ∈ ([14, 15, 22, 23, 28, 29, 30, 31] : List (BitVec 5)) ∧
    (13 : BitVec 5) ∈ ([13, 16, 17, 18, 19, 20, 21, 27] : List (BitVec 5)) ∧
    (27 : BitVec 5) ∈ ([13, 16, 17, 18, 19, 20, 21, 27] : List (BitVec 5)) := by decide

theorem witness_RegwrStoresAndClears :
    ready.regs.ctrl.getLsbD 1 = true ∧ base.regs.ctrl.getLsbD 1 = false ∧ ready.regs.ctrl.getLsbD 2 = true ∧
    base.regs.ctrl.getLsbD 2 = false := by decide

theorem witness_CtrlWrite :
    (7 : Word).getLsbD 0 = true ∧
    ((6 : Word).getLsbD 0 = false ∧ base.regs.ctrl.getLsbD 1 = false ∧ (6 : Word).getLsbD 1 = true ∧
      base.regs.ctrl.getLsbD 2 = false ∧ (6 : Word).getLsbD 2 = true) ∧
    ((0 : Word).getLsbD 0 = false ∧ ready.regs.ctrl.getLsbD 1 = true ∧ (0 : Word).getLsbD 1 = false ∧
      ready.rx.job = none ∧ (receiving .qr2).rx.job ≠ none ∧ (receiving .qr2).regs.ctrl.getLsbD 1 = true) ∧
    (ready.regs.ctrl.getLsbD 2 = true ∧ (0 : Word).getLsbD 2 = false ∧ ready.tx.job = none ∧
      (sending .qt2).tx.job ≠ none ∧ (sending .qt2).regs.ctrl.getLsbD 2 = true) ∧
    (ready.regs.ctrl.getLsbD 1 = (6 : Word).getLsbD 1 ∧ ready.regs.ctrl.getLsbD 2 = (6 : Word).getLsbD 2) := by decide

theorem witness_DoorbellWakesSuspendedEngine :
    ({ ready with tx := ⟨.suspended, 0, none⟩ }).tx.st = .suspended ∧ ready.tx.st ≠ .suspended ∧
    base.tx.st ≠ .suspended := by decide

theorem witness_CommandDispatch :
    (base.hpc = .idle ∧ base.inIsr = false ∧ base.initialized = false) ∧
    (ready.hpc = .idle ∧ ready.inIsr = false ∧ ready.initialized = true) ∧ (host .n0).hpc ≠ .idle ∧
    (host .u6).hpc ≠ .idle ∧ opOf (host .n0).hpc ≠ some .tx ∧ opOf (host .u6).hpc ≠ some .init ∧
    base.cfg.admissible = true ∧ ((isr .i0).hpc = .idle ∧ (isr .i0).inIsr = true) := by decide

theorem witness_MacResetClearsEnginesAndRegisters :
    base.cfg.admissible = true ∧ (7 : Word).getLsbD 0 = true ∧ ready.regs.ctrl.getLsbD 0 = false := by decide

/-- A transaction of PHYAD 0, REGAD 1, CR 1 in flight: a read, or a write. -/
def inFlight (w : Word) : State := { base with regs := { Regs.zero with mdioCtrl := w } }

theorem witness_MdiocTransfersThenClearsBusy :
    ((inFlight 0x111).regs.mdioCtrl.getLsbD 0 = true ∧ (inFlight 0x111).regs.mdioCtrl.getLsbD 1 = false ∧
      phyadField (inFlight 0x111).regs.mdioCtrl = 0 ∧ regadField (inFlight 0x111).regs.mdioCtrl = 1 ∧
      crField (inFlight 0x111).regs.mdioCtrl = 1) ∧
    ((inFlight 0x1F1FF3).regs.mdioCtrl.getLsbD 0 = true ∧ (inFlight 0x1F1FF3).regs.mdioCtrl.getLsbD 1 = true ∧
      phyadField (inFlight 0x1F1FF3).regs.mdioCtrl = 31 ∧ regadField (inFlight 0x1F1FF3).regs.mdioCtrl = 31 ∧
      crField (inFlight 0x1F1FF3).regs.mdioCtrl = 15) ∧
    base.cfg.phyKind = .anyPhy ∧ ({ Cfg.test with phyKind := .mockPhy }).phyKind = .mockPhy ∧
    (base.cfg.admissible = true ∧ base.regs.mdioCtrl.getLsbD 0 = false) := by decide

theorem witness_MdioControlWordStartsATransaction :
    (inFlight 1).regs.mdioCtrl.getLsbD 0 = true ∧ base.regs.mdioCtrl.getLsbD 0 = false ∧
    phyadField (inFlight 1).regs.mdioCtrl ≠ 31 ∧ (inFlight 1).regs.mdioCtrl.getLsbD 1 = false ∧
    (inFlight 3).regs.mdioCtrl.getLsbD 1 = true := by decide

/-- HOST waiting in a sub-procedure of `INIT` for a controller that is busy. -/
def waiting (sub : SubLabel) (budget : Nat) : State :=
  { host .n5 1 with hsub := sub, regs := { Regs.zero with mdioCtrl := 1 }, cfg := { Cfg.test with mdioBudget := budget } }

theorem witness_MdioProceduresTransfer :
    (let s := { host .u0 1 with hsub := .mr0, moves := [.host, .host, .host, .mdioc, .host, .host] };
      s.cfg.admissible = true ∧ hostIn .up .mr0 s ∧ s.regs.mdioCtrl.getLsbD 0 = false ∧ 1 < s.cfg.mdioBudget ∧
        s.moves = [.host, .host] ++ List.replicate 1 .host ++ [.mdioc, .host, .host] ++ []) ∧
    (let s := { host .n4 1 with hsub := .mw0, moves := [.host, .host, .host, .mdioc, .host, .host] };
      hostIn .init .mw0 s ∧ s.moves = [.host, .host, .host] ++ List.replicate 0 .host ++ [.mdioc, .host, .host] ++ []) ∧
    (hostIn .init .mw3 (waiting .mw3 2) ∧ (waiting .mw3 2).regs.mdioCtrl.getLsbD 0 = true ∧
      (waiting .mw3 2).h.polls + 1 ≠ (waiting .mw3 2).cfg.mdioBudget) :=
  ⟨⟨by decide, ⟨rfl, rfl, rfl⟩, by decide⟩, ⟨⟨rfl, rfl, rfl⟩, by decide⟩, ⟨rfl, rfl, rfl⟩, by decide⟩

theorem witness_PhyIdentRecordsIdAndVendor :
    (hostAt .n5 (host .n5 4) ∧ (host .n5 4).hmic = 4) ∧ phyIdOf 0 0 = 0 ∧ phyIdOf 0xFFFF 0xFFFF = 0xFFFFFFFF ∧
    phyIdOf 0x0007 0xC0F0 = 0x0007C0F0 ∧ phyIdOf 0 1 ≠ 0 := ⟨⟨⟨rfl, rfl, rfl⟩, rfl⟩, by decide⟩

theorem witness_VendorTables :
    Cfg.test.vendorTable = defaultVendorTable ∧ (0x0022FFFF : Word).extractLsb' 16 16 = (0x0022 : Half) ∧
    (0x2000A140 : Word).extractLsb' 16 16 = (0x2000 : Half) ∧ (0x00230000 : Word).extractLsb' 16 16 ≠ (0x0022 : Half) ∧
    (0x00230000 : Word).extractLsb' 16 16 ≠ (0x2000 : Half) := by decide

theorem witness_MdcDividerSelection :
    (Cfg.test.mdcOverride = none ∧ ({ Cfg.test with busHz := some 25000000 }).busMinHz ≤ 25000000 ∧
      Cfg.test.mdcTable.getLast? = some (324, 7) ∧ 769500000 ≤ Cfg.test.mdcCeilingHz * 324) ∧
    24999999 < Cfg.test.busMinHz ∧ ({ Cfg.test with mdcOverride := some 9 }).mdcOverride = some 9 ∧
    ({ Cfg.test with busHz := none }).busHz = none ∧ Cfg.test.mdcTable = Cfg.test.mdcTable.take 7 ++ [(324, 7)] ∧
    (∀ e ∈ Cfg.test.mdcTable, ¬ 769500001 ≤ Cfg.test.mdcCeilingHz * e.1) := by decide

theorem witness_StuckWaitsTimeOut :
    (hostIn .init .mr0 (waiting .mr0 1) ∧ isPoll .mr0 = true ∧ (waiting .mr0 1).h.polls = 0 ∧
      1 ≤ (waiting .mr0 1).cfg.mdioBudget ∧
      (waiting .mr0 1).regs.mdioCtrl.getLsbD 0 = true) ∧
    (hostIn .init .mw3 (waiting .mw3 4294967297) ∧ isPoll .mw3 = true ∧
      (waiting .mw3 4294967297).cfg.admissible = true) ∧
    (hostAt .n1 { host .n1 with regs := { Regs.zero with ctrl := 1 } } ∧ (host .n1).h.polls = 0 ∧
      1 ≤ (host .n1).cfg.resetBudget ∧ (1 : Word).getLsbD 0 = true) :=
  ⟨⟨⟨rfl, rfl, rfl⟩, by decide⟩, ⟨⟨rfl, rfl, rfl⟩, by decide⟩, ⟨rfl, rfl, rfl⟩, by decide⟩

theorem witness_InitStepsBeforeTheRings :
    (∀ l ∈ ([.n0, .n1, .n2, .n3, .n4, .n5] : List HostLabel), (host l).hsub = .off ∧ (host l).inIsr = false) ∧
    (hostAt .n1 (host .n1) ∧ (host .n1).regs.ctrl.getLsbD 0 = false) ∧
    (hostAt .n1 { host .n1 with regs := { Regs.zero with ctrl := 1 } } ∧
      (host .n1).h.polls + 1 ≠ (host .n1).cfg.resetBudget) ∧
    (hostAt .n2 { host .n2 with cfg := { Cfg.test with busHz := none } } ∧
      (mdcSel { Cfg.test with busHz := none }).2 = some .mdcClkLow) ∧
    (mdcSel { Cfg.test with busHz := some 769500001 }).2 = some .mdcClkHigh ∧ (mdcSel Cfg.test).2 = none ∧
    (hostAt .n3 { host .n3 with regs := { Regs.zero with mdioCtrl := 1 } } ∧ (1 : Word).getLsbD 0 = true) ∧
    (hostAt .n3 (host .n3) ∧ (host .n3).regs.mdioCtrl.getLsbD 0 = false) ∧
    (hostAt .n4 (host .n4 1) ∧ (host .n4 1).hmic = 1 ∧ (host .n4 1).h.ok = false) ∧
    (hostAt .n5 (host .n5 3) ∧ (host .n5 3).hmic = 3 ∧ ({ HostRegs.zero with ok := true }).ok = true) :=
  ⟨by decide, ⟨⟨rfl, rfl, rfl⟩, by decide⟩, ⟨⟨rfl, rfl, rfl⟩, by decide⟩, ⟨⟨rfl, rfl, rfl⟩, by decide⟩, by decide,
    by decide, ⟨⟨rfl, rfl, rfl⟩, by decide⟩, ⟨⟨rfl, rfl, rfl⟩, by decide⟩, ⟨⟨rfl, rfl, rfl⟩, by decide⟩, ⟨rfl, rfl, rfl⟩,
    by decide⟩

theorem witness_InitStepsFromTheRings :
    (hostAt .n6 (host .n6) ∧ (host .n6).hmic = 0 ∧ (host .n6).regs.ctrl.getLsbD 1 = false ∧
      (host .n6).cfg.rxdBase.toNat % 16 = 0) ∧
    (hostAt .n6 (host .n6 1) ∧ (host .n6 1).hmic = 1 ∧ (host .n6 1).regs.ctrl.getLsbD 2 = false ∧
      (host .n6 1).cfg.txdBase.toNat % 16 = 0) ∧
    (hostAt .n6 { host .n6 with regs := { Regs.zero with ctrl := 2 } } ∧ (2 : Word).getLsbD 1 = true) ∧
    (hostAt .n6 { host .n6 1 with regs := { Regs.zero with ctrl := 4 } } ∧ (4 : Word).getLsbD 2 = true) ∧
    (hostAt .n6 (host .n6 3) ∧ (host .n6 3).hmic = 3) ∧ (hostAt .n7 (host .n7 2) ∧ (host .n7 2).hmic = 2) ∧
    hostAt .n8 (host .n8) ∧ hostAt .n9 (host .n9) ∧
    (hostAt .n10 (host .n10) ∧ (host .n10).regs.ctrl.getLsbD 1 = false ∧ (host .n10).regs.ctrl.getLsbD 2 = false) ∧
    (hostAt .n10 { host .n10 with regs := { Regs.zero with ctrl := 6 } } ∧ (6 : Word).getLsbD 1 = true ∧
      (6 : Word).getLsbD 2 = true) ∧
    hostAt .n11 (host .n11) ∧ hostAt .n12 (host .n12) :=
  ⟨⟨⟨rfl, rfl, rfl⟩, by decide⟩, ⟨⟨rfl, rfl, rfl⟩, by decide⟩, ⟨⟨rfl, rfl, rfl⟩, by decide⟩, ⟨⟨rfl, rfl, rfl⟩, by decide⟩,
    ⟨⟨rfl, rfl, rfl⟩, by decide⟩, ⟨⟨rfl, rfl, rfl⟩, by decide⟩, ⟨rfl, rfl, rfl⟩, ⟨rfl, rfl, rfl⟩,
    ⟨⟨rfl, rfl, rfl⟩, by decide⟩, ⟨⟨rfl, rfl, rfl⟩, by decide⟩, ⟨rfl, rfl, rfl⟩, rfl, rfl, rfl⟩

theorem witness_RingBuildWritesEveryDescriptor :
    let s := { host .n6 with hsub := .b0 }
    s.cfg.admissible = true ∧ s.hpc = .n6 ∧ s.hsub = .b0 ∧ s.inIsr = false ∧ s.hmic = 0 ∧ s.h.j = 0 ∧ s.hostBuf = [] := by
  decide

theorem witness_InitBringsTheMachineUp :
    let s := { base with moves := initMoves 4 ++ [Move.load 0] }
    s.cfg.admissible = true ∧ s.hpc = .idle ∧ s.hsub = .off ∧ s.inIsr = false ∧ s.hostBuf = [] ∧
      s.moves = initMoves s.cfg.n ++ [Move.load 0] := by decide

theorem witness_TxTestsRingThenLength :
    (hostAt .t0 (host .t0) ∧ (host .t0).hostBuf = [] ∧ (host .t0).hmic = 0) ∧
    (hostAt .t0 (withWord (host .t0 2) 0x20000040 0x80000000) ∧
      ownBit ((withWord (host .t0 2) 0x20000040 0x80000000).wordAt (txd (host .t0 2) 0 0)) = true) ∧
    ownBit ((withWord (host .t0 2) 0x20000040 0x7FFFFFFF).wordAt (txd (host .t0 2) 0 0)) = false ∧
    hostAt .t1 (host .t1) ∧ (host .t1).cfg.bufSize < (1541 : Word).toNat ∧
    (1540 : Word).toNat ≤ (host .t1).cfg.bufSize :=
  ⟨⟨⟨rfl, rfl, rfl⟩, rfl, rfl⟩, ⟨⟨rfl, rfl, rfl⟩, by decide⟩, by decide, ⟨rfl, rfl, rfl⟩, by decide⟩

theorem witness_TxCopiesOneByte :
    let s := { copying with hmic := 1, hostBuf := [], h := { copying.h with buf := 0x20004000 } }
    (hostAt .t2 s ∧ s.hmic = 1 ∧ s.h.j.toNat < s.h.len.toNat ∧ addrAt s.cfg s.h.buf s.h.j.toNat = 0x20004001 ∧
      placeOf s.cfg 0x20004001 = .elsewhere ∧ s.dirty.contains 0x20004001 = false) ∧
    ({ s with dirty := [0x20004001] }).dirty.contains 0x20004001 = true ∧ placeOf s.cfg 0x20002000 = .txBuf 0 ∧
    (hostAt .t2 (withWord (host .t2) 0x20000040 0) ∧ hwOwns (withWord (host .t2) 0x20000040 0) 0x20000040 = false) ∧
    (hostAt .t2 (host .t2 1) ∧ (host .t2 1).h.len.toNat ≤ (host .t2 1).h.j.toNat) ∧
    (hostAt .t2 copying ∧ copying.hmic = 2 ∧ hwOwns copying (txd copying copying.txIdx 0) = false ∧
      ∀ p ∈ copying.hostBuf, p.fills = none) ∧
    ([.byte 0x20002000 8, .load 0x20004001 .hostByte] : List Pending) = [.byte 0x20002000 8] ++ [.load 0x20004001 .hostByte] :=
  ⟨⟨⟨rfl, rfl, rfl⟩, by decide⟩, by decide, by decide, ⟨⟨rfl, rfl, rfl⟩, by decide⟩, ⟨⟨rfl, rfl, rfl⟩, by decide⟩,
    ⟨⟨rfl, rfl, rfl⟩, by decide⟩, rfl⟩

/-- 20_memory.md R96: under WEAK a byte's load waits, and then its store with it. -/
theorem test_tx_copy_waits :
    field (exec .tx (withWord { host .t2 2 with hostBuf := [.load 5 .hostByte] } 0x20000040 0)) (fun t => t.hostBuf)
      = some [.copy 5 0] := by decide

theorem witness_TxPublishesAndCounts :
    (∀ l ∈ ([.t3, .t4, .t6] : List HostLabel),
      (withWord (host l) 0x20000040 0).hsub = .off ∧ hwOwns (withWord (host l) 0x20000040 0) (txd (host l) 0 0) = false) ∧
    hostAt .t3 (withWord (host .t3) 0x20000040 0) ∧ hostAt .t5 (host .t5) ∧
    (hostAt .t7 (host .t7 1) ∧ (host .t7 1).hmic = 1 ∧ (host .t7 1).tx.st ≠ .suspended) ∧
    (hostAt .t7 { host .t7 1 with tx := ⟨.suspended, 0, none⟩ }) ∧ hostAt .t8 (host .t8) :=
  ⟨by decide, ⟨rfl, rfl, rfl⟩, ⟨rfl, rfl, rfl⟩, ⟨⟨rfl, rfl, rfl⟩, by decide⟩, ⟨rfl, rfl, rfl⟩, rfl, rfl, rfl⟩

theorem witness_TxQueuesTheWholeFrame :
    let s := { ready with regs := { ready.regs with argBuf := 0xFFFFFFFF, argLen := 2 } }
    s.cfg.admissible = true ∧ s.hpc = .idle ∧ s.inIsr = false ∧ s.initialized = true ∧ s.hostBuf = [] ∧
      s.txIdx < s.cfg.n ∧ s.regs.argLen.toNat ≤ s.cfg.bufSize ∧ ownBit (s.wordAt (txd s s.txIdx 0)) = false ∧
      s.wordAt (txd s s.txIdx 2) = BitVec.ofNat 32 (slotBuf s.cfg s.cfg.txbufBase s.txIdx) ∧
      (∀ k, k < s.regs.argLen.toNat → placeOf s.cfg (addrAt s.cfg s.regs.argBuf k) = .elsewhere) := by decide

theorem witness_UpSteps :
    (hostAt .u0 (host .u0) ∧ (host .u0).hmic = 0) ∧ (hostAt .u0 (host .u0 1) ∧ (host .u0 1).h.ok = false) ∧
    (hostAt .u1 (host .u1) ∧ (host .u1).h.v.getLsbD (host .u1).cfg.bsrLink.toNat = false) ∧
    ((4 : Half).getLsbD (host .u1).cfg.bsrLink.toNat = true ∧ (host .u1).link = .down) ∧
    (hostAt .u2 (host .u2 1) ∧ (host .u2 1).hmic = 1 ∧ (host .u2 1).h.ok = false) ∧ hostAt .u3 (host .u3) ∧
    hostAt .u4 (host .u4) ∧ hostAt .u5 (host .u5) ∧ hostAt .u6 (host .u6) :=
  ⟨⟨⟨rfl, rfl, rfl⟩, rfl⟩, ⟨⟨rfl, rfl, rfl⟩, rfl⟩, ⟨⟨rfl, rfl, rfl⟩, by decide⟩, by decide,
    ⟨⟨rfl, rfl, rfl⟩, rfl, rfl⟩, ⟨rfl, rfl, rfl⟩, ⟨rfl, rfl, rfl⟩, ⟨rfl, rfl, rfl⟩, rfl, rfl, rfl⟩

/-- An initialized machine whose PHY shows a status word. -/
def polled (v : Half) (ms : List Move) : State := { ready with phy := [⟨0, 1, v⟩], moves := ms }

theorem witness_UpReconcilesTheLinkEdge :
    let s := polled 0x0004 (upEdgeMoves ++ [])
    s.cfg.admissible = true ∧ s.hpc = .idle ∧ s.inIsr = false ∧ s.initialized = true ∧
      s.regs.mdioCtrl.getLsbD 0 = false ∧ s.link = .down ∧
      (phyRead s s.cfg.phyAddr s.cfg.regBsr).getLsbD s.cfg.bsrLink.toNat = true ∧ s.moves = upEdgeMoves ++ [] := by decide

theorem witness_UpWithoutEdgeLeavesMaccfg :
    let s := polled 0x7809 (upPollMoves ++ [])
    s.cfg.admissible = true ∧ s.hpc = .idle ∧ s.inIsr = false ∧ s.initialized = true ∧
      s.regs.mdioCtrl.getLsbD 0 = false ∧ s.moves = upPollMoves ++ [] ∧
      (phyRead s s.cfg.phyAddr s.cfg.regBsr).getLsbD s.cfg.bsrLink.toNat = false ∧
      ({ s with link := Link.up }).link = .up := by decide

/-- A machine with a status word and an enable word. -/
def pendingIrq (status enable : Word) : State :=
  { ready with regs := { ready.regs with intStatus := status, intEn := enable } }

theorem witness_InterruptEntersExactlyWhenAsserted :
    (ready.cfg.admissible = true ∧ ready.inIsr = false) ∧ (pendingIrq 1 1).irqLine = true ∧
    (pendingIrq 2 2).irqLine = true ∧ (pendingIrq 2 1).irqLine = false := by decide

theorem witness_InterruptEntryAndReturn :
    ((pendingIrq 3 3).inIsr = false ∧ (pendingIrq 3 3).cause.getLsbD 0 = true ∧ (pendingIrq 3 3).cause.getLsbD 1 = true) ∧
    ((pendingIrq 3 1).cause.getLsbD 0 = true ∧ (pendingIrq 3 1).cause.getLsbD 1 = false) ∧
    ((pendingIrq 2 3).cause.getLsbD 0 = false ∧ (pendingIrq 2 3).cause.getLsbD 1 = true) ∧
    (∀ p ∈ copying.hostBuf ++ copying.isrBuf, p.fills = none) ∧
    (isHandler .rxirqRbu = true ∧ isrAt .i8 0 (isr .i8)) ∧
    ({ isr .i3 with hpc := .t3 }).inIsr = true ∧ opOf ({ isr .i3 with hpc := .t3 }).hpc = some .tx :=
  ⟨by decide, by decide, by decide, by decide, ⟨by decide, rfl, rfl, rfl⟩, by decide, by decide⟩

/-- ISR in an invocation with `RXD(0)` software-owned and `i.w0` as given. -/
def draining (l : IsrLabel) (mic : Nat) (w0 : Word) : State :=
  { withWord (isr l mic) 0x20000000 w0 with i := { IsrRegs.zero with w0 := w0 } }

theorem witness_RxirqDeliversGoodFramesOnly :
    (isHandler (.rxirq false) = true ∧ hwOwns (draining .i3 0 0x30000000) (rxd base 0 0) = false ∧
      isrAt .i3 0 (draining .i3 0 0x30000000)) ∧
    isrAt .i3 1 (draining .i3 1 0x30000000) ∧
    (isrAt .i4 0 (draining .i4 0 0x30000000) ∧ fsBit 0x30000000 = true ∧ lsBit 0x30000000 = true ∧
      esBit 0x30000000 = false ∧ aeBit 0x30000000 = false ∧ ceBit 0x30000000 = false ∧ leBit 0x30000000 = false) ∧
    (∀ p ∈ (draining .i4 0 0x30000000).isrBuf, p.fills = none) ∧
    ({ draining .i4 0 0x30000000 with isrBuf := [.load 4 .isrLen, .load 8 .isrBufp] }).isrBuf =
      [.load 4 .isrLen, .load 8 .isrBufp] ∧
    isrAt .i4 1 (draining .i4 1 0x30000000) ∧
    (fsBit 0x10000000 = false ∧ lsBit 0x20000000 = false ∧ esBit 0x30008000 = true ∧ aeBit 0x30000004 = true ∧
      ceBit 0x30000002 = true ∧ leBit 0x30000001 = true) :=
  ⟨⟨by decide, by decide, rfl, rfl, rfl⟩, ⟨rfl, rfl, rfl⟩, ⟨⟨rfl, rfl, rfl⟩, by decide⟩, by decide, rfl, ⟨rfl, rfl, rfl⟩,
    by decide⟩

/-- A ring of one: the re-arming store of I5 is still outstanding when I1 looks at the same descriptor. -/
def rearming : State :=
  { isr .i1 1 with
    cfg := { Cfg.test with n := 1 }, isrBuf := [.load 0x20000014 .isrLen, .word 0x20000000 0xC0000000] }

/-- 20_memory.md R97: the ownership test of I1 sees the context's own re-arming store, which is performed first. -/
theorem test_rxirq_sees_its_own_rearm :
    field (exec (.rxirq false) rearming) (fun t => (t.ipc, t.i.w0, t.isrBuf.length)) = some (.i7, 0xC0000000, 1) := by
  decide

/-- 46_link_reconciler.md R325: the poll that reaches a budget above 2^32 takes the timeout. -/
theorem test_wait_past_a_wrap_times_out :
    field (exec .init { waiting .mr2 4294967297 with h := { HostRegs.zero with kWraps := 1 } })
      (fun t => (t.hsub, t.h.ok, t.regs.diag)) = some (.off, false, 4) := by decide

theorem witness_RxirqLoopSteps :
    (isHandler .rxirqRbu = true ∧ isrAt .i0 0 (isr .i0)) ∧
    (isrAt .i1 0 { isr .i1 with i := { IsrRegs.zero with iter := 10 } } ∧ countOf 10 0 = base.cfg.rxLoopCap) ∧
    (isrAt .i1 0 (isr .i1) ∧ (isr .i1).i.iterations ≠ (isr .i1).cfg.rxLoopCap) ∧
    (isrAt .i1 1 (withWord (isr .i1 1) 0x20000000 0x80000000) ∧
      ownBit ((withWord (isr .i1 1) 0x20000000 0x80000000).wordAt (rxd base 0 0)) = true ∧
      (isr .i1 1).isrBuf.any (Pending.hits (wordAddrs (rxd base 0 0))) = false) ∧
    ownBit ((withWord (isr .i1 1) 0x20000000 0x30000000).wordAt (rxd base 0 0)) = false ∧ isrAt .i2 0 (isr .i2) ∧
    (isrAt .i1 1 rearming ∧ rearming.isrBuf = [.load 0x20000014 .isrLen] ++ [.word (rxd rearming 0 0) 0xC0000000] ∧
      ([.load 0x20000014 .isrLen] : List Pending).any (Pending.hits (wordAddrs (rxd rearming 0 0))) = false ∧
      ownBit 0xC0000000 = true) ∧
    (isrAt .i5 0 (draining .i5 0 0x30000000) ∧ hwOwns (draining .i5 0 0x30000000) (rxd base 0 0) = false) ∧
    isrAt .i5 1 (isr .i5 1) ∧ isrAt .i5 2 (draining .i5 2 0x30000000) ∧ isrAt .i6 0 (isr .i6) ∧ isrAt .i7 0 (isr .i7) :=
  ⟨⟨by decide, rfl, rfl, rfl⟩, ⟨⟨rfl, rfl, rfl⟩, by decide⟩, ⟨⟨rfl, rfl, rfl⟩, by decide⟩, ⟨⟨rfl, rfl, rfl⟩, by decide⟩,
    by decide, ⟨rfl, rfl, rfl⟩, ⟨⟨rfl, rfl, rfl⟩, by decide⟩, ⟨⟨rfl, rfl, rfl⟩, by decide⟩, ⟨rfl, rfl, rfl⟩,
    ⟨rfl, rfl, rfl⟩, ⟨rfl, rfl, rfl⟩, rfl, rfl, rfl⟩

theorem bounds_isr : BoundsOk (isr .i0) :=
  ⟨by decide, by decide, by decide, by decide, by decide, by decide, by decide, by decide, by decide⟩

theorem witness_HandlerWorkIsBounded :
    BoundsOk (isr .i0) ∧ isHandler (.rxirq false) = true ∧ (isr .i0).inIsr = true ∧
    (isr .i0).ipc ≠ .idle ∧ field (exec (.rxirq false) (isr .i0)) isrWorkLeft = some 215 ∧ isHandler (.regrd 0) = false ∧
    field (exec (.regrd 0) (isr .i0)) isrWorkLeft = some 216 ∧
    field (step { isr .i0 with moves := [.isr] }) isrWorkLeft = some 215 ∧
    field (step { isr .i0 with moves := [.phy 0 1 4] }) isrWorkLeft = some 216 :=
  ⟨bounds_isr, by decide, by decide, by decide, by decide, by decide, by decide, by decide, by decide⟩

theorem witness_RxirqDrainsOneGoodFrame :
    let s := withWord (pendingIrq 1 1) 0x20000000 0x30000000
    s.cfg.admissible = true ∧ s.inIsr = false ∧ s.hostBuf = [] ∧ s.isrBuf = [] ∧ s.cause.getLsbD 0 = true ∧
      s.rxIdx < s.cfg.n ∧ 2 ≤ s.cfg.n ∧ 2 ≤ s.cfg.rxLoopCap ∧ ownBit (s.wordAt (rxd s s.rxIdx 0)) = false ∧
      goodFrame (s.wordAt (rxd s s.rxIdx 0)) = true ∧
      ownBit (s.wordAt (rxd s ((s.rxIdx + 1) % s.cfg.n) 0)) = true := by decide

theorem witness_RxFillPhases :
    (receiving .qr1).rx.job = some (rxJob .qr1) ∧ (receiving .qr2).rx.job = some (rxJob .qr2) ∧
    ((receiving .qr2 1).rx.job = some (rxJob .qr2 1) ∧ (rxJob .qr2 1).todo ≠ [] ∧ (rxJob .qr2 1).todo.erase 3 = []) ∧
    (receiving .qr3).rx.job = some (rxJob .qr3) ∧
    ((receiving .qr4).rx.job = some (rxJob .qr4) ∧ hwOwns (receiving .qr4) (engRxd (receiving .qr4) 0 0) = true ∧
      wrapBit (rxJob .qr4).w0 = decide ((receiving .qr4).rx.idx + 1 = (receiving .qr4).cfg.n) ∧
      segLast (receiving .qr4) (rxJob .qr4) = true) ∧
    ((receiving .qr4 1).rx.job = some (rxJob .qr4 1) ∧ (rxJob .qr4 1).mic = 1) ∧
    segLast { ready with cfg := { Cfg.test with bufSize := 8 } } (rxJob .qr4) = false := by decide

theorem witness_RxFillStoresTheWholeSegment :
    let s := receiving .qr1
    s.cfg.admissible = true ∧ s.rx.job = some (rxJob .qr1) ∧ (rxJob .qr1).off < (rxJob .qr1).frame.bytes.length ∧
      hwOwns s (engRxd s s.rx.idx 0) = true ∧
      wrapBit (s.wordAt (engRxd s s.rx.idx 0)) = decide (s.rx.idx + 1 = s.cfg.n) ∧
      (∀ k, k < segLen s (rxJob .qr1) → ∀ w, w < 3 →
        addrAt s.cfg (s.wordAt (engRxd s s.rx.idx 2)) k ∉ wordAddrs (engRxd s s.rx.idx w)) ∧
      (List.replicate 18 7).length = segLen s (rxJob .qr1) + 4 := by decide

theorem witness_RxMissDropsTheFrame :
    ((receiving .qr1).rx.job = some (rxJob .qr1) ∧ (rxJob .qr1).phase = .qr1 ∧ (rxJob .qr1).first = true) ∧
    (rxJob .qr1 0 8).first = false := by decide

theorem witness_TxEnginePhases :
    (ready.tx.st = .running ∧ ready.tx.job = none) ∧ base.tx.st ≠ .running ∧ (sending .qt2).tx.job ≠ none ∧
    ((sending .qt1).tx.job = some (txJob .qt1) ∧
      (lenField ((sending .qt1).wordAt (engTxd (sending .qt1) 0 1))).toNat ≤ (sending .qt1).cfg.bufSize) ∧
    (lenField 0x604).toNat ≤ ready.cfg.bufSize ∧
    ((sending .qt1 1).tx.job = some (txJob .qt1 1) ∧ 0 < (txJob .qt1 1).len) ∧
    ((sending .qt1 2).tx.job = some (txJob .qt1 2) ∧ (txJob .qt1 2).todo ≠ [] ∧ (txJob .qt1 2).todo.erase 0 = []) ∧
    (sending .qt2 2 0).tx.job = some (txJob .qt2 2 0) ∧
    ((sending .qt3).tx.job = some (txJob .qt3) ∧ hwOwns (sending .qt3) (engTxd (sending .qt3) 0 0) = true ∧
      wrapBit (txJob .qt3).w0 = decide ((sending .qt3).tx.idx + 1 = (sending .qt3).cfg.n)) := by decide

theorem witness_TxSendEmitsTheFrame :
    let s := withWord (withWord ready 0x20000040 0xB8000000) 0x20000044 0x604
    (s.cfg.admissible = true ∧ s.tx.st = .running ∧ s.tx.job = none ∧
      0xB8000000 = s.wordAt (engTxd s s.tx.idx 0) ∧ ownBit 0xB8000000 = true ∧
      fsBit 0xB8000000 = true ∧ lsBit 0xB8000000 = true ∧ wrapBit 0xB8000000 = decide (s.tx.idx + 1 = s.cfg.n) ∧
      1540 = (lenField (s.wordAt (engTxd s s.tx.idx 1))).toNat ∧ 1540 ≤ s.cfg.bufSize) ∧
    ∃ picks : List Nat, picks.length = 1540 + 5 ∧
      ({ s with moves := picks.map Move.txdma }).moves = picks.map Move.txdma ++ [] :=
  ⟨by decide, List.replicate 1545 7, List.length_replicate, (List.append_nil _).symm⟩

theorem witness_WhereTheRunStops :
    (base.cfg.admissible = true ∧ base.moves = []) ∧ ({ Cfg.test with n := 0 }).admissible = false ∧
    (∀ l ∈ ([.t2, .t3, .t4, .t6] : List HostLabel),
      hwOwns (withWord (host l) 0x20000040 0x80000000) (txd base 0 0) = true ∧ (host l).hsub = .off) ∧
    hostAt .t2 (host .t2 2) ∧
    (let s := { copying with hmic := 1, h := { copying.h with buf := 0x2000007E } };
      s.hmic = 1 ∧ s.h.j.toNat < s.h.len.toNat ∧
        (placeOf s.cfg (addrAt s.cfg s.h.buf s.h.j.toNat)).isDesc = true) ∧
    (isHandler (.rxirq true) = true ∧ hwOwns (withWord (isr .i3) 0x20000000 0x80000000) (rxd base 0 0) = true ∧
      isrAt .i3 0 (withWord (isr .i3) 0x20000000 0x80000000) ∧ isrAt .i5 2 (isr .i5 2)) ∧
    (let s := withWord ready 0x20000040 0xA8000000;
      s.tx.st = .running ∧ s.tx.job = none ∧ ownBit (s.wordAt (engTxd s s.tx.idx 0)) = true ∧
        lsBit (s.wordAt (engTxd s s.tx.idx 0)) = false) ∧
    (let s := withWord (sending .qt1) 0x20000044 1541;
      s.tx.job = some (txJob .qt1) ∧ s.cfg.bufSize < (lenField (s.wordAt (engTxd s s.tx.idx 1))).toNat) ∧
    (let s := withWord (sending .qt3) 0x20000040 0x38000000;
      s.tx.job = some (txJob .qt3) ∧ hwOwns s (engTxd s s.tx.idx 0) = false) ∧
    (let s := { sending .qt3 with cfg := { Cfg.test with n := 1 } };
      s.tx.job = some (txJob .qt3) ∧ hwOwns s (engTxd s s.tx.idx 0) = true ∧
        wrapBit (txJob .qt3).w0 ≠ decide (s.tx.idx + 1 = s.cfg.n)) ∧
    (let s := { receiving .qr4 with cfg := { Cfg.test with n := 1 } };
      s.rx.job = some (rxJob .qr4) ∧ (rxJob .qr4).mic = 0 ∧ hwOwns s (engRxd s s.rx.idx 0) = true ∧
        wrapBit (rxJob .qr4).w0 ≠ decide (s.rx.idx + 1 = s.cfg.n)) ∧
    (let s := withWord (receiving .qr4) 0x20000000 0;
      s.rx.job = some (rxJob .qr4) ∧ (rxJob .qr4).mic = 0 ∧ hwOwns s (engRxd s s.rx.idx 0) = false) :=
  ⟨by decide, by decide, by decide, ⟨rfl, rfl, rfl⟩, by decide, ⟨by decide, by decide, ⟨rfl, rfl, rfl⟩, rfl, rfl, rfl⟩,
    by decide, by decide, by decide, by decide, by decide, by decide⟩

theorem witness_MemoryFrameOfEveryInstruction :
    (∃ t, exec .tx copying = .next t) ∧ spares (copying.hostBuf ++ copying.isrBuf ++ stores .tx copying) 0x20002002 ∧
    (∃ t, exec (.txdmaSend 0xB8000000) (sending .qt2) = .next t) ∧ (txJob .qt2).phase ≠ .qt3 ∧
    (∃ t, exec (.rxdmaMiss 0) (receiving .qr1) = .next t) :=
  ⟨⟨_, rfl⟩, by unfold spares; decide, ⟨_, rfl⟩, by decide, _, rfl⟩

theorem witness_FrameOfContractOperations :
    (ContextsOk copying ∧ StoresOk copying ∧ ∃ t, exec .tx copying = .next t) ∧
    (ContextsOk base ∧ StoresOk base ∧ ∃ t, exec .init base = .next t) ∧
    (ContextsOk (host .u6) ∧ StoresOk (host .u6) ∧ ∃ t, exec .up (host .u6) = .next t) :=
  ⟨⟨contexts_copying, stores_copying, _, rfl⟩,
    ⟨⟨by decide, by decide, by decide, by (intro b h; cases h), by decide⟩,
      ⟨by decide, by decide, by decide, by decide, by decide⟩, _, rfl⟩,
    ⟨by decide, by decide, by decide, by (intro b h; cases h; decide), by decide⟩,
    ⟨by decide, by decide, by decide, by decide, by decide⟩, _, rfl⟩

theorem witness_FrameOfAgentsBesideHost :
    (isHandler .rxirqRbu = true ∧ StoresOk (isr .i8) ∧ (isr .i8).inIsr = true ∧
      ∃ t, exec .rxirqRbu (isr .i8) = .next t) ∧
    (∃ t, exec (.regwr 0 6) base = .next t) ∧ (∃ t, exec (.mdioRd 0 1 1) (inFlight 0x111) = .next t) ∧
    (∃ t, exec (.mdioWr 0 0 1) (inFlight 0x13) = .next t) ∧
    (∃ t, exec (.rxdmaFill 0x80000000) (receiving .qr4) = .next t) ∧
    (∃ t, exec (.rxdmaMiss 0) (receiving .qr1) = .next t) ∧
    (∃ t, exec (.txdmaSend 0xB8000000) (sending .qt3) = .next t) ∧ (∃ t, exec (.txdmaPark 0) ready = .next t) :=
  ⟨⟨by decide, ⟨by decide, by decide, by decide, by decide, by decide⟩, by decide, _, rfl⟩, ⟨_, rfl⟩, ⟨_, rfl⟩, ⟨_, rfl⟩,
    ⟨_, rfl⟩, ⟨_, rfl⟩, ⟨_, rfl⟩, _, rfl⟩

end Sys2Proof.Tests
end

/-! PROOFS. The register file at the bus and after hardware reset (10_state.md R35, R53, R62). -/

namespace Sys2Proof.Machine

/-! ### Bus accesses -/

@[simp] theorem exec_regrd (no : BitVec 5) (s : State) :
    exec (.regrd no) s = .next { s with busData := regRead (regOfNumber no) s } := rfl

@[simp] theorem exec_regwr (no : BitVec 5) (v : Word) (s : State) :
    exec (.regwr no v) s = regWrite (regOfNumber no) v s := rfl

/-! ### Registers a write leaves alone -/

/-- The register numbers with no register behind them (R53). -/
def reservedNumbers : List (BitVec 5) := [14, 15, 22, 23, 28, 29, 30, 31]

/-- The numbers of the RO registers: link, counters, PHY identity, result (R35). -/
def readOnlyNumbers : List (BitVec 5) := [13, 16, 17, 18, 19, 20, 21, 27]

/-- The names of the RO registers. -/
def readOnlyRegs : List RegName :=
  [.link, .cntSent, .cntSentBytes, .cntRecv, .cntDrop, .cntErr, .phyId, .result]

theorem regOfNumber_eq_reserved_iff : ∀ no : BitVec 5, regOfNumber no = .reserved ↔ no ∈ reservedNumbers := by decide

theorem regOfNumber_mem_readOnlyRegs_iff :
    ∀ no : BitVec 5, regOfNumber no ∈ readOnlyRegs ↔ no ∈ readOnlyNumbers := by decide

@[simp] theorem regRead_reserved (s : State) : regRead .reserved s = 0 := rfl

@[simp] theorem regWrite_reserved (v : Word) (s : State) : regWrite .reserved v s = .next s := rfl

theorem regWrite_readOnly {r : RegName} (h : r ∈ readOnlyRegs) (v : Word) (s : State) : regWrite r v s = .next s := by
  simp only [readOnlyRegs, List.mem_cons, List.not_mem_nil, or_false] at h
  rcases h with rfl | rfl | rfl | rfl | rfl | rfl | rfl | rfl <;> rfl

/-- Settles O22: every number of the first list has no register behind it, every number of the second one an RO
register. -/
theorem reservedAndReadOnlyIgnoreWrites : Obligations.ReservedAndReadOnlyIgnoreWrites := by
  intro s v
  refine ⟨fun no hno => ?reserved, fun no hno => ?readOnly⟩
  case reserved =>
    have hres : regOfNumber no = .reserved := (regOfNumber_eq_reserved_iff no).2 hno
    simp [hres]
  case readOnly => exact regWrite_readOnly ((regOfNumber_mem_readOnlyRegs_iff no).2 hno) v s

/-! ### Hardware reset -/

/-- Stored registers, the registers that show the link, the counters or the PHY identity, and those that always read 0
alike. -/
theorem regRead_resetWith (r : RegName) (c : Cfg) : regRead r (State.resetWith c) = 0 := by
  cases r <;> rfl

/-- Settles O6: the registers by `regRead_resetWith`, every other piece by the field of `State.resetWith`. -/
theorem resetLeavesTheListedState : Obligations.ResetLeavesTheListedState := by
  intro c
  refine ⟨fun no => regRead_resetWith (regOfNumber no) c, ?fields⟩
  case fields => and_intros <;> rfl

end Sys2Proof.Machine

/-! PROOFS. `PHY.IDENT` (42_mdio_phy_bridge.md R220 to R223). -/

namespace Sys2Proof.Machine

/-! ### A contract operation at one of its own labels -/

/-- Inside its own operation, in no sub-procedure and no handler running, HOST does what the label says (R13, R162). -/
theorem contractOp_at_label {op : Instr} {l : HostLabel} {s : State} (hop : opOf l = some op) (hat : hostAt l s)
    (needsInit : Bool) (first : HostLabel) (label : State → Out) : contractOp op needsInit first label s = label s := by
  obtain ⟨hpc, hsub, hisr⟩ := hat
  simp [contractOp, hostStep, hpc, hop, hsub, hisr]

theorem exec_init_at_n5 {s : State} (hat : hostAt .n5 s) : exec .init s = .next (initN5 s) := by
  have hlabel : initLabel s = .next (initN5 s) := by simp [initLabel, hat.1]
  exact (contractOp_at_label rfl hat false .n0 initLabel).trans hlabel

theorem initN5_of_hmic_four {s : State} (hmic : s.hmic = 4) : initN5 s = goto .n6 (identify s) := by
  simp [initN5, hmic]

/-! ### The identity and the vendor -/

theorem phyIdOf_toNat (id1 id2 : Half) : (phyIdOf id1 id2).toNat = 2 ^ 16 * id1.toNat + id2.toNat := by
  rw [phyIdOf, BitVec.toNat_append, ← Nat.shiftLeft_add_eq_or_of_lt id2.isLt, Nat.shiftLeft_eq, Nat.mul_comm]

/-- What `PHY.IDENT` records whatever the identity is (R221, R222). -/
def recordIdentity (s : State) : State :=
  { s with
    phyId := phyIdOf s.h.id1 s.h.id2, vendor := classify s.cfg (phyIdOf s.h.id1 s.h.id2), h := { s.h with ok := true } }

theorem absentId_iff (id : Word) : absentId id = true ↔ id = 0 ∨ id = 0xFFFFFFFF := by
  simp [absentId]

/-- R223: all zeros or all ones is no PHY's identity. -/
theorem identify_of_absent {s : State} (h : phyIdOf s.h.id1 s.h.id2 = 0 ∨ phyIdOf s.h.id1 s.h.id2 = 0xFFFFFFFF) :
    identify s = raise .phyAbsent (recordIdentity s) :=
  if_pos ((absentId_iff _).2 h)

theorem identify_of_present {s : State}
    (h : ¬ (phyIdOf s.h.id1 s.h.id2 = 0 ∨ phyIdOf s.h.id1 s.h.id2 = 0xFFFFFFFF)) : identify s = recordIdentity s :=
  if_neg fun habs => h ((absentId_iff _).1 habs)

/-- Settles O31: the step is `identify` and the jump to N6. Whatever the identity, `recordIdentity` records it; only the
registers and events depend on whether it is one that no PHY has. -/
theorem phyIdentRecordsIdAndVendor : Obligations.PhyIdentRecordsIdAndVendor := by
  intro s hat hmic
  have hstep : exec .init s = .next (goto .n6 (identify s)) := by rw [exec_init_at_n5 hat, initN5_of_hmic_four hmic]
  have hvalue := phyIdOf_toNat s.h.id1 s.h.id2
  by_cases hid : phyIdOf s.h.id1 s.h.id2 = 0 ∨ phyIdOf s.h.id1 s.h.id2 = 0xFFFFFFFF
  case pos =>
    rw [identify_of_absent hid] at hstep
    exact ⟨_, hstep, hvalue, rfl, rfl, rfl, fun _ => ⟨rfl, rfl⟩, fun hzero hones => (hid.elim hzero hones).elim, rfl⟩
  case neg =>
    rw [identify_of_present hid] at hstep
    exact ⟨_, hstep, hvalue, rfl, rfl, rfl, fun habs => absurd habs hid, fun _ _ => ⟨rfl, rfl⟩, rfl⟩

end Sys2Proof.Machine

/-! PROOFS. The doorbell and the receive overrun (43_ring_ownership.md R249, R253). -/

namespace Sys2Proof.Machine

/-! ### The doorbell -/

theorem exec_regwr_doorbell (v : Word) (s : State) : exec (.regwr 11 v) s = .next (doorbell s) := rfl

theorem doorbell_of_suspended {s : State} (h : s.tx.st = .suspended) :
    doorbell s = { s with tx := { s.tx with st := .running } } :=
  if_pos h

theorem doorbell_of_not_suspended {s : State} (h : s.tx.st ≠ .suspended) : doorbell s = s :=
  if_neg h

/-- Settles O25: the written value never reaches `doorbell`, which asks only whether TXDMA is Suspended. -/
theorem doorbellWakesSuspendedEngine : Obligations.DoorbellWakesSuspendedEngine := by
  intro s v
  rw [exec_regwr_doorbell]
  refine ⟨fun hsusp => ?wakes, fun hother => ?nothing⟩
  case wakes => rw [doorbell_of_suspended hsusp]
  case nothing => rw [doorbell_of_not_suspended hother]

/-! ### The receive overrun -/

/-- The overrun is counted, not sticky: its event has no DIAG bit. -/
theorem raise_rxOverrun (s : State) : raise .rxOverrun s = { s with events := s.events ++ [.rxOverrun] } := by
  simp [raise, diagBits]

/-- What every overrun does before the reception ends, RXC aside (R249). -/
def countOverrun (s : State) : State :=
  { s with
    regs := { s.regs with intStatus := s.regs.intStatus ||| rbuWord }
    ndrop := counterAdd s.cfg s.ndrop 1
    events := s.events ++ [.rxOverrun] }

theorem overrun_eq (j : RxJob) (s : State) :
    overrun j s = endReception (if j.first then countOverrun s else setIntStatus rxcWord (countOverrun s)) := by
  simp only [overrun, raise_rxOverrun]
  rfl

theorem exec_rxdmaMiss (w0 : Word) (s : State) : exec (.rxdmaMiss w0) s = execRxdmaMiss w0 s := rfl

/-- A poll that finds the descriptor software-owned drops the frame at once (R248, R249). -/
theorem exec_rxdmaMiss_at_poll {s : State} {j : RxJob} (hjob : s.rx.job = some j) (hpoll : j.phase = .qr1) (w0 : Word) :
    exec (.rxdmaMiss w0) s = .next (overrun j s) := by
  simp [exec_rxdmaMiss, execRxdmaMiss, hjob, hpoll]

/-- Settles O54: the micro-step is `overrun`. Of a frame's first segment nothing was handed over, so RXC is left alone;
of a later one, RXC is set on top of RBU. -/
theorem rxMissDropsTheFrame : Obligations.RxMissDropsTheFrame := by
  intro s j w0 hjob hpoll
  rw [exec_rxdmaMiss_at_poll hjob hpoll, overrun_eq]
  cases hfirst : j.first
  case true => simp [countOverrun, endReception, rbuWord, counterAdd, rxenBit]
  case false => simp [countOverrun, endReception, setIntStatus, rbuWord, rxcWord, counterAdd, rxenBit]

end Sys2Proof.Machine

/-! PROOFS. `MDCSEL`, the MDC divider selector (47_mdc_divider.md R330 to R336). -/

namespace Sys2Proof.Machine

/-! ### The slowest code and the divisor's test -/

theorem slowestCode_of_append_singleton {c : Cfg} {pre : List (Nat × BitVec 4)} {d : Nat} {k : BitVec 4}
    (h : c.mdcTable = pre ++ [(d, k)]) : slowestCode c = k := by
  simp [slowestCode, h]

@[simp] theorem divisorOk_iff (c : Cfg) (hz : Nat) (e : Nat × BitVec 4) :
    divisorOk c hz e = true ↔ hz ≤ c.mdcCeilingHz * e.1 :=
  decide_eq_true_iff

/-! ### One equation per rule of the selector -/

/-- R331. -/
theorem mdcSel_of_override {c : Cfg} {code : BitVec 4} (h : c.mdcOverride = some code) : mdcSel c = (code, none) := by
  simp [mdcSel, h]

/-- R332: the clock is unknown. -/
theorem mdcSel_of_busHz_none {c : Cfg} (hov : c.mdcOverride = none) (hhz : c.busHz = none) :
    mdcSel c = (slowestCode c, some .mdcClkLow) := by
  simp [mdcSel, hov, hhz]

/-- R332: the clock is too low. -/
theorem mdcSel_of_busHz_lt {c : Cfg} {hz : Nat} (hov : c.mdcOverride = none) (hhz : c.busHz = some hz)
    (hlow : hz < c.busMinHz) : mdcSel c = (slowestCode c, some .mdcClkLow) := by
  simp [mdcSel, hov, hhz, hlow]

/-- R333. -/
theorem mdcSel_of_find?_eq_some {c : Cfg} {hz : Nat} {e : Nat × BitVec 4} (hov : c.mdcOverride = none)
    (hhz : c.busHz = some hz) (hmin : c.busMinHz ≤ hz) (hfind : c.mdcTable.find? (divisorOk c hz) = some e) :
    mdcSel c = (e.2, none) := by
  simp [mdcSel, hov, hhz, hmin.not_gt, hfind]

/-- R334. -/
theorem mdcSel_of_find?_eq_none {c : Cfg} {hz : Nat} (hov : c.mdcOverride = none) (hhz : c.busHz = some hz)
    (hmin : c.busMinHz ≤ hz) (hfind : c.mdcTable.find? (divisorOk c hz) = none) :
    mdcSel c = (slowestCode c, some .mdcClkHigh) := by
  simp [mdcSel, hov, hhz, hmin.not_gt, hfind]

/-! ### The scan -/

theorem find?_divisorOk_eq_some_iff (c : Cfg) (hz : Nat) (e : Nat × BitVec 4) :
    c.mdcTable.find? (divisorOk c hz) = some e ↔
      hz ≤ c.mdcCeilingHz * e.1 ∧
        ∃ pre post, c.mdcTable = pre ++ e :: post ∧ ∀ f ∈ pre, ¬ hz ≤ c.mdcCeilingHz * f.1 := by
  simp only [List.find?_eq_some_iff_append, Bool.not_eq_true', ← Bool.not_eq_true, divisorOk_iff]

theorem find?_divisorOk_eq_none_iff (c : Cfg) (hz : Nat) :
    c.mdcTable.find? (divisorOk c hz) = none ↔ ∀ e ∈ c.mdcTable, ¬ hz ≤ c.mdcCeilingHz * e.1 := by
  simp only [List.find?_eq_none, divisorOk_iff]

/-- The scan cannot miss while the table's last entry meets the ceiling. -/
theorem exists_find?_divisorOk_of_getLast? {c : Cfg} {hz d : Nat} {k : BitVec 4}
    (hlast : c.mdcTable.getLast? = some (d, k)) (hmax : hz ≤ c.mdcCeilingHz * d) :
    ∃ e, c.mdcTable.find? (divisorOk c hz) = some e := by
  have hmeets : divisorOk c hz (d, k) = true := (divisorOk_iff c hz (d, k)).2 hmax
  exact Option.isSome_iff_exists.1 (List.find?_isSome.2 ⟨(d, k), List.mem_of_getLast? hlast, hmeets⟩)

/-- Settles O33: one equation of `mdcSel` per rule. In the supported range the last entry meets the ceiling, so the scan
finds an entry, and `find?` returns the first one. -/
theorem mdcDividerSelection : Obligations.MdcDividerSelection := by
  refine ⟨fun c hz d k hov hhz hmin hlast hmax => ?scan, fun c => ⟨?slowest, ?override, ?unknown, ?low, ?high⟩⟩
  case scan =>
    obtain ⟨e, hfind⟩ := exists_find?_divisorOk_of_getLast? hlast hmax
    obtain ⟨hmeets, pre, post, htable, hfirst⟩ := (find?_divisorOk_eq_some_iff c hz e).1 hfind
    exact ⟨pre, e, post, htable, mdcSel_of_find?_eq_some hov hhz hmin hfind, hmeets, hfirst⟩
  case slowest => exact fun _ _ _ => slowestCode_of_append_singleton
  case override => exact fun _ => mdcSel_of_override
  case unknown => exact mdcSel_of_busHz_none
  case low => exact fun _ => mdcSel_of_busHz_lt
  case high =>
    intro hz hov hhz hmin hnone
    exact mdcSel_of_find?_eq_none hov hhz hmin ((find?_divisorOk_eq_none_iff c hz).2 hnone)

end Sys2Proof.Machine

/-! PROOFS. The encoder and the decoder (30_encoding.md R120 to R139). -/

namespace Sys2Proof.Machine

/-! ### The fields of an MDIO control word (30_encoding.md R136) -/

@[simp] theorem busyBit_mdioWord (pa ra : BitVec 5) (cr : BitVec 4) (wr : Bool) :
    busyBit (mdioWord pa ra cr wr) = true := by
  cases wr <;> simp [busyBit, mdioWord, flagWord]

@[simp] theorem writeBit_mdioWord (pa ra : BitVec 5) (cr : BitVec 4) (wr : Bool) :
    writeBit (mdioWord pa ra cr wr) = wr := by
  cases wr <;> simp [writeBit, mdioWord, flagWord]

/-- The bits of a control word above BUSY and WRITE come from its three fields. -/
theorem getLsbD_mdioWord {n : Nat} (low : 2 ≤ n) (high : n < 32) (pa ra : BitVec 5) (cr : BitVec 4) (wr : Bool) :
    (mdioWord pa ra cr wr).getLsbD n =
      ((decide (16 ≤ n) && pa.getLsbD (n - 16)) || (decide (8 ≤ n) && ra.getLsbD (n - 8)) ||
        (decide (4 ≤ n) && cr.getLsbD (n - 4))) := by
  have flags : (flagWord wr 2 ||| 1).getLsbD n = false := by
    cases wr <;> (clear pa ra cr; revert n; decide)
  rw [mdioWord, BitVec.or_assoc, BitVec.getLsbD_or, flags]
  simp [high]
  grind

@[simp] theorem phyadField_mdioWord (pa ra : BitVec 5) (cr : BitVec 4) (wr : Bool) :
    phyadField (mdioWord pa ra cr wr) = pa := by
  apply BitVec.eq_of_getLsbD_eq
  intro n hn
  rw [phyadField, BitVec.getLsbD_extractLsb', getLsbD_mdioWord (by omega) (by omega)]
  simp [hn, show 8 ≤ 16 + n by omega, show 4 ≤ 16 + n by omega, BitVec.getLsbD_of_ge ra (16 + n - 8) (by omega),
    BitVec.getLsbD_of_ge cr (16 + n - 4) (by omega)]

@[simp] theorem regadField_mdioWord (pa ra : BitVec 5) (cr : BitVec 4) (wr : Bool) :
    regadField (mdioWord pa ra cr wr) = ra := by
  apply BitVec.eq_of_getLsbD_eq
  intro n hn
  rw [regadField, BitVec.getLsbD_extractLsb', getLsbD_mdioWord (by omega) (by omega)]
  simp [hn, show ¬ 16 ≤ 8 + n by omega, show 4 ≤ 8 + n by omega, BitVec.getLsbD_of_ge cr (8 + n - 4) (by omega)]

@[simp] theorem crField_mdioWord (pa ra : BitVec 5) (cr : BitVec 4) (wr : Bool) :
    crField (mdioWord pa ra cr wr) = cr := by
  apply BitVec.eq_of_getLsbD_eq
  intro n hn
  rw [crField, BitVec.getLsbD_extractLsb', getLsbD_mdioWord (by omega) (by omega)]
  simp [hn, show ¬ 16 ≤ 4 + n by omega, show ¬ 8 ≤ 4 + n by omega]

/-! ### What each format's decoder reads from bytes -/

/-- A word laid out in bytes is read as that word, at each port of one word. -/
@[simp] theorem decode_cmd_leBytes (w : Word) : decode .cmd (leBytes w) = decodeCmd w :=
  congrArg decodeCmd (leWord_byteOf w)

@[simp] theorem decode_mdioc_leBytes (w : Word) : decode .mdioc (leBytes w) = decodeMdioc w :=
  congrArg decodeMdioc (leWord_byteOf w)

@[simp] theorem decode_tdes_leBytes (w : Word) : decode .tdes (leBytes w) = decodeTdes w :=
  congrArg decodeTdes (leWord_byteOf w)

@[simp] theorem decode_rdes_leBytes (w : Word) : decode .rdes (leBytes w) = decodeRdes w :=
  congrArg decodeRdes (leWord_byteOf w)

@[simp] theorem decode_bus_leBytes (sel : Byte) (w : Word) : decode .bus (sel :: leBytes w) = decodeBus sel w :=
  congrArg (decodeBus sel) (leWord_byteOf w)

@[simp] theorem decode_irq_setWidth (cause : BitVec 2) : decode .irq [cause.setWidth 8] = decodeIrq cause := by
  revert cause; decide

/-! ### Decoding an encoding -/

theorem decodeMdioc_mdioWord (pa ra : BitVec 5) (cr : BitVec 4) (wr : Bool) :
    decodeMdioc (mdioWord pa ra cr wr) = .ok (if wr then .mdioWr pa ra cr else .mdioRd pa ra cr) := by
  cases wr <;> simp [decodeMdioc]

theorem busSelector_fields : ∀ (we : Bool) (reg : BitVec 5),
    (busSelector we reg).extractLsb' 0 2 = 0 ∧ (busSelector we reg).getLsbD 7 = we ∧
      (busSelector we reg).extractLsb' 2 5 = reg := by
  decide

theorem decodeBus_busSelector (we : Bool) (reg : BitVec 5) (data : Word) :
    decodeBus (busSelector we reg) data = .ok (if we then .regwr reg data else .regrd reg) := by
  obtain ⟨aligned, hwe, hreg⟩ := busSelector_fields we reg
  rw [decodeBus, if_pos aligned, hwe, hreg]
  cases we <;> rfl

/-- Settles O1: by the row of the instruction; an engine's word has the fixed bits its row needs by `WellFormed`. -/
theorem decodeEncodeRoundTrip : Obligations.DecodeEncodeRoundTrip := by
  intro i wf
  cases i with
  | init => decide
  | tx => decide
  | up => decide
  | regrd reg => exact (decode_bus_leBytes _ 0).trans (decodeBus_busSelector false reg 0)
  | regwr reg value => exact (decode_bus_leBytes _ value).trans (decodeBus_busSelector true reg value)
  | mdioRd pa ra cr => exact (decode_mdioc_leBytes _).trans (decodeMdioc_mdioWord pa ra cr false)
  | mdioWr pa ra cr => exact (decode_mdioc_leBytes _).trans (decodeMdioc_mdioWord pa ra cr true)
  | txdmaSend w0 =>
    simp only [WellFormed, Bool.and_eq_true] at wf
    simp [formatOf, encode, decodeTdes, wf]
  | txdmaPark w0 => simp_all [formatOf, encode, decodeTdes, WellFormed]
  | rxdmaFill w0 => simp_all [formatOf, encode, decodeRdes, WellFormed]
  | rxdmaMiss w0 => simp_all [formatOf, encode, decodeRdes, WellFormed]
  | rxirq rbu => cases rbu <;> decide
  | rxirqRbu => decide

/-! ### Mask and match -/

/-- Where a word is presented whole, the bytes presented hold it first. -/
theorem exists_word_of_length {bytes : List Byte} (h : 4 ≤ bytes.length) :
    ∃ b0 b1 b2 b3 rest, bytes = b0 :: b1 :: b2 :: b3 :: rest := by
  match bytes, h with
  | b0 :: b1 :: b2 :: b3 :: rest, _ => exact ⟨b0, b1, b2, b3, rest, rfl⟩

/-- OWN, FS and LS as a mask select the words with all three bits. -/
theorem and_send_mask_iff (w : Word) :
    w &&& 0xB0000000 = 0xB0000000 ↔ ownBit w = true ∧ fsBit w = true ∧ lsBit w = true := by
  rw [and_own_fs_ls]
  cases ownBit w <;> cases fsBit w <;> cases lsBit w <;> decide

theorem and_own_eq_zero_iff (w : Word) : w &&& 0x80000000 = 0 ↔ ownBit w = false := by
  rw [and_own]; cases ownBit w <;> decide

theorem and_own_eq_self_iff (w : Word) : w &&& 0x80000000 = 0x80000000 ↔ ownBit w = true := by
  rw [and_own]; cases ownBit w <;> decide

/-- BUSY and WRITE, as a mask. -/
theorem and_busy_write (w : Word) : w &&& 3 = flagWord (writeBit w) 2 ||| flagWord (busyBit w) 1 := by
  have e : (3 : Word) = 2 ||| 1 := by decide
  rw [e, BitVec.and_or_distrib_left, and_bit w 2 1 (by decide), and_bit w 1 0 (by decide)]
  rfl

/-- The rows of format CMD: the whole word is fixed. -/
theorem cmd_row_iff (j : Instr) (hj : formatOf j = .cmd) (w : Word) :
    w &&& (rowOf j).mask = (rowOf j).pattern ↔ ∃ i, decodeCmd w = .ok i ∧ rowOf i = rowOf j := by
  have all : w &&& 0xFFFFFFFF = w := BitVec.and_allOnes
  cases j <;> simp only [formatOf, reduceCtorEq] at hj <;> simp only [rowOf, all, decodeCmd]
  all_goals
    constructor
    · rintro rfl; simp
    · rintro ⟨i, hi, hrow⟩
      by_contra hne
      split_ifs at hi <;> (cases hi; simp_all)

/-- The rows of format BUS: WE and the two bits that must be 0. -/
theorem bus_row_iff (j : Instr) (hj : formatOf j = .bus) (sel : Byte) (data : Word) :
    sel.setWidth 32 &&& (rowOf j).mask = (rowOf j).pattern ↔ ∃ i, decodeBus sel data = .ok i ∧ rowOf i = rowOf j := by
  have mask : ∀ sel : Byte, (sel.setWidth 32 &&& (0x83 : Word) = 0x00 ↔
        sel.extractLsb' 0 2 = 0 ∧ sel.getLsbD 7 = false) ∧
      (sel.setWidth 32 &&& (0x83 : Word) = 0x80 ↔ sel.extractLsb' 0 2 = 0 ∧ sel.getLsbD 7 = true) := by decide
  obtain ⟨hrd, hwr⟩ := mask sel
  unfold decodeBus
  cases j <;> simp only [formatOf, reduceCtorEq] at hj <;> simp only [rowOf, hrd, hwr]
  all_goals
    by_cases aligned : sel.extractLsb' 0 2 = 0
    · rw [if_pos aligned]; cases sel.getLsbD 7 <;> simp [aligned]
    · rw [if_neg aligned]; simp only [aligned]; simp

/-- The rows of format MDIOC: BUSY and WRITE. -/
theorem mdioc_row_iff (j : Instr) (hj : formatOf j = .mdioc) (w : Word) :
    w &&& (rowOf j).mask = (rowOf j).pattern ↔ ∃ i, decodeMdioc w = .ok i ∧ rowOf i = rowOf j := by
  cases j <;> simp only [formatOf, reduceCtorEq] at hj <;> simp only [rowOf, and_busy_write, decodeMdioc]
  all_goals cases busyBit w <;> cases writeBit w <;> simp [flagWord]

/-- The rows of format TDES: OWN, and with OWN set FS and LS. -/
theorem tdes_row_iff (j : Instr) (hj : formatOf j = .tdes) (w : Word) :
    w &&& (rowOf j).mask = (rowOf j).pattern ↔ ∃ i, decodeTdes w = .ok i ∧ rowOf i = rowOf j := by
  cases j <;> simp only [formatOf, reduceCtorEq] at hj <;>
    simp only [rowOf, and_send_mask_iff, and_own_eq_zero_iff, decodeTdes]
  all_goals cases ownBit w <;> cases fsBit w <;> cases lsBit w <;> simp

/-- The rows of format RDES: OWN. -/
theorem rdes_row_iff (j : Instr) (hj : formatOf j = .rdes) (w : Word) :
    w &&& (rowOf j).mask = (rowOf j).pattern ↔ ∃ i, decodeRdes w = .ok i ∧ rowOf i = rowOf j := by
  cases j <;> simp only [formatOf, reduceCtorEq] at hj <;>
    simp only [rowOf, and_own_eq_self_iff, and_own_eq_zero_iff, decodeRdes]
  all_goals cases ownBit w <;> simp

/-- The rows of format IRQ: bit 0, and where it is clear bit 1. -/
theorem irq_row_iff (j : Instr) (hj : formatOf j = .irq) (cause : BitVec 2) :
    cause.setWidth 32 &&& (rowOf j).mask = (rowOf j).pattern ↔ ∃ i, decodeIrq cause = .ok i ∧ rowOf i = rowOf j := by
  have mask : ∀ c : BitVec 2, (c.setWidth 32 &&& (0x1 : Word) = 0x1 ↔ c.getLsbD 0 = true) ∧
      (c.setWidth 32 &&& (0x3 : Word) = 0x2 ↔ c.getLsbD 0 = false ∧ c.getLsbD 1 = true) := by decide
  obtain ⟨hrx, hrbu⟩ := mask cause
  cases j <;> simp only [formatOf, reduceCtorEq] at hj <;> simp only [rowOf, hrx, hrbu, decodeIrq]
  all_goals cases cause.getLsbD 0 <;> cases cause.getLsbD 1 <;> simp

/-- Settles O2: by the format, each with its own `_row_iff`. -/
theorem maskAndMatchSelectTheRow : Obligations.MaskAndMatchSelectTheRow := by
  intro j bytes hlen
  have hformat : (rowOf j).format = formatOf j := by cases j <;> rfl
  simp only [Row.selects, decide_eq_true_eq, hformat]
  cases hf : formatOf j <;> rw [hf] at hlen
  case cmd =>
    obtain ⟨b0, b1, b2, b3, rest, rfl⟩ := exists_word_of_length hlen
    exact cmd_row_iff j hf _
  case bus =>
    match bytes, hlen with
    | sel :: b0 :: b1 :: b2 :: b3 :: rest, _ => exact bus_row_iff j hf sel _
  case mdioc =>
    obtain ⟨b0, b1, b2, b3, rest, rfl⟩ := exists_word_of_length hlen
    exact mdioc_row_iff j hf _
  case tdes =>
    obtain ⟨b0, b1, b2, b3, rest, rfl⟩ := exists_word_of_length hlen
    exact tdes_row_iff j hf _
  case rdes =>
    obtain ⟨b0, b1, b2, b3, rest, rfl⟩ := exists_word_of_length hlen
    exact rdes_row_iff j hf _
  case irq =>
    match bytes, hlen with
    | cause :: rest, _ => exact irq_row_iff j hf _

/-- Settles O3: each word is a literal, so the decoder is evaluated on it. -/
theorem writtenOutWordsDecode : Obligations.WrittenOutWordsDecode := by
  refine ⟨?init, ?tx, ?up, ?regrd, ?regwr, ?mdioRd, ?mdioWr, ?send, ?park, ?fill, ?miss, ?rxirq, ?rxirqBoth, ?rbu⟩ <;>
    decide

end Sys2Proof.Machine

/-! PROOFS. One step of the machine: what a move runs, and the words that start nothing (00_scope.md R10, R12,
30_encoding.md R120, R139). -/

namespace Sys2Proof.Machine

/-! ### What a step answers -/

/-- What running the thing fetched answers. -/
def Fetched.outcome : Fetched → Out
  | .run i s => exec i s
  | .done o => o

@[simp] theorem Fetched.outcome_run (i : Instr) (s : State) : (Fetched.run i s).outcome = exec i s := rfl

@[simp] theorem Fetched.outcome_done (o : Out) : (Fetched.done o).outcome = o := rfl

theorem step_eq (s : State) : step s = admitted s.cfg (fetch s).outcome := by
  unfold step; cases fetch s <;> rfl

theorem admitted_of_admissible {c : Cfg} (ha : c.admissible = true) (o : Out) : admitted c o = o := if_pos ha

/-- With no move left no agent acts (log 1). -/
theorem step_of_moves_nil {s : State} (ha : s.cfg.admissible = true) (hm : s.moves = []) : step s = .next s := by
  rw [step_eq, admitted_of_admissible ha]; simp [fetch, hm]

/-- A step takes the head of the list of moves and runs what it fetches. -/
theorem step_of_moves_cons {s : State} (ha : s.cfg.admissible = true) {m : Move} {ms : List Move}
    (hm : s.moves = m :: ms) : step s = (fetchMove m (s.withMoves ms)).outcome := by
  rw [step_eq, admitted_of_admissible ha]; simp [fetch, hm, State.withMoves]

theorem step_withMoves_cons {s : State} (ha : s.cfg.admissible = true) (m : Move) (ms : List Move) :
    step (s.withMoves (m :: ms)) = (fetchMove m (s.withMoves ms)).outcome :=
  step_of_moves_cons (s := s.withMoves (m :: ms)) ha rfl

/-! ### What each move fetches -/

theorem fetchMove_bus {sel : Byte} {data : Word} {i : Instr} (h : decodeBus sel data = .ok i) (s : State) :
    fetchMove (.bus sel data) s = .run i s := by simp [fetchMove, h]

theorem fetchMove_bus_bad {sel : Byte} {data : Word} {e : DecodeError} (h : decodeBus sel data = .bad e) (s : State) :
    fetchMove (.bus sel data) s = .done (.refused .misalignedSelector) := by simp [fetchMove, h]

/-- The calling rule comes before the word (40_driver_contract.md R162). -/
theorem fetchMove_cmd_refused {s : State} {r : Refusal} (h : commandGate s = some r) (w : Word) :
    fetchMove (.cmd w) s = .done (.refused r) := by simp [fetchMove, fetchCmd, h]

theorem fetchMove_cmd {s : State} (h : commandGate s = none) {w : Word} {i : Instr} (hw : decodeCmd w = .ok i) :
    fetchMove (.cmd w) s = .run i s := by simp [fetchMove, fetchCmd, h, hw]

theorem fetchMove_cmd_bad {s : State} (h : commandGate s = none) {w : Word} {e : DecodeError}
    (hw : decodeCmd w = .bad e) : fetchMove (.cmd w) s = .done (badCommand s) := by simp [fetchMove, fetchCmd, h, hw]

theorem fetchMove_mdioc {s : State} {i : Instr} (h : decodeMdioc s.regs.mdioCtrl = .ok i) :
    fetchMove .mdioc s = .run i s := by simp [fetchMove, h]

theorem fetchMove_mdioc_bad {s : State} {e : DecodeError} (h : decodeMdioc s.regs.mdioCtrl = .bad e) :
    fetchMove .mdioc s = .done (.next s) := by simp [fetchMove, h]

theorem fetchMove_host {s : State} {i : Instr} (h : opOf s.hpc = some i) : fetchMove .host s = .run i s := by
  simp [fetchMove, h]

theorem fetchMove_isr_inside {s : State} (hi : s.inIsr = true) {i : Instr} (h : decodeIrq s.icause = .ok i) :
    fetchMove .isr s = .run i s := by simp [fetchMove, fetchIsr, hi, h]

theorem fetchMove_isr_outside {s : State} (hi : s.inIsr = false) {i : Instr} (h : decodeIrq s.cause = .ok i) :
    fetchMove .isr s = .run i s := by simp [fetchMove, fetchIsr, hi, h]

theorem fetchMove_isr_bad {s : State} (hi : s.inIsr = false) {e : DecodeError} (h : decodeIrq s.cause = .bad e) :
    fetchMove .isr s = .done (.next s) := by simp [fetchMove, fetchIsr, hi, h]

/-- An engine's move first records its pick (log 1). -/
theorem fetchMove_txdma_poll {s : State} (hst : s.tx.st = .running) (hjob : s.tx.job = none) {i : Instr}
    (h : decodeTdes (s.wordAt (engTxd s s.tx.idx 0)) = .ok i) (pick : Nat) :
    fetchMove (.txdma pick) s = .run i { s with choice := pick } := by
  have e : ({ s with choice := pick } : State).wordAt (engTxd s s.tx.idx 0) = s.wordAt (engTxd s s.tx.idx 0) := rfl
  simp_all [fetchMove, fetchTxdma, txMayPoll, engTxd]

theorem fetchMove_txdma_job {s : State} {j : TxJob} (hjob : s.tx.job = some j) (pick : Nat) :
    fetchMove (.txdma pick) s = .run (.txdmaSend j.w0) { s with choice := pick } := by
  simp [fetchMove, fetchTxdma, hjob]

theorem fetchMove_rxdma_poll {s : State} {j : RxJob} (hjob : s.rx.job = some j) (hpoll : j.phase = .qr1) {i : Instr}
    (h : decodeRdes (s.wordAt (engRxd s s.rx.idx 0)) = .ok i) (pick : Nat) :
    fetchMove (.rxdma pick) s = .run i { s with choice := pick } := by
  have e : ({ s with choice := pick } : State).wordAt (engRxd s s.rx.idx 0) = s.wordAt (engRxd s s.rx.idx 0) := rfl
  simp_all [fetchMove, fetchRxdma, engRxd]

theorem fetchMove_rxdma_job {s : State} {j : RxJob} (hjob : s.rx.job = some j) (hphase : j.phase ≠ .qr1)
    (pick : Nat) : fetchMove (.rxdma pick) s = .run (.rxdmaFill j.w0) { s with choice := pick } := by
  simp [fetchMove, fetchRxdma, hjob, hphase]

/-- Settles O5: one port after the other, each by what its move fetches. -/
theorem stepRunsTheDecodedInstruction : Obligations.StepRunsTheDecodedInstruction := by
  intro s ms i ha
  simp only [decode_bus_leBytes, decode_cmd_leBytes, decode_mdioc_leBytes, decode_tdes_leBytes, decode_rdes_leBytes,
    decode_irq_setWidth, step_withMoves_cons ha]
  refine ⟨fun sel data h => ?bus, fun w hpc hisr h => ?cmd, fun h => ?mdioc, fun p hst hjob h => ?tdes,
    fun p j hjob hpoll h => ?rdes, fun hisr h => ?irq, fun h => ?host, fun hisr h => ?isr, fun p j hjob hi => ?send,
    fun p j hjob hphase hi => ?fill⟩
  case bus => exact congrArg Fetched.outcome (fetchMove_bus h _)
  case cmd => exact congrArg Fetched.outcome (fetchMove_cmd (s := s.withMoves ms) ((commandGate_none s).2 ⟨hpc, hisr⟩) h)
  case mdioc => exact congrArg Fetched.outcome (fetchMove_mdioc (s := s.withMoves ms) h)
  case tdes => exact congrArg Fetched.outcome (fetchMove_txdma_poll (s := s.withMoves ms) hst hjob h p)
  case rdes => exact congrArg Fetched.outcome (fetchMove_rxdma_poll (s := s.withMoves ms) hjob hpoll h p)
  case irq => exact congrArg Fetched.outcome (fetchMove_isr_outside (s := s.withMoves ms) hisr h)
  case host => exact congrArg Fetched.outcome (fetchMove_host (s := s.withMoves ms) h)
  case isr => exact congrArg Fetched.outcome (fetchMove_isr_inside (s := s.withMoves ms) hisr h)
  case send => subst hi; exact congrArg Fetched.outcome (fetchMove_txdma_job (s := s.withMoves ms) hjob p)
  case fill => subst hi; exact congrArg Fetched.outcome (fetchMove_rxdma_job (s := s.withMoves ms) hjob hphase p)

/-! ### Words that start nothing -/

theorem decodeCmd_reserved {w : Word} (h1 : w ≠ 1) (h2 : w ≠ 2) (h3 : w ≠ 3) :
    decodeCmd w = .bad .reservedCommand := by
  rw [decodeCmd, if_neg h1, if_neg h2, if_neg h3]

theorem decodeBus_misaligned {sel : Byte} (h : sel.extractLsb' 0 2 ≠ 0) (data : Word) :
    decodeBus sel data = .bad .misalignedSelector := if_neg h

theorem badCommand_of_idle {s : State} (h : commandGate s = none) : badCommand s = .next (raise .badCmd s) := by
  simp [badCommand, h]

/-- A reserved word written to R[CMD] only raises `BAD_CMD` (R162). -/
theorem commandWrite_reserved {w : Word} (h1 : w ≠ 1) (h2 : w ≠ 2) (h3 : w ≠ 3) (s : State) :
    commandWrite w s = badCommand s := by
  simp [commandWrite, decodeCmd_reserved h1 h2 h3]

/-- Settles O4: by the two ports of a command, then the selector and the descriptor word. -/
theorem reservedWordsStartNothing : Obligations.ReservedWordsStartNothing := by
  refine ⟨fun w h1 h2 h3 => ?word, fun s ms w ha h1 h2 h3 hpc hisr => ⟨?port, ?register⟩,
    fun s ms sel data ha hsel => ?selector, fun w hown hpart => ?descriptor⟩
  case word => rw [decode_cmd_leBytes, decodeCmd_reserved h1 h2 h3]
  case port =>
    have gate : commandGate (s.withMoves ms) = none := (commandGate_none _).2 ⟨hpc, hisr⟩
    rw [step_withMoves_cons ha, fetchMove_cmd_bad gate (decodeCmd_reserved h1 h2 h3), Fetched.outcome_done,
      badCommand_of_idle gate]
    rfl
  case register =>
    have gate : commandGate s = none := (commandGate_none s).2 ⟨hpc, hisr⟩
    exact (commandWrite_reserved h1 h2 h3 s).trans (badCommand_of_idle gate)
  case selector => rw [step_withMoves_cons ha, fetchMove_bus_bad (decodeBus_misaligned hsel data)]; rfl
  case descriptor =>
    have hnot : (fsBit w && lsBit w) = false := by
      rcases hpart with h | h <;> simp [h]
    simp [decodeTdes, hown, hnot]

end Sys2Proof.Machine

/-! PROOFS. System memory and the accesses a context has outstanding (20_memory.md R85, R96 to R98). -/

namespace Sys2Proof.Machine

/-! ### Words of memory -/

theorem mem_wordAddrs {a b : Nat} : b ∈ wordAddrs a ↔ a ≤ b ∧ b < a + 4 := by
  simp only [wordAddrs, List.mem_cons, List.not_mem_nil, or_false]; omega

/-- A stored word lies little-endian (R85). -/
theorem Memory.get_setWord (m : List Host.Cell) (a : Nat) (v : Word) {k : Nat} (hk : k < 4) :
    Memory.get (Memory.setWord m a v) (a + k) = some (byteOf v k) := by
  interval_cases k <;> simp [Memory.setWord, Memory.get_set]

theorem Memory.get_setWord_of_mem (m : List Host.Cell) {a b : Nat} (v : Word) (h : b ∈ wordAddrs a) :
    Memory.get (Memory.setWord m a v) b = some (byteOf v (b - a)) := by
  rw [mem_wordAddrs] at h
  have e : b = a + (b - a) := by omega
  rw [e, Memory.get_setWord m a v (by omega)]
  simp

theorem State.byteAt_of_get {s : State} {a : Nat} {v : Byte} (h : Memory.get s.mem a = some v) : s.byteAt a = v := by
  simp [State.byteAt, Memory.read, h]

/-- A word stored reads back. -/
theorem State.wordAt_of_setWord {s : State} {m : List Host.Cell} {a : Nat} {v : Word}
    (h : s.mem = Memory.setWord m a v) : s.wordAt a = v := by
  have byte : ∀ k, k < 4 → s.byteAt (a + k) = byteOf v k := fun k hk =>
    State.byteAt_of_get (by rw [h, Memory.get_setWord m a v hk])
  rw [State.wordAt, show s.byteAt a = byteOf v 0 from byte 0 (by omega), byte 1 (by omega), byte 2 (by omega),
    byte 3 (by omega), leWord_byteOf]

/-- A word depends on its four bytes alone. -/
theorem State.wordAt_congr_byteAt {s t : State} {a : Nat} (h : ∀ b ∈ wordAddrs a, t.byteAt b = s.byteAt b) :
    t.wordAt a = s.wordAt a := by
  simp only [State.wordAt]
  rw [h a (by simp [wordAddrs]), h (a + 1) (by simp [wordAddrs]), h (a + 2) (by simp [wordAddrs]),
    h (a + 3) (by simp [wordAddrs])]

/-- Settles O15: by the byte lemmas of `Memory.setWord`. -/
theorem wordStoreReadsBackLittleEndian : Obligations.WordStoreReadsBackLittleEndian := by
  intro s a v
  refine ⟨State.wordAt_of_setWord rfl, fun k hk => ?layout, fun b hb => ?frame⟩
  case layout => exact State.byteAt_of_get (Memory.get_setWord s.mem a v hk)
  case frame => exact State.byteAt_congr (Memory.get_setWord_other s.mem a v b hb)

/-! ### What performing accesses leaves as it is -/

/-- An update that commutes with one access commutes with a list of them. -/
theorem performAccesses_commute {f : State → State} (h : ∀ p s, performAccess p (f s) = f (performAccess p s)) :
    ∀ (ps : List Pending) (s : State), performAccesses ps (f s) = f (performAccesses ps s)
  | [], _ => rfl
  | p :: ps, s => by rw [performAccesses_cons, h, performAccesses_commute h ps, performAccesses_cons]

theorem performAccess_setPending (p : Pending) (s : State) (c : Ctx) (b : List Pending) :
    performAccess p (s.setPending c b) = (performAccess p s).setPending c b := by
  cases c <;> rcases p with _ | _ | ⟨_, _ | _⟩ | _ <;> rfl

theorem performAccesses_setPending (ps : List Pending) (s : State) (c : Ctx) (b : List Pending) :
    performAccesses ps (s.setPending c b) = (performAccesses ps s).setPending c b :=
  performAccesses_commute (f := fun s => s.setPending c b) (fun p s => performAccess_setPending p s c b) ps s

@[simp] theorem setPending_setPending (s : State) (c : Ctx) (b b' : List Pending) :
    (s.setPending c b).setPending c b' = s.setPending c b' := by cases c <;> rfl

/-- Accesses change memory and the four registers that late loads fill. -/
theorem performAccesses_eq (ps : List Pending) (s : State) :
    ∃ byte hbufp len ibufp, performAccesses ps s =
      { s with
        mem := Memory.performAll s.mem ps, h := { s.h with byte := byte, bufp := hbufp }
        i := { s.i with len := len, bufp := ibufp } } := by
  induction ps generalizing s with
  | nil => exact ⟨s.h.byte, s.h.bufp, s.i.len, s.i.bufp, rfl⟩
  | cons p ps ih =>
    obtain ⟨byte, hbufp, len, ibufp, e⟩ := ih (performAccess p s)
    refine ⟨byte, hbufp, len, ibufp, ?_⟩
    rw [performAccesses_cons, e]
    rcases p with _ | _ | ⟨_, _ | _⟩ | _ <;> rfl

/-- An ordering point changes memory, the context's list and the four registers that late loads fill. -/
theorem flush_host_eq (s : State) :
    ∃ byte hbufp len ibufp, flush .host s =
      { s with
        mem := Memory.performAll s.mem s.hostBuf, h := { s.h with byte := byte, bufp := hbufp }
        i := { s.i with len := len, bufp := ibufp }, hostBuf := [] } := by
  obtain ⟨byte, hbufp, len, ibufp, e⟩ := performAccesses_eq s.hostBuf s
  exact ⟨byte, hbufp, len, ibufp, by rw [flush, pending_host, e]; rfl⟩

theorem flush_isr_eq (s : State) :
    ∃ byte hbufp len ibufp, flush .isr s =
      { s with
        mem := Memory.performAll s.mem s.isrBuf, h := { s.h with byte := byte, bufp := hbufp }
        i := { s.i with len := len, bufp := ibufp }, isrBuf := [] } := by
  obtain ⟨byte, hbufp, len, ibufp, e⟩ := performAccesses_eq s.isrBuf s
  exact ⟨byte, hbufp, len, ibufp, by rw [flush, pending_isr, e]; rfl⟩

/-- An ordering point with nothing outstanding does nothing. -/
theorem flush_of_nil {c : Ctx} {s : State} (h : s.pending c = []) : flush c s = s := by
  rw [flush, h, performAccesses_nil]
  cases c <;> (rw [← h]; rfl)

theorem flush_host_of_nil {s : State} (h : s.hostBuf = []) : flush .host s = s := flush_of_nil h

theorem flush_isr_of_nil {s : State} (h : s.isrBuf = []) : flush .isr s = s := flush_of_nil h

/-- An ordering point performs the oldest access first. -/
theorem flush_cons {c : Ctx} {p : Pending} {b : List Pending} {s : State} (h : s.pending c = p :: b) :
    flush c s = flush c ((performAccess p s).setPending c b) := by
  rw [flush, flush, h, setPending_pending, performAccesses_setPending, setPending_setPending, performAccesses_cons]

theorem issue_of_sc {s : State} (h : s.cfg.memModel = .sc) (c : Ctx) (p : Pending) :
    issue c p s = performAccess p s := by simp [issue, h]

theorem issue_of_weak {s : State} (h : s.cfg.memModel = .weak) (c : Ctx) (p : Pending) :
    issue c p s = s.setPending c (s.pending c ++ [p]) := by simp [issue, h]

/-- Settles O16: the equations of the accesses, of `issue` and of `flush`. -/
theorem storesWaitOnlyUnderWeak : Obligations.StoresWaitOnlyUnderWeak := by
  intro s
  refine ⟨fun _ _ => rfl, fun _ _ => rfl, fun _ => ⟨rfl, rfl, rfl, rfl⟩, fun _ _ => rfl, fun c p => ⟨fun hsc => ?sc,
    fun hweak => issue_of_weak hweak c p⟩, fun c => ⟨flush_mem c s, flush_pending c s⟩, fun c p b h => flush_cons h⟩
  case sc => exact ⟨issue_of_sc hsc c p, fun hnil => flush_of_nil hnil⟩

/-! ### The order of accesses -/

/-- Two memories hold the same at every address. -/
def Memory.same (m m' : List Host.Cell) : Prop := ∀ a, Memory.get m a = Memory.get m' a

theorem Memory.same.read_eq {m m' : List Host.Cell} (h : Memory.same m m') (a : Nat) :
    Memory.read m a = Memory.read m' a := by rw [Memory.read, Memory.read, h a]

/-- The byte an access stores at an address it writes. -/
def Pending.stored (m : List Host.Cell) : Pending → Nat → Byte
  | .byte _ v, _ => v
  | .word a v, b => byteOf v (b - a)
  | .load _ _, _ => 0
  | .copy src _, _ => Memory.read m src

/-- An access stores at the addresses it writes. -/
theorem Memory.get_perform (m : List Host.Cell) (p : Pending) (b : Nat) :
    Memory.get (Memory.perform m p) b = if b ∈ p.writes then some (p.stored m b) else Memory.get m b := by
  split
  · next h =>
    cases p with
    | byte a v => simp_all [Pending.writes, Memory.perform, Memory.get_set, Pending.stored]
    | word a v => exact Memory.get_setWord_of_mem m v h
    | load a r => simp [Pending.writes] at h
    | copy src dst => simp_all [Pending.writes, Memory.perform, Memory.get_set, Pending.stored]
  · next h => exact Memory.get_perform_other m p b h

theorem Pending.writes_subset_addrs {p : Pending} {a : Nat} (h : a ∈ p.writes) : a ∈ p.addrs := by
  cases p <;> simp_all [Pending.writes, Pending.addrs]

/-- What an access stores depends on the bytes at its own addresses. -/
theorem Pending.stored_congr {m m' : List Host.Cell} {p : Pending}
    (h : ∀ a ∈ p.addrs, Memory.get m a = Memory.get m' a) (b : Nat) : p.stored m b = p.stored m' b := by
  cases p with
  | copy src dst => simp only [Pending.stored, Memory.read, h src (by simp [Pending.addrs])]
  | byte a v => rfl
  | word a v => rfl
  | load a r => rfl

theorem Memory.same.perform {m m' : List Host.Cell} (h : Memory.same m m') (p : Pending) :
    Memory.same (Memory.perform m p) (Memory.perform m' p) := fun b => by
  rw [Memory.get_perform, Memory.get_perform, h b, Pending.stored_congr fun a _ => h a]

theorem Memory.same.performAll {m m' : List Host.Cell} (h : Memory.same m m') (ps : List Pending) :
    Memory.same (Memory.performAll m ps) (Memory.performAll m' ps) := by
  induction ps generalizing m m' with
  | nil => exact h
  | cons p ps ih => exact ih (h.perform p)

/-- Two accesses that share no address may be performed in either order. -/
theorem Memory.perform_comm (m : List Host.Cell) {p q : Pending} (h : ∀ a ∈ q.addrs, a ∉ p.addrs) :
    Memory.same (Memory.perform (Memory.perform m p) q) (Memory.perform (Memory.perform m q) p) := fun b => by
  have hq : q.stored (Memory.perform m p) b = q.stored m b := Pending.stored_congr (fun a ha =>
    Memory.get_perform_other m p a fun hw => h a ha (Pending.writes_subset_addrs hw)) b
  have hp : p.stored (Memory.perform m q) b = p.stored m b := Pending.stored_congr (fun a ha =>
    Memory.get_perform_other m q a fun hw => h a (Pending.writes_subset_addrs hw) ha) b
  rw [Memory.get_perform, Memory.get_perform, Memory.get_perform, Memory.get_perform, hq, hp]
  by_cases hbq : b ∈ q.writes
  · have hbp : b ∉ p.writes := fun hbp => h b (Pending.writes_subset_addrs hbq) (Pending.writes_subset_addrs hbp)
    simp [hbq, hbp]
  · simp [hbq]

/-- An access that shares no address with earlier ones may be performed before them. -/
theorem Memory.performAll_comm {p : Pending} :
    ∀ (pre : List Pending) (m : List Host.Cell), (∀ q ∈ pre, ∀ a ∈ q.addrs, a ∉ p.addrs) →
      Memory.same (Memory.performAll (Memory.perform m p) pre) (Memory.perform (Memory.performAll m pre) p)
  | [], _, _ => fun _ => rfl
  | q :: pre, m, h => fun b =>
    ((Memory.perform_comm m (h q List.mem_cons_self)).performAll pre b).trans
      (Memory.performAll_comm pre (Memory.perform m q) (fun r hr => h r (List.mem_cons_of_mem _ hr)) b)

/-- Two states of the same memory contents and the same working registers. -/
structure SeesAlike (s t : State) : Prop where
  mem : Memory.same s.mem t.mem
  h : s.h = t.h
  i : s.i = t.i

theorem SeesAlike.refl (s : State) : SeesAlike s s := ⟨fun _ => rfl, rfl, rfl⟩

theorem SeesAlike.trans {s t u : State} (h : SeesAlike s t) (h' : SeesAlike t u) : SeesAlike s u :=
  ⟨fun a => (h.mem a).trans (h'.mem a), h.h.trans h'.h, h.i.trans h'.i⟩

theorem SeesAlike.byteAt_eq {s t : State} (h : SeesAlike s t) (a : Nat) : s.byteAt a = t.byteAt a := h.mem.read_eq a

/-- What an access leaves in the registers depends on the bytes at its own addresses. -/
theorem performAccess_regs_congr {p : Pending} {s t : State} (hb : ∀ a ∈ p.addrs, s.byteAt a = t.byteAt a)
    (hh : s.h = t.h) (hi : s.i = t.i) :
    (performAccess p s).h = (performAccess p t).h ∧ (performAccess p s).i = (performAccess p t).i := by
  cases p with
  | load a r =>
    cases r with
    | hostByte => exact ⟨by simp [performAccess, loadNow, hh, hb a (by simp [Pending.addrs, loadAddrs])], hi⟩
    | hostBufp => exact ⟨by simp [performAccess, loadNow, hh, State.wordAt_congr_byteAt hb], hi⟩
    | isrLen => exact ⟨hh, by simp [performAccess, loadNow, hi, State.wordAt_congr_byteAt hb]⟩
    | isrBufp => exact ⟨hh, by simp [performAccess, loadNow, hi, State.wordAt_congr_byteAt hb]⟩
  | _ => exact ⟨hh, hi⟩

theorem SeesAlike.performAccess {s t : State} (h : SeesAlike s t) (p : Pending) :
    SeesAlike (performAccess p s) (performAccess p t) := by
  obtain ⟨hh, hi⟩ := performAccess_regs_congr (p := p) (fun a _ => h.byteAt_eq a) h.h h.i
  exact ⟨by simpa using h.mem.perform p, hh, hi⟩

theorem SeesAlike.performAccesses {s t : State} (h : SeesAlike s t) (ps : List Pending) :
    SeesAlike (performAccesses ps s) (performAccesses ps t) := by
  induction ps generalizing s t with
  | nil => exact h
  | cons p ps ih => exact ih (h.performAccess p)

/-- An access leaves the bytes at other addresses alone. -/
theorem byteAt_performAccess {p : Pending} {a : Nat} (h : a ∉ p.addrs) (s : State) :
    (performAccess p s).byteAt a = s.byteAt a :=
  State.byteAt_congr (by
    rw [performAccess_mem]; exact Memory.get_perform_other _ _ _ fun hw => h (Pending.writes_subset_addrs hw))

/-- Accesses that fill no register leave the registers. -/
theorem performAccess_regs_of_fills_none {p : Pending} (h : p.fills = none) (s : State) :
    (performAccess p s).h = s.h ∧ (performAccess p s).i = s.i := by
  cases p with
  | load a r => cases h
  | _ => exact ⟨rfl, rfl⟩

/-- Two accesses that share no address and fill no register in common may be performed in either order: of two loads each
fills a register of its own, and a store leaves what the other reads. -/
theorem performAccess_comm (s : State) {p q : Pending} (h : ∀ a ∈ q.addrs, a ∉ p.addrs)
    (hr : p.fills = none ∨ q.fills ≠ p.fills) :
    SeesAlike (performAccess q (performAccess p s)) (performAccess p (performAccess q s)) := by
  have h' : ∀ a ∈ p.addrs, a ∉ q.addrs := fun a hp hq => h a hq hp
  have mem : Memory.same (performAccess q (performAccess p s)).mem (performAccess p (performAccess q s)).mem := by
    simpa using Memory.perform_comm s.mem h
  by_cases hp : p.fills = none
  · obtain ⟨hh, hi⟩ := performAccess_regs_of_fills_none hp s
    obtain ⟨hh', hi'⟩ := performAccess_regs_of_fills_none hp (performAccess q s)
    obtain ⟨eh, ei⟩ := performAccess_regs_congr (p := q) (fun a ha => byteAt_performAccess (h a ha) s) hh hi
    exact ⟨mem, eh.trans hh'.symm, ei.trans hi'.symm⟩
  · by_cases hq : q.fills = none
    · obtain ⟨hh, hi⟩ := performAccess_regs_of_fills_none hq s
      obtain ⟨hh', hi'⟩ := performAccess_regs_of_fills_none hq (performAccess p s)
      obtain ⟨eh, ei⟩ := performAccess_regs_congr (p := p) (fun a ha => byteAt_performAccess (h' a ha) s) hh hi
      exact ⟨mem, hh'.trans eh.symm, hi'.trans ei.symm⟩
    · cases p with
      | load a r =>
        cases q with
        | load b r' =>
          have hne : r' ≠ r := fun e => (hr.resolve_left hp) (by rw [Pending.fills, Pending.fills, e])
          refine ⟨mem, ?h, ?i⟩ <;> cases r <;> cases r' <;> first | rfl | exact (hne rfl).elim
        | _ => exact (hq rfl).elim
      | _ => exact (hp rfl).elim

/-- An access may be performed before earlier ones that share no address with it and fill another register. -/
theorem performAccesses_comm {p : Pending} :
    ∀ (pre : List Pending) (s : State), (∀ q ∈ pre, ∀ a ∈ q.addrs, a ∉ p.addrs) →
      (∀ q ∈ pre, p.fills = none ∨ q.fills ≠ p.fills) →
      SeesAlike (performAccesses pre (performAccess p s)) (performAccess p (performAccesses pre s))
  | [], _, _, _ => SeesAlike.refl _
  | q :: pre, s, h, hr =>
    ((performAccess_comm s (h q List.mem_cons_self) (hr q List.mem_cons_self)).performAccesses pre).trans
      (performAccesses_comm pre (performAccess q s) (fun r hm => h r (List.mem_cons_of_mem _ hm))
        fun r hm => hr r (List.mem_cons_of_mem _ hm))

theorem performAccesses_append (ps qs : List Pending) (s : State) :
    performAccesses (ps ++ qs) s = performAccesses qs (performAccesses ps s) := by
  simp [performAccesses, List.foldl_append]

/-! ### One access performed by the memory system -/

theorem any_hits_eq_false_iff (ps : List Pending) (as : List Nat) :
    ps.any (Pending.hits as) = false ↔ ∀ q ∈ ps, ∀ a ∈ q.addrs, a ∉ as := by
  simp [Pending.hits]

/-- The access number `k` of a list, and what stands before and after it. -/
theorem exists_split_of_getElem? {ps : List Pending} {k : Nat} {p : Pending} (h : ps[k]? = some p) :
    ∃ pre post, ps = pre ++ p :: post ∧ ps.take k = pre ∧ ps.eraseIdx k = pre ++ post ∧
      ∀ q, ps.set k q = pre ++ q :: post := by
  obtain ⟨hk, rfl⟩ := List.getElem?_eq_some_iff.1 h
  refine ⟨ps.take k, ps.drop (k + 1), ?_, rfl, List.eraseIdx_eq_take_drop_succ .., fun q => ?_⟩
  · rw [← List.drop_eq_getElem_cons hk, List.take_append_drop]
  · rw [List.set_eq_take_append_cons_drop, if_pos hk]

theorem drain_of_none {c : Ctx} {k : Nat} {s : State} (h : (s.pending c)[k]? = none) : drain c k s = s := by
  simp [drain, h]

/-- An earlier access to one of the addresses goes first (R97). -/
theorem drain_of_blocked {c : Ctx} {k : Nat} {s : State} {p : Pending} (hp : (s.pending c)[k]? = some p)
    (h : ((s.pending c).take k).any (Pending.hits p.firstAddrs) = true) : drain c k s = s := by
  simp [drain, hp, h]

/-- Of a copy its load is performed, which leaves the store. -/
theorem drain_copy {c : Ctx} {k : Nat} {s : State} {src dst : Nat} (hp : (s.pending c)[k]? = some (.copy src dst))
    (h : ((s.pending c).take k).any (Pending.hits [src]) = false) :
    drain c k s = s.setPending c ((s.pending c).set k (.byte dst (s.byteAt src))) := by
  simp [drain, hp, Pending.firstAddrs, h]

/-- An access is one step, or it is a copy. -/
theorem Pending.eq_copy_or (p : Pending) : (∃ src dst, p = .copy src dst) ∨
    ((∀ src dst, p ≠ .copy src dst) ∧ p.firstAddrs = p.addrs) := by
  cases p with
  | copy src dst => exact .inl ⟨src, dst, rfl⟩
  | _ => exact .inr ⟨nofun, rfl⟩

theorem drain_other {c : Ctx} {k : Nat} {s : State} {p : Pending} (hp : (s.pending c)[k]? = some p)
    (hne : ∀ src dst, p ≠ .copy src dst) (h : ((s.pending c).take k).any (Pending.hits p.firstAddrs) = false) :
    drain c k s = (performAccess p s).setPending c ((s.pending c).eraseIdx k) := by
  cases p with
  | copy src dst => exact (hne src dst rfl).elim
  | _ => simp [drain, hp, h]

/-- What accesses do that do not touch an address leaves the byte there. -/
theorem byteAt_performAccesses {a : Nat} :
    ∀ (ps : List Pending) (s : State), (∀ q ∈ ps, a ∉ q.addrs) → (performAccesses ps s).byteAt a = s.byteAt a
  | [], _, _ => rfl
  | p :: ps, s, h =>
    (byteAt_performAccesses ps _ fun q hq => h q (List.mem_cons_of_mem _ hq)).trans
      (byteAt_performAccess (h p List.mem_cons_self) s)

/-- Performing a copy's load first leaves the rest of the copy to store the same byte. -/
theorem performAccesses_copy_first {pre post : List Pending} {src dst : Nat} (s : State)
    (h : ∀ q ∈ pre, ∀ a ∈ q.addrs, a ∉ [src]) :
    performAccesses (pre ++ .byte dst (s.byteAt src) :: post) s = performAccesses (pre ++ .copy src dst :: post) s := by
  have hsrc : (performAccesses pre s).byteAt src = s.byteAt src :=
    byteAt_performAccesses pre s fun q hq hin => h q hq src hin (List.mem_singleton.2 rfl)
  rw [performAccesses_append, performAccesses_append, performAccesses_cons, performAccesses_cons, ← hsrc]
  rfl

/-- Settles O17: the access performed early is moved past the accesses before it, with none of which it shares an
address, and none of which, of the loads, fills its register. -/
theorem drainOrderDoesNotShow : Obligations.DrainOrderDoesNotShow := by
  intro c k s
  cases hp : (s.pending c)[k]? with
  | none => rw [drain_of_none hp]; exact ⟨fun _ => rfl, fun _ => ⟨rfl, rfl⟩⟩
  | some p =>
    cases hb : ((s.pending c).take k).any (Pending.hits p.firstAddrs) with
    | true => rw [drain_of_blocked hp hb]; exact ⟨fun _ => rfl, fun _ => ⟨rfl, rfl⟩⟩
    | false =>
      obtain ⟨pre, post, hps, htake, herase, hset⟩ := exists_split_of_getElem? hp
      have free := (any_hits_eq_false_iff _ _).1 hb
      rw [htake] at free
      rcases p.eq_copy_or with ⟨src, dst, rfl⟩ | ⟨hne, hfirst⟩
      · have hd := drain_copy hp hb
        have e := performAccesses_copy_first (dst := dst) (post := post) s free
        rw [← hset, ← hps] at e
        have hf : flush c (drain c k s) = flush c s := by
          rw [hd, flush, flush, setPending_pending, performAccesses_setPending, setPending_setPending, e]
        refine ⟨fun a => ?_, fun _ => by rw [hf]; exact ⟨rfl, rfl⟩⟩
        have hm := congrArg State.mem e
        simp only [performAccesses_mem] at hm
        simp only [State.seenBy, hd, setPending_pending, setPending_mem, hm]
      · have hd := drain_other hp hne hb
        rw [hfirst] at free
        constructor
        · intro a
          have hm := ((Memory.performAll_comm pre s.mem free).performAll post) a
          rw [State.seenBy, hd, setPending_pending, setPending_mem, performAccess_mem, herase, State.seenBy, hps,
            Memory.performAll_append, Memory.performAll_append, Memory.performAll_cons]
          exact hm
        · intro hnodup
          have hr : ∀ q ∈ pre, p.fills = none ∨ q.fills ≠ p.fills := by
            intro q hq
            rw [or_iff_not_imp_left, hps, List.filterMap_append, List.nodup_append] at *
            intro hsome heq
            obtain ⟨r, hr⟩ := Option.ne_none_iff_exists'.1 hsome
            exact hnodup.2.2 r (List.mem_filterMap.2 ⟨q, hq, heq.trans hr⟩) r
              (List.mem_filterMap.2 ⟨p, List.mem_cons_self, hr⟩) rfl
          have alike := (performAccesses_comm pre s free hr).performAccesses post
          have e1 : flush c (drain c k s) = (performAccesses (pre ++ post) (performAccess p s)).setPending c [] := by
            rw [hd, herase, flush, setPending_pending, performAccesses_setPending, setPending_setPending]
          have e2 : flush c s = (performAccesses (pre ++ p :: post) s).setPending c [] := by rw [flush, hps]
          rw [e1, e2, performAccesses_append, performAccesses_append, performAccesses_cons]
          simp only [setPending_h, setPending_i]
          exact ⟨alike.h, alike.i⟩

/-! ### The PHY's move and the memory system's moves -/

theorem phyKey_inj {pa ra pa' ra' : BitVec 5} : phyKey pa ra = phyKey pa' ra' ↔ pa = pa' ∧ ra = ra' := by
  unfold phyKey
  constructor
  · intro h
    have := ra.isLt
    have := ra'.isLt
    exact ⟨BitVec.eq_of_toNat_eq (by omega), BitVec.eq_of_toNat_eq (by omega)⟩
  · rintro ⟨rfl, rfl⟩; rfl

/-- A PHY register reads as it was set, and setting it changes no other (42_mdio_phy_bridge.md R216). -/
theorem Phy.get_set (l : List PhyCell) (pa ra : BitVec 5) (v : Half) (pa' ra' : BitVec 5) :
    Phy.get (Phy.set l pa ra v) pa' ra' = if pa' = pa ∧ ra' = ra then some v else Phy.get l pa' ra' := by
  induction l with
  | nil => simp [Phy.set, Phy.get, eq_comm]
  | cons c l ih =>
    unfold Phy.set
    split
    · simp only [Phy.get, eq_comm (a := pa), eq_comm (a := ra)]
    · split
      · next h =>
        obtain ⟨rfl, rfl⟩ := phyKey_inj.1 h
        simp only [Phy.get, eq_comm (a := c.pa), eq_comm (a := c.ra)]
        split <;> rfl
      · next h =>
        rw [phyKey_inj] at h
        simp only [Phy.get, ih]
        grind

theorem phyRead_phyPut (pa ra : BitVec 5) (v : Half) (s : State) (pa' ra' : BitVec 5) :
    phyRead (phyPut pa ra v s) pa' ra' = if pa' = pa ∧ ra' = ra then v else phyRead s pa' ra' := by
  simp only [phyRead, phyPut, Phy.get_set]
  split <;> rfl

theorem fetchMove_drain (c : Ctx) (k : Nat) (s : State) :
    fetchMove (if c = .host then .drainHost k else .drainIsr k) s = .done (.next (drain c k s)) := by
  cases c <;> rfl

theorem pending_withMoves (s : State) (ms : List Move) (c : Ctx) : (s.withMoves ms).pending c = s.pending c := by
  cases c <;> rfl

/-- Settles O19: what `Phy.set` leaves, and the cases of `drain`. -/
theorem phyAndMemorySystemMoves : Obligations.PhyAndMemorySystemMoves := by
  intro s ms ha
  refine ⟨fun pa ra v => ⟨_, step_withMoves_cons ha _ _, rfl, phyRead_phyPut pa ra v _⟩, ?_⟩
  rintro c k m rfl
  have hstep : step (s.withMoves ((if c = .host then .drainHost k else .drainIsr k) :: ms)) =
      .next (drain c k (s.withMoves ms)) := by
    rw [step_withMoves_cons ha, fetchMove_drain]; rfl
  simp only [hstep, ← pending_withMoves s ms c]
  refine ⟨fun hlen => ?none, fun p hp => ⟨fun hblocked => ?blocked, fun free => ?performed⟩⟩
  case none => rw [drain_of_none (List.getElem?_eq_none hlen)]
  case blocked =>
    rw [drain_of_blocked hp]
    by_contra h
    obtain ⟨q, hq, a, ha, hin⟩ := hblocked
    exact (any_hits_eq_false_iff _ _).1 (Bool.eq_false_iff.2 h) q hq a ha hin
  case performed =>
    have hb := (any_hits_eq_false_iff _ _).2 free
    refine ⟨fun hne => by rw [drain_other hp hne hb], ?_⟩
    rintro src dst rfl
    rw [drain_copy hp hb]
    rfl

end Sys2Proof.Machine

/-! PROOFS. The register file, the commands, `MAC.RESET` and the MDIO controller's transactions (10_state.md section 5,
40_driver_contract.md section 1, 41_register_bridge.md, 42_mdio_phy_bridge.md sections 2 to 5). -/

namespace Sys2Proof.Machine

/-! ### Reads -/

/-- The numbers of the registers that read 0 whatever the state is (10_state.md R45, R50, R53). -/
theorem regRead_zero_of_mem {no : BitVec 5} (h : no ∈ ([11, 14, 15, 22, 23, 24, 28, 29, 30, 31] : List (BitVec 5)))
    (s : State) : regRead (regOfNumber no) s = 0 := by
  simp only [List.mem_cons, List.not_mem_nil, or_false] at h
  rcases h with rfl | rfl | rfl | rfl | rfl | rfl | rfl | rfl | rfl | rfl <;> rfl

theorem regRead_link (s : State) : regRead .link s = if s.link = .up then 1 else 0 := by
  simp [regRead, boolResult]

/-- Settles O21: every register by its name in `regOfNumber`. -/
theorem regrdReturnsEachRegister : Obligations.RegrdReturnsEachRegister := by
  intro s
  have link : exec (.regrd 13) s = .next { s with busData := if s.link = .up then 1 else 0 } := by
    rw [exec_regrd, ← regRead_link]; rfl
  refine ⟨exec_regrd (s := s), rfl, rfl, rfl, rfl, rfl, rfl, rfl, rfl, rfl, rfl, rfl, rfl, link, rfl, rfl, rfl, rfl, rfl,
    rfl, rfl, rfl, rfl, fun no hno => ?zero⟩
  rw [exec_regrd, regRead_zero_of_mem hno]

/-! ### Writes -/

theorem getLsbD_clearOnes (old v : Word) (n : Nat) :
    (clearOnes old v).getLsbD n = (old.getLsbD n && !v.getLsbD n) := by
  simp only [clearOnes, BitVec.getLsbD_and, BitVec.getLsbD_not]
  by_cases h : n < 32
  · simp [h]
  · simp [BitVec.getLsbD_of_ge old n (by omega)]

theorem regWrite_rxBase_of_enabled {s : State} (h : rxenBit s.regs.ctrl = true) (v : Word) :
    regWrite .rxBase v s = .fault .baseWriteWhileEnabled := if_pos h

theorem regWrite_rxBase_of_disabled {s : State} (h : rxenBit s.regs.ctrl = false) (v : Word) :
    regWrite .rxBase v s = .next { s with regs := { s.regs with rxBase := v &&& baseMask } } :=
  if_neg (by simp [h])

theorem regWrite_txBase_of_enabled {s : State} (h : txenBit s.regs.ctrl = true) (v : Word) :
    regWrite .txBase v s = .fault .baseWriteWhileEnabled := if_pos h

theorem regWrite_txBase_of_disabled {s : State} (h : txenBit s.regs.ctrl = false) (v : Word) :
    regWrite .txBase v s = .next { s with regs := { s.regs with txBase := v &&& baseMask } } :=
  if_neg (by simp [h])

theorem regWrite_mdioCtrl_of_busy {s : State} (h : busyBit s.regs.mdioCtrl = true) (v : Word) :
    regWrite .mdioCtrl v s = .refused .mdioWriteWhileBusy := if_pos h

theorem regWrite_mdioCtrl_of_free {s : State} (h : busyBit s.regs.mdioCtrl = false) (v : Word) :
    regWrite .mdioCtrl v s = .next { s with regs := { s.regs with mdioCtrl := v &&& mdioCtrlMask } } :=
  if_neg (by simp [h])

/-- Settles O23: by the register's arm of `regWrite`. -/
theorem regwrStoresAndClears : Obligations.RegwrStoresAndClears := by
  refine ⟨fun s v => ⟨rfl, rfl, rfl, rfl, rfl, rfl, rfl, rfl⟩, fun s v => ⟨?status, ?diag⟩, fun s v =>
    ⟨fun h => regWrite_rxBase_of_enabled h v, fun h => regWrite_rxBase_of_disabled h v,
      fun h => regWrite_txBase_of_enabled h v, fun h => regWrite_txBase_of_disabled h v⟩⟩
  case status => exact ⟨_, rfl, rfl, getLsbD_clearOnes s.regs.intStatus v⟩
  case diag => exact ⟨_, rfl, rfl, getLsbD_clearOnes s.regs.diag v⟩

/-! ### CTRL (10_state.md R36) -/

theorem ctrlWrite_of_reset {v : Word} (h : swrstBit v = true) (s : State) :
    ctrlWrite v s = { s with regs := { s.regs with ctrl := s.regs.ctrl ||| 1 } } := if_pos h

theorem ctrlWrite_of_enables {v : Word} (h : swrstBit v = false) (s : State) :
    ctrlWrite v s =
      { s with
        regs := { s.regs with ctrl := (s.regs.ctrl &&& 0x1) ||| (v &&& 0x6) }
        rx := rxEnableEdge (rxenBit s.regs.ctrl) (rxenBit v) s.rx
        tx := txEnableEdge (txenBit s.regs.ctrl) (txenBit v) s.tx } := if_neg (by simp [h])

theorem rxEnableEdge_start (r : RxDma) : rxEnableEdge false true r = ⟨.running, 0, none⟩ := rfl

theorem rxEnableEdge_stop {r : RxDma} (h : r.job = none) : rxEnableEdge true false r = { r with run := .stopped } := by
  simp [rxEnableEdge, h]

/-- A reception in progress is finished first (43_ring_ownership.md R244). -/
theorem rxEnableEdge_finish {r : RxDma} (h : r.job ≠ none) : rxEnableEdge true false r = r := by
  simp [rxEnableEdge, h]

theorem rxEnableEdge_same (b : Bool) (r : RxDma) : rxEnableEdge b b r = r := by cases b <;> rfl

theorem txEnableEdge_start (r : TxDma) : txEnableEdge false true r = ⟨.running, 0, none⟩ := rfl

theorem txEnableEdge_stop {r : TxDma} (h : r.job = none) : txEnableEdge true false r = { r with st := .stopped } := by
  simp [txEnableEdge, h]

/-- A transmission in progress is finished first (43_ring_ownership.md R252). -/
theorem txEnableEdge_finish {r : TxDma} (h : r.job ≠ none) : txEnableEdge true false r = r := by
  simp [txEnableEdge, h]

theorem txEnableEdge_same (b : Bool) (r : TxDma) : txEnableEdge b b r = r := by cases b <;> rfl

/-- Settles O24: by bit 0 of the word, then the edge of each enable. -/
theorem ctrlWrite_holds : Obligations.CtrlWrite := by
  intro s v
  refine ⟨fun hreset => ?reset, fun hkeep => ⟨_, congrArg Host.Outcome.next (ctrlWrite_of_enables hkeep s), rfl,
    fun hold hnew => ?rxStart, fun hold hnew hjob => ?rxStop, fun hold hnew hjob => ?rxFinish, fun hsame => ?rxSame,
    fun hold hnew => ?txStart, fun hold hnew hjob => ?txStop, fun hold hnew hjob => ?txFinish, fun hsame => ?txSame⟩⟩
  case reset => exact congrArg Host.Outcome.next (ctrlWrite_of_reset hreset s)
  all_goals dsimp only [rxenBit, txenBit]
  case rxStart => rw [hold, hnew, rxEnableEdge_start]
  case rxStop => rw [hold, hnew, rxEnableEdge_stop hjob]
  case rxFinish => rw [hold, hnew, rxEnableEdge_finish hjob]
  case rxSame => rw [hsame, rxEnableEdge_same]
  case txStart => rw [hold, hnew, txEnableEdge_start]
  case txStop => rw [hold, hnew, txEnableEdge_stop hjob]
  case txFinish => rw [hold, hnew, txEnableEdge_finish hjob]
  case txSame => rw [hsame, txEnableEdge_same]

/-! ### Commands (40_driver_contract.md R161 to R163) -/

theorem commandGate_busy {s : State} (h : s.hpc ≠ .idle) : commandGate s = some .commandWhileBusy := if_pos h

theorem commandGate_inIsr {s : State} (h : s.hpc = .idle) (hi : s.inIsr = true) :
    commandGate s = some .commandInIsr := by simp [commandGate, h, hi]

theorem startCommand_of_gate {s : State} {r : Refusal} (h : commandGate s = some r) (needs : Bool) (l : HostLabel) :
    startCommand needs l s = .refused r := by simp [startCommand, h]

theorem startCommand_of_ready {s : State} (h : commandGate s = none) {needs : Bool}
    (hn : needs = true → s.initialized = true) (l : HostLabel) :
    startCommand needs l s = .next { s with hpc := l, hsub := .off, hmic := 0, dirty := [] } := by
  rw [startCommand_next]
  obtain ⟨hpc, hisr⟩ := (commandGate_none s).1 h
  exact ⟨hpc, hisr, hn, rfl⟩

theorem startCommand_of_uninitialized {s : State} (h : commandGate s = none) (hn : s.initialized = false)
    (l : HostLabel) : startCommand true l s = .refused .notInitialized := by simp [startCommand, h, hn]

/-- Every command, a reserved word too, meets the calling rule first. -/
theorem commandWrite_of_gate {s : State} {r : Refusal} (h : commandGate s = some r) (w : Word) :
    commandWrite w s = .refused r := by
  unfold commandWrite
  split <;> simp [startCommand, badCommand, h]

/-- A contract operation while HOST is Idle is its start (R161). -/
theorem contractOp_of_idle {s : State} (h : s.hpc = .idle) (op : Instr) (needs : Bool) (l : HostLabel)
    (label : State → Out) : contractOp op needs l label s = startCommand needs l s := by
  simp [contractOp, h, opOf]

/-- A contract operation while HOST is inside another is refused (R162). -/
theorem contractOp_of_other {s : State} (h : s.hpc ≠ .idle) {op : Instr} (hop : opOf s.hpc ≠ some op) (needs : Bool)
    (l : HostLabel) (label : State → Out) : contractOp op needs l label s = .refused .commandWhileBusy := by
  obtain ⟨i, hi⟩ := Option.ne_none_iff_exists'.1 (mt (opOf_none s.hpc).1 h)
  rw [hi, ne_eq, Option.some.injEq] at hop
  simp [contractOp, hi, hop]

theorem step_cmd_of_gate {s : State} (ha : s.cfg.admissible = true) {r : Refusal} (h : commandGate s = some r)
    (ms : List Move) (w : Word) : step (s.withMoves (.cmd w :: ms)) = .refused r := by
  rw [step_withMoves_cons ha, fetchMove_cmd_refused (s := s.withMoves ms) h]; rfl

/-- Settles O26: by where HOST is. Idle, each of the three commands starts by either port as `initialized` allows; not
Idle, or inside the handler, the gate refuses. -/
theorem commandDispatch : Obligations.CommandDispatch := by
  intro s
  refine ⟨fun hpc hisr => ?idle, fun hpc => ?busy, fun hpc hisr => ?inIsr⟩
  case idle =>
    have gate := (commandGate_none s).2 ⟨hpc, hisr⟩
    refine ⟨?init, ?initWrite, fun hn => ⟨?tx, ?txWrite, ?up, ?upWrite⟩, fun hn => ⟨?noTx, ?noTxWrite, ?noUp, ?noUpWrite,
      fun ha ms => ⟨?noTxMove, ?noUpMove⟩⟩⟩
    case init => exact (contractOp_of_idle hpc ..).trans (startCommand_of_ready gate (needs := false) (by simp) _)
    case initWrite => exact startCommand_of_ready gate (needs := false) (by simp) _
    case tx => exact (contractOp_of_idle hpc ..).trans (startCommand_of_ready gate (fun _ => hn) _)
    case txWrite => exact startCommand_of_ready gate (fun _ => hn) _
    case up => exact (contractOp_of_idle hpc ..).trans (startCommand_of_ready gate (fun _ => hn) _)
    case upWrite => exact startCommand_of_ready gate (fun _ => hn) _
    case noTx => exact (contractOp_of_idle hpc ..).trans (startCommand_of_uninitialized gate hn _)
    case noTxWrite => exact startCommand_of_uninitialized gate hn _
    case noUp => exact (contractOp_of_idle hpc ..).trans (startCommand_of_uninitialized gate hn _)
    case noUpWrite => exact startCommand_of_uninitialized gate hn _
    case noTxMove =>
      rw [step_withMoves_cons ha, fetchMove_cmd (s := s.withMoves ms) gate (i := .tx) rfl]
      exact (contractOp_of_idle (s := s.withMoves ms) hpc ..).trans
        (startCommand_of_uninitialized (s := s.withMoves ms) gate hn _)
    case noUpMove =>
      rw [step_withMoves_cons ha, fetchMove_cmd (s := s.withMoves ms) gate (i := .up) rfl]
      exact (contractOp_of_idle (s := s.withMoves ms) hpc ..).trans
        (startCommand_of_uninitialized (s := s.withMoves ms) gate hn _)
  case busy =>
    have gate := commandGate_busy hpc
    refine ⟨commandWrite_of_gate gate, fun ms w ha => step_cmd_of_gate ha gate ms w, ?other⟩
    rintro i (rfl | rfl | rfl) hop <;> exact contractOp_of_other hpc hop ..
  case inIsr =>
    have gate := commandGate_inIsr hpc hisr
    exact ⟨commandWrite_of_gate gate, fun ms w ha => step_cmd_of_gate ha gate ms w,
      (contractOp_of_idle hpc ..).trans (startCommand_of_gate gate ..),
      (contractOp_of_idle hpc ..).trans (startCommand_of_gate gate ..),
      (contractOp_of_idle hpc ..).trans (startCommand_of_gate gate ..)⟩

/-! ### `MAC.RESET` -/

theorem fetchMove_macrst_of_request {s : State} (h : swrstBit s.regs.ctrl = true) :
    fetchMove .macrst s = .done (.next (macReset s)) := if_pos h

theorem fetchMove_macrst_of_none {s : State} (h : swrstBit s.regs.ctrl = false) :
    fetchMove .macrst s = .done (.next s) := if_neg (by simp [h])

/-- Settles O27: MACRST has a step exactly while SWRST is set, and it is `macReset`. -/
theorem macResetClearsEnginesAndRegisters : Obligations.MacResetClearsEnginesAndRegisters := by
  intro s ms ha
  refine ⟨fun h => ?request, fun h => ?none⟩
  case request => rw [step_withMoves_cons ha, fetchMove_macrst_of_request (s := s.withMoves ms) h]; rfl
  case none => rw [step_withMoves_cons ha, fetchMove_macrst_of_none (s := s.withMoves ms) h]; rfl

/-! ### MDIO transactions -/

/-- An MDIO control word with BUSY set stands for the transaction of its fields (30_encoding.md R123). -/
theorem decodeMdioc_of_busy {w : Word} (h : busyBit w = true) : decodeMdioc w =
    .ok (if writeBit w then .mdioWr (phyadField w) (regadField w) (crField w)
      else .mdioRd (phyadField w) (regadField w) (crField w)) := by
  rw [decodeMdioc, if_pos h]; split <;> rfl

theorem decodeMdioc_of_free {w : Word} (h : busyBit w = false) : decodeMdioc w = .bad .noTransaction :=
  if_neg (by simp [h])

/-- The transaction in flight is performed (log 20). -/
theorem mdioTransaction_of_inFlight {s : State} (h : busyBit s.regs.mdioCtrl = true) {i : Instr}
    (hi : decodeMdioc s.regs.mdioCtrl = .ok i) (word : Word) (xfer : State → State) :
    mdioTransaction i word xfer s = .next (xfer s) := by
  simp [mdioTransaction, h, hi]

theorem mdioTransaction_of_other {s : State} (h : busyBit s.regs.mdioCtrl = true) {i : Instr}
    (hi : decodeMdioc s.regs.mdioCtrl ≠ .ok i) (word : Word) (xfer : State → State) :
    mdioTransaction i word xfer s = .refused .mdioWriteWhileBusy := by
  simp [mdioTransaction, h, hi]

theorem mdioTransaction_of_free {s : State} (h : busyBit s.regs.mdioCtrl = false) (i : Instr) (word : Word)
    (xfer : State → State) : mdioTransaction i word xfer s = regWrite .mdioCtrl word s := by
  simp [mdioTransaction, h]

theorem exec_mdioRd (pa ra : BitVec 5) (cr : BitVec 4) (s : State) : exec (.mdioRd pa ra cr) s =
    mdioTransaction (.mdioRd pa ra cr) (mdioWord pa ra cr false) (xferRead pa ra) s := rfl

theorem exec_mdioWr (pa ra : BitVec 5) (cr : BitVec 4) (s : State) : exec (.mdioWr pa ra cr) s =
    mdioTransaction (.mdioWr pa ra cr) (mdioWord pa ra cr true) (xferWrite pa ra) s := rfl

/-- A read or write transaction is the one in flight exactly where BUSY is set and its fields are the register's. -/
theorem decodeMdioc_eq_read_iff {w : Word} (h : busyBit w = true) (pa ra : BitVec 5) (cr : BitVec 4) :
    decodeMdioc w = .ok (.mdioRd pa ra cr) ↔
      writeBit w = false ∧ phyadField w = pa ∧ regadField w = ra ∧ crField w = cr := by
  rw [decodeMdioc_of_busy h]; cases writeBit w <;> simp

theorem decodeMdioc_eq_write_iff {w : Word} (h : busyBit w = true) (pa ra : BitVec 5) (cr : BitVec 4) :
    decodeMdioc w = .ok (.mdioWr pa ra cr) ↔
      writeBit w = true ∧ phyadField w = pa ∧ regadField w = ra ∧ crField w = cr := by
  rw [decodeMdioc_of_busy h]; cases writeBit w <;> simp

/-- What `MOCK_PHY` keeps of a datum written (42_mdio_phy_bridge.md R217). -/
def mockDatum (c : Cfg) (ra : BitVec 5) (v : Half) : Half := if ra = c.regBcr then v &&& ~~~c.bcrReset else v

theorem phyWrite_of_anyPhy {s : State} (h : s.cfg.phyKind = .anyPhy) (pa ra : BitVec 5) (v : Half) :
    phyWrite pa ra v s = { s with phyLog := s.phyLog ++ [⟨pa, ra, v⟩] } := by simp [phyWrite, h]

theorem phyWrite_of_mockPhy {s : State} (h : s.cfg.phyKind = .mockPhy) (pa ra : BitVec 5) (v : Half) :
    phyWrite pa ra v s = phyPut pa ra (mockDatum s.cfg ra v) { s with phyLog := s.phyLog ++ [⟨pa, ra, v⟩] } := by
  simp [phyWrite, h, mockDatum]

/-- A PHY write is logged; the PHY's registers are as its kind says. -/
theorem phyWrite_eq (pa ra : BitVec 5) (v : Half) (s : State) :
    ∃ phy, phyWrite pa ra v s = { s with phy := phy, phyLog := s.phyLog ++ [⟨pa, ra, v⟩] } ∧
      (s.cfg.phyKind = .anyPhy → phy = s.phy) ∧
      (s.cfg.phyKind = .mockPhy → ∀ pa' ra',
        (Phy.get phy pa' ra').getD (Config.phyPowerOn pa' ra') =
          if pa' = pa ∧ ra' = ra then mockDatum s.cfg ra v else phyRead s pa' ra') := by
  cases hk : s.cfg.phyKind with
  | anyPhy => exact ⟨_, phyWrite_of_anyPhy hk pa ra v, fun _ => rfl, nofun⟩
  | mockPhy => exact ⟨_, phyWrite_of_mockPhy hk pa ra v, nofun, fun _ => phyRead_phyPut pa ra _ s⟩

theorem xferRead_eq (pa ra : BitVec 5) (s : State) : xferRead pa ra s =
    { s with
      regs := { s.regs with
        mdioData := (phyRead s pa ra).setWidth 32, mdioCtrl := s.regs.mdioCtrl &&& 0xFFFFFFFE } } := rfl

theorem xferWrite_eq (pa ra : BitVec 5) (s : State) :
    ∃ phy, xferWrite pa ra s =
        { s with
          phy := phy, phyLog := s.phyLog ++ [⟨pa, ra, s.regs.mdioData.extractLsb' 0 16⟩]
          regs := { s.regs with mdioCtrl := s.regs.mdioCtrl &&& 0xFFFFFFFE } } ∧
      (s.cfg.phyKind = .anyPhy → phy = s.phy) ∧
      (s.cfg.phyKind = .mockPhy → ∀ pa' ra',
        (Phy.get phy pa' ra').getD (Config.phyPowerOn pa' ra') =
          if pa' = pa ∧ ra' = ra then mockDatum s.cfg ra (s.regs.mdioData.extractLsb' 0 16)
          else phyRead s pa' ra') := by
  obtain ⟨phy, e, hrest⟩ := phyWrite_eq pa ra (s.regs.mdioData.extractLsb' 0 16) s
  exact ⟨phy, by rw [xferWrite, e]; rfl, hrest⟩

/-- Settles O28: the transaction in flight is the instruction's own, and is `xferRead` or `xferWrite`. -/
theorem mdiocTransfersThenClearsBusy : Obligations.MdiocTransfersThenClearsBusy := by
  intro s pa ra cr
  refine ⟨fun busy hpa hra hcr => ⟨fun hread => ?read, fun hwrite => ?write⟩, fun ms ha hfree => ?free⟩
  case read =>
    rw [exec_mdioRd, mdioTransaction_of_inFlight busy ((decodeMdioc_eq_read_iff busy pa ra cr).2 ⟨hread, hpa, hra, hcr⟩),
      xferRead_eq]
  case write =>
    obtain ⟨phy, e, hany, hmock⟩ := xferWrite_eq pa ra s
    refine ⟨_, mdioTransaction_of_inFlight busy ((decodeMdioc_eq_write_iff busy pa ra cr).2 ⟨hwrite, hpa, hra, hcr⟩) ..,
      ?_⟩
    rw [e]
    exact ⟨rfl, hany, hmock⟩
  case free =>
    rw [step_withMoves_cons ha, fetchMove_mdioc_bad (s := s.withMoves ms) (decodeMdioc_of_free hfree)]; rfl

/-- The control word of a transaction as a number (30_encoding.md R136). -/
theorem toNat_mdioWord (pa ra : BitVec 5) (cr : BitVec 4) (wr : Bool) :
    (mdioWord pa ra cr wr).toNat =
      2 ^ 16 * pa.toNat + 2 ^ 8 * ra.toNat + 2 ^ 4 * cr.toNat + (if wr then 2 else 0) + 1 := by
  have hpa := pa.isLt
  have hra := ra.isLt
  have hcr := cr.isLt
  have flags : (flagWord wr 2 ||| 1).toNat = (if wr then 2 else 0) + 1 := by cases wr <;> rfl
  have field : ∀ {w : Nat} (x : BitVec w) (k : Nat), x.toNat * 2 ^ k < 2 ^ 32 →
      (x.setWidth 32 <<< k).toNat = x.toNat <<< k := fun x k h => by
    have : x.toNat < 2 ^ 32 := lt_of_le_of_lt (Nat.le_mul_of_pos_right _ (by positivity)) h
    rw [BitVec.toNat_shiftLeft, BitVec.toNat_setWidth, Nat.mod_eq_of_lt this, Nat.shiftLeft_eq, Nat.mod_eq_of_lt h]
  have hflags : (if wr then 2 else 0) + 1 < 2 ^ 4 := by cases wr <;> decide
  generalize hf : (if wr then 2 else 0) + 1 = low at flags hflags
  have hcode : cr.toNat <<< 4 ||| low = cr.toNat <<< 4 + low := (Nat.shiftLeft_add_eq_or_of_lt hflags _).symm
  have hreg : ra.toNat <<< 8 ||| (cr.toNat <<< 4 + low) = ra.toNat <<< 8 + (cr.toNat <<< 4 + low) :=
    (Nat.shiftLeft_add_eq_or_of_lt (by rw [Nat.shiftLeft_eq]; omega) _).symm
  have hphy : pa.toNat <<< 16 ||| (ra.toNat <<< 8 + (cr.toNat <<< 4 + low)) =
      pa.toNat <<< 16 + (ra.toNat <<< 8 + (cr.toNat <<< 4 + low)) :=
    (Nat.shiftLeft_add_eq_or_of_lt (by rw [Nat.shiftLeft_eq, Nat.shiftLeft_eq]; omega) _).symm
  rw [mdioWord, BitVec.or_assoc, BitVec.or_assoc, BitVec.or_assoc, BitVec.toNat_or, BitVec.toNat_or, BitVec.toNat_or,
    flags, field pa 16 (by omega), field ra 8 (by omega), field cr 4 (by omega), hcode, hreg, hphy]
  simp only [Nat.shiftLeft_eq]
  omega

/-- A control word has none of the bits that MDIO_CTRL reserves. -/
theorem mdioWord_and_mask (pa ra : BitVec 5) (cr : BitVec 4) (wr : Bool) :
    mdioWord pa ra cr wr &&& mdioCtrlMask = mdioWord pa ra cr wr := by
  apply BitVec.eq_of_getLsbD_eq
  intro n hn
  rw [BitVec.getLsbD_and]
  by_cases low : n < 2
  · interval_cases n <;> simp [mdioCtrlMask]
  · rw [getLsbD_mdioWord (by omega) hn]
    interval_cases n <;> simp [mdioCtrlMask]

/-- Settles O29: a write of MDIO_CTRL, and what `mdioTransaction` does with a word that is not in flight. -/
theorem mdioControlWordStartsATransaction : Obligations.MdioControlWordStartsATransaction := by
  intro s v pa ra cr
  refine ⟨fun busy => ⟨regWrite_mdioCtrl_of_busy busy v, fun hother => ?read, fun hother => ?write⟩,
    fun free => ⟨regWrite_mdioCtrl_of_free free v, ?startRead, ?startWrite⟩⟩
  case read =>
    refine mdioTransaction_of_other busy (fun h => ?_) ..
    obtain ⟨hwrite, hpa, hra, hcr⟩ := (decodeMdioc_eq_read_iff busy pa ra cr).1 h
    rcases hother with h | h | h | h
    exacts [Bool.noConfusion (h.symm.trans hwrite), h hpa, h hra, h hcr]
  case write =>
    refine mdioTransaction_of_other busy (fun h => ?_) ..
    obtain ⟨hwrite, hpa, hra, hcr⟩ := (decodeMdioc_eq_write_iff busy pa ra cr).1 h
    rcases hother with h | h | h | h
    exacts [Bool.noConfusion (h.symm.trans hwrite), h hpa, h hra, h hcr]
  case startRead =>
    refine ⟨_, (mdioTransaction_of_free free ..).trans (regWrite_mdioCtrl_of_free free _),
      regWrite_mdioCtrl_of_free free _, ?_⟩
    dsimp only
    rw [mdioWord_and_mask, toNat_mdioWord, if_neg Bool.false_ne_true]
  case startWrite =>
    refine ⟨_, (mdioTransaction_of_free free ..).trans (regWrite_mdioCtrl_of_free free _),
      regWrite_mdioCtrl_of_free free _, ?_⟩
    dsimp only
    rw [mdioWord_and_mask, toNat_mdioWord, if_pos rfl]

end Sys2Proof.Machine

/-! PROOFS. The environment's moves and the vendor tables (43_ring_ownership.md section 3, 44_transmit.md R284,
46_link_reconciler.md R316 to R319). -/

namespace Sys2Proof.Machine

/-! ### Frame arrival and the address filter -/

theorem frameArrives_of_length {s : State} {f : Frame}
    (h : f.bytes.length < 14 ∨ s.cfg.maxWireLen < f.bytes.length) : frameArrives f s = .refused .wireFrameLength :=
  if_pos h

theorem frameArrives_of_admitted {s : State} {f : Frame} (hmin : 14 ≤ f.bytes.length)
    (hmax : f.bytes.length ≤ s.cfg.maxWireLen) : frameArrives f s =
      if s.rx.job.isSome then .refused .wireBusy else if s.rx.run = .stopped then .next s
      else if accepts s f then .next { s with rx := { s.rx with job := some (newRxJob f) } } else .next s :=
  if_neg (by omega)

/-- The address filter, test by test (R247). -/
theorem accepts_iff (s : State) (d0 d1 d2 d3 d4 d5 : Byte) (rest : List Byte) (ce le ae : Bool) :
    accepts s ⟨d0 :: d1 :: d2 :: d3 :: d4 :: d5 :: rest, ce, le, ae⟩ = true ↔
      (promiscBit s.regs.filter = true ∨ [d0, d1, d2, d3, d4, d5] = stationAddr s ∨
        (bcastBit s.regs.filter = true ∧ [d0, d1, d2, d3, d4, d5] = List.replicate 6 0xFF) ∨
        (mcastBit s.regs.filter = true ∧ d0.getLsbD 0 = true)) := by
  show (promiscBit s.regs.filter || decide ([d0, d1, d2, d3, d4, d5] = stationAddr s) ||
    (bcastBit s.regs.filter && decide ([d0, d1, d2, d3, d4, d5] = List.replicate 6 0xFF)) ||
    (mcastBit s.regs.filter && d0.getLsbD 0)) = true ↔ _
  simp only [Bool.or_eq_true, Bool.and_eq_true, decide_eq_true_eq]
  tauto

/-- The bytes of the address registers, in the order of the wire (30_encoding.md R132). -/
theorem stationAddr_eq (s : State) : stationAddr s =
    [byteOf s.regs.macLo 0, byteOf s.regs.macLo 1, byteOf s.regs.macLo 2, byteOf s.regs.macLo 3,
      byteOf s.regs.macHi 0, byteOf s.regs.macHi 1] := rfl

/-- Settles O20: the tests of `frameArrives` in their order, and those of `accepts`. -/
theorem frameArrivalAndFilter : Obligations.FrameArrivalAndFilter := by
  refine ⟨fun s ms f ha => ?arrival, fun s d0 d1 d2 d3 d4 d5 rest ce le ae => ?filter⟩
  case arrival =>
    have hstep : step (s.withMoves (.wire f :: ms)) = frameArrives f (s.withMoves ms) := step_withMoves_cons ha _ _
    rw [hstep]
    refine ⟨fun hlen => frameArrives_of_length hlen, fun hmin hmax => ?_⟩
    rw [frameArrives_of_admitted (s := s.withMoves ms) hmin hmax]
    refine ⟨fun hjob => ?busy, fun hjob hrun => ?stopped, fun hjob hrun hrej => ?rejected, fun hjob hrun hacc => ?taken⟩
    case busy => exact if_pos (Option.isSome_iff_ne_none.2 hjob)
    case stopped => simp [State.withMoves, hjob, hrun]
    case rejected =>
      have : accepts (s.withMoves ms) f = false := hrej
      simp [State.withMoves, hjob, hrun] at this ⊢
      simp [this]
    case taken =>
      have : accepts (s.withMoves ms) f = true := hacc
      simp [State.withMoves, hjob, hrun] at this ⊢
      simp [this, newRxJob]
  case filter =>
    rw [accepts_iff, stationAddr_eq]
    simp only [List.replicate_succ, List.replicate_zero, List.cons.injEq, and_true]
    rfl

/-! ### Vendor, speed and duplex -/

theorem classify_default {c : Cfg} (h : c.vendorTable = defaultVendorTable) (id : Word) : classify c id =
    if id.extractLsb' 16 16 = 0x0022 then .kszx08x
    else if id.extractLsb' 16 16 = 0x2000 then .dp8382x else .genericClone := by
  rw [classify, h, defaultVendorTable]
  by_cases h1 : id.extractLsb' 16 16 = 0x0022
  · simp [h1]
  · by_cases h2 : id.extractLsb' 16 16 = 0x2000
    · simp [h2]
    · rw [if_neg h1, if_neg h2, List.find?_cons_of_neg (by simpa using Ne.symm h1),
        List.find?_cons_of_neg (by simpa using Ne.symm h2)]
      rfl

/-- One bit of a PHY register, as a mask. -/
theorem half_and_bit (v k : Half) (n : Nat) (hk : k = BitVec.twoPow 16 n) :
    v &&& k = if v.getLsbD n then k else 0 := by
  subst hk; exact BitVec.and_twoPow v n

/-- Two bits of a PHY register, as a mask. -/
theorem half_and_three (v : Half) :
    v &&& 3 = (if v.getLsbD 1 then 2 else 0) ||| (if v.getLsbD 0 then 1 else 0) := by
  rw [show (3 : Half) = 2 ||| 1 by decide, BitVec.and_or_distrib_left, half_and_bit v 2 1 (by decide),
    half_and_bit v 1 0 (by decide)]

/-- Settles O32: the table's rows in order, and each mask as the bits it selects. -/
theorem vendorTables : Obligations.VendorTables := by
  refine ⟨fun c id h => ?classify, fun v => ⟨⟨?_, ?_, rfl⟩, ⟨?_, ?_, rfl⟩, ⟨?_, ?_, rfl⟩⟩⟩
  case classify =>
    rw [classify_default h]
    exact ⟨fun h1 => if_pos h1, fun h2 => by rw [h2]; rfl, fun h1 h2 => by rw [if_neg h1, if_neg h2]⟩
  all_goals simp only [decodeSpeed, decodeDuplex, speedRow, Cfg.test]
  · rw [half_and_bit v 0x0008 3 (by decide)]; cases v.getLsbD 3 <;> decide
  · rw [half_and_bit v 0x0010 4 (by decide)]; cases v.getLsbD 4 <;> decide
  · rw [half_and_three]; cases v.getLsbD 0 <;> cases v.getLsbD 1 <;> decide
  · rw [half_and_bit v 0x0004 2 (by decide)]; cases v.getLsbD 2 <;> decide
  · rw [half_and_bit v 0x0002 1 (by decide)]; cases v.getLsbD 1 <;> decide
  · rw [half_and_bit v 0x0004 2 (by decide)]; cases v.getLsbD 2 <;> decide

/-! ### UPPER and system memory -/

theorem upperStore_out_of_bounds {s : State} {a : Nat} (hlive : ringsLive s = true)
    (h : (placeOf s.cfg a).isDesc = true ∨ placeHwOwned s (placeOf s.cfg a) = true) (v : Byte) :
    upperStore a v s = .fault .ownershipViolation := by
  rw [← Bool.or_eq_true] at h
  simp [upperStore, hlive, h]

theorem upperStore_in_bounds {s : State} {a : Nat}
    (h : ringsLive s = false ∨ ((placeOf s.cfg a).isDesc = false ∧ placeHwOwned s (placeOf s.cfg a) = false)) (v : Byte) :
    upperStore a v s = .next (taint a (storeByte a v s)) := by
  rcases h with h | ⟨h1, h2⟩
  · simp [upperStore, h]
  · simp [upperStore, h1, h2]

theorem upperLoad_out_of_bounds {s : State} {a : Nat} (hlive : ringsLive s = true)
    (hw0 : (placeOf s.cfg a).isW0 = false) (h : placeHwOwned s (placeOf s.cfg a) = true) :
    upperLoad a s = .fault .ownershipViolation := by
  simp [upperLoad, hlive, hw0, h]

theorem upperLoad_in_bounds {s : State} {a : Nat}
    (h : ringsLive s = false ∨ (placeOf s.cfg a).isW0 = true ∨ placeHwOwned s (placeOf s.cfg a) = false) :
    upperLoad a s = .next { s with memData := s.byteAt a } := by
  rcases h with h | h | h <;> simp [upperLoad, h]

/-- While `TX` does not run a store leaves no record (R284). -/
theorem taint_of_not_running {s : State} (h : opOf s.hpc ≠ some .tx) (a : Nat) : taint a s = s := by
  simp [taint, txRunning, h]

/-- While `TX` runs, what becomes of the byte written depends on how far its copy is (R284). -/
theorem taint_of_running {s : State} (h : opOf s.hpc = some .tx) (a : Nat) : taint a s =
    if byteCopied s (frameOffset s a) then redrawCopied (frameOffset s a) { s with dirty := a :: s.dirty }
    else if byteInHand s (frameOffset s a) then redrawInHand { s with dirty := a :: s.dirty }
    else { s with dirty := a :: s.dirty } := by
  simp [taint, txRunning, h]

theorem redraw_of_waiting {d : Nat} {s : State} (h : s.hostBuf.any (Pending.storesByteAt d) = true) (v : Byte) :
    redraw d v s = { s with hostBuf := s.hostBuf.map fun p => if p.storesByteAt d then .byte d v else p } := if_pos h

theorem redraw_of_performed {d : Nat} {s : State} (h : s.hostBuf.any (Pending.storesByteAt d) = false) (v : Byte) :
    redraw d v s = storeByte d v s := if_neg (by simp [h])

/-- What `redraw` changes is the list of HOST's accesses or memory. -/
theorem redraw_eq (d : Nat) (v : Byte) (s : State) :
    ∃ m b, redraw d v s = { s with mem := m, hostBuf := b } ∧
      (s.hostBuf.any (Pending.storesByteAt d) = true → m = s.mem ∧
        b = s.hostBuf.map fun p => if p.storesByteAt d then .byte d v else p) ∧
      (s.hostBuf.any (Pending.storesByteAt d) = false → b = s.hostBuf ∧ m = Memory.set s.mem d v) := by
  cases h : s.hostBuf.any (Pending.storesByteAt d) with
  | true => exact ⟨_, _, redraw_of_waiting h v, fun _ => ⟨rfl, rfl⟩, nofun⟩
  | false => exact ⟨_, _, redraw_of_performed h v, nofun, fun _ => ⟨rfl, rfl⟩⟩

theorem redrawCopied_of_handed_over {s : State} (h : s.hpc = .t7 ∨ s.hpc = .t8) (off : Nat) : redrawCopied off s =
    drawn (redrawHandedOver (frameSent s) off (Config.freeByte (s.freeCtr + 1))
      (drawn (redraw (addrAt s.cfg s.h.bufp off) (freeByte s) s))) := by
  have e : freeByte (drawn (redraw (addrAt s.cfg s.h.bufp off) (freeByte s) s)) = Config.freeByte (s.freeCtr + 1) := by
    obtain ⟨m, b, e, -⟩ := redraw_eq (addrAt s.cfg s.h.bufp off) (freeByte s) s
    rw [e]; rfl
  rw [redrawCopied, if_pos h, e]

theorem redrawCopied_of_kept {s : State} (h7 : s.hpc ≠ .t7) (h8 : s.hpc ≠ .t8) (off : Nat) :
    redrawCopied off s = drawn (redraw (addrAt s.cfg s.h.bufp off) (freeByte s) s) :=
  if_neg (by simp [h7, h8])

/-- The byte fetched is redrawn where TXDMA is at the slot, has the byte and has not put it on the wire. -/
theorem redrawFetched_spec (off : Nat) (v : Byte) (s : State) :
    ∃ tx, redrawFetched off v s = { s with tx := tx } ∧
      (∀ j, s.tx.job = some j → s.tx.idx = s.txIdx ∧ j.phase ≠ .qt3 ∧ off ∉ j.todo →
        tx = { s.tx with job := some { j with data := j.data.set off v } }) ∧
      ((∀ j, s.tx.job = some j → ¬ (s.tx.idx = s.txIdx ∧ j.phase ≠ .qt3 ∧ off ∉ j.todo)) → tx = s.tx) := by
  unfold redrawFetched
  split
  · next hnone => exact ⟨s.tx, rfl, fun j hj => absurd (hnone.symm.trans hj) nofun, fun _ => rfl⟩
  · next j hj =>
    split
    · next hf =>
      refine ⟨_, rfl, fun j' hj' _ => ?_, fun h => (h j hj hf).elim⟩
      obtain rfl : j = j' := Option.some.inj (hj.symm.trans hj')
      rfl
    · next hf =>
      refine ⟨s.tx, rfl, fun j' hj' hf' => ?_, fun _ => rfl⟩
      obtain rfl : j = j' := Option.some.inj (hj.symm.trans hj')
      exact (hf hf').elim

/-- What UPPER's store leaves where the byte of the frame it writes has been copied already. -/
theorem redrawCopied_spec (s : State) (off : Nat) :
    ∃ m b tx w c, redrawCopied off s = { s with mem := m, hostBuf := b, tx := tx, wireOut := w, freeCtr := c } ∧
      (s.hostBuf.any (Pending.storesByteAt (addrAt s.cfg s.h.bufp off)) = true → m = s.mem ∧
        b = s.hostBuf.map fun p => if p.storesByteAt (addrAt s.cfg s.h.bufp off)
          then .byte (addrAt s.cfg s.h.bufp off) (Config.freeByte s.freeCtr) else p) ∧
      (s.hostBuf.any (Pending.storesByteAt (addrAt s.cfg s.h.bufp off)) = false → b = s.hostBuf ∧
        m = Memory.set s.mem (addrAt s.cfg s.h.bufp off) (Config.freeByte s.freeCtr)) ∧
      (s.hpc ≠ .t7 → s.hpc ≠ .t8 → tx = s.tx ∧ w = s.wireOut ∧ c = s.freeCtr + 1) ∧
      ((s.hpc = .t7 ∨ s.hpc = .t8) → c = s.freeCtr + 2 ∧
        (frameSent s = true → tx = s.tx ∧ w = wireSetByte off (Config.freeByte (s.freeCtr + 1)) s.wireOut) ∧
        (frameSent s = false → w = s.wireOut ∧
          (∀ j, s.tx.job = some j → s.tx.idx = s.txIdx ∧ j.phase ≠ .qt3 ∧ off ∉ j.todo → tx = { s.tx with
            job := some { j with data := j.data.set off (Config.freeByte (s.freeCtr + 1)) } }) ∧
          ((∀ j, s.tx.job = some j → ¬ (s.tx.idx = s.txIdx ∧ j.phase ≠ .qt3 ∧ off ∉ j.todo)) → tx = s.tx))) := by
  obtain ⟨m, b, e, hwait, hdone⟩ := redraw_eq (addrAt s.cfg s.h.bufp off) (freeByte s) s
  by_cases h78 : s.hpc = .t7 ∨ s.hpc = .t8
  · have hcopied := redrawCopied_of_handed_over h78 off
    rw [e] at hcopied
    cases hsent : frameSent s with
    | true =>
      rw [hsent] at hcopied
      exact ⟨m, b, s.tx, _, _, hcopied, hwait, hdone, fun h7 h8 => (h78.elim h7 h8).elim,
        fun _ => ⟨rfl, fun _ => ⟨rfl, rfl⟩, nofun⟩⟩
    | false =>
      rw [hsent] at hcopied
      obtain ⟨tx, ef, hfetched, hother⟩ := redrawFetched_spec off (Config.freeByte (s.freeCtr + 1))
        (drawn { s with mem := m, hostBuf := b })
      rw [redrawHandedOver, if_neg Bool.false_ne_true, ef] at hcopied
      exact ⟨m, b, tx, s.wireOut, _, hcopied, hwait, hdone, fun h7 h8 => (h78.elim h7 h8).elim,
        fun _ => ⟨rfl, nofun, fun _ => ⟨rfl, hfetched, hother⟩⟩⟩
  · have hcopied := redrawCopied_of_kept (fun h => h78 (.inl h)) (fun h => h78 (.inr h)) off
    rw [e] at hcopied
    exact ⟨m, b, s.tx, s.wireOut, _, hcopied, hwait, hdone, fun _ _ => ⟨rfl, rfl, rfl⟩, fun h => (h78 h).elim⟩

/-- Settles O18: the bounds of UPPER's accesses, then `taint` by how far the copy of the byte is. -/
theorem upperAccessesAreGuarded : Obligations.UpperAccessesAreGuarded := by
  rintro s ms a b v ha rfl
  have hstore : step (s.withMoves (.store a v :: ms)) = upperStore (a % 2 ^ s.cfg.addrW) v (s.withMoves ms) :=
    step_withMoves_cons ha _ _
  have hload : step (s.withMoves (.load a :: ms)) = upperLoad (a % 2 ^ s.cfg.addrW) (s.withMoves ms) :=
    step_withMoves_cons ha _ _
  generalize a % 2 ^ s.cfg.addrW = b at hstore hload
  rw [hstore, hload]
  refine ⟨fun hlive h => upperStore_out_of_bounds (s := s.withMoves ms) hlive h v,
    fun hlive hw0 h => upperLoad_out_of_bounds (s := s.withMoves ms) hlive hw0 h,
    fun h => upperLoad_in_bounds (s := s.withMoves ms) h, fun h => ?_⟩
  rw [upperStore_in_bounds (s := s.withMoves ms) h v]
  refine ⟨fun hop => ?idle, ?_⟩
  case idle => rw [taint_of_not_running (s := storeByte b v (s.withMoves ms)) hop]; rfl
  rintro hop off rfl
  rw [taint_of_running (s := storeByte b v (s.withMoves ms)) hop]
  refine ⟨fun hcopied hhand => ?untouched, fun hcopied hhand => ?inHand, ?_⟩
  case untouched => exact congrArg Host.Outcome.next ((if_neg (Bool.eq_false_iff.1 hcopied)).trans
    (if_neg (Bool.eq_false_iff.1 hhand)))
  case inHand => exact congrArg Host.Outcome.next ((if_neg (Bool.eq_false_iff.1 hcopied)).trans (if_pos hhand))
  rintro hcopied d rfl
  obtain ⟨m, hb, tx, w, c, hr, hwait, hdone, hkept, hover⟩ := redrawCopied_spec
    { storeByte b v (s.withMoves ms) with dirty := b :: s.dirty } (frameOffset s b)
  refine ⟨_, congrArg Host.Outcome.next ((if_pos hcopied).trans hr), rfl, hwait, hdone, hkept, fun h78 => ?_⟩
  obtain ⟨hc, hsent, hunsent⟩ := hover h78
  refine ⟨hc, ?_⟩
  rintro u rfl
  refine ⟨fun hs => ?sent, fun hs => ?unsent⟩
  case sent =>
    obtain ⟨htx, rfl⟩ := hsent hs
    refine ⟨htx, fun hnil => ?_, fun es en hes => ?_⟩
    · show wireSetByte _ _ s.wireOut = []
      rw [hnil]; rfl
    · show wireSetByte _ _ s.wireOut = _
      rw [hes, wireSetByte_append]; rfl
  case unsent =>
    obtain ⟨hw, hfetched, hother⟩ := hunsent hs
    refine ⟨hw, fun hnone => hother fun j hj => ?_, fun j hj => ⟨hfetched j hj, fun hnot => hother fun j' hj' => ?_⟩⟩
    · exact absurd (hnone.symm.trans hj) nofun
    · have : j = j' := Option.some.inj (hj.symm.trans hj')
      exact this ▸ hnot

end Sys2Proof.Machine

/-! PROOFS. HOST's micro-steps: one equation a label of `INIT`, `TX` and `UP` and of the MDIO procedures
(40_driver_contract.md section 2, 42_mdio_phy_bridge.md, 44_transmit.md, 46_link_reconciler.md section 2). -/

namespace Sys2Proof.Machine

/-! ### Where HOST is -/

theorem exec_init_at {l : HostLabel} {s : State} (hat : hostAt l s) (hop : opOf l = some .init := by rfl) :
    exec .init s = initLabel s := contractOp_at_label hop hat ..

theorem exec_tx_at {l : HostLabel} {s : State} (hat : hostAt l s) (hop : opOf l = some .tx := by rfl) :
    exec .tx s = txLabel s := contractOp_at_label hop hat ..

theorem exec_up_at {l : HostLabel} {s : State} (hat : hostAt l s) (hop : opOf l = some .up := by rfl) :
    exec .up s = upLabel s := contractOp_at_label hop hat ..

/-- Inside a sub-procedure HOST takes that procedure's micro-step, whatever operation called it. -/
theorem exec_in_sub {op : Instr} {sub : SubLabel} {s : State} (hin : hostIn op sub s) (hsub : sub ≠ .off) :
    exec op s = subStep s := by
  obtain ⟨hop, rfl, hisr⟩ := hin
  have hcontract : ∀ needs l label, contractOp op needs l label s = subStep s := fun needs l label => by
    simp [contractOp, hop, hostStep, hisr, hsub]
  cases hl : s.hpc <;> rw [hl] at hop <;> cases hop <;> exact hcontract ..

/-- The handler holds HOST (00_scope.md R13). -/
theorem exec_held {op : Instr} {s : State} (hop : opOf s.hpc = some op) (hisr : s.inIsr = true) :
    exec op s = .next s := by
  have hcontract : ∀ needs l label, contractOp op needs l label s = .next s := fun needs l label => by
    simp [contractOp, hop, hostStep, hisr]
  cases hl : s.hpc <;> rw [hl] at hop <;> cases hop <;> exact hcontract ..

/-! ### An ordering point and what it has nothing to do with -/

theorem flush_commute {f : State → State} (c : Ctx) (hperf : ∀ p s, performAccess p (f s) = f (performAccess p s))
    (hpend : ∀ s, (f s).pending c = s.pending c) (hset : ∀ s b, (f s).setPending c b = f (s.setPending c b))
    (s : State) : flush c (f s) = f (flush c s) := by
  rw [flush, hpend, performAccesses_commute hperf, hset, flush]

theorem flush_setInitialized (c : Ctx) (b : Bool) (s : State) :
    flush c { s with initialized := b } = { flush c s with initialized := b } :=
  flush_commute (f := fun s => { s with initialized := b }) c
    (fun p _ => by rcases p with _ | _ | ⟨_, _ | _⟩ | _ <;> rfl) (fun _ => by cases c <;> rfl)
    (fun _ _ => by cases c <;> rfl) s

theorem flush_withMoves (c : Ctx) (ms : List Move) (s : State) :
    flush c (s.withMoves ms) = (flush c s).withMoves ms :=
  flush_commute (f := fun s => s.withMoves ms) c
    (fun p _ => by rcases p with _ | _ | ⟨_, _ | _⟩ | _ <;> rfl) (fun _ => by cases c <;> rfl)
    (fun _ _ => by cases c <;> rfl) s

/-! ### The MDIO procedures -/

/-- One pass of a wait that finds the controller free (42_mdio_phy_bridge.md R202, R204). -/
theorem mdioPoll_of_free {s : State} (h : busyBit s.regs.mdioCtrl = false) (done : SubLabel) : mdioPoll done s =
    { flush .host s with hsub := done, h := { (flush .host s).h with c := s.regs.mdioCtrl } } := by
  rcases mdioPoll_cases done s with ⟨-, e⟩ | ⟨h', -⟩ | ⟨h', -⟩
  · exact e
  all_goals rw [h] at h'; cases h'

theorem mdioPoll_of_busy {s : State} (h : busyBit s.regs.mdioCtrl = true) (hp : s.h.polls + 1 ≠ s.cfg.mdioBudget)
    (done : SubLabel) : mdioPoll done s =
      { flush .host s with h := { (flush .host s).h.onePoll with c := s.regs.mdioCtrl } } := by
  rcases mdioPoll_cases done s with ⟨h', -⟩ | ⟨-, -, e⟩ | ⟨-, h', -⟩
  · rw [h] at h'; cases h'
  · exact e
  · exact (hp h').elim

/-- The last pass the budget allows (R211). -/
theorem mdioPoll_of_last {s : State} (h : busyBit s.regs.mdioCtrl = true) (hp : s.h.polls + 1 = s.cfg.mdioBudget)
    (done : SubLabel) : mdioPoll done s =
      { raise .phyTimeout (flush .host s) with
        hsub := .off, h := { (flush .host s).h.onePoll with c := s.regs.mdioCtrl, ok := false } } := by
  rcases mdioPoll_cases done s with ⟨h', -⟩ | ⟨-, h', -⟩ | ⟨-, -, e⟩
  · rw [h] at h'; cases h'
  · exact (h' hp).elim
  · exact e

/-- The control word goes out with the divider code just read back (R203, R209). -/
theorem mdioIssue_of_free {s : State} (h : busyBit s.regs.mdioCtrl = false) (wr : Bool) (wait : SubLabel) :
    mdioIssue wr wait s = .next { flush .host s with
      regs := { s.regs with mdioCtrl := mdioWord s.cfg.phyAddr (mdioReg s) (crField s.h.c) wr }
      hsub := wait, h := (flush .host s).h.noPolls } := by
  rw [mdioIssue, ctxRegWrite, regWrite_mdioCtrl_of_free (by simpa using h), mdioWord_and_mask, flush_regs]
  rfl

theorem mdioIssue_of_busy {s : State} (h : busyBit s.regs.mdioCtrl = true) (wr : Bool) (wait : SubLabel) :
    mdioIssue wr wait s = .refused .mdioWriteWhileBusy := by
  rw [mdioIssue, ctxRegWrite, regWrite_mdioCtrl_of_busy (by simpa using h)]
  rfl

/-- R205. -/
theorem mdioFetch_eq (s : State) : mdioFetch s = { flush .host s with
    hsub := .off, h := { (flush .host s).h with v := s.regs.mdioData.extractLsb' 0 16, ok := true } } := rfl

/-- A 16-bit datum as a register word has no bit above bit 15. -/
theorem half_and_mask (v : Half) : v.setWidth 32 &&& (0xFFFF : Word) = v.setWidth 32 := by
  apply BitVec.eq_of_getLsbD_eq
  intro n hn
  rw [BitVec.getLsbD_and]
  by_cases h : n < 16
  · interval_cases n <;> simp
  · simp [BitVec.getLsbD_of_ge v n (by omega)]

/-- R208. -/
theorem mdioPutData_eq (s : State) : mdioPutData s = .next { flush .host s with
    regs := { s.regs with mdioData := s.cfg.bcrReset.setWidth 32 }, hsub := .mw2 } := by
  have hmask : s.cfg.bcrReset.setWidth 32 &&& mdioDataMask = s.cfg.bcrReset.setWidth 32 := half_and_mask _
  rw [mdioPutData, ctxRegWrite, regWrite, hmask, flush_regs]
  rfl

theorem initN0_eq (s : State) : initN0 s = .next { flush .host s with
    initialized := false, regs := { s.regs with ctrl := s.regs.ctrl ||| 1 }
    h := (flush .host s).h.noPolls, hpc := .n1, hsub := .off, hmic := 0 } := by
  rw [initN0, ctxRegWrite, flush_setInitialized, regWrite, ctrlWrite_of_reset (by decide), flush_regs]
  rfl

/-! ### `INIT` before the rings -/

theorem initN1_of_done {s : State} (h : swrstBit s.regs.ctrl = false) : initN1 s = { flush .host s with
    h := { (flush .host s).h with c := s.regs.ctrl }, hpc := .n2, hsub := .off, hmic := 0 } :=
  if_neg (Bool.eq_false_iff.1 h)

/-- The state after an unsuccessful poll of the reset (40_driver_contract.md R167). -/
def resetPolled (s : State) : State :=
  { flush .host s with h := { (flush .host s).h.onePoll with c := s.regs.ctrl } }

@[simp] theorem resetPolled_polls (s : State) : (resetPolled s).h.polls = s.h.polls + 1 :=
  (polls_onePoll (flush .host s).h).trans (by simp)

theorem initN1_of_pending {s : State} (h : swrstBit s.regs.ctrl = true) : initN1 s =
    if s.h.polls + 1 = s.cfg.resetBudget then finish 0 (raise .macResetTimeout (resetPolled s)) else resetPolled s := by
  have hcfg : (resetPolled s).cfg = s.cfg := flush_cfg .host s
  rw [← resetPolled_polls, ← hcfg]
  exact if_pos h

theorem initN1_of_again {s : State} (h : swrstBit s.regs.ctrl = true) (hp : s.h.polls + 1 ≠ s.cfg.resetBudget) :
    initN1 s = resetPolled s := by rw [initN1_of_pending h, if_neg hp]

theorem initN1_of_last {s : State} (h : swrstBit s.regs.ctrl = true) (hp : s.h.polls + 1 = s.cfg.resetBudget) :
    initN1 s = finish 0 (raise .macResetTimeout (resetPolled s)) := by rw [initN1_of_pending h, if_pos hp]

/-- The divider code in its place in MDIO_CTRL: no reserved bit (R168). -/
theorem code_and_mask : ∀ code : BitVec 4, (code.setWidth 32 <<< 4) &&& mdioCtrlMask = code.setWidth 32 <<< 4 := by
  decide

theorem initN3_of_free {s : State} (h : busyBit s.regs.mdioCtrl = false) : initN3 s = .next { flush .host s with
    regs := { s.regs with mdioCtrl := s.h.code.setWidth 32 <<< 4 }, hpc := .n4, hsub := .off, hmic := 0 } := by
  rw [initN3, ctxRegWrite, regWrite_mdioCtrl_of_free (by simpa using h), code_and_mask, flush_regs]
  rfl

theorem initN3_of_busy {s : State} (h : busyBit s.regs.mdioCtrl = true) :
    initN3 s = .refused .mdioWriteWhileBusy := by
  rw [initN3, ctxRegWrite, regWrite_mdioCtrl_of_busy (by simpa using h)]
  rfl

theorem toNat_code : ∀ code : BitVec 4, (code.setWidth 32 <<< 4 : Word).toNat = 16 * code.toNat := by decide

/-- An event that may be raised changes the trace and DIAG. -/
theorem raiseOpt_eq (e : Option Event) (s : State) : ∃ events diag,
    raiseOpt e s = { s with events := events, regs := { s.regs with diag := diag } } ∧
      (e = none → events = s.events ∧ diag = s.regs.diag) ∧
      ∀ ev, e = some ev → events = s.events ++ [ev] ∧ diag = s.regs.diag ||| diagBits ev := by
  cases e with
  | none => exact ⟨_, _, rfl, fun _ => ⟨rfl, rfl⟩, nofun⟩
  | some e => exact ⟨_, _, rfl, nofun, by rintro ev ⟨⟩; exact ⟨rfl, rfl⟩⟩

/-- Settles O35: the label's equation in each clause. -/
theorem initStepsBeforeTheRings : Obligations.InitStepsBeforeTheRings := by
  refine ⟨fun s => ⟨fun hat => ?n0, fun hat h => ?n1Done, fun hat h hp => ?n1Again, fun hat => ?n2, fun hat h => ?n3Busy,
      fun hat h => ?n3⟩,
    fun s => ⟨fun hat hm => ?n4Call, fun hat hm h => ?n4Ok, fun hat hm h => ?n4Fail, fun hat hm => ?n5Call1,
      fun hat hm h => ?n5Id1, fun hat hm => ?n5Call2, fun hat hm h => ?n5Id2, fun hat hm h => ?n5Fail⟩⟩
  all_goals rw [exec_init_at hat, initLabel, hat.1]
  case n0 => exact initN0_eq s
  case n1Done => exact congrArg Host.Outcome.next (initN1_of_done h)
  case n1Again =>
    refine ⟨_, congrArg Host.Outcome.next (initN1_of_again h hp), resetPolled_polls s, ?_⟩
    simp [resetPolled, HostRegs.onePoll]
  case n2 =>
    obtain ⟨events, diag, e, hnone, hsome⟩ :=
      raiseOpt_eq (mdcSel s.cfg).2 { s with h := { s.h with code := (mdcSel s.cfg).1 } }
    refine ⟨_, rfl, ?_⟩
    rw [initN2, e]
    exact ⟨rfl, hnone, hsome _, hsome _⟩
  case n3Busy => exact initN3_of_busy h
  case n3 => exact ⟨_, initN3_of_free h, toNat_code s.h.code, rfl⟩
  case n4Call => simp [initN4, hm, callSub, HostRegs.noPolls, hat.1]
  case n4Ok => simp [initN4, hm, h]
  case n4Fail => simp [initN4, hm, h]
  case n5Call1 => simp [initN5, hm, callSub, HostRegs.noPolls, hat.1]
  case n5Id1 => simp [initN5, hm, h, hat.1]
  case n5Call2 => simp [initN5, hm, callSub, HostRegs.noPolls, hat.1]
  case n5Id2 => simp [initN5, hm, h, hat.1]
  case n5Fail => rcases hm with hm | hm <;> simp [initN5, hm, h]

/-! ### `INIT` from the rings -/

/-- A base aligned to a descriptor keeps its value in a base register (10_state.md R44). -/
theorem and_baseMask {v : Word} (h : v.toNat % 16 = 0) : v &&& baseMask = v := by
  have hlow : v.extractLsb' 0 4 = 0 := BitVec.eq_of_toNat_eq (by simpa [BitVec.extractLsb'_toNat] using h)
  apply BitVec.eq_of_getLsbD_eq
  intro n hn
  rw [BitVec.getLsbD_and]
  by_cases h4 : n < 4
  · have : (v.extractLsb' 0 4).getLsbD n = false := by rw [hlow]; simp
    rw [BitVec.getLsbD_extractLsb'] at this
    simp_all
  · have : baseMask.getLsbD n = true := by
      interval_cases n <;> decide
    rw [this, Bool.and_true]

/-- The two bytes of MACADDR_HI (30_encoding.md R132). -/
theorem macHiOf_and_mask (m : MacAddr) : macHiOf m &&& macHiMask = macHiOf m := by
  have e : macHiOf m = (m.b5 ++ m.b4).setWidth 32 := by
    apply BitVec.eq_of_getLsbD_eq
    intro n hn
    simp only [macHiOf, leWord, BitVec.getLsbD_append, BitVec.getLsbD_setWidth, hn, decide_true, Bool.true_and]
    split
    · rfl
    · split
      · rfl
      · rw [BitVec.getLsbD_of_ge m.b5 _ (by omega)]; simp
  rw [e]; exact half_and_mask _

theorem ctrlWrite_six (s : State) : ctrlWrite 6 s =
    { s with
      regs := { s.regs with ctrl := (s.regs.ctrl &&& 1) ||| 6 }
      rx := rxEnableEdge (rxenBit s.regs.ctrl) true s.rx, tx := txEnableEdge (txenBit s.regs.ctrl) true s.tx } := by
  rw [ctrlWrite_of_enables (by decide)]
  rfl

theorem initN10_eq (s : State) : andNext (ctxRegWrite .host .ctrl 0x6 s) (goto .n11) = .next { flush .host s with
    regs := { s.regs with ctrl := (s.regs.ctrl &&& 1) ||| 6 }
    rx := rxEnableEdge (rxenBit s.regs.ctrl) true s.rx, tx := txEnableEdge (txenBit s.regs.ctrl) true s.tx
    hpc := .n11, hsub := .off, hmic := 0 } := by
  rw [ctxRegWrite, regWrite, ctrlWrite_six, flush_regs, flush_rx, flush_tx]
  rfl

theorem initN6_rxBase {s : State} (hm : s.hmic = 0) (h : rxenBit s.regs.ctrl = false) : initN6 s =
    .next { flush .host s with regs := { s.regs with rxBase := s.cfg.rxdBase &&& baseMask }, hmic := 1 } := by
  rw [initN6, hm, ← flush_regs .host s]
  exact congrArg (andNext · fun s => { s with hmic := 1 }) (regWrite_rxBase_of_disabled (by simpa using h) _)

theorem initN6_txBase {s : State} (hm : s.hmic = 1) (h : txenBit s.regs.ctrl = false) : initN6 s =
    .next { flush .host s with regs := { s.regs with txBase := s.cfg.txdBase &&& baseMask }, hmic := 2 } := by
  rw [initN6, hm, ← flush_regs .host s]
  exact congrArg (andNext · fun s => { s with hmic := 2 }) (regWrite_txBase_of_disabled (by simpa using h) _)

theorem initN6_rxBase_fault {s : State} (hm : s.hmic = 0) (h : rxenBit s.regs.ctrl = true) :
    initN6 s = .fault .baseWriteWhileEnabled := by
  rw [initN6, hm]
  exact congrArg (andNext · fun s => { s with hmic := 1 }) (regWrite_rxBase_of_enabled (by simpa using h) _)

theorem initN6_txBase_fault {s : State} (hm : s.hmic = 1) (h : txenBit s.regs.ctrl = true) :
    initN6 s = .fault .baseWriteWhileEnabled := by
  rw [initN6, hm]
  exact congrArg (andNext · fun s => { s with hmic := 2 }) (regWrite_txBase_of_enabled (by simpa using h) _)

theorem initN7_lo {s : State} (hm : s.hmic = 0) : initN7 s =
    .next { flush .host s with regs := { s.regs with macLo := macLoOf s.cfg.mac }, hmic := 1 } := by
  rw [initN7, hm, ← flush_regs .host s]; rfl

theorem initN7_hi {s : State} (hm : s.hmic = 1) : initN7 s =
    .next { flush .host s with regs := { s.regs with macHi := macHiOf s.cfg.mac }, hmic := 2 } := by
  rw [← macHiOf_and_mask, initN7, hm, ← flush_regs .host s]; rfl

theorem initN7_filter {s : State} (h0 : s.hmic ≠ 0) (h1 : s.hmic ≠ 1) : initN7 s =
    .next { flush .host s with
      regs := { s.regs with filter := 2 }, hpc := .n8, hsub := .off, hmic := 0 } := by
  have e : initN7 s = andNext (ctxRegWrite .host .filter 0x2 s) (goto .n8) := by
    unfold initN7; split <;> first | contradiction | rfl
  rw [e, ← flush_regs .host s]; rfl

theorem initN11_eq (s : State) : andNext (ctxRegWrite .host .intEn 0x1 s) (goto .n12) = .next { flush .host s with
    regs := { s.regs with intEn := 1 }, hpc := .n12, hsub := .off, hmic := 0 } := by
  rw [← flush_regs .host s]; rfl

/-- Settles O36: the label's equation in each clause. -/
theorem initStepsFromTheRings : Obligations.InitStepsFromTheRings := by
  refine ⟨fun s => ⟨fun hat hm h hal => ?n6Rx, fun hat hm h hal => ?n6Tx, fun hat hm h => ?n6RxFault,
      fun hat hm h => ?n6TxFault, fun hat hm => ?n6Call, fun hat hm => ?n6Done, fun hat hm => ?n7Lo, fun hat hm => ?n7Hi,
      fun hat hm => ?n7Filter⟩,
    fun s => ⟨fun hat => ?n8, fun hat => ?n9, fun hat => ?n10, fun hat => ?n11, fun hat => ?n12⟩⟩
  all_goals rw [exec_init_at hat, initLabel, hat.1]
  case n6Rx => rw [← and_baseMask hal]; exact initN6_rxBase hm h
  case n6Tx => rw [← and_baseMask hal]; exact initN6_txBase hm h
  case n6RxFault => exact initN6_rxBase_fault hm h
  case n6TxFault => exact initN6_txBase_fault hm h
  case n6Call => simp [initN6, hm, hat.1]
  case n6Done => simp [initN6, hm]
  case n7Lo => exact initN7_lo hm
  case n7Hi => exact initN7_hi hm
  case n7Filter => exact initN7_filter (by omega) (by omega)
  case n10 =>
    refine ⟨_, initN10_eq s, rfl, fun h => ?_, fun h => ?_, fun h => ?_, fun h => ?_⟩ <;> dsimp only [rxenBit, txenBit]
    · rw [h, rxEnableEdge_start]
    · rw [h, rxEnableEdge_same]
    · rw [h, txEnableEdge_start]
    · rw [h, txEnableEdge_same]
  case n11 => exact initN11_eq s
  case n12 => rfl

end Sys2Proof.Machine

/-! PROOFS. The micro-steps of `TX` and `UP` (44_transmit.md steps T0 to T8, 46_link_reconciler.md steps U0 to U6). -/

namespace Sys2Proof.Machine

/-! ### What must be performed before a context goes on -/

/-- Nothing outstanding, nothing to perform. -/
theorem settle_of_nil {c : Ctx} {s : State} (h : s.pending c = []) (want : Pending → Bool) : settle c want s = s :=
  settle_none c want s fun p hp => by rw [h] at hp; cases hp

theorem settle_eq {c : Ctx} {want : Pending → Bool} {s : State} {now later : List Pending}
    (h : splitNeeded want (s.pending c) = (now, later)) :
    settle c want s = (performAccesses now s).setPending c later := by rw [settle, h]

/-- Where only the oldest access is wanted, it alone is performed. -/
theorem splitNeeded_cons_wanted {want : Pending → Bool} {p : Pending} {ps : List Pending} (hp : want p = true)
    (hps : ∀ q ∈ ps, want q = false) : splitNeeded want (p :: ps) = ([p], ps) := by
  simp [splitNeeded, splitNeeded_none want ps hps, hp]

/-! ### T0 and T1 -/

/-- T0's ring test: what is outstanding to the descriptor's word 0 goes first (20_memory.md R97). -/
theorem txRingTest_eq (s : State) : txRingTest s =
    let u := settle .host (Pending.hits (wordAddrs (txSlot s 0))) s
    if ownBit (u.wordAt (txSlot s 0)) then
      finish 0 (raise .ringFull { u with h := { u.h with w0 := u.wordAt (txSlot s 0) } })
    else goto .t1 { u with h := { u.h with w0 := u.wordAt (txSlot s 0) } } := by
  have hslot : txSlot (settle .host (Pending.hits (wordAddrs (txSlot s 0))) s) 0 = txSlot s 0 := by simp [txSlot, txd]
  simp only [txRingTest, settleAddrs_eq, hslot]

theorem raise_ringFull (s : State) : raise .ringFull s = { s with events := s.events ++ [.ringFull] } := by
  simp [raise, diagBits]

theorem raise_oversize (s : State) : raise .oversize s = { s with events := s.events ++ [.oversize] } := by
  simp [raise, diagBits]

theorem raise_rxBadFrame (s : State) : raise .rxBadFrame s = { s with events := s.events ++ [.rxBadFrame] } := by
  simp [raise, diagBits]

theorem txT0_buf {s : State} (hm : s.hmic = 0) : txT0 s =
    { flush .host s with hmic := 1, h := { (flush .host s).h with buf := s.regs.argBuf } } := by
  simp [txT0, hm, regRead]

theorem txT0_len {s : State} (hm : s.hmic = 1) : txT0 s =
    { flush .host s with hmic := 2, h := { (flush .host s).h with len := s.regs.argLen } } := by
  simp [txT0, hm, regRead]

theorem txT0_test {s : State} (h0 : s.hmic ≠ 0) (h1 : s.hmic ≠ 1) : txT0 s = txRingTest s := by
  unfold txT0; split <;> first | contradiction | rfl

theorem txT1_long {s : State} (h : s.cfg.bufSize < s.h.len.toNat) : txT1 s =
    finish 0 { s with nerr := counterAdd s.cfg s.nerr 1, events := s.events ++ [.oversize] } :=
  (if_pos h).trans (by rw [raise_oversize])

theorem txT1_fits {s : State} (h : s.h.len.toNat ≤ s.cfg.bufSize) : txT1 s = goto .t2 s := if_neg (by omega)

/-- Settles O39: the label's equation in each clause; nothing is outstanding, so the ordering points and the ring test
perform nothing. -/
theorem txTestsRingThenLength : Obligations.TxTestsRingThenLength := by
  refine ⟨fun s hat hnil => ⟨fun hm => ?buf, fun hm => ?len, fun hm hown => ?full, fun hm hfree => ?free⟩,
    fun s hat => ⟨fun h => ?long, fun h => ?fits⟩⟩
  all_goals rw [exec_tx_at hat, txLabel]
  all_goals simp only [hat.1]
  case buf => rw [txT0_buf hm, flush_host_of_nil hnil, ← hat.1]
  case len => rw [txT0_len hm, flush_host_of_nil hnil, ← hat.1]
  case full =>
    rw [txT0_test (by omega) (by omega), txRingTest_eq, settle_of_nil (c := .host) hnil]
    exact congrArg Host.Outcome.next ((if_pos hown).trans (by rw [raise_ringFull]; rfl))
  case free =>
    rw [txT0_test (by omega) (by omega), txRingTest_eq, settle_of_nil (c := .host) hnil]
    exact congrArg Host.Outcome.next (if_neg (by simpa [txSlot] using hfree))
  case long => rw [txT1_long h]; rfl
  case fits => rw [txT1_fits h]; rfl

/-! ### T2, the copy -/

theorem txOwned_of_free {s : State} (h : hwOwns s (txSlot s 0) = false) (f : State → Out) : txOwned f s = f s :=
  if_neg (by simp [h])

theorem txOwned_of_owned {s : State} (h : hwOwns s (txSlot s 0) = true) (f : State → Out) :
    txOwned f s = .fault .ownershipViolation := if_pos h

theorem Place.isTxBuf_iff (p : Place) : p.isTxBuf = true ↔ ∃ k, p = .txBuf k := by
  cases p <;> simp [Place.isTxBuf]

/-- A byte of the caller's frame that is the block's own, or UPPER's no more, is a free value (93 U15, log 11). -/
theorem txReadByte_free {s : State} (hdesc : (placeOf s.cfg (txSource s)).isDesc = false)
    (hown : placeHwOwned s (placeOf s.cfg (txSource s)) = false)
    (h : (placeOf s.cfg (txSource s)).isTxBuf = true ∨ s.dirty.contains (txSource s) = true) : txReadByte s =
      .next { s with hmic := 2, h := { s.h with byte := freeByte s }, freeCtr := s.freeCtr + 1 } := by
  rw [← Bool.or_eq_true] at h
  simp only [txReadByte, hdesc, hown, Bool.or_false, Bool.false_eq_true, if_false, h, if_true]
  rfl

theorem txReadByte_load {s : State} (hdesc : (placeOf s.cfg (txSource s)).isDesc = false)
    (hown : placeHwOwned s (placeOf s.cfg (txSource s)) = false)
    (hbuf : (placeOf s.cfg (txSource s)).isTxBuf = false) (hclean : s.dirty.contains (txSource s) = false) :
    txReadByte s = .next { issue .host (.load (txSource s) .hostByte) s with hmic := 2 } := by
  simp only [txReadByte, hdesc, hown, hbuf, hclean, Bool.or_false, Bool.false_eq_true, if_false]

theorem txReadByte_fault {s : State} (h : (placeOf s.cfg (txSource s)).isDesc = true ∨
    placeHwOwned s (placeOf s.cfg (txSource s)) = true) : txReadByte s = .fault .ownershipViolation := by
  rw [← Bool.or_eq_true] at h
  simp [txReadByte, h]

/-- A pending load of the byte in hand becomes the copy of that byte; every other access stays. -/
theorem map_withStore_of_fills_none {ps : List Pending} (h : ∀ p ∈ ps, p.fills = none) (dst : Nat) :
    ps.map (Pending.withStore dst) = ps := by
  conv_rhs => rw [← List.map_id ps]
  refine List.map_congr_left fun p hp => ?_
  have := h p hp
  cases p with
  | load a r => cases this
  | _ => rfl

/-- Loads only, of one register each, are wanted by register. -/
theorem wants_eq_false_of_fills_none {ps : List Pending} (h : ∀ p ∈ ps, p.fills = none) (r : LoadReg) :
    ∀ p ∈ ps, decide (p.fills = some r) = false := fun p hp => by simp [h p hp]

theorem settleReg_of_fills_none {s : State} (h : ∀ p ∈ s.hostBuf, p.fills = none) (r : LoadReg) :
    settleReg .host r s = s := settle_none .host _ s (wants_eq_false_of_fills_none h r)

/-- The write of a byte that has been loaded is issued on its own. -/
theorem txWriteByte_of_loaded {s u : State} (hu : settleReg .host .hostBufp s = u)
    (h : ∀ p ∈ u.hostBuf, p.fills ≠ some .hostByte) :
    txWriteByte s = issue .host (.byte (txDest u) u.h.byte) u := by
  have hnone : (u.hostBuf.any fun p => decide (p.fills = some .hostByte)) = false := by simpa using h
  rw [txWriteByte, hu, hnone]
  rfl

/-- The write of a byte whose load waits waits with it. -/
theorem txWriteByte_of_waiting {s u : State} (hu : settleReg .host .hostBufp s = u) {p : Pending}
    (hp : p ∈ u.hostBuf) (h : p.fills = some .hostByte) :
    txWriteByte s = { u with hostBuf := u.hostBuf.map (Pending.withStore (txDest u)) } := by
  have hsome : (u.hostBuf.any fun p => decide (p.fills = some .hostByte)) = true :=
    List.any_eq_true.2 ⟨p, hp, by simp [h]⟩
  rw [txWriteByte, hu]
  exact if_pos hsome

theorem txT2_pointer {s : State} (hm : s.hmic = 0) (h : hwOwns s (txSlot s 0) = false) : txT2 s =
    .next (copyAt 1 0 (issue .host (.load (txSlot s 2) .hostBufp) s)) := by
  rw [txT2, hm]; exact txOwned_of_free h _

theorem txT2_end {s : State} (hm : s.hmic = 1) (h : s.h.len.toNat ≤ s.h.j.toNat) : txT2 s = .next (goto .t3 s) := by
  rw [txT2, hm]; exact if_neg (by omega)

theorem txT2_read {s : State} (hm : s.hmic = 1) (h : s.h.j.toNat < s.h.len.toNat) : txT2 s = txReadByte s := by
  rw [txT2, hm]; exact if_pos h

theorem txT2_write_eq {s : State} (h0 : s.hmic ≠ 0) (h1 : s.hmic ≠ 1) : txT2 s =
    txOwned (fun s => .next (copyAt 1 (s.h.j + 1) (txWriteByte s))) s := by
  unfold txT2; split <;> first | contradiction | rfl

theorem txT2_write {s : State} (h0 : s.hmic ≠ 0) (h1 : s.hmic ≠ 1) (h : hwOwns s (txSlot s 0) = false) : txT2 s =
    .next (copyAt 1 (s.h.j + 1) (txWriteByte s)) :=
  (txT2_write_eq h0 h1).trans (txOwned_of_free h _)

/-- The buffer pointer's load is performed when it is the oldest access and the only one of the pointer. -/
theorem settleReg_bufp_cons {s : State} {d : Nat} {ps : List Pending} (hbuf : s.hostBuf = .load d .hostBufp :: ps)
    (h : ∀ p ∈ ps, p.fills ≠ some .hostBufp) :
    settleReg .host .hostBufp s = { s with h := { s.h with bufp := s.wordAt d }, hostBuf := ps } := by
  have hsplit : splitNeeded (fun p => decide (p.fills = some .hostBufp)) (s.pending .host) =
      ([.load d .hostBufp], ps) := by
    rw [pending_host, hbuf]
    exact splitNeeded_cons_wanted rfl fun p hp => by simpa using h p hp
  exact settle_eq hsplit

/-- Settles O40: the label's equation in each clause; for the write, by what is outstanding. -/
theorem txCopiesOneByte : Obligations.TxCopiesOneByte := by
  intro s hat
  rw [exec_tx_at hat, txLabel]
  simp only [hat.1]
  refine ⟨fun hm h => ?pointer, fun hm h => ?finish, ?read, fun hm h => ?write⟩
  case pointer => exact ⟨_, rfl, txT2_pointer hm h⟩
  case finish => exact txT2_end hm h
  case read =>
    rintro a rfl hm hj hdesc hown
    rw [txT2_read hm hj]
    refine ⟨fun hbuf hclean => ?load, fun h => ?free⟩
    case load =>
      refine txReadByte_load hdesc hown (Bool.eq_false_iff.2 fun h => ?_) hclean
      obtain ⟨k, hk⟩ := (Place.isTxBuf_iff _).1 h
      exact hbuf k hk
    case free => rw [txReadByte_free hdesc hown (h.imp_left (Place.isTxBuf_iff _).2), hat.1]; rfl
  case write =>
    rw [txT2_write (by omega) (by omega) h]
    refine ⟨fun hnone => ?loaded, fun pre a hbuf hpre => ?waiting, fun d a hbuf => ?bothWait, fun d hbuf => ?pointerWaits⟩
    case loaded =>
      refine ⟨_, rfl, ?_⟩
      rw [txWriteByte_of_loaded (settleReg_of_fills_none hnone _) fun p hp => by simp [hnone p hp]]
      rfl
    case waiting =>
      have hsettle : settleReg .host .hostBufp s = s := by
        refine settle_none .host _ s fun p hp => ?_
        rw [pending_host, hbuf, List.mem_append, List.mem_singleton] at hp
        rcases hp with hp | rfl
        · simp [hpre p hp]
        · rfl
      rw [txWriteByte_of_waiting hsettle (p := .load a .hostByte) (by simp [hbuf]) rfl, hbuf, List.map_append,
        map_withStore_of_fills_none hpre, hat.1]
      rfl
    case bothWait =>
      rw [txWriteByte_of_waiting (settleReg_bufp_cons hbuf (by simp [Pending.fills])) (p := .load a .hostByte)
        (by simp) rfl, hat.1]
      rfl
    case pointerWaits =>
      refine ⟨_, rfl, ?_⟩
      rw [txWriteByte_of_loaded (settleReg_bufp_cons hbuf (by simp)) (by simp)]
      rw [← hat.1]; rfl

/-! ### T3 to T8 -/

theorem txT7_fence {s : State} (hm : s.hmic = 0) : txT7 s = .next { flush .host s with hmic := 1 } := by
  rw [txT7, hm]; rfl

/-- The doorbell of a context wakes a Suspended TXDMA (43_ring_ownership.md R253). -/
theorem txT7_doorbell {s : State} (hm : s.hmic ≠ 0) : txT7 s = .next (goto .t8 (doorbell (flush .host s))) := by
  unfold txT7; split <;> first | contradiction | rfl

/-- Settles O41: the label's equation in each clause. -/
theorem txPublishesAndCounts : Obligations.TxPublishesAndCounts := by
  refine ⟨fun s => ⟨fun hat h => ?t3, fun hat h => ?t4, fun hat => ?t5, fun hat h => ?t6⟩,
    fun s => ⟨fun hat hm => ?fence, fun hat hm hst => ?wake, fun hat hm hst => ?none, fun hat => ?t8⟩⟩
  all_goals rw [exec_tx_at hat, txLabel]
  all_goals simp only [hat.1]
  case t3 => exact txOwned_of_free h _
  case t4 => exact txOwned_of_free h _
  case t6 => exact txOwned_of_free h _
  case fence => rw [txT7_fence hm]; rfl
  case wake =>
    rw [txT7_doorbell (by omega), doorbell_of_suspended (by simpa using hst), flush_tx]
  case none =>
    rw [txT7_doorbell (by omega), doorbell_of_not_suspended (by simpa using hst)]
  case t8 => rfl

/-! ### UP -/

theorem upU1_down {s : State} (h : s.h.v.getLsbD s.cfg.bsrLink.toNat = false) : upU1 s =
    finish 0 { s with link := .down, h := { s.h with up := false } } := by
  simp only [upU1, h]; rfl

theorem upU1_already {s : State} (h : s.h.v.getLsbD s.cfg.bsrLink.toNat = true) (hl : s.link = .up) : upU1 s =
    finish 1 { s with h := { s.h with up := true } } := by
  simp only [upU1, h, hl]; rfl

theorem upU1_edge {s : State} (h : s.h.v.getLsbD s.cfg.bsrLink.toNat = true) (hl : s.link = .down) : upU1 s =
    goto .u2 { s with h := { s.h with up := true } } := by
  simp only [upU1, h, hl]; rfl

theorem upU4_eq (s : State) : upU4 s =
    goto .u5 { flush .host s with h := { (flush .host s).h with c := s.regs.maccfg } } := rfl

/-- Only SPEED100 and FULLDUP of the word written are kept (10_state.md R37). -/
theorem maccfgWord_and_mask (s : State) :
    maccfgWord s &&& maccfgMask = flagWord s.h.spd 1 ||| flagWord s.h.dup 2 := by
  have hkeep : s.h.c &&& 0xFFFFFFFC &&& maccfgMask = 0 := by
    rw [BitVec.and_assoc, show (0xFFFFFFFC : Word) &&& maccfgMask = 0#32 by decide, BitVec.and_zero]; rfl
  rw [maccfgWord, BitVec.and_or_distrib_right, hkeep]
  cases s.h.spd <;> cases s.h.dup <;> decide

theorem toNat_maccfg_bits (spd dup : Bool) :
    (flagWord spd 1 ||| flagWord dup 2).toNat = (if spd then 1 else 0) + 2 * (if dup then 1 else 0) := by
  cases spd <;> cases dup <;> decide

theorem upU5_eq (s : State) : andNext (ctxRegWrite .host .maccfg (maccfgWord s) s) (goto .u6) =
    .next (goto .u6 { flush .host s with
      regs := { s.regs with maccfg := flagWord s.h.spd 1 ||| flagWord s.h.dup 2 } }) := by
  rw [← maccfgWord_and_mask, ← flush_regs .host s]; rfl

/-- Settles O43: the label's equation in each clause. -/
theorem upSteps : Obligations.UpSteps := by
  refine ⟨fun s => ⟨fun hat hm => ?u0Call, fun hat hm h => ?u0Fail, fun hat hm h => ?u0Ok, fun hat h => ?u1Down,
      fun hat h hl => ?u1Already, fun hat h hl => ?u1Edge⟩,
    fun s => ⟨fun hat hm => ?u2Call, fun hat => ?u2Reg, fun hat hm h => ?u2Fail, fun hat hm h => ?u2Ok, fun hat => ?u3,
      fun hat => ?u4, fun hat => ?u5, fun hat => ?u6⟩⟩
  case u2Reg => simp [mdioReg, hat.1]
  all_goals rw [exec_up_at hat, upLabel]
  all_goals simp only [hat.1]
  case u0Call => simp [upU0, hm, callSub, HostRegs.noPolls, hat.1]
  case u0Fail => simp [upU0, hm, h, finish]
  case u0Ok => simp [upU0, hm, h]
  case u1Down => rw [upU1_down h]; rfl
  case u1Already => rw [upU1_already h hl]; rfl
  case u1Edge => rw [upU1_edge h hl]; rfl
  case u2Call => simp [upU2, hm, callSub, HostRegs.noPolls, hat.1]
  case u2Fail => simp [upU2, hm, h, finish]
  case u2Ok => simp [upU2, hm, h]
  case u3 => rfl
  case u4 => exact congrArg Host.Outcome.next (upU4_eq s)
  case u5 => exact ⟨_, upU5_eq s, toNat_maccfg_bits _ _, rfl⟩
  case u6 => rfl

end Sys2Proof.Machine

/-! PROOFS. What a micro-step of HOST can do: one constructor for each way a label or a sub-procedure goes on. Every
invariant and every frame of the contract operations is read off this list. -/

namespace Sys2Proof.Machine

/-! ### The sub-procedures' labels -/

/-- Where a bounded wait goes on once the controller is free (42_mdio_phy_bridge.md R202, R204, R207, R210). -/
def afterPoll : SubLabel → Option SubLabel
  | .mr0 => some .mr1
  | .mr2 => some .mr3
  | .mw0 => some .mw1
  | .mw3 => some .mw4
  | _ => none

/-- The steps that write the control word: its direction and the wait that follows (R203, R209). -/
def issuedAt : SubLabel → Option (Bool × SubLabel)
  | .mr1 => some (false, .mr2)
  | .mw2 => some (true, .mw3)
  | _ => none

/-- The step after a ring's last descriptor (43_ring_ownership.md R239). -/
def afterBuild : SubLabel → Option SubLabel
  | .b0 => some .b1
  | .b1 => some .b2
  | _ => none

theorem subStep_poll {s : State} {d : SubLabel} (h : afterPoll s.hsub = some d) : subStep s = .next (mdioPoll d s) := by
  unfold subStep; split <;> simp_all [afterPoll]

theorem subStep_issue {s : State} {wr : Bool} {d : SubLabel} (h : issuedAt s.hsub = some (wr, d)) :
    subStep s = mdioIssue wr d s := by
  unfold subStep; split <;> simp_all [issuedAt]

/-- Steps B0 and B1 issue the store that `hostStores` names. -/
theorem subStep_build {s : State} {d : SubLabel} (h : afterBuild s.hsub = some d) :
    ∃ a v, hostStores s = [.word a v] ∧ subStep s = .next (buildNext d (issue .host (.word a v) s)) := by
  cases hsub : s.hsub <;> simp only [hsub, afterBuild, Option.some.injEq, reduceCtorEq] at h <;> subst h
  case b0 =>
    have e : subStep s = .next (buildRx s) := by unfold subStep; rw [hsub]
    exact ⟨_, _, by unfold hostStores; rw [hsub]; cases s.hpc <;> rfl, e⟩
  case b1 =>
    have e : subStep s = .next (buildTx s) := by unfold subStep; rw [hsub]
    exact ⟨_, _, by unfold hostStores; rw [hsub]; cases s.hpc <;> rfl, e⟩

/-! ### One micro-step -/

/-- A micro-step of HOST inside an operation, the handler not running. -/
inductive HostStep (s : State) : State → Prop
  | pollDone {d : SubLabel} (wait : afterPoll s.hsub = some d) :
      HostStep s { flush .host s with hsub := d, h := { (flush .host s).h with c := s.regs.mdioCtrl } }
  | pollAgain {d : SubLabel} (wait : afterPoll s.hsub = some d) (more : s.h.polls + 1 ≠ s.cfg.mdioBudget) :
      HostStep s { flush .host s with h := { (flush .host s).h.onePoll with c := s.regs.mdioCtrl } }
  | pollTimeout {d : SubLabel} (wait : afterPoll s.hsub = some d) :
      HostStep s { raise .phyTimeout (flush .host s) with
        hsub := .off, h := { (flush .host s).h.onePoll with c := s.regs.mdioCtrl, ok := false } }
  | issueWord {wr : Bool} {d : SubLabel} (word : issuedAt s.hsub = some (wr, d)) :
      HostStep s { flush .host s with
        regs := { s.regs with mdioCtrl := mdioWord s.cfg.phyAddr (mdioReg s) (crField s.h.c) wr }
        hsub := d, h := (flush .host s).h.noPolls }
  | fetchDatum (sub : s.hsub = .mr3) : HostStep s (mdioFetch s)
  | putDatum (sub : s.hsub = .mw1) :
      HostStep s { flush .host s with regs := { s.regs with mdioData := s.cfg.bcrReset.setWidth 32 }, hsub := .mw2 }
  | writeDone (sub : s.hsub = .mw4) : HostStep s (mdioWriteDone s)
  | buildWord {d : SubLabel} {a : Nat} {v : Word} (sub : afterBuild s.hsub = some d)
      (store : hostStores s = [.word a v]) :
      HostStep s { issue .host (.word a v) s with hmic := s.hmic + 1 }
  | buildSlot {d : SubLabel} {a : Nat} {v : Word} (sub : afterBuild s.hsub = some d)
      (store : hostStores s = [.word a v]) (more : s.h.j.toNat + 1 < s.cfg.n) :
      HostStep s { issue .host (.word a v) s with
        hmic := 0, h := { (issue .host (.word a v) s).h with j := s.h.j + 1 } }
  | buildRing {d : SubLabel} {a : Nat} {v : Word} (sub : afterBuild s.hsub = some d)
      (store : hostStores s = [.word a v]) :
      HostStep s { issue .host (.word a v) s with
        hmic := 0, hsub := d, h := { (issue .host (.word a v) s).h with j := 0 } }
  | buildIndices (sub : s.hsub = .b2) : HostStep s { s with rxIdx := 0, txIdx := 0, hmic := 1 }
  | buildOver (sub : s.hsub = .b2) : HostStep s { flush .host s with hsub := .off, hmic := 3, ringsBuilt := true }
  | n0 (hat : hostAt .n0 s) :
      HostStep s { flush .host s with
        initialized := false, regs := { s.regs with ctrl := s.regs.ctrl ||| 1 }
        h := (flush .host s).h.noPolls, hpc := .n1, hsub := .off, hmic := 0 }
  | n1Done (hat : hostAt .n1 s) :
      HostStep s { flush .host s with
        h := { (flush .host s).h with c := s.regs.ctrl }, hpc := .n2, hsub := .off, hmic := 0 }
  | n1Again (hat : hostAt .n1 s) (more : s.h.polls + 1 ≠ s.cfg.resetBudget) : HostStep s (resetPolled s)
  | n1Timeout (hat : hostAt .n1 s) : HostStep s (finish 0 (raise .macResetTimeout (resetPolled s)))
  | n2 (hat : hostAt .n2 s) : HostStep s (initN2 s)
  | n3 (hat : hostAt .n3 s) :
      HostStep s { flush .host s with
        regs := { s.regs with mdioCtrl := s.h.code.setWidth 32 <<< 4 }, hpc := .n4, hsub := .off, hmic := 0 }
  | call {l : SubLabel} {mic : Nat} (off : s.hsub = .off) (wait : l = .mr0 ∨ l = .mw0) (legal : subOk s.hpc l = true) :
      HostStep s (callSub l mic s)
  | fail (hat : hostAt .n4 s ∨ hostAt .n5 s ∨ hostAt .u2 s) : HostStep s (finish 0 s)
  | n4Done (hat : hostAt .n4 s) : HostStep s (goto .n5 s)
  | n5Id1 (hat : hostAt .n5 s) : HostStep s { s with hmic := 2, h := { s.h with id1 := s.h.v } }
  | n5Id2 (hat : hostAt .n5 s) : HostStep s { s with hmic := 4, h := { s.h with id2 := s.h.v } }
  | n5Done (hat : hostAt .n5 s) : HostStep s (goto .n6 (identify s))
  | n6Rx (hat : hostAt .n6 s) (first : s.hmic = 0) :
      HostStep s { flush .host s with regs := { s.regs with rxBase := s.cfg.rxdBase &&& baseMask }, hmic := 1 }
  | n6Tx (hat : hostAt .n6 s) (second : s.hmic = 1) :
      HostStep s { flush .host s with regs := { s.regs with txBase := s.cfg.txdBase &&& baseMask }, hmic := 2 }
  | n6Call (hat : hostAt .n6 s) : HostStep s { s with hsub := .b0, hmic := 0, h := { s.h with j := 0 } }
  | n6Done (hat : hostAt .n6 s) (built : 3 ≤ s.hmic) : HostStep s (goto .n7 s)
  | n7Lo (hat : hostAt .n7 s) :
      HostStep s { flush .host s with regs := { s.regs with macLo := macLoOf s.cfg.mac }, hmic := 1 }
  | n7Hi (hat : hostAt .n7 s) :
      HostStep s { flush .host s with regs := { s.regs with macHi := macHiOf s.cfg.mac }, hmic := 2 }
  | n7Filter (hat : hostAt .n7 s) :
      HostStep s { flush .host s with regs := { s.regs with filter := 2 }, hpc := .n8, hsub := .off, hmic := 0 }
  | n8 (hat : hostAt .n8 s) : HostStep s (goto .n9 { s with link := .down })
  | n9 (hat : hostAt .n9 s) : HostStep s (goto .n10 { s with initialized := true })
  | n10 (hat : hostAt .n10 s) :
      HostStep s { flush .host s with
        regs := { s.regs with ctrl := (s.regs.ctrl &&& 1) ||| 6 }
        rx := rxEnableEdge (rxenBit s.regs.ctrl) true s.rx, tx := txEnableEdge (txenBit s.regs.ctrl) true s.tx
        hpc := .n11, hsub := .off, hmic := 0 }
  | n11 (hat : hostAt .n11 s) :
      HostStep s { flush .host s with regs := { s.regs with intEn := 1 }, hpc := .n12, hsub := .off, hmic := 0 }
  | n12 (hat : hostAt .n12 s) : HostStep s (finish 1 s)
  | t0Buf (hat : hostAt .t0 s) :
      HostStep s { flush .host s with hmic := 1, h := { (flush .host s).h with buf := s.regs.argBuf } }
  | t0Len (hat : hostAt .t0 s) :
      HostStep s { flush .host s with hmic := 2, h := { (flush .host s).h with len := s.regs.argLen } }
  | t0Test {want : Pending → Bool} {w0 : Word} (hat : hostAt .t0 s) :
      HostStep s (goto .t1 { settle .host want s with h := { (settle .host want s).h with w0 := w0 } })
  | t0Full {want : Pending → Bool} {w0 : Word} (hat : hostAt .t0 s) :
      HostStep s (finish 0 (raise .ringFull
        { settle .host want s with h := { (settle .host want s).h with w0 := w0 } }))
  | t1Long (hat : hostAt .t1 s) :
      HostStep s (finish 0 { s with nerr := counterAdd s.cfg s.nerr 1, events := s.events ++ [.oversize] })
  | t1Fits (hat : hostAt .t1 s) (fits : s.h.len.toNat ≤ s.cfg.bufSize) : HostStep s (goto .t2 s)
  | t2Pointer (hat : hostAt .t2 s) : HostStep s (copyAt 1 0 (issue .host (.load (txSlot s 2) .hostBufp) s))
  | t2Load {a : Nat} (hat : hostAt .t2 s) (more : s.h.j.toNat < s.h.len.toNat) :
      HostStep s { issue .host (.load a .hostByte) s with hmic := 2 }
  | t2Free {b : Byte} (hat : hostAt .t2 s) (more : s.h.j.toNat < s.h.len.toNat) :
      HostStep s { s with hmic := 2, h := { s.h with byte := b }, freeCtr := s.freeCtr + 1 }
  | t2Write (hat : hostAt .t2 s) (second : 2 ≤ s.hmic) : HostStep s (copyAt 1 (s.h.j + 1) (txWriteByte s))
  | t2End (hat : hostAt .t2 s) : HostStep s (goto .t3 s)
  | t3 (hat : hostAt .t3 s) : HostStep s (goto .t4 (issue .host (.word (txSlot s 1) s.h.len) s))
  | t4 (hat : hostAt .t4 s) : HostStep s (goto .t5 (issue .host (.word (txSlot s 0) (txFlagsWord s.h.w0)) s))
  | t5 (hat : hostAt .t5 s) : HostStep s (goto .t6 (flush .host s))
  | t6 (hat : hostAt .t6 s) : HostStep s (goto .t7 (issue .host (.word (txSlot s 0) (txOwnWord s.h.w0)) s))
  | t7Fence (hat : hostAt .t7 s) : HostStep s { flush .host s with hmic := 1 }
  | t7Doorbell (hat : hostAt .t7 s) : HostStep s (goto .t8 (doorbell (flush .host s)))
  | t8 (hat : hostAt .t8 s) : HostStep s (txT8 s)
  | u0Done (hat : hostAt .u0 s) : HostStep s (goto .u1 s)
  | u0Fail (hat : hostAt .u0 s) : HostStep s (finish 0 { s with link := .down })
  | u1Down (hat : hostAt .u1 s) : HostStep s (finish 0 { s with link := .down, h := { s.h with up := false } })
  | u1Already (hat : hostAt .u1 s) : HostStep s (finish 1 { s with h := { s.h with up := true } })
  | u1Edge (hat : hostAt .u1 s) : HostStep s (goto .u2 { s with h := { s.h with up := true } })
  | u2Done (hat : hostAt .u2 s) : HostStep s (goto .u3 s)
  | u3 (hat : hostAt .u3 s) : HostStep s (upU3 s)
  | u4 (hat : hostAt .u4 s) :
      HostStep s (goto .u5 { flush .host s with h := { (flush .host s).h with c := s.regs.maccfg } })
  | u5 (hat : hostAt .u5 s) :
      HostStep s (goto .u6 { flush .host s with
        regs := { s.regs with maccfg := flagWord s.h.spd 1 ||| flagWord s.h.dup 2 } })
  | u6 (hat : hostAt .u6 s) : HostStep s (finish 1 { s with link := .up })

/-! ### Every micro-step is one of these -/

theorem HostStep.of_mdioPoll {s : State} {d : SubLabel} (wait : afterPoll s.hsub = some d) : HostStep s (mdioPoll d s) := by
  rcases mdioPoll_cases d s with ⟨-, e⟩ | ⟨-, more, e⟩ | ⟨-, -, e⟩ <;> rw [e]
  · exact .pollDone wait
  · exact .pollAgain wait more
  · exact .pollTimeout wait

theorem HostStep.of_mdioIssue {s t : State} {wr : Bool} {d : SubLabel} (word : issuedAt s.hsub = some (wr, d))
    (h : mdioIssue wr d s = .next t) : HostStep s t := by
  cases hb : busyBit s.regs.mdioCtrl with
  | false => rw [mdioIssue_of_free hb] at h; cases h; exact .issueWord word
  | true => rw [mdioIssue_of_busy hb] at h; cases h

theorem HostStep.of_buildNext {s : State} {d : SubLabel} {a : Nat} {v : Word} (sub : afterBuild s.hsub = some d)
    (store : hostStores s = [.word a v]) : HostStep s (buildNext d (issue .host (.word a v) s)) := by
  have hmic : (issue .host (.word a v) s).hmic = s.hmic := issue_hmic ..
  have hj : (issue .host (.word a v) s).h.j = s.h.j := issue_h_j ..
  have hcfg : (issue .host (.word a v) s).cfg = s.cfg := issue_cfg ..
  rcases buildNext_cases d (issue .host (.word a v) s) with ⟨-, e⟩ | ⟨-, more, e⟩ | ⟨-, -, e⟩ <;> rw [e]
  · rw [hmic]; exact .buildWord sub store
  · rw [hj, hcfg] at more
    rw [hj]; exact .buildSlot sub store more
  · exact .buildRing sub store

/-- Inside a sub-procedure. -/
theorem HostStep.of_subStep {s t : State} (hsub : s.hsub ≠ .off) (h : subStep s = .next t) : HostStep s t := by
  cases hl : s.hsub with
  | off => exact absurd hl hsub
  | mr0 | mr2 | mw0 | mw3 =>
    have wait := congrArg afterPoll hl
    rw [subStep_poll wait] at h; cases h; exact .of_mdioPoll wait
  | mr1 | mw2 =>
    have word := congrArg issuedAt hl
    rw [subStep_issue word] at h; exact .of_mdioIssue word h
  | b0 | b1 =>
    have sub := congrArg afterBuild hl
    obtain ⟨a, v, store, e⟩ := subStep_build sub
    rw [e] at h; cases h; exact .of_buildNext sub store
  | mr3 => simp only [subStep, hl, Host.Outcome.next.injEq] at h; subst h; exact .fetchDatum hl
  | mw1 => simp only [subStep, hl, mdioPutData_eq, Host.Outcome.next.injEq] at h; subst h; exact .putDatum hl
  | mw4 => simp only [subStep, hl, Host.Outcome.next.injEq] at h; subst h; exact .writeDone hl
  | b2 =>
    simp only [subStep, hl, Host.Outcome.next.injEq] at h
    subst h
    unfold buildEnd
    split
    · exact .buildIndices hl
    · exact .buildOver hl

theorem HostStep.of_initN1 {s : State} (hat : hostAt .n1 s) : HostStep s (initN1 s) := by
  cases hr : swrstBit s.regs.ctrl with
  | false => rw [initN1_of_done hr]; exact .n1Done hat
  | true =>
    by_cases hp : s.h.polls + 1 = s.cfg.resetBudget
    · rw [initN1_of_last hr hp]; exact .n1Timeout hat
    · rw [initN1_of_again hr hp]; exact .n1Again hat hp

theorem HostStep.of_initN3 {s t : State} (hat : hostAt .n3 s) (h : initN3 s = .next t) : HostStep s t := by
  cases hb : busyBit s.regs.mdioCtrl with
  | false => rw [initN3_of_free hb] at h; cases h; exact .n3 hat
  | true => rw [initN3_of_busy hb] at h; cases h

theorem HostStep.of_initN4 {s : State} (hat : hostAt .n4 s) : HostStep s (initN4 s) := by
  unfold initN4
  split
  · exact .call hat.2.1 (.inr rfl) (by rw [hat.1]; rfl)
  · split
    · exact .n4Done hat
    · exact .fail (.inl hat)

theorem HostStep.of_initN5 {s : State} (hat : hostAt .n5 s) : HostStep s (initN5 s) := by
  have legal : subOk s.hpc .mr0 = true := by rw [hat.1]; rfl
  unfold initN5
  split
  · exact .call hat.2.1 (.inl rfl) legal
  · split
    · exact .n5Id1 hat
    · exact .fail (.inr (.inl hat))
  · exact .call hat.2.1 (.inl rfl) legal
  · split
    · exact .n5Id2 hat
    · exact .fail (.inr (.inl hat))
  · exact .n5Done hat

theorem HostStep.of_initN6 {s t : State} (hat : hostAt .n6 s) (h : initN6 s = .next t) : HostStep s t := by
  by_cases h0 : s.hmic = 0
  · cases hr : rxenBit s.regs.ctrl with
    | false => rw [initN6_rxBase h0 hr] at h; cases h; exact .n6Rx hat h0
    | true => rw [initN6_rxBase_fault h0 hr] at h; cases h
  by_cases h1 : s.hmic = 1
  · cases hr : txenBit s.regs.ctrl with
    | false => rw [initN6_txBase h1 hr] at h; cases h; exact .n6Tx hat h1
    | true => rw [initN6_txBase_fault h1 hr] at h; cases h
  · unfold initN6 at h
    split at h
    · contradiction
    · contradiction
    · cases h; exact .n6Call hat
    · next h2 =>
      have built : 3 ≤ s.hmic := by have : s.hmic ≠ 2 := h2; omega
      cases h; exact .n6Done hat built

theorem HostStep.of_initN7 {s t : State} (hat : hostAt .n7 s) (h : initN7 s = .next t) : HostStep s t := by
  by_cases h0 : s.hmic = 0
  · rw [initN7_lo h0] at h; cases h; exact .n7Lo hat
  by_cases h1 : s.hmic = 1
  · rw [initN7_hi h1] at h; cases h; exact .n7Hi hat
  · rw [initN7_filter h0 h1] at h; cases h; exact .n7Filter hat

theorem HostStep.of_initLabel {s t : State} (hsub : s.hsub = .off) (hrun : s.inIsr = false)
    (h : initLabel s = .next t) : HostStep s t := by
  have hat : hostAt s.hpc s := ⟨rfl, hsub, hrun⟩
  unfold initLabel at h
  split at h <;> rename_i hl
  all_goals try rw [hl] at hat
  · rw [initN0_eq] at h; cases h; exact .n0 hat
  · cases h; exact .of_initN1 hat
  · cases h; exact .n2 hat
  · exact .of_initN3 hat h
  · cases h; exact .of_initN4 hat
  · cases h; exact .of_initN5 hat
  · exact .of_initN6 hat h
  · exact .of_initN7 hat h
  · cases h; exact .n8 hat
  · cases h; exact .n9 hat
  · rw [initN10_eq] at h; cases h; exact .n10 hat
  · rw [initN11_eq] at h; cases h; exact .n11 hat
  · cases h; exact .n12 hat
  · cases h

theorem HostStep.of_txT0 {s : State} (hat : hostAt .t0 s) : HostStep s (txT0 s) := by
  by_cases h0 : s.hmic = 0
  · rw [txT0_buf h0]; exact .t0Buf hat
  by_cases h1 : s.hmic = 1
  · rw [txT0_len h1]; exact .t0Len hat
  · rw [txT0_test h0 h1, txRingTest_eq]
    dsimp only
    split
    · exact .t0Full hat
    · exact .t0Test hat

theorem HostStep.of_txT1 {s : State} (hat : hostAt .t1 s) : HostStep s (txT1 s) := by
  by_cases h : s.cfg.bufSize < s.h.len.toNat
  · rw [txT1_long h]; exact .t1Long hat
  · rw [txT1_fits (Nat.le_of_not_lt h)]; exact .t1Fits hat (Nat.le_of_not_lt h)

theorem HostStep.of_txReadByte {s t : State} (hat : hostAt .t2 s) (more : s.h.j.toNat < s.h.len.toNat)
    (h : txReadByte s = .next t) : HostStep s t := by
  unfold txReadByte at h
  dsimp only at h
  split at h
  · cases h
  · split at h
    · cases h; exact .t2Free hat more
    · cases h; exact .t2Load hat more

theorem HostStep.of_txT2 {s t : State} (hat : hostAt .t2 s) (h : txT2 s = .next t) : HostStep s t := by
  by_cases h0 : s.hmic = 0
  · rw [txT2, h0] at h
    obtain ⟨-, e⟩ := txOwned_next h
    cases e; exact .t2Pointer hat
  by_cases h1 : s.hmic = 1
  · by_cases more : s.h.j.toNat < s.h.len.toNat
    · rw [txT2_read h1 more] at h; exact .of_txReadByte hat more h
    · rw [txT2_end h1 (Nat.le_of_not_lt more)] at h; cases h; exact .t2End hat
  · rw [txT2_write_eq h0 h1] at h
    obtain ⟨-, e⟩ := txOwned_next h
    cases e; exact .t2Write hat (by omega)

theorem HostStep.of_txT7 {s t : State} (hat : hostAt .t7 s) (h : txT7 s = .next t) : HostStep s t := by
  by_cases h0 : s.hmic = 0
  · rw [txT7_fence h0] at h; cases h; exact .t7Fence hat
  · rw [txT7_doorbell h0] at h; cases h; exact .t7Doorbell hat

theorem HostStep.of_txLabel {s t : State} (hsub : s.hsub = .off) (hrun : s.inIsr = false)
    (h : txLabel s = .next t) : HostStep s t := by
  have hat : hostAt s.hpc s := ⟨rfl, hsub, hrun⟩
  unfold txLabel at h
  split at h <;> rename_i hl
  all_goals try rw [hl] at hat
  · cases h; exact .of_txT0 hat
  · cases h; exact .of_txT1 hat
  · exact .of_txT2 hat h
  · obtain ⟨-, e⟩ := txOwned_next h; cases e; exact .t3 hat
  · obtain ⟨-, e⟩ := txOwned_next h; cases e; exact .t4 hat
  · cases h; exact .t5 hat
  · obtain ⟨-, e⟩ := txOwned_next h; cases e; exact .t6 hat
  · exact .of_txT7 hat h
  · cases h; exact .t8 hat
  · cases h

theorem HostStep.of_upU0 {s : State} (hat : hostAt .u0 s) : HostStep s (upU0 s) := by
  unfold upU0
  split
  · exact .call hat.2.1 (.inl rfl) (by rw [hat.1]; rfl)
  · split
    · exact .u0Done hat
    · exact .u0Fail hat

theorem HostStep.of_upU1 {s : State} (hat : hostAt .u1 s) : HostStep s (upU1 s) := by
  cases hv : s.h.v.getLsbD s.cfg.bsrLink.toNat with
  | false => rw [upU1_down hv]; exact .u1Down hat
  | true =>
    cases hl : s.link with
    | down => rw [upU1_edge hv hl]; exact .u1Edge hat
    | up => rw [upU1_already hv hl]; exact .u1Already hat

theorem HostStep.of_upU2 {s : State} (hat : hostAt .u2 s) : HostStep s (upU2 s) := by
  unfold upU2
  split
  · exact .call hat.2.1 (.inl rfl) (by rw [hat.1]; rfl)
  · split
    · exact .u2Done hat
    · exact .fail (.inr (.inr hat))

theorem HostStep.of_upLabel {s t : State} (hsub : s.hsub = .off) (hrun : s.inIsr = false)
    (h : upLabel s = .next t) : HostStep s t := by
  have hat : hostAt s.hpc s := ⟨rfl, hsub, hrun⟩
  unfold upLabel at h
  split at h <;> rename_i hl
  all_goals try rw [hl] at hat
  · cases h; exact .of_upU0 hat
  · cases h; exact .of_upU1 hat
  · cases h; exact .of_upU2 hat
  · cases h; exact .u3 hat
  · cases h; exact .u4 hat
  · rw [upU5_eq] at h; cases h; exact .u5 hat
  · cases h; exact .u6 hat
  · cases h

/-- What a contract operation does with a micro-step: it starts, HOST is held, or it goes on. -/
inductive OpStep (op : Instr) (s : State) : State → Prop
  | start {l : HostLabel} (idle : s.hpc = .idle) (run : s.inIsr = false) (first : opOf l = some op)
      (ready : ∀ b, initializedAt l = some b → s.initialized = b)
      (label : l = .n0 ∨ l = .t0 ∨ l = .u0) :
      OpStep op s { s with hpc := l, hsub := .off, hmic := 0, dirty := [] }
  | held (inside : opOf s.hpc = some op) (isr : s.inIsr = true) : OpStep op s s
  | go {t : State} (inside : opOf s.hpc = some op) (run : s.inIsr = false) (step : HostStep s t) : OpStep op s t

theorem OpStep.of_contractOp {op : Instr} {needs : Bool} {l : HostLabel} {label : State → Out} {s t : State}
    (first : opOf l = some op) (hl : l = .n0 ∨ l = .t0 ∨ l = .u0) (hneeds : ∀ b, initializedAt l = some b → needs = true ∧ b = true)
    (hlabel : ∀ t, s.hsub = .off → s.inIsr = false → label s = .next t → HostStep s t)
    (h : contractOp op needs l label s = .next t) : OpStep op s t := by
  rcases contractOp_next h with ⟨-, h⟩ | ⟨inside, h⟩
  · obtain ⟨idle, run, ready, rfl⟩ := (startCommand_next needs l s t).1 h
    refine .start idle run first (fun b hb => ?_) hl
    obtain ⟨hn, rfl⟩ := hneeds b hb
    exact ready hn
  · rcases hostStep_next h with ⟨isr, rfl⟩ | ⟨run, hsub, h⟩ | ⟨run, hsub, h⟩
    · exact .held inside isr
    · exact .go inside run (hlabel t hsub run h)
    · exact .go inside run (.of_subStep hsub h)

theorem OpStep.of_init {s t : State} (h : exec .init s = .next t) : OpStep .init s t :=
  .of_contractOp rfl (.inl rfl) nofun (fun _ => .of_initLabel) h

theorem OpStep.of_tx {s t : State} (h : exec .tx s = .next t) : OpStep .tx s t :=
  .of_contractOp rfl (.inr (.inl rfl)) (by rintro b ⟨⟩; exact ⟨rfl, rfl⟩) (fun _ => .of_txLabel) h

theorem OpStep.of_up {s t : State} (h : exec .up s = .next t) : OpStep .up s t :=
  .of_contractOp rfl (.inr (.inr rfl)) (by rintro b ⟨⟩; exact ⟨rfl, rfl⟩) (fun _ => .of_upLabel) h

end Sys2Proof.Machine

/-! PROOFS. `RXIRQ`: interrupt entry and return, and the steps of the handler (45_receive_irq.md, 60_exceptions.md). -/

namespace Sys2Proof.Machine

/-! ### The interrupt line -/

theorem irqCause_getLsbD (status enable : Word) {n : Nat} (h : n < 2) :
    (irqCause status enable).getLsbD n = (status.getLsbD n && enable.getLsbD n) := by
  simp [irqCause, h]

theorem cause_getLsbD (s : State) {n : Nat} (h : n < 2) :
    s.cause.getLsbD n = (s.regs.intStatus.getLsbD n && s.regs.intEn.getLsbD n) := irqCause_getLsbD _ _ h

/-- The line is asserted exactly where the cause word is not 0 (10_state.md R56). -/
theorem irqLine_eq (s : State) : s.irqLine = (s.cause.getLsbD 0 || s.cause.getLsbD 1) := by
  rw [cause_getLsbD s (by decide), cause_getLsbD s (by decide)]; rfl

/-- 30_encoding.md R130. -/
theorem decodeIrq_of_rxc {c : BitVec 2} (h : c.getLsbD 0 = true) : decodeIrq c = .ok (.rxirq (c.getLsbD 1)) := by
  revert c; decide

theorem decodeIrq_of_rbu {c : BitVec 2} (h0 : c.getLsbD 0 = false) (h1 : c.getLsbD 1 = true) :
    decodeIrq c = .ok .rxirqRbu := by
  revert c; decide

theorem decodeIrq_of_none {c : BitVec 2} (h0 : c.getLsbD 0 = false) (h1 : c.getLsbD 1 = false) :
    decodeIrq c = .bad .noCause := by
  revert c; decide

/-- A cause that selects an instruction selects one of the handler's, and is not 0. -/
theorem isHandler_of_decodeIrq {c : BitVec 2} {i : Instr} (h : decodeIrq c = .ok i) : isHandler i = true ∧ c ≠ 0 := by
  cases h0 : c.getLsbD 0 with
  | true => rw [decodeIrq_of_rxc h0] at h; cases h; exact ⟨rfl, by rintro rfl; cases h0⟩
  | false =>
    cases h1 : c.getLsbD 1 with
    | true => rw [decodeIrq_of_rbu h0 h1] at h; cases h; exact ⟨rfl, by rintro rfl; cases h1⟩
    | false => rw [decodeIrq_of_none h0 h1] at h; cases h

/-! ### Entry and return -/

/-- The cause that asserts a handler instruction is the one that selects it. -/
theorem exec_handler {i : Instr} (h : isHandler i = true) (s : State) :
    exec i s = handler (decide (decodeIrq s.cause = .ok i)) s := by
  cases i <;> first | rfl | cases h

/-- Inside the handler the micro-step is the label's (60_exceptions.md R352). -/
theorem exec_isr {i : Instr} (h : isHandler i = true) {s : State} (hi : s.inIsr = true) : exec i s = isrLabel s := by
  rw [exec_handler h]; exact if_pos hi

/-- Outside it the asserted cause enters it. -/
theorem exec_enter {i : Instr} (h : isHandler i = true) {s : State} (hi : s.inIsr = false)
    (hc : decodeIrq s.cause = .ok i) : exec i s = .next (takeInterrupt s) := by
  rw [exec_handler h, handler, hi, hc]; simp

/-- An ordering point changes of HOST's registers the byte in hand and the buffer pointer. -/
theorem flush_h_eq (c : Ctx) (s : State) :
    (flush c s).h = { s.h with byte := (flush c s).h.byte, bufp := (flush c s).h.bufp } := by
  cases c with
  | host => obtain ⟨_, _, _, _, e⟩ := flush_host_eq s; rw [e]
  | isr => obtain ⟨_, _, _, _, e⟩ := flush_isr_eq s; rw [e]

/-- An ordering point at which no load waits fills no register. -/
theorem flush_regs_of_fills_none {c : Ctx} {s : State} (h : ∀ p ∈ s.pending c, p.fills = none) :
    (flush c s).h = s.h ∧ (flush c s).i = s.i := by
  have hall : ∀ (ps : List Pending) (u : State), (∀ p ∈ ps, p.fills = none) →
      (performAccesses ps u).h = u.h ∧ (performAccesses ps u).i = u.i := by
    intro ps
    induction ps with
    | nil => exact fun _ _ => ⟨rfl, rfl⟩
    | cons p ps ih =>
      intro u hps
      obtain ⟨hp, hps⟩ := List.forall_mem_cons.1 hps
      obtain ⟨hh, hi⟩ := performAccess_regs_of_fills_none hp u
      obtain ⟨hh', hi'⟩ := ih (performAccess p u) hps
      exact ⟨hh'.trans hh, hi'.trans hi⟩
  simpa [flush] using hall _ s h

/-- Settles O46: the line's two products are the cause's two bits, and the cause selects. -/
theorem interruptEntersExactlyWhenAsserted : Obligations.InterruptEntersExactlyWhenAsserted := by
  intro s ms ha hi
  have henter : ∀ i, decodeIrq s.cause = .ok i →
      step (s.withMoves (.isr :: ms)) = .next (takeInterrupt (s.withMoves ms)) := fun i hc => by
    have hfetch : fetchMove .isr (s.withMoves ms) = .run i (s.withMoves ms) := fetchMove_isr_outside (s := s.withMoves ms) hi hc
    rw [step_withMoves_cons ha, hfetch]
    exact exec_enter (isHandler_of_decodeIrq hc).1 hi hc
  refine ⟨by simp [State.irqLine, rxcBit, rbuBit], fun hline => ?asserted, fun hline => ?clear⟩
  all_goals rw [irqLine_eq] at hline
  case asserted =>
    cases h0 : s.cause.getLsbD 0 with
    | true => exact henter _ (decodeIrq_of_rxc h0)
    | false => exact henter _ (decodeIrq_of_rbu h0 (by rwa [h0, Bool.false_or] at hline))
  case clear =>
    obtain ⟨h0, h1⟩ := Bool.or_eq_false_iff.1 hline
    have hfetch : fetchMove .isr (s.withMoves ms) = .done (.next (s.withMoves ms)) :=
      fetchMove_isr_bad (s := s.withMoves ms) hi (decodeIrq_of_none h0 h1)
    rw [step_withMoves_cons ha, hfetch]
    rfl

/-- Settles O47: entry by either cause is `takeInterrupt`, return `returnInterrupt`; meanwhile HOST is held. -/
theorem interruptEntryAndReturn : Obligations.InterruptEntryAndReturn := by
  refine ⟨fun s i hi hcause => ⟨takeInterrupt s, ?entry, rfl, ?mem, ?hostBuf, rfl, ?hpc, ?hsub, ?hmic, ?regs, ?h, ?loads⟩,
    fun s i => ⟨fun hh hat => ?back, fun hi hop => exec_held hop hi⟩⟩
  case entry =>
    rcases hcause with ⟨rbu, rfl, h0, rfl⟩ | ⟨rfl, h0, h1⟩
    · exact exec_enter rfl hi (decodeIrq_of_rxc h0)
    · exact exec_enter rfl hi (decodeIrq_of_rbu h0 h1)
  case mem => simp [takeInterrupt]
  case hostBuf => simp [takeInterrupt]
  case hpc => simp [takeInterrupt]
  case hsub => simp [takeInterrupt]
  case hmic => simp [takeInterrupt]
  case regs => simp [takeInterrupt]
  case h =>
    refine (flush_h_eq .isr (flush .host s)).trans ?_
    rw [flush_h_eq .host s]
    rfl
  case loads =>
    intro hnone
    obtain ⟨hh, hi⟩ := flush_regs_of_fills_none (c := .host) (s := s) fun p hp => hnone p (by simp_all)
    obtain ⟨hh', hi'⟩ := flush_regs_of_fills_none (c := .isr) (s := flush .host s) fun p hp => hnone p (by simp_all)
    exact ⟨hh'.trans hh, hi'.trans hi⟩
  case back =>
    obtain ⟨hi, hpc, -⟩ := hat
    rw [exec_isr hh hi, isrLabel, hpc]
    rfl

/-! ### The loop -/

theorem rxOwned_of_free {s : State} (h : hwOwns s (rxSlot s 0) = false) (f : State → Out) : rxOwned f s = f s :=
  if_neg (by simp [h])

theorem rxOwned_of_owned {s : State} (h : hwOwns s (rxSlot s 0) = true) (f : State → Out) :
    rxOwned f s = .fault .ownershipViolation := if_pos h

theorem isrI1_cap {s : State} (hm : s.imic = 0) (h : s.i.iterations = s.cfg.rxLoopCap) :
    isrI1 s = igoto .i7 { s with i := { s.i with cap := true } } := by simp [isrI1, hm, h]

theorem isrI1_goOn {s : State} (hm : s.imic = 0) (h : s.i.iterations ≠ s.cfg.rxLoopCap) :
    isrI1 s = { s with imic := 1 } := by simp [isrI1, hm, h]

/-- I1's ownership test: ISR's own accesses to the descriptor's word 0 go first (20_memory.md R97). -/
theorem isrI1_test {s u : State} (hm : s.imic ≠ 0) (hu : settle .isr (Pending.hits (wordAddrs (rxSlot s 0))) s = u) :
    isrI1 s = igoto (if ownBit (u.wordAt (rxSlot s 0)) then .i7 else .i2)
      { u with i := { u.i with w0 := u.wordAt (rxSlot s 0) } } := by
  have hslot : rxSlot u 0 = rxSlot s 0 := by subst hu; simp [rxSlot, rxd]
  simp only [isrI1, hm, if_false, settleAddrs_eq, hu, hslot]
  split <;> rfl

/-- The oldest access alone is performed where no other fills the register. -/
theorem settleReg_cons {c : Ctx} {s : State} {p : Pending} {ps : List Pending} {r : LoadReg}
    (h : s.pending c = p :: ps) (hp : p.fills = some r) (hps : ∀ q ∈ ps, q.fills ≠ some r) :
    settleReg c r s = (performAccess p s).setPending c ps := by
  have hsplit : splitNeeded (fun p => decide (p.fills = some r)) (s.pending c) = ([p], ps) := by
    rw [h]; exact splitNeeded_cons_wanted (by simp [hp]) fun q hq => by simp [hps q hq]
  rw [settleReg_eq, settle_eq hsplit]
  rfl

theorem settleReg_of_not_filled {c : Ctx} {s : State} {r : LoadReg} (h : ∀ p ∈ s.pending c, p.fills ≠ some r) :
    settleReg c r s = s := settle_none c _ s fun p hp => by simp [h p hp]

/-- I3's two loads are performed where both wait (45_receive_irq.md R296). -/
theorem awaitFetch_of_both {s : State} {a b : Nat} (h : s.isrBuf = [.load a .isrLen, .load b .isrBufp]) :
    awaitFetch s = { s with
      i := { s.i with len := lenField (s.wordAt a), bufp := s.wordAt b }, isrBuf := [] } := by
  have hlen : settleReg .isr .isrLen s =
      { s with i := { s.i with len := lenField (s.wordAt a) }, isrBuf := [.load b .isrBufp] } :=
    settleReg_cons (c := .isr) h rfl (by simp [Pending.fills])
  rw [awaitFetch, hlen]
  exact settleReg_cons (c := .isr) (p := .load b .isrBufp) (ps := []) rfl rfl nofun

theorem awaitFetch_of_len {s : State} {a : Nat} (h : s.isrBuf = [.load a .isrLen]) :
    awaitFetch s = { s with i := { s.i with len := lenField (s.wordAt a) }, isrBuf := [] } := by
  have hlen : settleReg .isr .isrLen s =
      { s with i := { s.i with len := lenField (s.wordAt a) }, isrBuf := [] } :=
    settleReg_cons (c := .isr) h rfl nofun
  rw [awaitFetch, hlen]
  exact settleReg_of_not_filled (c := .isr) nofun

theorem awaitFetch_of_pointer {s : State} {b : Nat} (h : s.isrBuf = [.load b .isrBufp]) :
    awaitFetch s = { s with i := { s.i with bufp := s.wordAt b }, isrBuf := [] } := by
  have hlen : settleReg .isr .isrLen s = s := settleReg_of_not_filled (c := .isr) (by simp [h, Pending.fills])
  rw [awaitFetch, hlen]
  exact settleReg_cons (c := .isr) h rfl nofun

theorem awaitFetch_of_none {s : State} (h : ∀ p ∈ s.isrBuf, p.fills = none) : awaitFetch s = s := by
  have hwant : ∀ r : LoadReg, settle .isr (fun p => decide (p.fills = some r)) s = s := fun r =>
    settle_none .isr _ s (wants_eq_false_of_fills_none h r)
  rw [awaitFetch, settleReg_eq, settleReg_eq, hwant, hwant]

theorem goodFrame_iff (w : Word) : goodFrame w = true ↔ fsBit w = true ∧ lsBit w = true ∧ esBit w = false ∧
    aeBit w = false ∧ ceBit w = false ∧ leBit w = false := by
  simp [goodFrame, and_assoc]

theorem goodFrame_eq_false_iff (w : Word) : goodFrame w = false ↔ fsBit w = false ∨ lsBit w = false ∨ esBit w = true ∨
    aeBit w = true ∨ ceBit w = true ∨ leBit w = true := by
  rw [← Bool.not_eq_true, goodFrame_iff]; simp only [← Bool.not_eq_true]; tauto

theorem isrI4_deliver {s : State} (hm : s.imic = 0) (hown : hwOwns s (rxSlot s 0) = false)
    (hgood : goodFrame s.i.w0 = true) : isrI4 s = .next { deliver (awaitFetch s) with imic := 1 } := by
  rw [isrI4, if_pos hm, rxOwned_of_free hown, if_pos hgood]

theorem isrI4_drop {s : State} (hm : s.imic = 0) (hown : hwOwns s (rxSlot s 0) = false)
    (hbad : goodFrame s.i.w0 = false) : isrI4 s =
      .next (igoto .i5 { s with ndrop := counterAdd s.cfg s.ndrop 1, events := s.events ++ [.rxBadFrame] }) := by
  rw [isrI4, if_pos hm, rxOwned_of_free hown, if_neg (by simp [hbad]), raise_rxBadFrame]

theorem isrI4_count {s : State} (hm : s.imic ≠ 0) : isrI4 s =
    .next (igoto .i5 { s with nrecv := counterAdd s.cfg s.nrecv 1 }) := if_neg hm

/-- Settles O48: the label's equation in each clause; for a delivery, by what is outstanding. -/
theorem rxirqDeliversGoodFramesOnly : Obligations.RxirqDeliversGoodFramesOnly := by
  intro s i hi hown
  have hlabel : s.inIsr = true → exec i s = isrLabel s := exec_isr hi
  have hlen : ∀ a, lenField (s.wordAt a) = (s.wordAt a).extractLsb' 0 14 := fun _ => rfl
  refine ⟨?len, ?pointer, ?good, ?count, ?bad⟩
  all_goals
    rintro ⟨hin, hpc, hm⟩
    rw [hlabel hin, isrLabel]
    simp only [hpc]
  case len => rw [rxOwned_of_free hown, isrI3, if_pos hm]; rfl
  case pointer => rw [rxOwned_of_free hown, isrI3, if_neg (by omega)]; rfl
  case count => exact isrI4_count (by omega)
  case bad => intro hbad; exact isrI4_drop hm hown ((goodFrame_eq_false_iff _).2 hbad)
  case good =>
    intro hgood
    rw [isrI4_deliver hm hown ((goodFrame_iff _).2 hgood), ← hpc]
    refine ⟨fun hnone => ?none, fun a b hbuf => ?both, fun a hbuf => ?lenWaits, fun b hbuf => ?pointerWaits⟩
    case none => rw [awaitFetch_of_none hnone]; rfl
    case both => rw [awaitFetch_of_both hbuf]; rfl
    case lenWaits => rw [awaitFetch_of_len hbuf]; rfl
    case pointerWaits => rw [awaitFetch_of_pointer hbuf]; rfl

/-- An access that waits behind others it shares no address with is performed alone. -/
theorem splitNeeded_append_wanted {want : Pending → Bool} {p : Pending} (hp : want p = true) :
    ∀ pre : List Pending, (∀ q ∈ pre, want q = false ∧ ∀ a ∈ q.addrs, a ∉ p.addrs) →
      splitNeeded want (pre ++ [p]) = ([p], pre)
  | [], _ => splitNeeded_cons_wanted hp nofun
  | q :: pre, h => by
    obtain ⟨⟨hq, hapart⟩, hpre⟩ := List.forall_mem_cons.1 h
    rw [List.cons_append, splitNeeded, splitNeeded_append_wanted hp pre hpre]
    have hhits : [p].any (Pending.hits q.addrs) = false :=
      (any_hits_eq_false_iff _ _).2 (by simpa using fun a hp hq => hapart a hq hp)
    simp [hq, hhits]

/-- Nothing outstanding to the addresses, nothing to perform. -/
theorem settle_of_not_hit {c : Ctx} {s : State} {as : List Nat} (h : (s.pending c).any (Pending.hits as) = false) :
    settle c (Pending.hits as) s = s :=
  settle_none c _ s (by simpa using h)

theorem isrI5_clear {s : State} (hm : s.imic = 0) (hown : hwOwns s (rxSlot s 0) = false) :
    isrI5 s = .next { issue .isr (.word (rxSlot s 1) 0) s with imic := 1 } := by
  rw [isrI5, hm]; exact rxOwned_of_free hown _

theorem isrI5_fence {s : State} (hm : s.imic = 1) : isrI5 s = .next { flush .isr s with imic := 2 } := by
  rw [isrI5, hm]; rfl

theorem isrI5_handOver_eq {s : State} (h0 : s.imic ≠ 0) (h1 : s.imic ≠ 1) : isrI5 s =
    rxOwned (fun s => .next (igoto .i6 (ctxStoreWord .isr (rxSlot s 0) (rearmWord s.i.w0) s))) s := by
  unfold isrI5; split <;> first | contradiction | rfl

theorem isrI7_eq (s : State) : andNext (ctxRegWrite .isr .intStatus (isrClearWord s) s) (igoto .i8) =
    .next (igoto .i8 { flush .isr s with
      regs := { s.regs with intStatus := clearOnes s.regs.intStatus (isrClearWord s) } }) := by
  rw [← flush_regs .isr s]; rfl

/-- After a cap hit RXC stays (45_receive_irq.md R300). -/
theorem getLsbD_isrClearWord (s : State) (n : Nat) :
    (isrClearWord s).getLsbD n = (s.i.snap.getLsbD n && !(s.i.cap && decide (n = 0))) := by
  unfold isrClearWord
  cases s.i.cap with
  | false => simp
  | true =>
    have hmask : (0xFFFFFFFE : Word).getLsbD n = (decide (n < 32) && !decide (n = 0)) := by
      rw [show (0xFFFFFFFE : Word) = ~~~BitVec.twoPow 32 0 by decide, BitVec.getLsbD_not, BitVec.getLsbD_twoPow]
      simp [eq_comm]
    by_cases hn : n < 32
    · rw [if_pos rfl, BitVec.getLsbD_and, hmask]; simp [hn]
    · simp [BitVec.getLsbD_of_ge _ n (Nat.le_of_not_lt hn)]

/-- Settles O49: the label's equation in each clause; for the ownership test, by what is outstanding to the word. -/
theorem rxirqLoopSteps : Obligations.RxirqLoopSteps := by
  refine ⟨fun s i hi => ⟨?i0, ?cap, ?goOn, ?empty, ?taken, ?own, ?i2⟩, fun s i hi => ⟨?clear, ?fence, ?rearm, ?i6⟩,
    fun s i hi => ?i7⟩
  case own =>
    rintro pre v ⟨hin, hpc, hm⟩ hbuf hpre u rfl
    rw [exec_isr hi hin, isrLabel]
    simp only [hpc]
    have hsplit : splitNeeded (Pending.hits (wordAddrs (rxSlot s 0))) (s.pending .isr) =
        ([.word (rxd s s.rxIdx 0) v], pre) := by
      rw [pending_isr, hbuf]
      refine splitNeeded_append_wanted (by simp [Pending.hits, Pending.addrs, rxSlot, wordAddrs]) pre fun q hq => ?_
      have hapart := (any_hits_eq_false_iff pre _).1 hpre q hq
      exact ⟨by simpa [Pending.hits, rxSlot] using hapart, hapart⟩
    have hword : (performAccesses [.word (rxd s s.rxIdx 0) v] s |>.setPending .isr pre).wordAt (rxSlot s 0) = v :=
      State.wordAt_of_setWord rfl
    rw [isrI1_test (by omega) (settle_eq hsplit), hword]
    exact ⟨fun h => by rw [if_pos h]; rfl, fun h => by rw [if_neg (by simp [h])]; rfl⟩
  all_goals
    rintro ⟨hin, hpc, hm⟩
    rw [exec_isr hi hin, isrLabel]
    simp only [hpc]
  case i0 => rfl
  case cap => intro h; rw [isrI1_cap hm h]; rfl
  case goOn => intro h; rw [isrI1_goOn hm h, ← hpc]
  case empty =>
    intro hfree hown
    rw [isrI1_test (by omega) (settle_of_not_hit (c := .isr) hfree), if_pos (by simpa [rxSlot] using hown)]
    rfl
  case taken =>
    intro hfree hown
    rw [isrI1_test (by omega) (settle_of_not_hit (c := .isr) hfree), if_neg (by simpa [rxSlot] using hown)]
    rfl
  case clear => intro hown; rw [isrI5_clear hm hown]; rfl
  case fence => rw [isrI5_fence hm]; rfl
  case rearm => intro hown; rw [isrI5_handOver_eq (by omega) (by omega), rxOwned_of_free hown]; rfl
  case i6 =>
    exact ⟨_, rfl, iterations_oneIteration s.i, rfl⟩
  case i7 =>
    refine ⟨_, isrI7_eq s, fun n => ?_, rfl⟩
    rw [← getLsbD_isrClearWord]
    exact getLsbD_clearOnes _ _ n

end Sys2Proof.Machine

/-! PROOFS. The phases of the two engines (43_ring_ownership.md sections 3 and 4), and where the run stops. -/

namespace Sys2Proof.Machine

theorem exec_rxdmaFill (w0 : Word) (s : State) : exec (.rxdmaFill w0) s = execRxdmaFill w0 s := rfl
theorem exec_txdmaSend (w0 : Word) (s : State) : exec (.txdmaSend w0) s = execTxdmaSend w0 s := rfl
theorem exec_txdmaPark (w0 : Word) (s : State) : exec (.txdmaPark w0) s = execTxdmaPark w0 s := rfl

/-- The offset made next is one of those left. -/
theorem pickOf_mem {s : State} {todo : List Nat} (h : todo ≠ []) : pickOf s todo ∈ todo := by
  have hlt : s.choice % todo.length < todo.length := Nat.mod_lt _ (List.length_pos_of_ne_nil h)
  rw [pickOf, List.getD_eq_getElem _ _ hlt]
  exact List.getElem_mem hlt

/-! ### RXDMA -/

theorem exec_fill_poll {s : State} {j : RxJob} (hjob : s.rx.job = some j) (hp : j.phase = .qr1) (w0 : Word) :
    exec (.rxdmaFill w0) s = .next (setRxJob { j with phase := .qr2, mic := 0, w0 := w0 } s) := by
  simp only [exec_rxdmaFill, execRxdmaFill, hjob, hp]

theorem exec_fill_data {s : State} {j : RxJob} (hjob : s.rx.job = some j) (hp : j.phase = .qr2) (w0 : Word) :
    exec (.rxdmaFill w0) s = .next (fillData j s) := by
  simp only [exec_rxdmaFill, execRxdmaFill, hjob, hp]

theorem exec_fill_length {s : State} {j : RxJob} (hjob : s.rx.job = some j) (hp : j.phase = .qr3) (w0 : Word) :
    exec (.rxdmaFill w0) s = .next (fillLength j s) := by
  simp only [exec_rxdmaFill, execRxdmaFill, hjob, hp]

theorem exec_fill_publish {s : State} {j : RxJob} (hjob : s.rx.job = some j) (hp : j.phase = .qr4) (hm : j.mic = 0)
    (w0 : Word) : exec (.rxdmaFill w0) s = fillPublish j s := by
  simp only [exec_rxdmaFill, execRxdmaFill, hjob, hp, hm, if_true]

theorem exec_fill_end {s : State} {j : RxJob} (hjob : s.rx.job = some j) (hp : j.phase = .qr4) (hm : j.mic ≠ 0)
    (w0 : Word) : exec (.rxdmaFill w0) s = .next (fillEnd s) := by
  simp only [exec_rxdmaFill, execRxdmaFill, hjob, hp, hm, if_false]

theorem fillData_pointer {s : State} {j : RxJob} (hm : j.mic = 0) : fillData j s = setRxJob
    { j with mic := 1, bufp := s.wordAt (engRxd s s.rx.idx 2), todo := List.range (segLen s j) } s := if_pos hm

/-- The job after the byte at offset `k` of the segment has been stored. -/
def RxJob.stored (j : RxJob) (k : Nat) : RxJob :=
  if (j.todo.erase k).isEmpty then { j with todo := j.todo.erase k, phase := .qr3, mic := 0 }
  else { j with todo := j.todo.erase k }

theorem fillData_byte {s : State} {j : RxJob} (hm : j.mic ≠ 0) (htodo : j.todo ≠ []) : fillData j s =
    setRxJob (j.stored (pickOf s j.todo))
      (storeByte (addrAt s.cfg j.bufp (pickOf s j.todo)) (j.frame.bytes.getD (j.off + pickOf s j.todo) 0) s) := by
  rw [fillData, if_neg hm, if_neg (by simpa using htodo)]
  by_cases h : (j.todo.erase (pickOf s j.todo)).isEmpty = true <;> simp only [RxJob.stored, h] <;> rfl

theorem fillData_none {s : State} {j : RxJob} (hm : j.mic ≠ 0) (htodo : j.todo = []) : fillData j s =
    setRxJob { j with phase := .qr3, mic := 0 } s := by
  rw [fillData, if_neg hm, if_pos (by simp [htodo])]

/-- The job after its segment has been handed over. -/
def RxJob.published (s : State) (j : RxJob) : RxJob :=
  if segLast s j then { j with mic := 1, off := j.off + segLen s j, first := false }
  else { j with phase := .qr1, mic := 0, off := j.off + segLen s j, first := false }

theorem fillPublish_eq {s : State} {j : RxJob} (hown : hwOwns s (engRxd s s.rx.idx 0) = true)
    (hwrap : wrapBit j.w0 = decide (s.rx.idx + 1 = s.cfg.n)) : fillPublish j s = .next
      { s with
        mem := Memory.setWord s.mem (engRxd s s.rx.idx 0) (segWord s j)
        rx := { s.rx with idx := if wrapBit j.w0 then 0 else s.rx.idx + 1, job := some (j.published s) } } := by
  simp only [fillPublish, hown, Bool.not_true, Bool.false_eq_true, if_false, hwrap, ne_eq, not_true_eq_false]
  rfl

theorem fillPublish_of_swOwned {s : State} {j : RxJob} (hown : hwOwns s (engRxd s s.rx.idx 0) = false) :
    fillPublish j s = .fault .ownershipViolation := by simp [fillPublish, hown]

theorem fillPublish_of_misplaced {s : State} {j : RxJob} (hown : hwOwns s (engRxd s s.rx.idx 0) = true)
    (hwrap : wrapBit j.w0 ≠ decide (s.rx.idx + 1 = s.cfg.n)) : fillPublish j s = .fault .wrapMisplaced := by
  simp [fillPublish, hown, hwrap]

theorem getLsbD_flagWord (b : Bool) (v : Word) (n : Nat) : (flagWord b v).getLsbD n = (b && v.getLsbD n) := by
  cases b <;> simp [flagWord]

theorem flagWord_and_of_and {v m : Word} (h : v &&& m = 0) (b : Bool) : flagWord b v &&& m = 0 := by
  cases b with
  | false => simp [flagWord]
  | true => exact h

theorem getLsbD_fillWord (w0 : Word) (first last ce le ae : Bool) (n : Nat) :
    (fillWord w0 first last ce le ae).getLsbD n =
      (w0.getLsbD n && (0x40000000 : Word).getLsbD n || first && (0x20000000 : Word).getLsbD n
        || last && (0x10000000 : Word).getLsbD n || (last && (ce || le || ae)) && (0x8000 : Word).getLsbD n
        || (last && ae) && (4 : Word).getLsbD n || (last && ce) && (2 : Word).getLsbD n
        || (last && le) && (1 : Word).getLsbD n) := by
  simp only [fillWord, keepWrap, BitVec.getLsbD_or, BitVec.getLsbD_and, getLsbD_flagWord]

/-- The reserved bits of the word handed over are 0 (43_ring_ownership.md R250). -/
theorem fillWord_reserved (w0 : Word) (first last ce le ae : Bool) :
    fillWord w0 first last ce le ae &&& 0x07FF7FF8 = 0 := by
  have hkeep : keepWrap w0 &&& 0x07FF7FF8 = 0 := by
    rw [keepWrap, BitVec.and_assoc, show (0x40000000 : Word) &&& 0x07FF7FF8 = 0#32 by decide, BitVec.and_zero]; rfl
  simp only [fillWord, BitVec.and_or_distrib_right, hkeep]
  rw [flagWord_and_of_and (by decide), flagWord_and_of_and (by decide), flagWord_and_of_and (by decide),
    flagWord_and_of_and (by decide), flagWord_and_of_and (by decide), flagWord_and_of_and (by decide)]
  rfl

/-- Settles O52: the phase's equation in each clause. -/
theorem rxFillPhases : Obligations.RxFillPhases := by
  refine ⟨fun s j w0 hjob => ⟨fun hp => ?poll, fun hp hm => ?pointer, fun hp hm htodo => ?byte, fun hp => ?length⟩,
    fun s j w0 hjob hp => ⟨fun hm hown hwrap => ?publish, fun hm => ?ends⟩⟩
  case poll => exact exec_fill_poll hjob hp w0
  case pointer => rw [exec_fill_data hjob hp, fillData_pointer hm]; rfl
  case byte =>
    refine ⟨_, pickOf_mem (s := s) htodo, _, exec_fill_data hjob hp w0, ?_⟩
    rw [fillData_byte (by omega) htodo]
    refine ⟨rfl, fun h => ?_, fun h => ?_⟩ <;> simp [RxJob.stored, h]
  case length => rw [exec_fill_length hjob hp]; rfl
  case publish =>
    refine ⟨_, segWord s j, (exec_fill_publish hjob hp hm w0).trans (fillPublish_eq hown hwrap), rfl, ?_⟩
    refine ⟨?_, ?_, ?_, ?_, ?_, ?_, ?_, ?_, ?_, fillWord_reserved _ _ _ _ _ _, rfl, rfl, fun hl => ?more, fun hl => ?last⟩
    case more => exact congrArg some (if_neg (by simp [hl]))
    case last => exact congrArg some (if_pos hl)
    all_goals
      simp only [segWord, ownBit, wrapBit, fsBit, lsBit, acBit, ceBit, leBit, aeBit, esBit, getLsbD_fillWord]
      simp
  case ends => rw [exec_fill_end hjob hp (by omega)]; rfl

/-! ### TXDMA -/

theorem txMayPoll_iff (s : State) : txMayPoll s = true ↔ s.tx.st = .running ∧ s.tx.job = none := by
  simp [txMayPoll]

theorem exec_park {s : State} (hst : s.tx.st = .running) (hjob : s.tx.job = none) (w0 : Word) :
    exec (.txdmaPark w0) s = .next { s with tx := { s.tx with st := .suspended } } := by
  rw [exec_txdmaPark, execTxdmaPark, if_pos ((txMayPoll_iff s).2 ⟨hst, hjob⟩)]

theorem exec_park_of_not_polling {s : State} (h : s.tx.st ≠ .running ∨ s.tx.job ≠ none) (w0 : Word) :
    exec (.txdmaPark w0) s = .next s := by
  rw [exec_txdmaPark, execTxdmaPark, if_neg (by rw [txMayPoll_iff]; tauto)]

theorem exec_send_poll {s : State} (hst : s.tx.st = .running) (hjob : s.tx.job = none) (w0 : Word) :
    exec (.txdmaSend w0) s = .next (setTxJob (newTxJob w0) s) := by
  simp only [exec_txdmaSend, execTxdmaSend, hjob, (txMayPoll_iff s).2 ⟨hst, hjob⟩, if_true]

theorem exec_send_fetch {s : State} {j : TxJob} (hjob : s.tx.job = some j) (hp : j.phase = .qt1) (w0 : Word) :
    exec (.txdmaSend w0) s = sendFetch j s := by simp only [exec_txdmaSend, execTxdmaSend, hjob, hp]

theorem exec_send_emit {s : State} {j : TxJob} (hjob : s.tx.job = some j) (hp : j.phase = .qt2) (w0 : Word) :
    exec (.txdmaSend w0) s = .next (sendEmit j s) := by simp only [exec_txdmaSend, execTxdmaSend, hjob, hp]

theorem exec_send_release {s : State} {j : TxJob} (hjob : s.tx.job = some j) (hp : j.phase = .qt3) (w0 : Word) :
    exec (.txdmaSend w0) s = sendRelease j s := by simp only [exec_txdmaSend, execTxdmaSend, hjob, hp]

/-- The length TXDMA reads from the descriptor. -/
def txLen (s : State) : Nat := (lenField (s.wordAt (engTxd s s.tx.idx 1))).toNat

theorem sendFetch_len {s : State} {j : TxJob} (hm : j.mic = 0) (h : txLen s ≤ s.cfg.bufSize) :
    sendFetch j s = .next (setTxJob { j with len := txLen s, mic := 1 } s) := by
  rw [sendFetch, hm]; exact if_neg (Nat.not_lt.2 h)

theorem sendFetch_malformed {s : State} {j : TxJob} (hm : j.mic = 0) (h : s.cfg.bufSize < txLen s) :
    sendFetch j s = .fault .txDescriptorMalformed := by
  rw [sendFetch, hm]; exact if_pos h

theorem sendFetch_pointer {s : State} {j : TxJob} (hm : j.mic = 1) : sendFetch j s = .next (setTxJob
    { j with
      bufp := s.wordAt (engTxd s s.tx.idx 2), data := List.replicate j.len 0, todo := List.range j.len
      mic := 2, phase := if j.len = 0 then .qt2 else .qt1 } s) := by
  rw [sendFetch, hm]; rfl

/-- The job after the byte at offset `k` of the frame has been fetched. -/
def TxJob.fetched (s : State) (j : TxJob) (k : Nat) : TxJob :=
  { j with
    data := j.data.set k (s.byteAt (addrAt s.cfg j.bufp k)), todo := j.todo.erase k
    phase := if (j.todo.erase k).isEmpty then .qt2 else .qt1 }

theorem sendFetch_eq {s : State} {j : TxJob} (hm : 2 ≤ j.mic) : sendFetch j s =
    if j.todo.isEmpty then .next (setTxJob { j with phase := .qt2 } s)
    else .next (setTxJob (j.fetched s (pickOf s j.todo)) s) := by
  unfold sendFetch; split <;> first | omega | rfl

theorem sendFetch_byte {s : State} {j : TxJob} (hm : 2 ≤ j.mic) (htodo : j.todo ≠ []) :
    sendFetch j s = .next (setTxJob (j.fetched s (pickOf s j.todo)) s) := by
  rw [sendFetch_eq hm, if_neg (by simpa using htodo)]

theorem sendFetch_none {s : State} {j : TxJob} (hm : 2 ≤ j.mic) (htodo : j.todo = []) :
    sendFetch j s = .next (setTxJob { j with phase := .qt2 } s) := by
  rw [sendFetch_eq hm, if_pos (by simp [htodo])]

theorem sendEmit_eq (s : State) (j : TxJob) : sendEmit j s =
    { s with
      wireOut := if j.len = 0 then s.wireOut else s.wireOut ++ [⟨j.data, acBit j.w0⟩]
      tx := { s.tx with job := some { j with phase := .qt3 } } } := by
  unfold sendEmit setTxJob; split <;> rfl

theorem sendRelease_eq {s : State} {j : TxJob} (hown : hwOwns s (engTxd s s.tx.idx 0) = true)
    (hwrap : wrapBit j.w0 = decide (s.tx.idx + 1 = s.cfg.n)) : sendRelease j s = .next
      { s with
        mem := Memory.setWord s.mem (engTxd s s.tx.idx 0) (releaseWord j.w0)
        tx := ⟨if txenBit s.regs.ctrl then s.tx.st else .stopped, if wrapBit j.w0 then 0 else s.tx.idx + 1, none⟩ } := by
  simp only [sendRelease, hown, Bool.not_true, Bool.false_eq_true, if_false, hwrap, ne_eq, not_true_eq_false]
  rfl

theorem sendRelease_of_swOwned {s : State} {j : TxJob} (hown : hwOwns s (engTxd s s.tx.idx 0) = false) :
    sendRelease j s = .fault .ownershipViolation := by simp [sendRelease, hown]

theorem sendRelease_of_misplaced {s : State} {j : TxJob} (hown : hwOwns s (engTxd s s.tx.idx 0) = true)
    (hwrap : wrapBit j.w0 ≠ decide (s.tx.idx + 1 = s.cfg.n)) : sendRelease j s = .fault .wrapMisplaced := by
  simp [sendRelease, hown, hwrap]

/-- Settles O55: the poll's or the phase's equation in each clause. -/
theorem txEnginePhases : Obligations.TxEnginePhases := by
  refine ⟨fun s w0 => ⟨fun hst hjob => ⟨exec_park hst hjob w0, exec_send_poll hst hjob w0⟩,
      fun h => exec_park_of_not_polling h w0⟩,
    fun s j w0 hjob => ⟨fun hp hm h => ?len, fun hp hm h => ?pointer, fun hp hm htodo => ?byte, fun hp => ?emit,
      fun hp hown hwrap => ?release⟩⟩
  case len => rw [exec_send_fetch hjob hp, sendFetch_len hm h]; rfl
  case pointer => rw [exec_send_fetch hjob hp, sendFetch_pointer hm, if_neg (by omega), ← hp]; rfl
  case byte =>
    refine ⟨_, pickOf_mem (s := s) htodo, _, (exec_send_fetch hjob hp w0).trans (sendFetch_byte (by omega) htodo), rfl,
      fun h => ?_, fun h => ?_⟩ <;> simp [TxJob.fetched, h, hp]
  case emit => rw [exec_send_emit hjob hp, sendEmit_eq]
  case release => rw [exec_send_release hjob hp, sendRelease_eq hown hwrap]; rfl

/-! ### Where the run stops -/

/-- A polled word that selects no instruction (93_implementation_defined.md U7). -/
theorem fetchMove_txdma_bad {s : State} (hst : s.tx.st = .running) (hjob : s.tx.job = none) {e : DecodeError}
    (h : decodeTdes (s.wordAt (engTxd s s.tx.idx 0)) = .bad e) (pick : Nat) :
    fetchMove (.txdma pick) s = .done (.fault .txDescriptorMalformed) := by
  have e : ({ s with choice := pick } : State).wordAt (engTxd s s.tx.idx 0) = s.wordAt (engTxd s s.tx.idx 0) := rfl
  simp_all [fetchMove, fetchTxdma, txMayPoll, engTxd]

/-- Settles O57: each stop is the fault branch of one rule. -/
theorem whereTheRunStops : Obligations.WhereTheRunStops := by
  refine ⟨fun s => ⟨step_of_moves_nil, fun h => ?config⟩, fun s => ⟨fun hown hat => ?slot, fun hat hm hj hplace => ?byte⟩,
    fun s i hi hown hat => ?isr, fun s w0 => ⟨fun ms p ha hst hjob hown hmulti => ?multi, fun j hjob hp hm hlen => ?long,
      fun j hjob hp => ⟨fun hown => ?txOwn, fun hown hwrap => ?txWrap⟩,
      fun j hjob hp hm => ⟨fun hown => ?rxOwn, fun hown hwrap => ?rxWrap⟩⟩⟩
  case config => rw [step_eq, admitted, h]; rfl
  case slot =>
    rcases hat with ⟨hat, hm⟩ | hat | hat | hat
    all_goals rw [exec_tx_at hat, txLabel]; simp only [hat.1]
    · rcases hm with hm | hm
      · rw [txT2, hm]; exact txOwned_of_owned hown _
      · rw [txT2_write_eq (by omega) (by omega)]; exact txOwned_of_owned hown _
    all_goals exact txOwned_of_owned hown _
  case byte =>
    rw [exec_tx_at hat, txLabel]; simp only [hat.1]
    rw [txT2_read hm hj]; exact txReadByte_fault hplace
  case isr =>
    rcases hat with ⟨hin, hpc, hm⟩ | ⟨hin, hpc, hm⟩ | ⟨hin, hpc, hm⟩ | ⟨hin, hpc, hm⟩ | ⟨hin, hpc, hm⟩
    all_goals rw [exec_isr hi hin, isrLabel]; simp only [hpc]
    · exact rxOwned_of_owned hown _
    · exact rxOwned_of_owned hown _
    · rw [isrI4, if_pos hm]; exact rxOwned_of_owned hown _
    · rw [isrI5, hm]; exact rxOwned_of_owned hown _
    · rw [isrI5_handOver_eq (by omega) (by omega)]; exact rxOwned_of_owned hown _
  case multi =>
    have hbad : decodeTdes (s.wordAt (engTxd s s.tx.idx 0)) = .bad .multiDescriptorFrame := by
      rw [decodeTdes, if_pos hown, if_neg (by rcases hmulti with h | h <;> simp [h])]
    rw [step_withMoves_cons ha, fetchMove_txdma_bad (s := s.withMoves ms) hst hjob hbad]
    rfl
  case long => rw [exec_send_fetch hjob hp, sendFetch_malformed hm hlen]
  case txOwn => rw [exec_send_release hjob hp, sendRelease_of_swOwned hown]
  case txWrap => rw [exec_send_release hjob hp, sendRelease_of_misplaced hown hwrap]
  case rxOwn => rw [exec_fill_publish hjob hp hm, fillPublish_of_swOwned hown]
  case rxWrap => rw [exec_fill_publish hjob hp hm, fillPublish_of_misplaced hown hwrap]

end Sys2Proof.Machine

/-! PROOFS. What one step of the machine can do: every micro-step of every agent, and every move that no word selects. -/

namespace Sys2Proof.Machine

/-! ### ISR -/

/-- A micro-step of ISR inside the handler. -/
inductive IsrStep (s : State) : State → Prop
  | idle (at_ : s.ipc = .idle) : IsrStep s s
  | i0 (at_ : s.ipc = .i0) :
      IsrStep s (igoto .i1 { flush .isr s with
        i := { (flush .isr s).i with snap := s.regs.intStatus, iter := 0, iterWraps := 0, cap := false } })
  | i1Cap (at_ : s.ipc = .i1) : IsrStep s (igoto .i7 { s with i := { s.i with cap := true } })
  | i1GoOn (at_ : s.ipc = .i1) (first : s.imic = 0) (more : s.i.iterations ≠ s.cfg.rxLoopCap) :
      IsrStep s { s with imic := 1 }
  | i1Empty {want : Pending → Bool} {w0 : Word} (at_ : s.ipc = .i1) (second : s.imic ≠ 0) :
      IsrStep s (igoto .i7 { settle .isr want s with i := { (settle .isr want s).i with w0 := w0 } })
  | i1Taken {want : Pending → Bool} {w0 : Word} (at_ : s.ipc = .i1) (second : s.imic ≠ 0) :
      IsrStep s (igoto .i2 { settle .isr want s with i := { (settle .isr want s).i with w0 := w0 } })
  | i2 (at_ : s.ipc = .i2) : IsrStep s (igoto .i3 (flush .isr s))
  | i3Len (at_ : s.ipc = .i3) (first : s.imic = 0) :
      IsrStep s { issue .isr (.load (rxSlot s 1) .isrLen) s with imic := 1 }
  | i3Pointer (at_ : s.ipc = .i3) : IsrStep s (igoto .i4 (issue .isr (.load (rxSlot s 2) .isrBufp) s))
  | i4Deliver (at_ : s.ipc = .i4) (first : s.imic = 0) : IsrStep s { deliver (awaitFetch s) with imic := 1 }
  | i4Drop (at_ : s.ipc = .i4) :
      IsrStep s (igoto .i5 { s with ndrop := counterAdd s.cfg s.ndrop 1, events := s.events ++ [.rxBadFrame] })
  | i4Count (at_ : s.ipc = .i4) : IsrStep s (igoto .i5 { s with nrecv := counterAdd s.cfg s.nrecv 1 })
  | i5Clear (at_ : s.ipc = .i5) (first : s.imic = 0) :
      IsrStep s { issue .isr (.word (rxSlot s 1) 0) s with imic := 1 }
  | i5Fence (at_ : s.ipc = .i5) (second : s.imic = 1) : IsrStep s { flush .isr s with imic := 2 }
  | i5Rearm (at_ : s.ipc = .i5) (third : 2 ≤ s.imic) :
      IsrStep s (igoto .i6 (issue .isr (.word (rxSlot s 0) (rearmWord s.i.w0)) s))
  | i6 (at_ : s.ipc = .i6) : IsrStep s (isrI6 s)
  | i7 (at_ : s.ipc = .i7) :
      IsrStep s (igoto .i8 { flush .isr s with
        regs := { s.regs with intStatus := clearOnes s.regs.intStatus (isrClearWord s) } })
  | i8 (at_ : s.ipc = .i8) : IsrStep s (returnInterrupt s)

theorem IsrStep.of_isrI1 {s : State} (at_ : s.ipc = .i1) : IsrStep s (isrI1 s) := by
  by_cases hm : s.imic = 0
  · by_cases hc : s.i.iterations = s.cfg.rxLoopCap
    · rw [isrI1_cap hm hc]; exact .i1Cap at_
    · rw [isrI1_goOn hm hc]; exact .i1GoOn at_ hm hc
  · rw [isrI1_test hm rfl]
    split
    · exact .i1Empty at_ hm
    · exact .i1Taken at_ hm

theorem IsrStep.of_isrI3 {s : State} (at_ : s.ipc = .i3) : IsrStep s (isrI3 s) := by
  unfold isrI3
  split
  · next hm => exact .i3Len at_ hm
  · exact .i3Pointer at_

theorem IsrStep.of_isrI4 {s t : State} (at_ : s.ipc = .i4) (h : isrI4 s = .next t) : IsrStep s t := by
  by_cases hm : s.imic = 0
  · have hown : hwOwns s (rxSlot s 0) = false := by rw [isrI4, if_pos hm] at h; exact (rxOwned_next h).1
    cases hg : goodFrame s.i.w0 with
    | true => rw [isrI4_deliver hm hown hg] at h; cases h; exact .i4Deliver at_ hm
    | false => rw [isrI4_drop hm hown hg] at h; cases h; exact .i4Drop at_
  · rw [isrI4_count hm] at h; cases h; exact .i4Count at_

theorem IsrStep.of_isrI5 {s t : State} (at_ : s.ipc = .i5) (h : isrI5 s = .next t) : IsrStep s t := by
  by_cases h0 : s.imic = 0
  · have hown : hwOwns s (rxSlot s 0) = false := by rw [isrI5, h0] at h; exact (rxOwned_next h).1
    rw [isrI5_clear h0 hown] at h; cases h; exact .i5Clear at_ h0
  by_cases h1 : s.imic = 1
  · rw [isrI5_fence h1] at h; cases h; exact .i5Fence at_ h1
  · rw [isrI5_handOver_eq h0 h1] at h
    obtain ⟨-, e⟩ := rxOwned_next h
    cases e; exact .i5Rearm at_ (by omega)

theorem IsrStep.of_isrLabel {s t : State} (h : isrLabel s = .next t) : IsrStep s t := by
  unfold isrLabel at h
  split at h <;> rename_i at_
  · cases h; exact .idle at_
  · cases h; exact .i0 at_
  · cases h; exact .of_isrI1 at_
  · cases h; exact .i2 at_
  · obtain ⟨-, e⟩ := rxOwned_next h; cases e; exact .of_isrI3 at_
  · exact .of_isrI4 at_ h
  · exact .of_isrI5 at_ h
  · cases h; exact .i6 at_
  · rw [isrI7_eq] at h; cases h; exact .i7 at_
  · cases h; exact .i8 at_

/-! ### The engines -/

/-- A micro-step of `RXDMA.FILL` on the job `j`; `w0` is the word polled. -/
inductive FillStep (w0 : Word) (s : State) (j : RxJob) : State → Prop
  | poll (at_ : j.phase = .qr1) : FillStep w0 s j (setRxJob { j with phase := .qr2, mic := 0, w0 := w0 } s)
  | pointer (at_ : j.phase = .qr2) (first : j.mic = 0) :
      FillStep w0 s j (setRxJob
        { j with mic := 1, bufp := s.wordAt (engRxd s s.rx.idx 2), todo := List.range (segLen s j) } s)
  | byte (at_ : j.phase = .qr2) (second : j.mic ≠ 0) (more : j.todo ≠ []) :
      FillStep w0 s j (setRxJob (j.stored (pickOf s j.todo))
        (storeByte (addrAt s.cfg j.bufp (pickOf s j.todo)) (j.frame.bytes.getD (j.off + pickOf s j.todo) 0) s))
  | none (at_ : j.phase = .qr2) : FillStep w0 s j (setRxJob { j with phase := .qr3, mic := 0 } s)
  | length (at_ : j.phase = .qr3) :
      FillStep w0 s j (setRxJob { j with phase := .qr4, mic := 0 }
        (engineStoreWord (engRxd s s.rx.idx 1) (BitVec.ofNat 32 (segLen s j)) s))
  | publish (at_ : j.phase = .qr4) (first : j.mic = 0) (wrap : wrapBit j.w0 = decide (s.rx.idx + 1 = s.cfg.n)) :
      FillStep w0 s j { s with
        mem := Memory.setWord s.mem (engRxd s s.rx.idx 0) (segWord s j)
        rx := { s.rx with idx := if wrapBit j.w0 then 0 else s.rx.idx + 1, job := some (j.published s) } }
  | ends (at_ : j.phase = .qr4) (second : j.mic ≠ 0) : FillStep w0 s j (fillEnd s)

theorem FillStep.of_fillPublish {w0 : Word} {s t : State} {j : RxJob} (at_ : j.phase = .qr4) (hm : j.mic = 0)
    (h : fillPublish j s = .next t) : FillStep w0 s j t := by
  cases hown : hwOwns s (engRxd s s.rx.idx 0) with
  | false => rw [fillPublish_of_swOwned hown] at h; cases h
  | true =>
    by_cases hwrap : wrapBit j.w0 = decide (s.rx.idx + 1 = s.cfg.n)
    · rw [fillPublish_eq hown hwrap] at h; cases h; exact .publish at_ hm hwrap
    · rw [fillPublish_of_misplaced hown hwrap] at h; cases h

theorem FillStep.of_exec {w0 : Word} {s t : State} (h : exec (.rxdmaFill w0) s = .next t) :
    (s.rx.job = Option.none ∧ t = s) ∨ ∃ j, s.rx.job = some j ∧ FillStep w0 s j t := by
  cases hjob : s.rx.job with
  | none =>
    simp only [exec_rxdmaFill, execRxdmaFill, hjob, Host.Outcome.next.injEq] at h
    exact .inl ⟨rfl, h.symm⟩
  | some j =>
    refine .inr ⟨j, rfl, ?_⟩
    cases hp : j.phase with
    | qr1 => rw [exec_fill_poll hjob hp] at h; cases h; exact .poll hp
    | qr2 =>
      rw [exec_fill_data hjob hp] at h; cases h
      by_cases hm : j.mic = 0
      · rw [fillData_pointer hm]; exact .pointer hp hm
      by_cases htodo : j.todo = []
      · rw [fillData_none hm htodo]; exact .none hp
      · rw [fillData_byte hm htodo]; exact .byte hp hm htodo
    | qr3 => rw [exec_fill_length hjob hp] at h; cases h; exact .length hp
    | qr4 =>
      by_cases hm : j.mic = 0
      · rw [exec_fill_publish hjob hp hm] at h; exact .of_fillPublish hp hm h
      · rw [exec_fill_end hjob hp hm] at h; cases h; exact .ends hp hm

/-- A micro-step of `TXDMA.SEND` on the job `j`. -/
inductive SendStep (s : State) (j : TxJob) : State → Prop
  | len (at_ : j.phase = .qt1) (fits : txLen s ≤ s.cfg.bufSize) :
      SendStep s j (setTxJob { j with len := txLen s, mic := 1 } s)
  | pointer (at_ : j.phase = .qt1) :
      SendStep s j (setTxJob
        { j with
          bufp := s.wordAt (engTxd s s.tx.idx 2), data := List.replicate j.len 0, todo := List.range j.len
          mic := 2, phase := if j.len = 0 then .qt2 else .qt1 } s)
  | byte (at_ : j.phase = .qt1) (third : 2 ≤ j.mic) (more : j.todo ≠ []) :
      SendStep s j (setTxJob (j.fetched s (pickOf s j.todo)) s)
  | none (at_ : j.phase = .qt1) (third : 2 ≤ j.mic) : SendStep s j (setTxJob { j with phase := .qt2 } s)
  | emit (at_ : j.phase = .qt2) :
      SendStep s j { s with
        wireOut := if j.len = 0 then s.wireOut else s.wireOut ++ [⟨j.data, acBit j.w0⟩]
        tx := { s.tx with job := some { j with phase := .qt3 } } }
  | release (at_ : j.phase = .qt3) (wrap : wrapBit j.w0 = decide (s.tx.idx + 1 = s.cfg.n)) :
      SendStep s j { s with
        mem := Memory.setWord s.mem (engTxd s s.tx.idx 0) (releaseWord j.w0)
        tx := ⟨if txenBit s.regs.ctrl then s.tx.st else .stopped, if wrapBit j.w0 then 0 else s.tx.idx + 1, .none⟩ }

theorem SendStep.of_sendFetch {s t : State} {j : TxJob} (at_ : j.phase = .qt1) (h : sendFetch j s = .next t) :
    SendStep s j t := by
  by_cases h0 : j.mic = 0
  · by_cases fits : txLen s ≤ s.cfg.bufSize
    · rw [sendFetch_len h0 fits] at h; cases h; exact .len at_ fits
    · rw [sendFetch_malformed h0 (Nat.lt_of_not_le fits)] at h; cases h
  by_cases h1 : j.mic = 1
  · rw [sendFetch_pointer h1] at h; cases h; exact .pointer at_
  · have third : 2 ≤ j.mic := by omega
    by_cases htodo : j.todo = []
    · rw [sendFetch_none third htodo] at h; cases h; exact .none at_ third
    · rw [sendFetch_byte third htodo] at h; cases h; exact .byte at_ third htodo

theorem SendStep.of_sendRelease {s t : State} {j : TxJob} (at_ : j.phase = .qt3) (h : sendRelease j s = .next t) :
    SendStep s j t := by
  cases hown : hwOwns s (engTxd s s.tx.idx 0) with
  | false => rw [sendRelease_of_swOwned hown] at h; cases h
  | true =>
    by_cases hwrap : wrapBit j.w0 = decide (s.tx.idx + 1 = s.cfg.n)
    · rw [sendRelease_eq hown hwrap] at h; cases h; exact .release at_ hwrap
    · rw [sendRelease_of_misplaced hown hwrap] at h; cases h

theorem SendStep.of_exec {w0 : Word} {s t : State} (h : exec (.txdmaSend w0) s = .next t) :
    (s.tx.job = Option.none ∧ (t = s ∨ (s.tx.st = .running ∧ t = setTxJob (newTxJob w0) s))) ∨
      ∃ j, s.tx.job = some j ∧ SendStep s j t := by
  cases hjob : s.tx.job with
  | none =>
    refine .inl ⟨rfl, ?_⟩
    by_cases hst : s.tx.st = .running
    · rw [exec_send_poll hst hjob] at h; cases h; exact .inr ⟨hst, rfl⟩
    · have hpoll : ¬ txMayPoll s = true := by rw [txMayPoll_iff]; tauto
      simp [exec_txdmaSend, execTxdmaSend, hjob, hpoll] at h
      exact .inl h.symm
  | some j =>
    refine .inr ⟨j, rfl, ?_⟩
    cases hp : j.phase with
    | qt1 => rw [exec_send_fetch hjob hp] at h; exact .of_sendFetch hp h
    | qt2 => rw [exec_send_emit hjob hp, sendEmit_eq] at h; cases h; exact .emit hp
    | qt3 => rw [exec_send_release hjob hp] at h; exact .of_sendRelease hp h

/-! ### Every instruction -/

/-- What a micro-step of an instruction can do. -/
inductive ExecStep : Instr → State → State → Prop
  | stay {i : Instr} {s : State} (other : isHandler i = true → s.inIsr = false) : ExecStep i s s
  | op {i : Instr} {s t : State} (h : OpStep i s t) : ExecStep i s t
  | busRead {r : BitVec 5} {s : State} {w : Word} : ExecStep (.regrd r) s { s with busData := w }
  | busWrite {r : BitVec 5} {v : Word} {s t : State} (h : regWrite (regOfNumber r) v s = .next t) :
      ExecStep (.regwr r v) s t
  | mdioIssue {i : Instr} {s : State} {w : Word} (free : busyBit s.regs.mdioCtrl = false)
      (other : (∃ pa ra cr, i = .mdioRd pa ra cr) ∨ ∃ pa ra cr, i = .mdioWr pa ra cr) :
      ExecStep i s { s with regs := { s.regs with mdioCtrl := w &&& mdioCtrlMask } }
  | mdioRead {pa ra : BitVec 5} {cr : BitVec 4} {s : State} : ExecStep (.mdioRd pa ra cr) s (xferRead pa ra s)
  | mdioWrite {pa ra : BitVec 5} {cr : BitVec 4} {s : State} : ExecStep (.mdioWr pa ra cr) s (xferWrite pa ra s)
  | sendPoll {w0 : Word} {s : State} (job : s.tx.job = none) (run : s.tx.st = .running) :
      ExecStep (.txdmaSend w0) s (setTxJob (newTxJob w0) s)
  | send {w0 : Word} {s t : State} {j : TxJob} (job : s.tx.job = some j) (h : SendStep s j t) :
      ExecStep (.txdmaSend w0) s t
  | park {w0 : Word} {s : State} (job : s.tx.job = none) :
      ExecStep (.txdmaPark w0) s { s with tx := { s.tx with st := .suspended } }
  | fill {w0 : Word} {s t : State} {j : RxJob} (job : s.rx.job = some j) (h : FillStep w0 s j t) :
      ExecStep (.rxdmaFill w0) s t
  | miss {w0 : Word} {s : State} {j : RxJob} (job : s.rx.job = some j) : ExecStep (.rxdmaMiss w0) s (overrun j s)
  | enter {i : Instr} {s : State} (handler : isHandler i = true) (out : s.inIsr = false) (cause : s.cause ≠ 0) :
      ExecStep i s (takeInterrupt s)
  | isr {i : Instr} {s t : State} (handler : isHandler i = true) (inside : s.inIsr = true) (h : IsrStep s t) :
      ExecStep i s t

theorem ExecStep.of_mdio {i : Instr} {word : Word} {xfer : State → State} {s t : State}
    (other : (∃ pa ra cr, i = .mdioRd pa ra cr) ∨ ∃ pa ra cr, i = .mdioWr pa ra cr) (hx : ExecStep i s (xfer s))
    (h : mdioTransaction i word xfer s = .next t) : ExecStep i s t := by
  cases hb : busyBit s.regs.mdioCtrl with
  | false =>
    rw [mdioTransaction_of_free hb, regWrite_mdioCtrl_of_free hb] at h
    cases h; exact .mdioIssue hb other
  | true =>
    by_cases hd : decodeMdioc s.regs.mdioCtrl = .ok i
    · rw [mdioTransaction_of_inFlight hb hd] at h; cases h; exact hx
    · rw [mdioTransaction_of_other hb hd] at h; cases h

theorem ExecStep.of_park {w0 : Word} {s t : State} (h : exec (.txdmaPark w0) s = .next t) :
    ExecStep (.txdmaPark w0) s t := by
  by_cases hp : s.tx.st = .running ∧ s.tx.job = none
  · rw [exec_park hp.1 hp.2] at h; cases h; exact .park hp.2
  · rw [exec_park_of_not_polling (by tauto)] at h; cases h; exact .stay nofun

theorem ExecStep.of_miss {w0 : Word} {s t : State} (h : exec (.rxdmaMiss w0) s = .next t) :
    ExecStep (.rxdmaMiss w0) s t := by
  rw [exec_rxdmaMiss, execRxdmaMiss] at h
  split at h
  · cases h; exact .stay nofun
  · next j hjob =>
    split at h <;> cases h
    · exact .miss hjob
    · exact .stay nofun

theorem ExecStep.of_handler {i : Instr} (hi : isHandler i = true) {s t : State} (h : exec i s = .next t) :
    ExecStep i s t := by
  rw [exec_handler hi] at h
  rcases handler_next h with ⟨inside, h⟩ | ⟨out, hcause, rfl⟩ | ⟨out, -, rfl⟩
  · exact .isr hi inside (.of_isrLabel h)
  · exact .enter hi out (isHandler_of_decodeIrq (by simpa using hcause)).2
  · exact .stay fun _ => out

/-- What an instruction does, it does by one of these. -/
theorem ExecStep.of_exec {i : Instr} {s t : State} (h : exec i s = .next t) : ExecStep i s t := by
  cases i with
  | init => exact .op (.of_init h)
  | tx => exact .op (.of_tx h)
  | up => exact .op (.of_up h)
  | regrd r => rw [exec_regrd] at h; cases h; exact .busRead
  | regwr r v => exact .busWrite (by rwa [exec_regwr] at h)
  | mdioRd pa ra cr => exact .of_mdio (.inl ⟨_, _, _, rfl⟩) .mdioRead h
  | mdioWr pa ra cr => exact .of_mdio (.inr ⟨_, _, _, rfl⟩) .mdioWrite h
  | txdmaSend w0 =>
    rcases SendStep.of_exec h with ⟨job, rfl | ⟨run, rfl⟩⟩ | ⟨j, job, h⟩
    · exact .stay nofun
    · exact .sendPoll job run
    · exact .send job h
  | txdmaPark w0 => exact .of_park h
  | rxdmaFill w0 =>
    rcases FillStep.of_exec h with ⟨-, rfl⟩ | ⟨j, job, h⟩
    · exact .stay nofun
    · exact .fill job h
  | rxdmaMiss w0 => exact .of_miss h
  | rxirq rbu => exact .of_handler rfl h
  | rxirqRbu => exact .of_handler rfl h

/-! ### Every move -/

/-- The instruction a move runs is one its agent may run: the handler's is ISR's, and an engine's poll has read the word
that selects it. -/
structure Selects (m : Move) (i : Instr) (s : State) : Prop where
  handler : isHandler i = true ↔ m = .isr
  send : ∀ w0, i = .txdmaSend w0 → s.tx.job = none → ownBit w0 = true ∧ fsBit w0 = true ∧ lsBit w0 = true
  fill : ∀ w0 j, i = .rxdmaFill w0 → s.rx.job = some j → j.phase = .qr1 → ownBit w0 = true

/-- What a move does, itself taken off the list. -/
inductive MoveStep (m : Move) (s : State) : State → Prop
  | stay (other : m = .isr → s.inIsr = false) : MoveStep m s s
  | run {i : Instr} {t : State} (sel : Selects m i s) (h : ExecStep i s t) : MoveStep m s t
  | store {a : Nat} {v : Byte} (other : m ≠ .isr) : MoveStep m s (taint a (storeByte a v s))
  | load {b : Byte} (other : m ≠ .isr) : MoveStep m s { s with memData := b }
  | arrive {f : Frame} (other : m ≠ .isr) (long : 14 ≤ f.bytes.length) (job : s.rx.job = none)
      (run : s.rx.run = .running) : MoveStep m s { s with rx := { s.rx with job := some (newRxJob f) } }
  | phy {pa ra : BitVec 5} {v : Half} (other : m ≠ .isr) : MoveStep m s (phyPut pa ra v s)
  | isr {t : State} (here : m = .isr) (inside : s.inIsr = true) (h : IsrStep s t) : MoveStep m s t
  | badCmd (other : m ≠ .isr) : MoveStep m s (raise .badCmd s)
  | reset (other : m ≠ .isr) : MoveStep m s (macReset s)
  | drain {c : Ctx} {k : Nat} (other : m ≠ .isr) : MoveStep m s (drain c k s)

theorem Selects.other {m : Move} {i : Instr} {s : State} (hi : isHandler i = false) (hm : m ≠ .isr)
    (send : ∀ w0, i ≠ .txdmaSend w0) (fill : ∀ w0, i ≠ .rxdmaFill w0) : Selects m i s :=
  ⟨by simp [hi, hm], fun w0 e => absurd e (send w0), fun w0 _ e => absurd e (fill w0)⟩

theorem MoveStep.of_bus {sel : Byte} {data : Word} {s t : State} (h : (fetchMove (.bus sel data) s).outcome = .next t) :
    MoveStep (.bus sel data) s t := by
  cases hd : decodeBus sel data with
  | bad e => rw [fetchMove_bus_bad hd] at h; cases h
  | ok i =>
    rw [fetchMove_bus hd] at h
    have hsel : Selects (.bus sel data) i s := by
      unfold decodeBus at hd
      split at hd <;> (try split at hd) <;> cases hd <;> exact .other rfl nofun nofun nofun
    exact .run hsel (.of_exec h)

theorem MoveStep.of_cmd {w : Word} {s t : State} (h : (fetchMove (.cmd w) s).outcome = .next t) :
    MoveStep (.cmd w) s t := by
  cases hg : commandGate s with
  | some r => rw [fetchMove_cmd_refused hg] at h; cases h
  | none =>
    cases hd : decodeCmd w with
    | bad e =>
      rw [fetchMove_cmd_bad hg hd, Fetched.outcome_done, badCommand_of_idle hg] at h
      cases h; exact .badCmd nofun
    | ok i =>
      rw [fetchMove_cmd hg hd] at h
      have hsel : Selects (.cmd w) i s := by
        unfold decodeCmd at hd
        split at hd <;> (try split at hd) <;> (try split at hd) <;> cases hd <;> exact .other rfl nofun nofun nofun
      exact .run hsel (.of_exec h)

theorem MoveStep.of_upperStore {m : Move} (other : m ≠ .isr) {a : Nat} {v : Byte} {s t : State}
    (h : upperStore a v s = .next t) : MoveStep m s t := by
  unfold upperStore at h
  dsimp only at h
  split at h <;> cases h
  exact .store other

theorem MoveStep.of_upperLoad {m : Move} (other : m ≠ .isr) {a : Nat} {s t : State} (h : upperLoad a s = .next t) :
    MoveStep m s t := by
  unfold upperLoad at h
  dsimp only at h
  split at h <;> cases h
  exact .load other

theorem MoveStep.of_frameArrives {m : Move} (other : m ≠ .isr) {f : Frame} {s t : State}
    (h : frameArrives f s = .next t) : MoveStep m s t := by
  unfold frameArrives at h
  split at h
  · cases h
  next hlen =>
  split at h
  · cases h
  next hjob =>
  split at h
  · cases h; exact .stay fun e => absurd e other
  next hrun =>
  split at h <;> cases h
  · exact .arrive other (by omega) (by simpa using hjob) (by cases hr : s.rx.run <;> simp_all)
  · exact .stay fun e => absurd e other

theorem MoveStep.of_host {s t : State} (h : (fetchMove .host s).outcome = .next t) : MoveStep .host s t := by
  cases hop : opOf s.hpc with
  | none => simp only [fetchMove, hop] at h; cases h; exact .stay nofun
  | some i =>
    rw [fetchMove_host hop] at h
    have hsel : Selects .host i s := by
      cases hl : s.hpc <;> rw [hl] at hop <;> cases hop <;> exact .other rfl nofun nofun nofun
    exact .run hsel (.of_exec h)

theorem MoveStep.of_isr {s t : State} (h : (fetchMove .isr s).outcome = .next t) : MoveStep .isr s t := by
  have hsel : ∀ {c : BitVec 2} {i : Instr}, decodeIrq c = .ok i → Selects .isr i s := fun {c i} hd => by
    have hh := (isHandler_of_decodeIrq hd).1
    refine ⟨by simp [hh], ?_, ?_⟩
    · rintro w0 rfl; cases hh
    · rintro w0 j rfl; cases hh
  cases hi : s.inIsr with
  | true =>
    cases hd : decodeIrq s.icause with
    | ok i => rw [fetchMove_isr_inside hi hd] at h; exact .run (hsel hd) (.of_exec h)
    | bad e =>
      simp only [fetchMove, fetchIsr, hi, hd, if_true, Fetched.outcome_done] at h
      exact .isr rfl hi (.of_isrLabel h)
  | false =>
    cases hd : decodeIrq s.cause with
    | ok i => rw [fetchMove_isr_outside hi hd] at h; exact .run (hsel hd) (.of_exec h)
    | bad e => rw [fetchMove_isr_bad hi hd] at h; cases h; exact .stay fun _ => hi

/-- A polled word of TXDMA selects the transmission of a whole frame, or the suspension. -/
theorem decodeTdes_ok {w : Word} {i : Instr} (h : decodeTdes w = .ok i) :
    (i = .txdmaSend w ∧ ownBit w = true ∧ fsBit w = true ∧ lsBit w = true) ∨ i = .txdmaPark w := by
  unfold decodeTdes at h
  split at h
  · next hown =>
    split at h <;> cases h
    next hwhole => exact .inl ⟨rfl, hown, by simpa using hwhole⟩
  · cases h; exact .inr rfl

theorem MoveStep.of_run {m : Move} {i : Instr} {s t : State} (h : (Fetched.run i s).outcome = .next t)
    (sel : Selects m i s) : MoveStep m s t := .run sel (.of_exec h)

theorem MoveStep.of_rxdma {pick : Nat} {s t : State} (h : (fetchRxdma s).outcome = .next t) :
    MoveStep (.rxdma pick) s t := by
  cases hjob : s.rx.job with
  | none => simp only [fetchRxdma, hjob] at h; cases h; exact .stay nofun
  | some j =>
    by_cases hp : j.phase = .qr1
    · cases hown : ownBit (s.wordAt (engRxd s s.rx.idx 0)) with
      | true =>
        simp only [fetchRxdma, hjob, hp, decodeRdes, hown, if_true] at h
        refine .of_run h ⟨by simp [isHandler], fun w0 e => (nomatch e), fun w0 j' e _ _ => ?_⟩
        cases e; exact hown
      | false =>
        simp only [fetchRxdma, hjob, hp, decodeRdes, hown, if_true] at h
        exact .of_run h (.other rfl nofun nofun nofun)
    · simp only [fetchRxdma, hjob, hp, if_false] at h
      refine .of_run h ⟨by simp [isHandler], fun w0 e => (nomatch e), fun w0 j' _ hjob' hp' => ?_⟩
      rw [hjob, Option.some.injEq] at hjob'
      exact absurd (hjob' ▸ hp') hp

theorem MoveStep.of_txdma {pick : Nat} {s t : State} (h : (fetchTxdma s).outcome = .next t) :
    MoveStep (.txdma pick) s t := by
  cases hjob : s.tx.job with
  | some j =>
    simp only [fetchTxdma, hjob] at h
    refine .of_run h ⟨by simp [isHandler], fun w0 _ hjob' => ?_, fun w0 j' e => (nomatch e)⟩
    rw [hjob] at hjob'; cases hjob'
  | none =>
    cases hpoll : txMayPoll s with
    | false => simp only [fetchTxdma, hjob, hpoll] at h; cases h; exact .stay nofun
    | true =>
      cases hd : decodeTdes (s.wordAt (engTxd s s.tx.idx 0)) with
      | bad e => simp only [fetchTxdma, hjob, hpoll, hd] at h; cases h
      | ok i =>
        simp only [fetchTxdma, hjob, hpoll, hd, if_true] at h
        have hi := decodeTdes_ok hd
        refine .of_run h ⟨?_, fun w0 e _ => ?_, fun w0 j' e => ?_⟩
        · rcases hi with ⟨rfl, -⟩ | rfl <;> simp [isHandler]
        · rcases hi with ⟨rfl, hown⟩ | rfl <;> cases e
          exact hown
        · rcases hi with ⟨rfl, -⟩ | rfl <;> cases e

theorem MoveStep.of_mdioc {s t : State} (h : (fetchMove .mdioc s).outcome = .next t) : MoveStep .mdioc s t := by
  cases hd : decodeMdioc s.regs.mdioCtrl with
  | bad e => rw [fetchMove_mdioc_bad hd] at h; cases h; exact .stay nofun
  | ok i =>
    rw [fetchMove_mdioc hd] at h
    have hsel : Selects .mdioc i s := by
      unfold decodeMdioc at hd
      split at hd <;> (try split at hd) <;> cases hd <;> exact .other rfl nofun nofun nofun
    exact .run hsel (.of_exec h)

/-- What a move does, it does by one of these, from the state with its pick. -/
theorem MoveStep.of_fetchMove {m : Move} {s t : State} (h : (fetchMove m s).outcome = .next t) :
    ∃ pick, MoveStep m { s with choice := pick } t := by
  cases m with
  | rxdma pick => exact ⟨pick, .of_rxdma h⟩
  | txdma pick => exact ⟨pick, .of_txdma h⟩
  | bus sel data => exact ⟨s.choice, .of_bus h⟩
  | cmd w => exact ⟨s.choice, .of_cmd h⟩
  | store a v => exact ⟨s.choice, .of_upperStore (m := .store a v) nofun h⟩
  | load a => exact ⟨s.choice, .of_upperLoad (m := .load a) nofun h⟩
  | wire f => exact ⟨s.choice, .of_frameArrives (m := .wire f) nofun h⟩
  | phy pa ra v => cases h; exact ⟨s.choice, .phy nofun⟩
  | host => exact ⟨s.choice, .of_host h⟩
  | isr => exact ⟨s.choice, .of_isr h⟩
  | mdioc => exact ⟨s.choice, .of_mdioc h⟩
  | macrst =>
    refine ⟨s.choice, ?_⟩
    cases hr : swrstBit s.regs.ctrl with
    | true => rw [fetchMove_macrst_of_request hr] at h; cases h; exact .reset nofun
    | false => rw [fetchMove_macrst_of_none hr] at h; cases h; exact .stay nofun
  | drainHost k => cases h; exact ⟨s.choice, .drain nofun⟩
  | drainIsr k => cases h; exact ⟨s.choice, .drain nofun⟩

/-- A step takes the next move off the list and does what that move does, in an admissible configuration. -/
theorem step_cases {s t : State} (h : step s = .next t) : s.cfg.admissible = true ∧
    ((s.moves = [] ∧ t = s) ∨
      ∃ m ms pick, s.moves = m :: ms ∧ MoveStep m { s with moves := ms, choice := pick } t) := by
  obtain ⟨ha, -⟩ := step_next h
  refine ⟨ha, ?_⟩
  cases hm : s.moves with
  | nil => rw [step_of_moves_nil ha hm] at h; cases h; exact .inl ⟨rfl, rfl⟩
  | cons m ms =>
    rw [step_of_moves_cons ha hm] at h
    obtain ⟨pick, hstep⟩ := MoveStep.of_fetchMove h
    exact .inr ⟨m, ms, pick, rfl, hstep⟩

/-- A property that reads neither the list of moves nor the pick is kept by every step if every move keeps it. -/
theorem step_keeps {P : State → Prop} (reads : ∀ s ms pick, P s → P { s with moves := ms, choice := pick })
    (keeps : ∀ m s t, s.cfg.admissible = true → P s → MoveStep m s t → P t) {s t : State} (hs : P s)
    (h : step s = .next t) : P t := by
  obtain ⟨ha, ⟨-, rfl⟩ | ⟨m, ms, pick, -, hm⟩⟩ := step_cases h
  · exact hs
  · exact keeps m { s with moves := ms, choice := pick } t ha (reads s ms pick hs) hm

end Sys2Proof.Machine

/-! PROOFS. What a micro-step does with memory and the accesses outstanding: nothing, an ordering point, one access
issued, or some performed early. The canonical form of memory (20_memory.md R96) and the memory frame follow. -/

namespace Sys2Proof.Machine

/-! ### The accesses of one micro-step -/

/-- The context whose register a load fills. -/
def LoadReg.ctx : LoadReg → Ctx
  | .hostByte => .host
  | .hostBufp => .host
  | .isrLen => .isr
  | .isrBufp => .isr

/-- What a context's micro-step does with memory; the stores it issues are among `ss`. -/
inductive Access (ss : List Pending) : Ctx → State → State → Prop
  | none {c : Ctx} {s : State} : Access ss c s s
  | flush {c : Ctx} {s : State} : Access ss c s (flush c s)
  | load {c : Ctx} {s : State} {a : Nat} {r : LoadReg} (own : r.ctx = c) : Access ss c s (issue c (.load a r) s)
  | store {c : Ctx} {s : State} {a : Nat} {v : Word} (named : .word a v ∈ ss) : Access ss c s (issue c (.word a v) s)
  | settle {c : Ctx} {s : State} {want : Pending → Bool} : Access ss c s (settle c want s)
  | await {s : State} : Access ss .isr s (awaitFetch s)
  | copy {s : State} {v : Byte} (named : .byte (txDest (settleReg .host .hostBufp s)) v ∈ ss) :
      Access ss .host s (txWriteByte s)

/-- Two states of one memory, with the same accesses outstanding. -/
structure SameAccesses (u t : State) : Prop where
  cfg : t.cfg = u.cfg
  mem : t.mem = u.mem
  hostBuf : t.hostBuf = u.hostBuf
  isrBuf : t.isrBuf = u.isrBuf
  phy : t.phy = u.phy

theorem SameAccesses.refl (s : State) : SameAccesses s s := ⟨rfl, rfl, rfl, rfl, rfl⟩

/-- The byte's store is issued, or joins the load it waits for. -/
theorem txWriteByte_cases (s : State) :
    txWriteByte s = issue .host (.byte (txDest (settleReg .host .hostBufp s)) (settleReg .host .hostBufp s).h.byte)
      (settleReg .host .hostBufp s) ∨
    txWriteByte s = { settleReg .host .hostBufp s with
      hostBuf := (settleReg .host .hostBufp s).hostBuf.map
        (Pending.withStore (txDest (settleReg .host .hostBufp s))) } := by
  simp only [txWriteByte]
  split
  · exact .inr rfl
  · exact .inl rfl

theorem doorbell_eq (s : State) : doorbell s = { s with tx := { s.tx with st := (doorbell s).tx.st } } := by
  unfold doorbell; split <;> rfl

theorem raiseOpt_frame (e : Option Event) (s : State) : raiseOpt e s = { s with
    events := (raiseOpt e s).events, regs := { s.regs with diag := (raiseOpt e s).regs.diag } } := by
  cases e <;> rfl

theorem initN2_eq (s : State) : initN2 s = { s with
    h := { s.h with code := (mdcSel s.cfg).1 }, hpc := .n3, hsub := .off, hmic := 0
    events := (initN2 s).events, regs := { s.regs with diag := (initN2 s).regs.diag } } :=
  congrArg (goto .n3) (raiseOpt_frame (mdcSel s.cfg).2 { s with h := { s.h with code := (mdcSel s.cfg).1 } })

theorem identify_eq (s : State) : identify s = { s with
    phyId := phyIdOf s.h.id1 s.h.id2, vendor := classify s.cfg (phyIdOf s.h.id1 s.h.id2), h := { s.h with ok := true }
    events := (identify s).events, regs := { s.regs with diag := (identify s).regs.diag } } := by
  by_cases h : absentId (phyIdOf s.h.id1 s.h.id2) = true <;> simp [identify, h, raise]

/-- The stores that HOST's labels issue. -/
theorem hostStores_t3 {s : State} (hat : hostAt .t3 s) : hostStores s = [.word (txSlot s 1) s.h.len] := by
  simp only [hostStores, hat.1, hat.2.1]

theorem hostStores_t4 {s : State} (hat : hostAt .t4 s) :
    hostStores s = [.word (txSlot s 0) (txFlagsWord s.h.w0)] := by
  simp only [hostStores, hat.1, hat.2.1]

theorem hostStores_t6 {s : State} (hat : hostAt .t6 s) :
    hostStores s = [.word (txSlot s 0) (txOwnWord s.h.w0)] := by
  simp only [hostStores, hat.1, hat.2.1]

theorem hostStores_t2 {s : State} (hat : hostAt .t2 s) (h : 2 ≤ s.hmic) :
    hostStores s = [.byte (txDest (settleReg .host .hostBufp s)) s.h.byte] := by
  simp only [hostStores, hat.1, hat.2.1, h, if_true]

/-- HOST's micro-step. -/
theorem HostStep.access {s t : State} (h : HostStep s t) :
    ∃ u, Access (hostStores s) .host s u ∧ SameAccesses u t := by
  have same : ∀ u : State, SameAccesses u u := .refl
  cases h
  case buildWord sub store => exact ⟨_, .store (by rw [store]; exact List.mem_singleton_self _), rfl, rfl, rfl, rfl, rfl⟩
  case buildSlot sub store _ => exact ⟨_, .store (by rw [store]; exact List.mem_singleton_self _), rfl, rfl, rfl, rfl, rfl⟩
  case buildRing sub store => exact ⟨_, .store (by rw [store]; exact List.mem_singleton_self _), rfl, rfl, rfl, rfl, rfl⟩
  case t3 hat =>
    exact ⟨_, .store (by rw [hostStores_t3 hat]; exact List.mem_singleton_self _), rfl, rfl, rfl, rfl, rfl⟩
  case t4 hat =>
    exact ⟨_, .store (by rw [hostStores_t4 hat]; exact List.mem_singleton_self _), rfl, rfl, rfl, rfl, rfl⟩
  case t6 hat =>
    exact ⟨_, .store (by rw [hostStores_t6 hat]; exact List.mem_singleton_self _), rfl, rfl, rfl, rfl, rfl⟩
  case t2Write hat second =>
    exact ⟨_, .copy (by rw [hostStores_t2 hat second]; exact List.mem_singleton_self _), rfl, rfl, rfl, rfl, rfl⟩
  case t2Pointer | t2Load => exact ⟨_, .load rfl, rfl, rfl, rfl, rfl, rfl⟩
  case t0Test | t0Full => exact ⟨_, .settle, rfl, rfl, rfl, rfl, rfl⟩
  case t7Doorbell => rw [doorbell_eq]; exact ⟨_, .flush, rfl, rfl, rfl, rfl, rfl⟩
  case n2 => rw [initN2_eq]; exact ⟨_, .none, rfl, rfl, rfl, rfl, rfl⟩
  case n5Done => rw [identify_eq]; exact ⟨_, .none, rfl, rfl, rfl, rfl, rfl⟩
  case pollDone | pollAgain | pollTimeout | issueWord | fetchDatum | putDatum | buildOver | n0 | n1Done | n1Again |
      n1Timeout | n3 | n6Rx | n6Tx | n7Lo | n7Hi | n7Filter | n10 | n11 | t0Buf | t0Len | t5 | t7Fence | u4 | u5 =>
    exact ⟨_, .flush, rfl, rfl, rfl, rfl, rfl⟩
  all_goals exact ⟨_, .none, rfl, rfl, rfl, rfl, rfl⟩

/-- The stores that ISR's labels issue. -/
theorem isrStores_clear {s : State} (at_ : s.ipc = .i5) (hm : s.imic = 0) : isrStores s = [.word (rxSlot s 1) 0] := by
  simp only [isrStores, at_, hm, if_true]

theorem isrStores_rearm {s : State} (at_ : s.ipc = .i5) (hm : 2 ≤ s.imic) :
    isrStores s = [.word (rxSlot s 0) (rearmWord s.i.w0)] := by
  simp only [isrStores, at_]
  rw [if_neg (by omega), if_neg (by omega)]

/-- ISR's micro-step, but for its return, which is an ordering point of both contexts. -/
theorem IsrStep.access {s t : State} (h : IsrStep s t) :
    t = returnInterrupt s ∨ ∃ u, Access (isrStores s) .isr s u ∧ SameAccesses u t := by
  cases h
  case i8 => exact .inl rfl
  case i5Clear at_ first =>
    exact .inr ⟨_, .store (by rw [isrStores_clear at_ first]; exact List.mem_singleton_self _), rfl, rfl, rfl, rfl, rfl⟩
  case i5Rearm at_ third =>
    exact .inr ⟨_, .store (by rw [isrStores_rearm at_ third]; exact List.mem_singleton_self _), rfl, rfl, rfl, rfl, rfl⟩
  case i3Len | i3Pointer => exact .inr ⟨_, .load rfl, rfl, rfl, rfl, rfl, rfl⟩
  case i1Empty | i1Taken => exact .inr ⟨_, .settle, rfl, rfl, rfl, rfl, rfl⟩
  case i4Deliver => exact .inr ⟨_, .await, rfl, rfl, rfl, rfl, rfl⟩
  case i0 | i2 | i5Fence | i7 => exact .inr ⟨_, .flush, rfl, rfl, rfl, rfl, rfl⟩
  all_goals exact .inr ⟨_, .none, rfl, rfl, rfl, rfl, rfl⟩

/-! ### The canonical form -/

theorem MemoryOk.same {u t : State} (hu : MemoryOk u) (h : SameAccesses u t) : MemoryOk t :=
  ⟨by rw [h.mem]; exact hu.mem, by rw [h.phy]; exact hu.phy,
    by rw [h.cfg, h.hostBuf, h.isrBuf]; exact hu.sc⟩

theorem MemoryOk.pending_of_sc {s : State} (hs : MemoryOk s) (hm : s.cfg.memModel = .sc) (c : Ctx) :
    s.pending c = [] := by
  cases c with
  | host => exact (hs.sc hm).1
  | isr => exact (hs.sc hm).2

/-- What a context does to its own list of accesses keeps the other's. -/
theorem MemoryOk.of_pending {s t : State} (hs : MemoryOk s) (c : Ctx) (mem : Memory.wf t.mem = true)
    (phy : t.phy = s.phy) (cfg : t.cfg = s.cfg) (other : ∀ c', c' ≠ c → t.pending c' = s.pending c')
    (own : s.cfg.memModel = .sc → t.pending c = []) : MemoryOk t := by
  refine ⟨mem, by rw [phy]; exact hs.phy, fun hm => ?_⟩
  rw [cfg] at hm
  have hpend : ∀ c', t.pending c' = [] := fun c' => by
    by_cases e : c' = c
    · rw [e]; exact own hm
    · rw [other c' e]; exact hs.pending_of_sc hm c'
  exact ⟨hpend .host, hpend .isr⟩

theorem flush_other {c c' : Ctx} (h : c' ≠ c) (s : State) : (flush c s).pending c' = s.pending c' := by
  cases c <;> cases c' <;> simp_all

theorem settle_other {c c' : Ctx} (h : c' ≠ c) (want : Pending → Bool) (s : State) :
    (settle c want s).pending c' = s.pending c' := by
  cases c <;> cases c' <;> simp_all [settle]

theorem issue_other {c c' : Ctx} (h : c' ≠ c) (p : Pending) (s : State) : (issue c p s).pending c' = s.pending c' := by
  rcases issue_cases c p s with ⟨-, e⟩ | ⟨-, e⟩ <;> rw [e]
  · simp
  · cases c <;> cases c' <;> simp_all

theorem MemoryOk.flush {s : State} (hs : MemoryOk s) (c : Ctx) : MemoryOk (flush c s) :=
  hs.of_pending c (by rw [flush_mem]; exact Memory.wf_performAll _ _ hs.mem) (by simp) (by simp)
    (fun _ h => flush_other h s) fun _ => flush_pending c s

theorem MemoryOk.settle {s : State} (hs : MemoryOk s) (c : Ctx) (want : Pending → Bool) : MemoryOk (settle c want s) :=
  hs.of_pending c (by rw [settle_mem]; exact Memory.wf_performAll _ _ hs.mem) (by simp) (by simp)
    (fun _ h => settle_other h want s) fun hm => by rw [settle_pending, hs.pending_of_sc hm]; rfl

theorem MemoryOk.issue {s : State} (hs : MemoryOk s) (c : Ctx) (p : Pending) : MemoryOk (issue c p s) := by
  refine hs.of_pending c ?_ (by simp) (by simp) (fun _ h => issue_other h p s) fun hm => ?_
  · rcases issue_cases c p s with ⟨-, e⟩ | ⟨-, e⟩ <;> rw [e]
    · rw [performAccess_mem]; exact Memory.wf_perform _ _ hs.mem
    · rw [setPending_mem]; exact hs.mem
  · rw [issue_of_sc hm]; simpa using hs.pending_of_sc hm c

theorem MemoryOk.txWriteByte {s : State} (hs : MemoryOk s) : MemoryOk (txWriteByte s) := by
  have hu : MemoryOk (settleReg .host .hostBufp s) := hs.settle .host _
  rcases txWriteByte_cases s with e | e <;> rw [e]
  · exact hu.issue _ _
  · refine ⟨hu.mem, hu.phy, fun hm => ?_⟩
    obtain ⟨hh, hi⟩ := hu.sc hm
    exact ⟨by simp only [hh]; rfl, hi⟩

theorem Access.keeps_memoryOk {ss : List Pending} {c : Ctx} {s u : State} (h : Access ss c s u) (hs : MemoryOk s) :
    MemoryOk u := by
  cases h with
  | none => exact hs
  | flush => exact hs.flush c
  | load => exact hs.issue c _
  | store => exact hs.issue c _
  | settle => exact hs.settle c _
  | await => exact (hs.settle .isr _).settle .isr _
  | copy => exact hs.txWriteByte

/-! ### Register writes, commands and transactions leave memory -/

/-- A register write, a command's included, touches no memory and no access outstanding. -/
theorem regWrite_accesses {r : RegName} {v : Word} {s t : State} (h : regWrite r v s = .next t) :
    SameAccesses s t := by
  rcases regWrite_next h with ⟨-, regs, rx, tx, rfl⟩ | ⟨-, h⟩
  · exact ⟨rfl, rfl, rfl, rfl, rfl⟩
  · obtain ⟨-, -, rfl | ⟨-, rfl⟩ | ⟨-, rfl⟩ | rfl⟩ := commandWrite_next h <;> exact ⟨rfl, rfl, rfl, rfl, rfl⟩

/-- A contract operation's micro-step. -/
theorem OpStep.access {op : Instr} {s t : State} (h : OpStep op s t) :
    ∃ u, Access (hostStores s) .host s u ∧ SameAccesses u t := by
  cases h with
  | start => exact ⟨_, .none, rfl, rfl, rfl, rfl, rfl⟩
  | held => exact ⟨_, .none, .refl _⟩
  | go _ _ step => exact step.access

/-! ### The PHY's registers -/

theorem Phy.all_set {k : Nat} {pa ra : BitVec 5} {v : Half} (hk : k < phyKey pa ra) :
    ∀ l : List PhyCell, l.all (fun d => decide (k < phyKey d.pa d.ra)) = true →
      (Phy.set l pa ra v).all (fun d => decide (k < phyKey d.pa d.ra)) = true
  | [], _ => by simp [Phy.set, hk]
  | c :: l, h => by
    simp only [List.all_cons, Bool.and_eq_true, decide_eq_true_eq] at h
    unfold Phy.set
    split
    · simp [hk, h.1, h.2]
    · split
      · simp [hk, h.2]
      · simp [h.1, Phy.all_set hk l h.2]

/-- Setting a PHY register keeps the order. -/
theorem Phy.wf_set (pa ra : BitVec 5) (v : Half) :
    ∀ l : List PhyCell, Phy.wf l = true → Phy.wf (Phy.set l pa ra v) = true
  | [], _ => rfl
  | c :: l, h => by
    simp only [Phy.wf, Bool.and_eq_true] at h
    unfold Phy.set
    split
    · next hlt =>
      have habove : l.all (fun d => decide (phyKey pa ra < phyKey d.pa d.ra)) = true :=
        List.all_eq_true.2 fun d hd => by
          have := List.all_eq_true.1 h.1 d hd
          simp only [decide_eq_true_eq] at this ⊢
          omega
      simp [Phy.wf, hlt, habove, h.1, h.2]
    · split
      · next heq => simpa [Phy.wf, heq] using h
      · next hlt hne =>
        simp [Phy.wf, Phy.all_set (show phyKey c.pa c.ra < phyKey pa ra by omega) l h.1, Phy.wf_set pa ra v l h.2]

theorem MemoryOk.phyPut {s : State} (hs : MemoryOk s) (pa ra : BitVec 5) (v : Half) : MemoryOk (phyPut pa ra v s) :=
  ⟨hs.mem, Phy.wf_set pa ra v _ hs.phy, hs.sc⟩

theorem MemoryOk.xferWrite {s : State} (hs : MemoryOk s) (pa ra : BitVec 5) : MemoryOk (xferWrite pa ra s) := by
  unfold Machine.xferWrite
  cases hk : s.cfg.phyKind with
  | anyPhy => rw [phyWrite_of_anyPhy hk]; exact ⟨hs.mem, hs.phy, hs.sc⟩
  | mockPhy => rw [phyWrite_of_mockPhy hk]; exact ⟨hs.mem, Phy.wf_set _ _ _ _ hs.phy, hs.sc⟩

theorem FillStep.keeps_memoryOk {w0 : Word} {s t : State} {j : RxJob} (h : FillStep w0 s j t) (hs : MemoryOk s) :
    MemoryOk t := by
  cases h with
  | byte => exact ⟨Memory.wf_set _ _ _ hs.mem, hs.phy, hs.sc⟩
  | length => exact ⟨Memory.wf_setWord _ _ _ hs.mem, hs.phy, hs.sc⟩
  | publish => exact ⟨Memory.wf_setWord _ _ _ hs.mem, hs.phy, hs.sc⟩
  | poll | pointer | none | ends => exact ⟨hs.mem, hs.phy, hs.sc⟩

theorem SendStep.keeps_memoryOk {s t : State} {j : TxJob} (h : SendStep s j t) (hs : MemoryOk s) : MemoryOk t := by
  cases h with
  | release => exact ⟨Memory.wf_setWord _ _ _ hs.mem, hs.phy, hs.sc⟩
  | len | pointer | byte | none | emit => exact ⟨hs.mem, hs.phy, hs.sc⟩

theorem overrun_accesses (j : RxJob) (s : State) : SameAccesses s (overrun j s) := by
  unfold overrun
  cases j.first <;> exact ⟨rfl, rfl, rfl, rfl, rfl⟩

theorem IsrStep.keeps_memoryOk {s t : State} (h : IsrStep s t) (hs : MemoryOk s) : MemoryOk t := by
  rcases h.access with rfl | ⟨u, hu, same⟩
  · exact ((hs.flush .host).flush .isr).same ⟨rfl, rfl, rfl, rfl, rfl⟩
  · exact (hu.keeps_memoryOk hs).same same

theorem ExecStep.keeps_memoryOk {i : Instr} {s t : State} (h : ExecStep i s t) (hs : MemoryOk s) : MemoryOk t := by
  cases h with
  | stay => exact hs
  | op h =>
    obtain ⟨u, hu, same⟩ := h.access
    exact (hu.keeps_memoryOk hs).same same
  | busWrite h => exact hs.same (regWrite_accesses h)
  | mdioWrite => exact hs.xferWrite _ _
  | send _ h => exact h.keeps_memoryOk hs
  | fill _ h => exact h.keeps_memoryOk hs
  | miss => exact hs.same (overrun_accesses _ _)
  | enter => exact ((hs.flush .host).flush .isr).same ⟨rfl, rfl, rfl, rfl, rfl⟩
  | isr _ _ h => exact h.keeps_memoryOk hs
  | busRead | mdioIssue | mdioRead | sendPoll | park => exact ⟨hs.mem, hs.phy, hs.sc⟩

theorem MemoryOk.taint {s : State} (hs : MemoryOk s) (a : Nat) : MemoryOk (taint a s) := by
  obtain ⟨mem, hb, h, tx, w, d, c, hmem, hlen, -, -, -, e⟩ := taint_cases a s
  rw [e]
  refine ⟨?_, hs.phy, fun hm => ⟨?_, (hs.sc hm).2⟩⟩
  · rcases hmem with rfl | ⟨x, v, rfl⟩
    · exact hs.mem
    · exact Memory.wf_set _ _ _ hs.mem
  · rw [(hs.sc hm).1] at hlen
    exact List.length_eq_zero_iff.1 (Nat.le_zero.1 hlen)

theorem MemoryOk.drain {s : State} (hs : MemoryOk s) (c : Ctx) (k : Nat) : MemoryOk (drain c k s) := by
  by_cases hm : s.cfg.memModel = .sc
  · have hnone : (s.pending c)[k]? = none := by rw [hs.pending_of_sc hm]; rfl
    rw [drain_of_none hnone]; exact hs
  · refine ⟨?_, by simpa using hs.phy, fun hm' => absurd (by simpa using hm') hm⟩
    rcases drain_cases c k s with e | ⟨p, -, e⟩ | ⟨src, dst, -, e⟩ <;> rw [e]
    · exact hs.mem
    · simpa using Memory.wf_perform _ _ hs.mem
    · simpa using hs.mem

theorem MoveStep.keeps_memoryOk {m : Move} {s t : State} (h : MoveStep m s t) (hs : MemoryOk s) : MemoryOk t := by
  cases h with
  | stay => exact hs
  | run _ h => exact h.keeps_memoryOk hs
  | store =>
    have hstored : ∀ a v, MemoryOk (storeByte a v s) := fun a v => ⟨Memory.wf_set _ _ _ hs.mem, hs.phy, hs.sc⟩
    exact (hstored _ _).taint _
  | phy => exact hs.phyPut _ _ _
  | isr _ _ h => exact h.keeps_memoryOk hs
  | drain => exact hs.drain _ _
  | load | arrive | badCmd | reset => exact ⟨hs.mem, hs.phy, hs.sc⟩

/-- Settles O8: memory changes by stores alone, and under SC an access issued is performed at once. -/
theorem stepKeepsMemoryOk : Obligations.StepKeepsMemoryOk := fun _ _ hs h =>
  step_keeps (P := MemoryOk) (fun _ _ _ hs => ⟨hs.mem, hs.phy, hs.sc⟩) (fun _ _ _ _ hs h => h.keeps_memoryOk hs) hs h

/-! ### The memory frame -/

theorem spares_append {ps qs : List Pending} {a : Nat} : spares (ps ++ qs) a ↔ spares ps a ∧ spares qs a := by
  simp [spares, or_imp, forall_and]

/-- What a context's micro-step does with memory leaves alone every byte it has no store outstanding to and issues none
to. -/
theorem Access.byteAt {ss : List Pending} {c : Ctx} {s u : State} (h : Access ss c s u) {a : Nat}
    (hp : spares (s.pending c) a) (hss : spares ss a) : u.byteAt a = s.byteAt a := by
  cases h with
  | none => rfl
  | flush => exact flush_byteAt c s a hp
  | load => exact issue_byteAt _ _ _ _ nofun
  | store named => exact issue_byteAt _ _ _ _ (hss _ named)
  | settle => exact settle_byteAt c _ s a hp
  | await =>
    refine (settle_byteAt .isr _ _ a fun p hp' => hp p ?_).trans (settle_byteAt .isr _ s a hp)
    rw [settleReg_eq, settle_pending] at hp'
    exact (splitNeeded_mem _ _ p).1 (.inr hp')
  | copy named =>
    have hsettle : (settleReg .host .hostBufp s).byteAt a = s.byteAt a := settle_byteAt .host _ s a hp
    rcases txWriteByte_cases s with e | e <;> rw [e]
    · exact (issue_byteAt _ _ _ _ (by simpa [Pending.writes] using hss _ named)).trans hsettle
    · exact hsettle

theorem SameAccesses.byteAt {u t : State} (h : SameAccesses u t) (a : Nat) : t.byteAt a = u.byteAt a :=
  State.byteAt_congr (by rw [h.mem])

/-- An ordering point of both contexts, as at interrupt entry and return. -/
theorem flush_both_byteAt {s : State} {a : Nat} (hh : spares s.hostBuf a) (hi : spares s.isrBuf a) :
    (flush .isr (flush .host s)).byteAt a = s.byteAt a :=
  (flush_byteAt .isr _ a (by simpa using hi)).trans (flush_byteAt .host s a hh)

theorem byteAt_set {s : State} {a b : Nat} {v : Byte} (h : b ≠ a) (t : State) (ht : t.mem = Memory.set s.mem a v) :
    t.byteAt b = s.byteAt b := State.byteAt_congr (by rw [ht, Memory.get_set_other _ _ _ _ h])

theorem byteAt_setWord {s : State} {a b : Nat} {v : Word} (h : b ∉ wordAddrs a) (t : State)
    (ht : t.mem = Memory.setWord s.mem a v) : t.byteAt b = s.byteAt b :=
  State.byteAt_congr (by rw [ht, Memory.get_setWord_other _ _ _ _ h])

theorem FillStep.byteAt {w0 : Word} {s t : State} {j : RxJob} (job : s.rx.job = some j) (h : FillStep w0 s j t)
    {a : Nat} (hs : spares (rxdmaStores s) a) : t.byteAt a = s.byteAt a := by
  cases h with
  | poll | pointer | none | ends => rfl
  | byte at_ second more =>
    simp [rxdmaStores, job, at_, second, more, spares, Pending.writes] at hs
    exact byteAt_set hs _ rfl
  | length at_ =>
    simp only [rxdmaStores, job, at_, spares, List.mem_singleton, forall_eq, Pending.writes] at hs
    exact byteAt_setWord hs _ rfl
  | publish at_ first =>
    simp only [rxdmaStores, job, at_, first, if_true, spares, List.mem_singleton, forall_eq, Pending.writes] at hs
    exact byteAt_setWord hs _ rfl

theorem SendStep.byteAt {s t : State} {j : TxJob} (job : s.tx.job = some j) (h : SendStep s j t)
    {a : Nat} (hs : spares (txdmaStores s) a) : t.byteAt a = s.byteAt a := by
  cases h with
  | len | pointer | byte | none | emit => rfl
  | release at_ =>
    simp only [txdmaStores, job, at_, spares, List.mem_singleton, forall_eq, Pending.writes] at hs
    exact byteAt_setWord hs _ rfl

theorem stores_of_op {i : Instr} {l : HostLabel} (h : opOf l = some i) (s : State) : stores i s = hostStores s := by
  cases l <;> cases h <;> rfl

theorem OpStep.stores_eq {i : Instr} {s t : State} (h : OpStep i s t) : stores i s = hostStores s := by
  cases h with
  | start _ _ first => exact stores_of_op first s
  | held inside => exact stores_of_op inside s
  | go inside => exact stores_of_op inside s

theorem op_of_opOf {l : HostLabel} {i : Instr} (h : opOf l = some i) : i = .init ∨ i = .tx ∨ i = .up := by
  cases l <;> cases h <;> simp

theorem OpStep.op_eq {i : Instr} {s t : State} (h : OpStep i s t) : i = .init ∨ i = .tx ∨ i = .up := by
  cases h with
  | start _ _ first => exact op_of_opOf first
  | held inside => exact op_of_opOf inside
  | go inside => exact op_of_opOf inside

theorem isHandler_cases {i : Instr} (h : isHandler i = true) : (∃ rbu, i = .rxirq rbu) ∨ i = .rxirqRbu := by
  cases i <;> first | exact .inl ⟨_, rfl⟩ | exact .inr rfl | cases h

theorem stores_of_handler {i : Instr} (h : isHandler i = true) (s : State) : stores i s = isrStores s := by
  cases i <;> first | rfl | cases h

theorem xferWrite_accesses (pa ra : BitVec 5) (s : State) : (xferWrite pa ra s).mem = s.mem ∧
    (xferWrite pa ra s).hostBuf = s.hostBuf ∧ (xferWrite pa ra s).isrBuf = s.isrBuf := by
  obtain ⟨phy, e, -⟩ := xferWrite_eq pa ra s
  rw [e]; exact ⟨rfl, rfl, rfl⟩

theorem ExecStep.byteAt {i : Instr} {s t : State} (h : ExecStep i s t) {a : Nat}
    (hs : spares (s.hostBuf ++ s.isrBuf ++ stores i s) a) : t.byteAt a = s.byteAt a := by
  obtain ⟨hbufs, hstores⟩ := spares_append.1 hs
  obtain ⟨hhost, hisr⟩ := spares_append.1 hbufs
  cases h with
  | op h =>
    rw [h.stores_eq] at hstores
    obtain ⟨u, hu, same⟩ := h.access
    exact (same.byteAt a).trans (hu.byteAt hhost hstores)
  | busWrite h => exact (regWrite_accesses h).byteAt a
  | mdioWrite => exact State.byteAt_congr (by rw [(xferWrite_accesses _ _ s).1])
  | send job h => exact h.byteAt job hstores
  | fill job h => exact h.byteAt job hstores
  | miss => exact (overrun_accesses _ s).byteAt a
  | enter => exact flush_both_byteAt hhost hisr
  | isr handler _ h =>
    rw [stores_of_handler handler] at hstores
    rcases h.access with rfl | ⟨u, hu, same⟩
    · exact flush_both_byteAt hhost hisr
    · exact (same.byteAt a).trans (hu.byteAt hisr hstores)
  | stay | busRead | mdioIssue | mdioRead | sendPoll | park => rfl

/-- The instructions that store nothing and are ordering points of nothing. -/
theorem ExecStep.accesses_of_storeless {i : Instr} {s t : State} (h : ExecStep i s t)
    (hi : (∃ r, i = .regrd r) ∨ (∃ r v, i = .regwr r v) ∨ (∃ pa ra cr, i = .mdioRd pa ra cr) ∨
      (∃ pa ra cr, i = .mdioWr pa ra cr) ∨ (∃ w, i = .txdmaPark w) ∨ (∃ w, i = .rxdmaMiss w) ∨
      (∃ w, i = .txdmaSend w ∧ ∀ j, s.tx.job = some j → j.phase ≠ .qt3)) :
    t.mem = s.mem ∧ t.hostBuf = s.hostBuf ∧ t.isrBuf = s.isrBuf := by
  cases h with
  | op h => rcases h.op_eq with rfl | rfl | rfl <;> simp at hi
  | busWrite h => exact ⟨(regWrite_accesses h).mem, (regWrite_accesses h).hostBuf, (regWrite_accesses h).isrBuf⟩
  | mdioWrite => exact xferWrite_accesses _ _ s
  | send job h =>
    simp only [reduceCtorEq, exists_false, false_or, Instr.txdmaSend.injEq] at hi
    obtain ⟨_, -, hphase⟩ := hi
    have hp := hphase _ job
    cases h with
    | release at_ => exact absurd at_ hp
    | len | pointer | byte | none | emit => exact ⟨rfl, rfl, rfl⟩
  | fill => simp at hi
  | miss => exact ⟨(overrun_accesses _ s).mem, (overrun_accesses _ s).hostBuf, (overrun_accesses _ s).isrBuf⟩
  | enter handler => rcases isHandler_cases handler with ⟨rbu, rfl⟩ | rfl <;> simp at hi
  | isr handler => rcases isHandler_cases handler with ⟨rbu, rfl⟩ | rfl <;> simp at hi
  | stay | busRead | mdioIssue | mdioRead | sendPoll | park => exact ⟨rfl, rfl, rfl⟩

/-- Settles O58: every micro-step issues the stores named and performs what is outstanding; the storeless ones do
neither. -/
theorem memoryFrameOfEveryInstruction : Obligations.MemoryFrameOfEveryInstruction := by
  refine ⟨fun i s t h a hs => (ExecStep.of_exec h).byteAt hs, fun i s t h hi => ?_⟩
  obtain ⟨hmem, hhost, hisr⟩ := (ExecStep.of_exec h).accesses_of_storeless hi
  exact ⟨fun a => State.byteAt_congr (by rw [hmem]), hhost, hisr⟩

end Sys2Proof.Machine

/-! PROOFS. Every step keeps the reserved register bits at 0 and the indices and counters in range. -/

namespace Sys2Proof.Machine

/-! ### Words with no bit outside a mask -/

theorem within_iff (w m : Word) : w &&& ~~~m = 0 ↔ w &&& m = w := by
  constructor
  · intro h
    have hsplit : w &&& m ||| w &&& ~~~m = w := by
      rw [← BitVec.and_or_distrib_left, BitVec.or_not_self, BitVec.and_allOnes]
    rw [h] at hsplit
    simpa using hsplit
  · intro h
    rw [← h, BitVec.and_assoc, BitVec.and_not_self]
    simp

theorem within_and (v m : Word) : v &&& m &&& ~~~m = 0 := by
  rw [within_iff, BitVec.and_assoc, BitVec.and_self]

theorem within_or {a b m : Word} (ha : a &&& ~~~m = 0) (hb : b &&& ~~~m = 0) : (a ||| b) &&& ~~~m = 0 := by
  rw [BitVec.and_or_distrib_right, ha, hb]; rfl

theorem within_and_of_within {a m : Word} (ha : a &&& ~~~m = 0) (x : Word) : a &&& x &&& ~~~m = 0 := by
  rw [BitVec.and_assoc, BitVec.and_comm x, ← BitVec.and_assoc, ha]; simp

theorem within_and_of_mask {x m : Word} (hx : x &&& ~~~m = 0) (v : Word) : v &&& x &&& ~~~m = 0 := by
  rw [BitVec.and_assoc, hx]; simp

theorem within_clearOnes {old m : Word} (h : old &&& ~~~m = 0) (v : Word) : clearOnes old v &&& ~~~m = 0 :=
  within_and_of_within h _

theorem within_diagBits (e : Event) : diagBits e &&& ~~~diagMask = 0 := by cases e <;> decide

theorem within_maccfg_bits (spd dup : Bool) : (flagWord spd 1 ||| flagWord dup 2) &&& ~~~maccfgMask = 0 := by
  cases spd <;> cases dup <;> decide

/-! ### What `txWriteByte` leaves alone -/

/-- The byte's store touches memory, the accesses outstanding and the registers that loads fill. -/
theorem txWriteByte_keeps {α : Type} (f : State → α) (hissue : ∀ p s, f (issue .host p s) = f s)
    (hsettle : ∀ want s, f (settle .host want s) = f s) (hbuf : ∀ (s : State) (b : List Pending), f { s with hostBuf := b } = f s)
    (s : State) : f (txWriteByte s) = f s := by
  rcases txWriteByte_cases s with e | e <;> rw [e]
  · exact (hissue _ _).trans (hsettle _ s)
  · exact (hbuf _ _).trans (hsettle _ s)

@[simp] theorem txWriteByte_cfg (s : State) : (txWriteByte s).cfg = s.cfg :=
  txWriteByte_keeps (·.cfg) (by simp) (by simp) (by simp) s
@[simp] theorem txWriteByte_link (s : State) : (txWriteByte s).link = s.link :=
  txWriteByte_keeps (·.link) (by simp) (by simp) (by simp) s
@[simp] theorem txWriteByte_nsent (s : State) : (txWriteByte s).nsent = s.nsent :=
  txWriteByte_keeps (·.nsent) (by simp) (by simp) (by simp) s
@[simp] theorem txWriteByte_nsentBytes (s : State) : (txWriteByte s).nsentBytes = s.nsentBytes :=
  txWriteByte_keeps (·.nsentBytes) (by simp) (by simp) (by simp) s
@[simp] theorem txWriteByte_nrecv (s : State) : (txWriteByte s).nrecv = s.nrecv :=
  txWriteByte_keeps (·.nrecv) (by simp) (by simp) (by simp) s
@[simp] theorem txWriteByte_ndrop (s : State) : (txWriteByte s).ndrop = s.ndrop :=
  txWriteByte_keeps (·.ndrop) (by simp) (by simp) (by simp) s
@[simp] theorem txWriteByte_nerr (s : State) : (txWriteByte s).nerr = s.nerr :=
  txWriteByte_keeps (·.nerr) (by simp) (by simp) (by simp) s
@[simp] theorem txWriteByte_rxIdx (s : State) : (txWriteByte s).rxIdx = s.rxIdx :=
  txWriteByte_keeps (·.rxIdx) (by simp) (by simp) (by simp) s
@[simp] theorem txWriteByte_txIdx (s : State) : (txWriteByte s).txIdx = s.txIdx :=
  txWriteByte_keeps (·.txIdx) (by simp) (by simp) (by simp) s
@[simp] theorem txWriteByte_initialized (s : State) : (txWriteByte s).initialized = s.initialized :=
  txWriteByte_keeps (·.initialized) (by simp) (by simp) (by simp) s
@[simp] theorem txWriteByte_ringsBuilt (s : State) : (txWriteByte s).ringsBuilt = s.ringsBuilt :=
  txWriteByte_keeps (·.ringsBuilt) (by simp) (by simp) (by simp) s
@[simp] theorem txWriteByte_hpc (s : State) : (txWriteByte s).hpc = s.hpc :=
  txWriteByte_keeps (·.hpc) (by simp) (by simp) (by simp) s
@[simp] theorem txWriteByte_hsub (s : State) : (txWriteByte s).hsub = s.hsub :=
  txWriteByte_keeps (·.hsub) (by simp) (by simp) (by simp) s
@[simp] theorem txWriteByte_inIsr (s : State) : (txWriteByte s).inIsr = s.inIsr :=
  txWriteByte_keeps (·.inIsr) (by simp) (by simp) (by simp) s
@[simp] theorem txWriteByte_ipc (s : State) : (txWriteByte s).ipc = s.ipc :=
  txWriteByte_keeps (·.ipc) (by simp) (by simp) (by simp) s
@[simp] theorem txWriteByte_imic (s : State) : (txWriteByte s).imic = s.imic :=
  txWriteByte_keeps (·.imic) (by simp) (by simp) (by simp) s
@[simp] theorem txWriteByte_icause (s : State) : (txWriteByte s).icause = s.icause :=
  txWriteByte_keeps (·.icause) (by simp) (by simp) (by simp) s
@[simp] theorem txWriteByte_regs (s : State) : (txWriteByte s).regs = s.regs :=
  txWriteByte_keeps (·.regs) (by simp) (by simp) (by simp) s
@[simp] theorem txWriteByte_rx (s : State) : (txWriteByte s).rx = s.rx :=
  txWriteByte_keeps (·.rx) (by simp) (by simp) (by simp) s
@[simp] theorem txWriteByte_tx (s : State) : (txWriteByte s).tx = s.tx :=
  txWriteByte_keeps (·.tx) (by simp) (by simp) (by simp) s
@[simp] theorem txWriteByte_wireOut (s : State) : (txWriteByte s).wireOut = s.wireOut :=
  txWriteByte_keeps (·.wireOut) (by simp) (by simp) (by simp) s
@[simp] theorem txWriteByte_deliverLog (s : State) : (txWriteByte s).deliverLog = s.deliverLog :=
  txWriteByte_keeps (·.deliverLog) (by simp) (by simp) (by simp) s
@[simp] theorem txWriteByte_h_len (s : State) : (txWriteByte s).h.len = s.h.len :=
  txWriteByte_keeps (·.h.len) (by simp) (by simp) (by simp) s

/-! ### Reserved bits (10_state.md R35) -/

theorem regsOk_zero : RegsOk Regs.zero := by constructor <;> decide

theorem RegsOk.raise {r : Regs} (h : RegsOk r) (e : Event) : RegsOk { r with diag := r.diag ||| diagBits e } :=
  { h with diag := within_or h.diag (within_diagBits e) }

theorem RegsOk.result {r : Regs} (h : RegsOk r) (w : Word) : RegsOk { r with result := w } := { h with }

/-- The only events of `initN2` and `identify` are MDC's and PHY_ABSENT. -/
theorem RegsOk.raiseOpt {s : State} (h : RegsOk s.regs) (e : Option Event) : RegsOk (raiseOpt e s).regs := by
  cases e with
  | none => exact h
  | some e => exact h.raise e

theorem RegsOk.identify {s : State} (h : RegsOk s.regs) : RegsOk (identify s).regs := by
  unfold Machine.identify
  dsimp only
  split
  · exact h.raise .phyAbsent
  · exact h

theorem RegsOk.enables {r : Regs} (h : RegsOk r) (v : Word) : RegsOk { r with ctrl := (r.ctrl &&& 1) ||| (v &&& 6) } :=
  { h with ctrl := within_or (within_and_of_within h.ctrl 1) (within_and_of_mask (by decide) v) }

theorem RegsOk.resetRequest {r : Regs} (h : RegsOk r) : RegsOk { r with ctrl := r.ctrl ||| 1 } :=
  { h with ctrl := within_or h.ctrl (by decide) }

/-- A register write stores no reserved bit, whatever the word (R36 to R46). -/
theorem RegsOk.regWrite {r : RegName} {v : Word} {s t : State} (h : regWrite r v s = .next t) (hs : RegsOk s.regs) :
    RegsOk t.regs := by
  cases r with
  | ctrl =>
    cases h
    unfold Machine.ctrlWrite
    split
    · exact hs.resetRequest
    · exact hs.enables v
  | maccfg => cases h; exact { hs with maccfg := within_and _ _ }
  | macaddrHi => cases h; exact { hs with macHi := within_and _ _ }
  | filter => cases h; exact { hs with filter := within_and _ _ }
  | mdioData => cases h; exact { hs with mdioData := within_and _ _ }
  | intEn => cases h; exact { hs with intEn := within_and _ _ }
  | intStatus => cases h; exact { hs with intStatus := within_clearOnes hs.intStatus v }
  | diag => cases h; exact { hs with diag := within_clearOnes hs.diag v }
  | mdioCtrl =>
    cases hb : busyBit s.regs.mdioCtrl with
    | true => rw [regWrite_mdioCtrl_of_busy hb] at h; cases h
    | false => rw [regWrite_mdioCtrl_of_free hb] at h; cases h; exact { hs with mdioCtrl := within_and _ _ }
  | rxBase =>
    cases hb : rxenBit s.regs.ctrl with
    | true => rw [regWrite_rxBase_of_enabled hb] at h; cases h
    | false => rw [regWrite_rxBase_of_disabled hb] at h; cases h; exact { hs with rxBase := within_and _ _ }
  | txBase =>
    cases hb : txenBit s.regs.ctrl with
    | true => rw [regWrite_txBase_of_enabled hb] at h; cases h
    | false => rw [regWrite_txBase_of_disabled hb] at h; cases h; exact { hs with txBase := within_and _ _ }
  | cmd =>
    obtain ⟨-, -, rfl | ⟨-, rfl⟩ | ⟨-, rfl⟩ | rfl⟩ := commandWrite_next h
    · exact hs
    · exact hs
    · exact hs
    · exact hs.raise .badCmd
  | macaddrLo | argBuf | argLen => cases h; exact { hs with }
  | txDoorbell => cases h; rw [doorbell_eq]; exact hs
  | link | cntSent | cntSentBytes | cntRecv | cntDrop | cntErr | phyId | result | reserved => cases h; exact hs

theorem HostStep.keeps_regsOk {s t : State} (h : HostStep s t) (hs : RegsOk s.regs) : RegsOk t.regs := by
  cases h
  case pollTimeout => simpa using hs.raise .phyTimeout
  case issueWord => exact { hs with mdioCtrl := (within_iff _ _).2 (mdioWord_and_mask _ _ _ _) }
  case putDatum => exact { hs with mdioData := (within_iff _ _).2 (half_and_mask _) }
  case n0 => exact hs.resetRequest
  case n1Timeout => simpa [resetPolled] using (hs.raise .macResetTimeout).result 0
  case n2 => exact hs.raiseOpt (s := { s with h := { s.h with code := (mdcSel s.cfg).1 } }) (mdcSel s.cfg).2
  case n3 => exact { hs with mdioCtrl := (within_iff _ _).2 (code_and_mask _) }
  case n5Done => exact hs.identify
  case n6Rx => exact { hs with rxBase := within_and _ _ }
  case n6Tx => exact { hs with txBase := within_and _ _ }
  case n7Lo => exact { hs with }
  case n7Hi => exact { hs with macHi := (within_iff _ _).2 (macHiOf_and_mask _) }
  case n7Filter => exact { hs with filter := show (2 : Word) &&& ~~~filterMask = 0 by decide }
  case n10 => exact hs.enables 6
  case n11 => exact { hs with intEn := show (1 : Word) &&& ~~~intMask = 0 by decide }
  case fail | n12 | t1Long | t8 | u0Fail | u1Down | u1Already | u6 => exact hs.result _
  case t0Full => simpa [raise] using (hs.raise .ringFull).result 0
  case u5 => exact { hs with maccfg := within_maccfg_bits _ _ }
  case t7Doorbell => rw [doorbell_eq]; simpa using hs
  all_goals simpa [mdioFetch, mdioWriteDone, resetPolled, copyAt, upU3] using hs

theorem OpStep.keeps_regsOk {op : Instr} {s t : State} (h : OpStep op s t) (hs : RegsOk s.regs) : RegsOk t.regs := by
  cases h with
  | start => exact hs
  | held => exact hs
  | go _ _ step => exact step.keeps_regsOk hs

theorem IsrStep.keeps_regsOk {s t : State} (h : IsrStep s t) (hs : RegsOk s.regs) : RegsOk t.regs := by
  cases h
  case i7 => exact { hs with intStatus := within_clearOnes hs.intStatus _ }
  all_goals simpa [isrI6, deliver, awaitFetch, returnInterrupt] using hs

theorem RegsOk.status {r : Regs} (h : RegsOk r) {w : Word} (hw : w &&& ~~~intMask = 0) :
    RegsOk { r with intStatus := r.intStatus ||| w } := { h with intStatus := within_or h.intStatus hw }

theorem RegsOk.overrun {s : State} (h : RegsOk s.regs) (j : RxJob) : RegsOk (overrun j s).regs := by
  have hrbu := h.status (w := rbuWord) (by decide)
  rw [overrun_eq]
  cases j.first with
  | true => exact hrbu
  | false => exact hrbu.status (w := rxcWord) (by decide)

theorem ExecStep.keeps_regsOk {i : Instr} {s t : State} (h : ExecStep i s t) (hs : RegsOk s.regs) : RegsOk t.regs := by
  cases h with
  | op h => exact h.keeps_regsOk hs
  | busWrite h => exact hs.regWrite h
  | mdioIssue => exact { hs with mdioCtrl := within_and _ _ }
  | mdioRead =>
    exact { hs with
      mdioCtrl := within_and_of_within hs.mdioCtrl _, mdioData := (within_iff _ _).2 (half_and_mask _) }
  | mdioWrite =>
    obtain ⟨phy, e, -⟩ := xferWrite_eq _ _ _
    rw [e]; exact { hs with mdioCtrl := within_and_of_within hs.mdioCtrl _ }
  | send _ h => cases h <;> exact hs
  | fill _ h =>
    cases h with
    | ends => exact hs.status (w := rxcWord) (by decide)
    | poll | pointer | byte | none | length | publish => exact hs
  | miss => exact hs.overrun _
  | enter => simpa [takeInterrupt] using hs
  | isr _ _ h => exact h.keeps_regsOk hs
  | stay | busRead | sendPoll | park => exact hs

@[simp] theorem taint_regs (a : Nat) (s : State) : (taint a s).regs = s.regs := by
  obtain ⟨_, _, _, _, _, _, _, -, -, -, -, -, e⟩ := taint_cases a s
  rw [e]

theorem MoveStep.keeps_regsOk {m : Move} {s t : State} (h : MoveStep m s t) (hs : RegsOk s.regs) : RegsOk t.regs := by
  cases h with
  | run _ h => exact h.keeps_regsOk hs
  | isr _ _ h => exact h.keeps_regsOk hs
  | store => simpa using hs
  | drain => simpa using hs
  | badCmd => exact hs.raise .badCmd
  | reset =>
    exact { regsOk_zero with diag := hs.diag }
  | stay | load | arrive | phy => exact hs

/-- Settles O9: every register is stored through its mask. -/
theorem stepKeepsReservedBitsZero : Obligations.StepKeepsReservedBitsZero := fun _ _ hs h =>
  step_keeps (P := fun s => RegsOk s.regs) (fun _ _ _ hs => hs) (fun _ _ _ _ hs h => h.keeps_regsOk hs) hs h

/-! ### Indices and counters (10_state.md R22, R28, R54, R55) -/

/-- Two states with the same indices and counters. -/
structure SameIndices (s t : State) : Prop where
  cfg : t.cfg = s.cfg
  rxIdx : t.rxIdx = s.rxIdx
  txIdx : t.txIdx = s.txIdx
  rx : t.rx.idx = s.rx.idx
  tx : t.tx.idx = s.tx.idx
  nsent : t.nsent = s.nsent
  nsentBytes : t.nsentBytes = s.nsentBytes
  nrecv : t.nrecv = s.nrecv
  ndrop : t.ndrop = s.ndrop
  nerr : t.nerr = s.nerr

theorem IndexOk.same {s t : State} (hs : IndexOk s) (h : SameIndices s t) : IndexOk t := by
  constructor <;> rw [h.cfg]
  · rw [h.rxIdx]; exact hs.rxIdx
  · rw [h.txIdx]; exact hs.txIdx
  · rw [h.rx]; exact hs.rx
  · rw [h.tx]; exact hs.tx
  · rw [h.nsent]; exact hs.nsent
  · rw [h.nsentBytes]; exact hs.nsentBytes
  · rw [h.nrecv]; exact hs.nrecv
  · rw [h.ndrop]; exact hs.ndrop
  · rw [h.nerr]; exact hs.nerr

theorem IndexOk.pos {s : State} (hs : IndexOk s) : 0 < s.cfg.n := Nat.zero_lt_of_lt hs.rxIdx

theorem counterAdd_lt (c : Cfg) (n k : Nat) : counterAdd c n k < 2 ^ c.cntW := Nat.mod_lt _ (Nat.two_pow_pos _)

/-- An edge of an enable leaves the engine's position, or puts it at 0 (R244, R252). -/
theorem IndexOk.edges {s : State} (hs : IndexOk s) {rx : RxDma} {tx : TxDma} (hrx : rx.idx = s.rx.idx ∨ rx.idx = 0)
    (htx : tx.idx = s.tx.idx ∨ tx.idx = 0) : IndexOk { s with rx := rx, tx := tx } :=
  { hs with
    rx := by rcases hrx with e | e <;> simp only [e]; exacts [hs.rx, hs.pos]
    tx := by rcases htx with e | e <;> simp only [e]; exacts [hs.tx, hs.pos] }

theorem HostStep.keeps_indexOk {s t : State} (h : HostStep s t) (hs : IndexOk s) : IndexOk t := by
  cases h
  case buildIndices => exact { hs with rxIdx := hs.pos, txIdx := hs.pos }
  case n10 =>
    have hedges := hs.edges (rxEnableEdge_idx (rxenBit s.regs.ctrl) true s.rx) (txEnableEdge_idx (txenBit s.regs.ctrl) true s.tx)
    exact hedges.same (by constructor <;> simp)
  case t1Long => exact { hs with nerr := counterAdd_lt _ _ _ }
  case t7Doorbell => rw [doorbell_eq]; exact hs.same (by constructor <;> simp)
  case t8 =>
    exact { hs with
      txIdx := nextIdx_lt s _ hs.pos, nsent := counterAdd_lt _ _ _, nsentBytes := counterAdd_lt _ _ _ }
  case n2 => rw [initN2_eq]; exact { hs with }
  case n5Done => rw [identify_eq]; exact { hs with }
  all_goals
    exact hs.same (by constructor <;> simp [mdioFetch, mdioWriteDone, resetPolled, copyAt, upU3])

theorem OpStep.keeps_indexOk {op : Instr} {s t : State} (h : OpStep op s t) (hs : IndexOk s) : IndexOk t := by
  cases h with
  | start => exact { hs with }
  | held => exact hs
  | go _ _ step => exact step.keeps_indexOk hs

theorem IsrStep.keeps_indexOk {s t : State} (h : IsrStep s t) (hs : IndexOk s) : IndexOk t := by
  cases h
  case i4Drop => exact { hs with ndrop := counterAdd_lt _ _ _ }
  case i4Count => exact { hs with nrecv := counterAdd_lt _ _ _ }
  case i6 => exact { hs with rxIdx := nextIdx_lt s _ hs.pos }
  all_goals exact hs.same (by constructor <;> simp [deliver, awaitFetch, returnInterrupt])

/-- A write of another register than CTRL and the doorbell leaves the engines. -/
theorem regWrite_keeps_engines {r : RegName} {v : Word} {s t : State} (h : regWrite r v s = .next t)
    (hctrl : r ≠ .ctrl) (hbell : r ≠ .txDoorbell) : t.rx = s.rx ∧ t.tx = s.tx := by
  cases r
  case ctrl => contradiction
  case txDoorbell => contradiction
  case cmd =>
    obtain ⟨-, -, rfl | ⟨-, rfl⟩ | ⟨-, rfl⟩ | rfl⟩ := commandWrite_next h <;> exact ⟨rfl, rfl⟩
  case mdioCtrl | rxBase | txBase =>
    simp only [regWrite] at h
    split at h <;> cases h
    exact ⟨rfl, rfl⟩
  all_goals cases h; exact ⟨rfl, rfl⟩

/-- What a register write does to the engines: an edge of their enables, or the doorbell. -/
theorem regWrite_engines {r : RegName} {v : Word} {s t : State} (h : regWrite r v s = .next t) :
    (t.rx = s.rx ∨ ∃ old new, t.rx = rxEnableEdge old new s.rx) ∧
      (t.tx = s.tx ∨ (∃ old new, t.tx = txEnableEdge old new s.tx) ∨
        (s.tx.st = .suspended ∧ t.tx = { s.tx with st := .running })) := by
  by_cases hctrl : r = .ctrl
  · subst hctrl
    cases h
    unfold ctrlWrite
    split
    · exact ⟨.inl rfl, .inl rfl⟩
    · exact ⟨.inr ⟨_, _, rfl⟩, .inr (.inl ⟨_, _, rfl⟩)⟩
  by_cases hbell : r = .txDoorbell
  · subst hbell
    cases h
    by_cases hst : s.tx.st = .suspended
    · rw [doorbell_of_suspended hst]; exact ⟨.inl rfl, .inr (.inr ⟨hst, rfl⟩)⟩
    · rw [doorbell_of_not_suspended hst]; exact ⟨.inl rfl, .inl rfl⟩
  · obtain ⟨hrx, htx⟩ := regWrite_keeps_engines h hctrl hbell
    exact ⟨.inl hrx, .inl htx⟩

/-- A register write changes beside registers and engines only HOST's place, the events and the record of UPPER's writes. -/
theorem regWrite_frame {r : RegName} {v : Word} {s t : State} (h : regWrite r v s = .next t) : t =
    { s with
      regs := t.regs, rx := t.rx, tx := t.tx, hpc := t.hpc, hsub := t.hsub, hmic := t.hmic, events := t.events
      dirty := t.dirty } := by
  rcases regWrite_next h with ⟨-, regs, rx, tx, rfl⟩ | ⟨-, h⟩
  · rfl
  · obtain ⟨-, -, rfl | ⟨-, rfl⟩ | ⟨-, rfl⟩ | rfl⟩ := commandWrite_next h <;> rfl

theorem IndexOk.regWrite {r : RegName} {v : Word} {s t : State} (h : regWrite r v s = .next t) (hs : IndexOk s) :
    IndexOk t := by
  obtain ⟨hrx, htx⟩ := regWrite_engines h
  have hedges : IndexOk { s with rx := t.rx, tx := t.tx } := by
    refine hs.edges ?_ ?_
    · rcases hrx with e | ⟨old, new, e⟩ <;> rw [e]
      · exact .inl rfl
      · exact rxEnableEdge_idx old new s.rx
    · rcases htx with e | ⟨old, new, e⟩ | ⟨-, e⟩ <;> rw [e]
      · exact .inl rfl
      · exact txEnableEdge_idx old new s.tx
      · exact .inl rfl
  rw [regWrite_frame h]
  exact { hedges with }

/-- The position after a descriptor whose WRAP bit says whether it is the last (43_ring_ownership.md R236). -/
theorem wrap_lt {n idx : Nat} {w : Bool} (h : idx < n) (hw : w = decide (idx + 1 = n)) :
    (if w then 0 else idx + 1) < n := by
  subst hw
  by_cases e : idx + 1 = n <;> simp [e] <;> omega

theorem FillStep.keeps_indexOk {w0 : Word} {s t : State} {j : RxJob} (h : FillStep w0 s j t) (hs : IndexOk s) :
    IndexOk t := by
  cases h with
  | publish _ _ wrap => exact { hs with rx := wrap_lt hs.rx wrap }
  | poll | pointer | byte | none | length | ends => exact { hs with }

theorem SendStep.keeps_indexOk {s t : State} {j : TxJob} (h : SendStep s j t) (hs : IndexOk s) : IndexOk t := by
  cases h with
  | release _ wrap => exact { hs with tx := wrap_lt hs.tx wrap }
  | len | pointer | byte | none | emit => exact { hs with }

theorem IndexOk.overrun {s : State} (hs : IndexOk s) (j : RxJob) : IndexOk (overrun j s) := by
  have hcount : IndexOk (countOverrun s) := { hs with ndrop := counterAdd_lt _ _ _ }
  rw [overrun_eq]
  cases j.first <;> exact { hcount with }

theorem ExecStep.keeps_indexOk {i : Instr} {s t : State} (h : ExecStep i s t) (hs : IndexOk s) : IndexOk t := by
  cases h with
  | stay => exact hs
  | op h => exact h.keeps_indexOk hs
  | busWrite h => exact hs.regWrite h
  | mdioWrite =>
    obtain ⟨phy, e, -⟩ := xferWrite_eq _ _ _
    rw [e]; exact { hs with }
  | send _ h => exact h.keeps_indexOk hs
  | fill _ h => exact h.keeps_indexOk hs
  | miss => exact hs.overrun _
  | enter => exact hs.same (by constructor <;> simp [takeInterrupt])
  | isr _ _ h => exact h.keeps_indexOk hs
  | busRead | mdioIssue | mdioRead | sendPoll | park => exact { hs with }

theorem IndexOk.taint {s : State} (hs : IndexOk s) (a : Nat) : IndexOk (taint a s) := by
  obtain ⟨mem, hb, h, tx, w, d, c, -, -, -, htx, -, e⟩ := taint_cases a s
  rw [e]
  rcases htx with rfl | ⟨j, off, v, -, rfl⟩ <;> exact { hs with }

theorem MoveStep.keeps_indexOk {m : Move} {s t : State} (h : MoveStep m s t) (hs : IndexOk s) : IndexOk t := by
  cases h with
  | stay => exact hs
  | run _ h => exact h.keeps_indexOk hs
  | isr _ _ h => exact h.keeps_indexOk hs
  | store => exact IndexOk.taint (s := storeByte _ _ s) { hs with } _
  | drain => exact hs.same (by constructor <;> simp)
  | reset => exact { hs with rx := hs.pos, tx := hs.pos }
  | load | arrive | phy | badCmd => exact { hs with }

/-- Settles O10: an index advances modulo N or by the WRAP bit, whose place is checked; a counter modulo 2^CNT_W. -/
theorem stepKeepsIndicesInRing : Obligations.StepKeepsIndicesInRing := fun _ _ hs h =>
  step_keeps (P := IndexOk) (fun _ _ _ hs => { hs with }) (fun _ _ _ _ hs h => h.keeps_indexOk hs) hs h

end Sys2Proof.Machine

/-! PROOFS. Every step keeps the engines' jobs well formed, and the two contexts in legal places. -/

namespace Sys2Proof.Machine

/-! ### The engines' jobs (43_ring_ownership.md R250, R254, R256, R257) -/

/-- A segment fits a slot, so BUF_SIZE is not 0 (10_state.md R27). -/
theorem bufSize_pos {c : Cfg} (ha : c.admissible = true) : 0 < c.bufSize := by
  simp only [Cfg.admissible, Cfg.numbersOk, Bool.and_eq_true, decide_eq_true_eq] at ha
  omega

/-- Two states with the same engines, wire and configuration. -/
structure SameEngines (s t : State) : Prop where
  cfg : t.cfg = s.cfg
  rx : t.rx = s.rx
  tx : t.tx = s.tx
  wire : t.wireOut = s.wireOut

theorem segLen_congr {s t : State} (h : t.cfg = s.cfg) (j : RxJob) : segLen t j = segLen s j := by
  simp only [segLen, h]

theorem RxJobOk.congr {s t : State} {j : RxJob} (h : RxJobOk s j) (cfg : t.cfg = s.cfg) (run : t.rx.run = s.rx.run) :
    RxJobOk t j :=
  { h with
    running := run.trans h.running
    todo := fun hp k hk hm => by rw [segLen_congr cfg]; exact h.todo hp k hk hm }

theorem TxJobOk.congr {s t : State} {j : TxJob} (h : TxJobOk s j) (cfg : t.cfg = s.cfg) (st : t.tx.st = s.tx.st) :
    TxJobOk t j :=
  { h with running := st.trans h.running, len := by rw [cfg]; exact h.len }

theorem EnginesOk.same {s t : State} (hs : EnginesOk s) (h : SameEngines s t) : EnginesOk t where
  rx j hj := (hs.rx j (by rw [← h.rx]; exact hj)).congr h.cfg (by rw [h.rx])
  tx j hj := (hs.tx j (by rw [← h.tx]; exact hj)).congr h.cfg (by rw [h.tx])
  wire e he := by rw [h.cfg]; exact hs.wire e (by rw [← h.wire]; exact he)

/-- The receive engine goes on, the transmit engine and the wire standing. -/
theorem EnginesOk.of_rx {s t : State} (hs : EnginesOk s) (cfg : t.cfg = s.cfg) (tx : t.tx = s.tx)
    (wire : t.wireOut = s.wireOut) (rx : ∀ j, t.rx.job = some j → RxJobOk t j) : EnginesOk t where
  rx := rx
  tx j hj := (hs.tx j (by rw [← tx]; exact hj)).congr cfg (by rw [tx])
  wire e he := by rw [cfg]; exact hs.wire e (by rw [← wire]; exact he)

/-- The transmit engine goes on, the receive engine and the wire standing. -/
theorem EnginesOk.of_tx {s t : State} (hs : EnginesOk s) (cfg : t.cfg = s.cfg) (rx : t.rx = s.rx)
    (wire : t.wireOut = s.wireOut) (tx : ∀ j, t.tx.job = some j → TxJobOk t j) : EnginesOk t where
  rx j hj := (hs.rx j (by rw [← rx]; exact hj)).congr cfg (by rw [rx])
  tx := tx
  wire e he := by rw [cfg]; exact hs.wire e (by rw [← wire]; exact he)

/-- What a register write does to an engine leaves its job as it is, or leaves none. -/
theorem EnginesOk.edges {s : State} (hs : EnginesOk s) {rx : RxDma} {tx : TxDma} (hrx : rx.job = none ∨ rx = s.rx)
    (htx : tx.job = none ∨ tx = s.tx) : EnginesOk { s with rx := rx, tx := tx } where
  rx j hj := by
    rcases hrx with e | rfl
    · rw [show ({ s with rx := rx, tx := tx } : State).rx.job = rx.job from rfl, e] at hj; cases hj
    · exact (hs.rx j hj).congr rfl rfl
  tx j hj := by
    rcases htx with e | rfl
    · rw [show ({ s with rx := rx, tx := tx } : State).tx.job = tx.job from rfl, e] at hj; cases hj
    · exact (hs.tx j hj).congr rfl rfl
  wire := hs.wire

/-- A Suspended engine has no job. -/
theorem EnginesOk.no_job_of_suspended {s : State} (hs : EnginesOk s) (h : s.tx.st = .suspended) : s.tx.job = none := by
  cases hj : s.tx.job with
  | none => rfl
  | some j => have := (hs.tx j hj).running; rw [h] at this; cases this

theorem EnginesOk.doorbell {s : State} (hs : EnginesOk s) : EnginesOk (doorbell s) := by
  by_cases h : s.tx.st = .suspended
  · rw [doorbell_of_suspended h]
    exact hs.edges (.inr rfl) (.inl (hs.no_job_of_suspended h))
  · rw [doorbell_of_not_suspended h]; exact hs

theorem EnginesOk.regWrite {r : RegName} {v : Word} {s t : State} (h : regWrite r v s = .next t) (hs : EnginesOk s) :
    EnginesOk t := by
  obtain ⟨hrx, htx⟩ := regWrite_engines h
  have hedges : EnginesOk { s with rx := t.rx, tx := t.tx } := by
    refine hs.edges ?_ ?_
    · rcases hrx with e | ⟨old, new, e⟩ <;> rw [e]
      · exact .inr rfl
      · exact rxEnableEdge_job old new s.rx
    · rcases htx with e | ⟨old, new, e⟩ | ⟨hst, e⟩ <;> rw [e]
      · exact .inr rfl
      · exact txEnableEdge_job old new s.tx
      · exact .inl (hs.no_job_of_suspended hst)
  have hframe := regWrite_frame h
  exact hedges.same (by rw [hframe]; exact ⟨rfl, rfl, rfl, rfl⟩)

theorem HostStep.keeps_enginesOk {s t : State} (h : HostStep s t) (hs : EnginesOk s) : EnginesOk t := by
  cases h
  case n10 =>
    have hedges := hs.edges (rxEnableEdge_job (rxenBit s.regs.ctrl) true s.rx)
      (txEnableEdge_job (txenBit s.regs.ctrl) true s.tx)
    exact hedges.same (by constructor <;> simp)
  case t7Doorbell =>
    have hflush : EnginesOk (flush .host s) := hs.same (by constructor <;> simp)
    exact hflush.doorbell.same ⟨rfl, rfl, rfl, rfl⟩
  case n2 => rw [initN2_eq]; exact hs.same ⟨rfl, rfl, rfl, rfl⟩
  case n5Done => rw [identify_eq]; exact hs.same ⟨rfl, rfl, rfl, rfl⟩
  all_goals exact hs.same (by constructor <;> simp [mdioFetch, mdioWriteDone, resetPolled, copyAt, upU3, txT8])

theorem OpStep.keeps_enginesOk {op : Instr} {s t : State} (h : OpStep op s t) (hs : EnginesOk s) : EnginesOk t := by
  cases h with
  | start => exact hs.same ⟨rfl, rfl, rfl, rfl⟩
  | held => exact hs
  | go _ _ step => exact step.keeps_enginesOk hs

theorem IsrStep.keeps_enginesOk {s t : State} (h : IsrStep s t) (hs : EnginesOk s) : EnginesOk t := by
  cases h
  all_goals exact hs.same (by constructor <;> simp [deliver, awaitFetch, returnInterrupt, isrI6])

theorem segLast_iff (s : State) (j : RxJob) : segLast s j = true ↔ j.off + segLen s j = j.frame.bytes.length := by
  simp [segLast]

theorem segLen_le (s : State) (j : RxJob) : segLen s j ≤ j.frame.bytes.length - j.off := Nat.min_le_right _ _

/-- The job after its segment has been handed over: ended, or at the next segment's poll. -/
theorem RxJobOk.published {s t : State} {j : RxJob} (h : RxJobOk s j) (ha : s.cfg.admissible = true)
    (at_ : j.phase = .qr4) (first : j.mic = 0) (run : t.rx.run = s.rx.run) : RxJobOk t (j.published s) := by
  have hin := h.inside (.inr first)
  have hpos := bufSize_pos ha
  have hle := segLen_le s j
  have hseg : 0 < segLen s j := Nat.lt_min.2 ⟨hpos, by omega⟩
  have hlong := h.long
  unfold RxJob.published
  split
  · next hl =>
    rw [segLast_iff] at hl
    exact ⟨run.trans h.running, h.long, by simp; omega, fun _ => h.owned (by simp [at_]), by simp [at_],
      fun _ => hl, by simp [at_]⟩
  · next hl =>
    rw [segLast_iff] at hl
    refine ⟨run.trans h.running, h.long, by simp; omega, by simp, fun _ => ?_, by simp, by simp⟩
    dsimp only
    omega

theorem FillStep.keeps_enginesOk {w0 : Word} {s t : State} {j : RxJob} (job : s.rx.job = some j)
    (h : FillStep w0 s j t) (ha : s.cfg.admissible = true) (hsel : j.phase = .qr1 → ownBit w0 = true)
    (hs : EnginesOk s) : EnginesOk t := by
  have hj := hs.rx j job
  cases h with
  | poll at_ =>
    refine hs.of_rx rfl rfl rfl ?_
    rintro _ ⟨⟩
    exact ⟨hj.running, hj.long, hj.first, fun _ => hsel at_, fun _ => hj.inside (.inl (by simp [at_])), by simp, by simp⟩
  | pointer at_ first =>
    refine hs.of_rx rfl rfl rfl ?_
    rintro _ ⟨⟩
    exact ⟨hj.running, hj.long, hj.first, fun h => hj.owned h, fun _ => hj.inside (.inr first), by simp [at_],
      fun _ k hk _ => List.mem_range.1 hk⟩
  | byte at_ second more =>
    refine hs.of_rx rfl rfl rfl ?_
    rintro _ ⟨⟩
    have htodo : ∀ k ∈ j.todo.erase (pickOf s j.todo), k < segLen s j := fun k hk =>
      hj.todo at_ k (List.mem_of_mem_erase hk) second
    have hin := hj.inside (.inl (by simp [at_]))
    have howned := hj.owned (by simp [at_])
    unfold RxJob.stored
    split
    · exact ⟨hj.running, hj.long, hj.first, fun _ => howned, fun _ => hin, by simp, by simp⟩
    · exact ⟨hj.running, hj.long, hj.first, fun _ => howned, fun _ => hin, by simp [at_], fun _ k hk _ => htodo k hk⟩
  | none at_ =>
    refine hs.of_rx rfl rfl rfl ?_
    rintro _ ⟨⟩
    exact ⟨hj.running, hj.long, hj.first, fun _ => hj.owned (by simp [at_]), fun _ => hj.inside (.inl (by simp [at_])),
      by simp, by simp⟩
  | length at_ =>
    refine hs.of_rx rfl rfl rfl ?_
    rintro _ ⟨⟩
    exact ⟨hj.running, hj.long, hj.first, fun _ => hj.owned (by simp [at_]), fun _ => hj.inside (.inl (by simp [at_])),
      by simp, by simp⟩
  | publish at_ first =>
    refine hs.of_rx rfl rfl rfl ?_
    rintro _ ⟨⟩
    exact hj.published ha at_ first rfl
  | ends => exact hs.of_rx rfl rfl rfl nofun

theorem SendStep.keeps_enginesOk {s t : State} {j : TxJob} (job : s.tx.job = some j) (h : SendStep s j t)
    (hs : EnginesOk s) : EnginesOk t := by
  have hj := hs.tx j job
  cases h with
  | len at_ fits =>
    refine hs.of_tx rfl rfl rfl ?_
    rintro _ ⟨⟩
    exact ⟨hj.running, hj.owned, hj.whole, fits, by simp, by simp [at_], by simp⟩
  | pointer at_ =>
    refine hs.of_tx rfl rfl rfl ?_
    rintro _ ⟨⟩
    exact ⟨hj.running, hj.owned, hj.whole, hj.len, by simp, by simp, fun _ k hk => List.mem_range.1 hk⟩
  | byte at_ third more =>
    refine hs.of_tx rfl rfl rfl ?_
    rintro _ ⟨⟩
    have hlen := hj.data (by omega)
    exact ⟨hj.running, hj.owned, hj.whole, hj.len, fun _ => by simpa [TxJob.fetched] using hlen,
      fun _ => by dsimp only [TxJob.fetched]; omega, fun _ k hk => hj.todo third k (List.mem_of_mem_erase hk)⟩
  | none at_ third =>
    refine hs.of_tx rfl rfl rfl ?_
    rintro _ ⟨⟩
    exact ⟨hj.running, hj.owned, hj.whole, hj.len, hj.data, fun _ => by dsimp only; omega, hj.todo⟩
  | emit at_ =>
    have hmic := hj.phase (by simp [at_])
    refine ⟨fun j' hj' => (hs.rx j' hj').congr rfl rfl, ?_, fun e he => ?_⟩
    · rintro _ ⟨⟩
      exact ⟨hj.running, hj.owned, hj.whole, hj.len, hj.data, fun _ => hmic, hj.todo⟩
    · dsimp only at he
      split at he
      · exact hs.wire e he
      · next hne =>
        rcases List.mem_append.1 he with he | he
        · exact hs.wire e he
        · rw [List.mem_singleton.1 he]
          have := hj.data hmic
          have := hj.len
          dsimp only
          omega
  | release => exact hs.of_tx rfl rfl rfl nofun

theorem EnginesOk.overrun {s : State} (hs : EnginesOk s) (j : RxJob) : EnginesOk (overrun j s) := by
  rw [overrun_eq]
  cases j.first <;> exact hs.of_rx rfl rfl rfl nofun

theorem EnginesOk.taint {s : State} (hs : EnginesOk s) (a : Nat) : EnginesOk (taint a s) := by
  obtain ⟨mem, hb, h, tx, w, d, c, -, -, -, htx, hw, heq⟩ := taint_cases a s
  rw [heq]
  refine ⟨fun j hj => (hs.rx j hj).congr rfl rfl, ?_, fun e he => ?_⟩
  · rcases htx with rfl | ⟨j, off, v, hj, rfl⟩
    · exact fun j hj => (hs.tx j hj).congr rfl rfl
    · rintro _ ⟨⟩
      have hok := hs.tx j hj
      exact { hok with data := fun hm => (List.length_set ..).trans (hok.data hm), running := hok.running }
  · rcases hw with rfl | ⟨off, v, rfl⟩
    · exact hs.wire e he
    · obtain ⟨e', he', hlen⟩ := length_of_mem_wireSetByte off v he
      rw [hlen]; exact hs.wire e' he'

theorem ExecStep.keeps_enginesOk {m : Move} {i : Instr} {s t : State} (sel : Selects m i s) (h : ExecStep i s t)
    (ha : s.cfg.admissible = true) (hs : EnginesOk s) : EnginesOk t := by
  cases h with
  | stay => exact hs
  | op h => exact h.keeps_enginesOk hs
  | busWrite h => exact hs.regWrite h
  | mdioWrite =>
    obtain ⟨phy, e, -⟩ := xferWrite_eq _ _ _
    rw [e]; exact hs.same ⟨rfl, rfl, rfl, rfl⟩
  | sendPoll job run =>
    obtain ⟨hown, hwhole⟩ := sel.send _ rfl job
    refine hs.of_tx rfl rfl rfl ?_
    rintro _ ⟨⟩
    exact ⟨run, hown, hwhole, Nat.zero_le _, fun _ => rfl, fun h => absurd rfl h, by simp [newTxJob]⟩
  | send job h => exact h.keeps_enginesOk job hs
  | park job => exact hs.edges (.inr rfl) (.inl job)
  | fill job h => exact h.keeps_enginesOk job ha (sel.fill _ _ rfl job) hs
  | miss => exact hs.overrun _
  | enter => exact hs.same (by constructor <;> simp [takeInterrupt])
  | isr _ _ h => exact h.keeps_enginesOk hs
  | busRead | mdioIssue | mdioRead => exact hs.same ⟨rfl, rfl, rfl, rfl⟩

theorem MoveStep.keeps_enginesOk {m : Move} {s t : State} (h : MoveStep m s t) (ha : s.cfg.admissible = true)
    (hs : EnginesOk s) : EnginesOk t := by
  cases h with
  | stay => exact hs
  | run sel h => exact h.keeps_enginesOk sel ha hs
  | isr _ _ h => exact h.keeps_enginesOk hs
  | store => exact EnginesOk.taint (s := storeByte _ _ s) (hs.same ⟨rfl, rfl, rfl, rfl⟩) _
  | arrive _ long job run =>
    refine hs.of_rx rfl rfl rfl ?_
    rintro _ ⟨⟩
    exact ⟨run, long, rfl, fun h => absurd rfl h, fun _ => by dsimp only [newRxJob]; omega, by simp [newRxJob], nofun⟩
  | drain => exact hs.same (by constructor <;> simp)
  | reset => exact ⟨nofun, nofun, hs.wire⟩
  | load | phy | badCmd => exact hs.same ⟨rfl, rfl, rfl, rfl⟩

/-- Settles O11: a job starts as its poll says, and each phase hands on what the next one needs. -/
theorem stepKeepsEnginesOk : Obligations.StepKeepsEnginesOk := fun _ _ hs h =>
  step_keeps (P := EnginesOk) (fun _ _ _ hs => hs.same ⟨rfl, rfl, rfl, rfl⟩)
    (fun _ _ _ ha hs h => h.keeps_enginesOk ha hs) hs h

/-! ### The contexts (10_state.md R31 to R33) -/

/-- The parts of the state that the contexts' places are made of. -/
structure SamePlaces (s t : State) : Prop where
  inIsr : t.inIsr = s.inIsr
  ipc : t.ipc = s.ipc
  icause : t.icause = s.icause
  hpc : t.hpc = s.hpc
  hsub : t.hsub = s.hsub
  hmic : t.hmic = s.hmic
  initialized : t.initialized = s.initialized
  ringsBuilt : t.ringsBuilt = s.ringsBuilt

theorem ContextsOk.same {s t : State} (hs : ContextsOk s) (h : SamePlaces s t) : ContextsOk t := by
  refine ⟨?_, ?_, ?_, ?_, ?_⟩
  · rw [h.inIsr, h.ipc]; exact hs.isr
  · rw [h.inIsr, h.icause]; exact hs.cause
  · rw [h.hpc, h.hsub]; exact hs.sub
  · rw [h.hpc, h.initialized]; exact hs.init
  · have e : pastBuild t = pastBuild s := by simp only [pastBuild, h.hpc, h.hsub, h.hmic, h.initialized]
    rw [e, h.ringsBuilt]; exact hs.built

/-- HOST moves, ISR standing. -/
theorem ContextsOk.of_host {s t : State} (hs : ContextsOk s) (inIsr : t.inIsr = s.inIsr) (ipc : t.ipc = s.ipc)
    (icause : t.icause = s.icause) (sub : subOk t.hpc t.hsub = true)
    (init : ∀ b, initializedAt t.hpc = some b → t.initialized = b) (built : pastBuild t = true → t.ringsBuilt = true) :
    ContextsOk t :=
  ⟨by rw [inIsr, ipc]; exact hs.isr, by rw [inIsr, icause]; exact hs.cause, sub, init, built⟩

end Sys2Proof.Machine

/-! PROOFS. Every step keeps the two contexts in legal places (10_state.md R31 to R33, 40_driver_contract.md R163). -/

namespace Sys2Proof.Machine

/-- The part of `pastBuild` that HOST's place says: from the end of step N6 to the end of `INIT` (40 R170, R171). -/
def lateInInit (s : State) : Bool :=
  match s.hpc with
  | .n6 => decide (s.hsub = .off) && decide (3 ≤ s.hmic)
  | .n7 | .n8 | .n9 => true
  | _ => false

theorem pastBuild_eq (s : State) : pastBuild s = (s.initialized || lateInInit s) := by
  unfold pastBuild lateInInit
  cases s.hpc <;> rfl

theorem lateInInit_of_n6 {s : State} (h : s.hpc = .n6) (hm : s.hsub ≠ .off ∨ s.hmic < 3) : lateInInit s = false := by
  simp only [lateInInit, h, Bool.and_eq_false_iff, decide_eq_false_iff_not]
  exact hm.imp_right Nat.not_le_of_lt

/-- The parts of the state that only `INIT`, the interrupt and `RING.BUILD` change. -/
structure SameModes (s t : State) : Prop where
  inIsr : t.inIsr = s.inIsr
  ipc : t.ipc = s.ipc
  icause : t.icause = s.icause
  initialized : t.initialized = s.initialized
  ringsBuilt : t.ringsBuilt = s.ringsBuilt

/-- HOST goes on to a label that says no more of `initialized`, and stands past `RING.BUILD` only where it stood so. -/
theorem ContextsOk.goes {s t : State} (hs : ContextsOk s) (modes : SameModes s t) (sub : subOk t.hpc t.hsub = true)
    (init : initializedAt t.hpc = none ∨ initializedAt t.hpc = initializedAt s.hpc)
    (late : lateInInit t = true → lateInInit s = true) : ContextsOk t := by
  refine hs.of_host modes.inIsr modes.ipc modes.icause sub (fun b hb => ?_) fun hp => ?_
  · rw [modes.initialized]
    rcases init with e | e
    · rw [e] at hb; cases hb
    · exact hs.init b (e ▸ hb)
  · rw [pastBuild_eq, modes.initialized, Bool.or_eq_true] at hp
    rw [modes.ringsBuilt]
    exact hs.built (by rw [pastBuild_eq, Bool.or_eq_true]; exact hp.imp_right late)

/-- HOST stays at its label, in a sub-procedure or in none. -/
theorem ContextsOk.stays {s t : State} (hs : ContextsOk s) (modes : SameModes s t) (hpc : t.hpc = s.hpc)
    (sub : subOk s.hpc t.hsub = true) (late : s.hpc = .n6 → t.hsub ≠ .off ∨ t.hmic < 3) : ContextsOk t := by
  refine hs.goes modes (by rw [hpc]; exact sub) (.inr (by rw [hpc])) fun hl => ?_
  by_cases h6 : s.hpc = .n6
  · rw [lateInInit_of_n6 (hpc.trans h6) (late h6)] at hl; cases hl
  · revert hl
    simp only [lateInInit, hpc]
    cases hl : s.hpc <;> simp_all

/-- The places of a bounded wait and of its caller. -/
theorem subOk_afterPoll {l : HostLabel} {a d : SubLabel} (h : afterPoll a = some d) (hl : subOk l a = true) :
    subOk l d = true ∧ l ≠ .n6 := by
  cases a <;> cases h <;> cases l <;> simp_all [subOk]

theorem subOk_issuedAt {l : HostLabel} {a d : SubLabel} {wr : Bool} (h : issuedAt a = some (wr, d))
    (hl : subOk l a = true) : subOk l d = true ∧ l ≠ .n6 := by
  cases a <;> cases h <;> cases l <;> simp_all [subOk]

theorem subOk_afterBuild {l : HostLabel} {a d : SubLabel} (h : afterBuild a = some d) (hl : subOk l a = true) :
    subOk l d = true ∧ a ≠ .off ∧ d ≠ .off := by
  cases a <;> cases h <;> simp_all [subOk]

theorem ContextsOk.finish {s : State} (hs : ContextsOk s) (w : Word) : ContextsOk (finish w s) :=
  hs.goes ⟨rfl, rfl, rfl, rfl, rfl⟩ rfl (.inl rfl) nofun

theorem subOk_off (l : HostLabel) : subOk l .off = true := rfl

/-- No wait is made at N6, so its end does not stand past `RING.BUILD`. -/
theorem ContextsOk.not_n6 {s : State} (hs : ContextsOk s) (h : subOk .n6 s.hsub = false) : s.hpc ≠ .n6 := fun e => by
  have hsub := hs.sub
  rw [e, h] at hsub; cases hsub

theorem HostStep.keeps_contextsOk {s t : State} (h : HostStep s t) (hs : ContextsOk s) : ContextsOk t := by
  cases h
  case pollDone wait | pollAgain wait _ | pollTimeout wait =>
    obtain ⟨hd, h6⟩ := subOk_afterPoll wait hs.sub
    exact hs.stays (by constructor <;> simp) (by simp) (by simp [hd, hs.sub, subOk_off]) (fun e => absurd e h6)
  case issueWord word =>
    obtain ⟨hd, h6⟩ := subOk_issuedAt word hs.sub
    exact hs.stays (by constructor <;> simp) (by simp) (by simp [hd]) (fun e => absurd e h6)
  case fetchDatum sub | writeDone sub =>
    have h6 := hs.not_n6 (by rw [sub]; rfl)
    exact hs.stays (by constructor <;> simp [mdioFetch, mdioWriteDone]) (by simp [mdioFetch, mdioWriteDone])
      (by simp [mdioFetch, mdioWriteDone, subOk]) (fun e => absurd e h6)
  case putDatum sub =>
    have h6 := hs.not_n6 (by rw [sub]; rfl)
    have hn4 := hs.sub
    rw [sub] at hn4
    exact hs.stays (by constructor <;> simp) (by simp) (by simpa [subOk] using hn4) (fun e => absurd e h6)
  case buildWord sub _ | buildSlot sub _ _ | buildRing sub _ =>
    obtain ⟨hd, ha, hoff⟩ := subOk_afterBuild sub hs.sub
    exact hs.stays (by constructor <;> simp) (by simp) (by simp [hd, hs.sub]) (fun _ => .inl (by simp [ha, hoff]))
  case buildIndices sub =>
    exact hs.stays ⟨rfl, rfl, rfl, rfl, rfl⟩ rfl hs.sub fun _ => .inr (show 1 < 3 by decide)
  case buildOver => exact hs.of_host (by simp) (by simp) (by simp) (by simp [subOk_off]) (by simpa using hs.init) (by simp)
  case n0 => exact hs.of_host (by simp) (by simp) (by simp) rfl (by simp [initializedAt]) (by simp [pastBuild])
  case n9 hat =>
    refine hs.of_host rfl rfl rfl rfl (by simp [initializedAt]) fun _ => hs.built ?_
    simp [pastBuild, hat.1]
  case n2 hat =>
    rw [initN2_eq]
    exact hs.goes ⟨rfl, rfl, rfl, rfl, rfl⟩ rfl (.inr (by rw [hat.1]; rfl)) nofun
  case n5Done hat =>
    rw [identify_eq]
    exact hs.goes ⟨rfl, rfl, rfl, rfl, rfl⟩ rfl (.inr (by rw [hat.1]; rfl)) nofun
  case call wait legal =>
    refine hs.stays ⟨rfl, rfl, rfl, rfl, rfl⟩ rfl legal fun e => ?_
    rw [e] at legal
    rcases wait with rfl | rfl <;> cases legal
  case n6Rx hat _ | n6Tx hat _ | n6Call hat =>
    exact hs.stays (by constructor <;> simp) (by simp) (by simp [hat.1, hat.2.1, subOk]) (fun _ => by simp)
  case n6Done hat built =>
    refine hs.goes ⟨rfl, rfl, rfl, rfl, rfl⟩ rfl (.inr (by rw [hat.1]; rfl)) fun _ => ?_
    simp [lateInInit, hat.1, hat.2.1, built]
  case t7Doorbell hat =>
    rw [doorbell_eq]
    exact hs.goes (by constructor <;> simp) rfl (.inr (by rw [hat.1]; rfl)) nofun
  case n1Again hat more =>
    exact hs.stays (by constructor <;> simp [resetPolled]) (by simp [resetPolled]) (by simp [resetPolled, hs.sub]) (by simp [hat.1])
  case n5Id1 hat | n5Id2 hat | n7Lo hat | n7Hi hat | t0Buf hat | t0Len hat | t2Pointer hat | t2Load hat _ |
      t2Free hat _ | t2Write hat _ | t7Fence hat =>
    exact hs.stays (by constructor <;> simp [copyAt]) (by simp [copyAt]) (by simp [copyAt, hs.sub]) (by simp [hat.1])
  case n7Filter hat | n8 hat =>
    refine hs.goes (by constructor <;> simp) rfl (.inr (by rw [hat.1]; rfl)) fun _ => ?_
    simp [lateInInit, hat.1]
  case fail | n12 | n1Timeout | t0Full | t1Long | t8 | u0Fail | u1Down | u1Already | u6 =>
    exact hs.goes (by constructor <;> simp [resetPolled, txT8]) rfl (.inl rfl) nofun
  case n1Done hat | n3 hat | n4Done hat | n10 hat | n11 hat | t0Test hat | t1Fits hat _ | t2End hat | t3 hat | t4 hat |
      t5 hat | t6 hat | u0Done hat | u1Edge hat | u2Done hat | u3 hat | u4 hat | u5 hat =>
    exact hs.goes (by constructor <;> simp [upU3]) rfl (.inr (by rw [hat.1]; rfl)) nofun

theorem ContextsOk.start {s : State} (hs : ContextsOk s) {l : HostLabel} {d : List Nat}
    (ready : ∀ b, initializedAt l = some b → s.initialized = b) (label : l = .n0 ∨ l = .t0 ∨ l = .u0) :
    ContextsOk { s with hpc := l, hsub := .off, hmic := 0, dirty := d } := by
  refine hs.of_host rfl rfl rfl rfl ready fun hp => hs.built ?_
  have hlate : lateInInit { s with hpc := l, hsub := .off, hmic := 0, dirty := d } = false := by
    rcases label with rfl | rfl | rfl <;> rfl
  rw [pastBuild_eq, hlate, Bool.or_false] at hp
  rw [pastBuild_eq, Bool.or_eq_true]
  exact .inl hp

theorem OpStep.keeps_contextsOk {op : Instr} {s t : State} (h : OpStep op s t) (hs : ContextsOk s) : ContextsOk t := by
  cases h with
  | start _ _ _ ready label => exact hs.start ready label
  | held => exact hs
  | go _ _ step => exact step.keeps_contextsOk hs

/-- HOST's place, and what of `INIT` it depends on. -/
structure SameHostPlace (s t : State) : Prop where
  hpc : t.hpc = s.hpc
  hsub : t.hsub = s.hsub
  hmic : t.hmic = s.hmic
  initialized : t.initialized = s.initialized
  ringsBuilt : t.ringsBuilt = s.ringsBuilt

/-- ISR moves, HOST standing. -/
theorem ContextsOk.of_isr {s t : State} (hs : ContextsOk s) (host : SameHostPlace s t)
    (isr : t.inIsr = true ↔ t.ipc ≠ .idle) (cause : t.inIsr = true → t.icause ≠ 0) : ContextsOk t := by
  refine ⟨isr, cause, by rw [host.hpc, host.hsub]; exact hs.sub, by rw [host.hpc, host.initialized]; exact hs.init, ?_⟩
  have e : pastBuild t = pastBuild s := by simp only [pastBuild, host.hpc, host.hsub, host.hmic, host.initialized]
  rw [e, host.ringsBuilt]; exact hs.built

theorem IsrStep.keeps_contextsOk {s t : State} (inside : s.inIsr = true) (h : IsrStep s t) (hs : ContextsOk s) :
    ContextsOk t := by
  have hipc := hs.isr.1 inside
  cases h
  case idle at_ => exact absurd at_ hipc
  case i8 => exact hs.of_isr (by constructor <;> simp [returnInterrupt]) (by simp [returnInterrupt]) nofun
  all_goals
    refine hs.of_isr (by constructor <;> simp [deliver, awaitFetch, isrI6]) ?_ ?_
    · simp [deliver, awaitFetch, isrI6, inside, hipc]
    · simpa [deliver, awaitFetch, isrI6] using hs.cause

theorem ContextsOk.regWrite {r : RegName} {v : Word} {s t : State} (h : regWrite r v s = .next t) (hs : ContextsOk s) :
    ContextsOk t := by
  rcases regWrite_next h with ⟨-, regs, rx, tx, rfl⟩ | ⟨-, h⟩
  · exact hs.same ⟨rfl, rfl, rfl, rfl, rfl, rfl, rfl, rfl⟩
  · obtain ⟨-, -, rfl | ⟨hi, rfl⟩ | ⟨hi, rfl⟩ | rfl⟩ := commandWrite_next h
    · exact hs.start nofun (.inl rfl)
    · exact hs.start (by rintro _ ⟨⟩; exact hi) (.inr (.inl rfl))
    · exact hs.start (by rintro _ ⟨⟩; exact hi) (.inr (.inr rfl))
    · exact hs.same ⟨rfl, rfl, rfl, rfl, rfl, rfl, rfl, rfl⟩

theorem overrun_places (j : RxJob) (s : State) : SamePlaces s (overrun j s) := by
  unfold overrun
  cases j.first <;> exact ⟨rfl, rfl, rfl, rfl, rfl, rfl, rfl, rfl⟩

theorem FillStep.places {w0 : Word} {s t : State} {j : RxJob} (h : FillStep w0 s j t) : SamePlaces s t := by
  cases h <;> exact ⟨rfl, rfl, rfl, rfl, rfl, rfl, rfl, rfl⟩

theorem SendStep.places {s t : State} {j : TxJob} (h : SendStep s j t) : SamePlaces s t := by
  cases h <;> exact ⟨rfl, rfl, rfl, rfl, rfl, rfl, rfl, rfl⟩

theorem xferWrite_places (pa ra : BitVec 5) (s : State) : SamePlaces s (xferWrite pa ra s) := by
  obtain ⟨phy, e, -⟩ := xferWrite_eq pa ra s
  rw [e]; exact ⟨rfl, rfl, rfl, rfl, rfl, rfl, rfl, rfl⟩

theorem taint_places (a : Nat) (s : State) : SamePlaces s (taint a s) := by
  obtain ⟨mem, hb, h, tx, w, d, c, -, -, -, -, -, e⟩ := taint_cases a s
  rw [e]; exact ⟨rfl, rfl, rfl, rfl, rfl, rfl, rfl, rfl⟩

theorem ExecStep.keeps_contextsOk {i : Instr} {s t : State} (h : ExecStep i s t) (hs : ContextsOk s) : ContextsOk t := by
  cases h with
  | stay => exact hs
  | op h => exact h.keeps_contextsOk hs
  | busWrite h => exact hs.regWrite h
  | mdioWrite => exact hs.same (xferWrite_places _ _ _)
  | send _ h => exact hs.same h.places
  | fill _ h => exact hs.same h.places
  | miss => exact hs.same (overrun_places _ _)
  | enter _ _ cause =>
    exact hs.of_isr (by constructor <;> simp [takeInterrupt]) (by simp [takeInterrupt]) fun _ => cause
  | isr _ inside h => exact h.keeps_contextsOk inside hs
  | busRead | mdioIssue | mdioRead | sendPoll | park => exact hs.same ⟨rfl, rfl, rfl, rfl, rfl, rfl, rfl, rfl⟩

theorem MoveStep.keeps_contextsOk {m : Move} {s t : State} (h : MoveStep m s t) (hs : ContextsOk s) : ContextsOk t := by
  cases h with
  | stay => exact hs
  | run _ h => exact h.keeps_contextsOk hs
  | isr _ inside h => exact h.keeps_contextsOk inside hs
  | store =>
    have hstored : ∀ a v, ContextsOk (storeByte a v s) := fun _ _ => hs.same ⟨rfl, rfl, rfl, rfl, rfl, rfl, rfl, rfl⟩
    exact (hstored _ _).same (taint_places _ _)
  | drain => exact hs.same (by constructor <;> simp)
  | load | arrive | phy | badCmd | reset => exact hs.same ⟨rfl, rfl, rfl, rfl, rfl, rfl, rfl, rfl⟩

/-- Settles O12: each label goes to labels whose `initialized` it leaves right, and N6 is left only with the rings
built. -/
theorem stepKeepsContextsOk : Obligations.StepKeepsContextsOk := fun _ _ hs h =>
  step_keeps (P := ContextsOk) (fun _ _ _ hs => hs.same ⟨rfl, rfl, rfl, rfl, rfl, rfl, rfl, rfl⟩)
    (fun _ _ _ _ hs h => h.keeps_contextsOk hs) hs h

end Sys2Proof.Machine

/-! PROOFS. Every step keeps every loop within its bound (40_driver_contract.md R164). -/

namespace Sys2Proof.Machine

/-- HOST's part of `BoundsOk`. -/
structure HostBounds (s : State) : Prop where
  len : lenTested s.hpc = true → s.h.len.toNat ≤ s.cfg.bufSize
  copy : s.hpc = .t2 → 1 ≤ s.hmic → s.h.j.toNat ≤ s.h.len.toNat
  byte : s.hpc = .t2 → 2 ≤ s.hmic → s.h.j.toNat < s.h.len.toNat
  mdio : isPoll s.hsub = true → s.h.polls < s.cfg.mdioBudget
  build : (s.hsub = .b0 ∨ s.hsub = .b1) → s.h.j.toNat < s.cfg.n
  reset : s.hpc = .n1 → s.h.polls < s.cfg.resetBudget

/-- ISR's part of `BoundsOk`. -/
structure DrainBounds (s : State) : Prop where
  iter : s.i.iterations ≤ s.cfg.rxLoopCap
  inside : inIteration s = true → s.i.iterations < s.cfg.rxLoopCap
  delivered : ∀ d ∈ s.deliverLog, d.length < 2 ^ 14

theorem boundsOk_iff (s : State) : BoundsOk s ↔ HostBounds s ∧ DrainBounds s :=
  ⟨fun h => ⟨⟨h.len, h.copy, h.byte, h.mdio, h.build, h.reset⟩, h.iter, h.inside, h.delivered⟩,
    fun ⟨h, d⟩ => ⟨h.len, h.copy, h.byte, h.mdio, h.build, h.reset, d.iter, d.inside, d.delivered⟩⟩

/-- What HOST's bounds read. -/
structure SameHostCounts (s t : State) : Prop where
  cfg : t.cfg = s.cfg
  hpc : t.hpc = s.hpc
  hsub : t.hsub = s.hsub
  hmic : t.hmic = s.hmic
  len : t.h.len = s.h.len
  j : t.h.j = s.h.j
  polls : t.h.polls = s.h.polls

/-- What ISR's bounds read. -/
structure SameDrain (s t : State) : Prop where
  cfg : t.cfg = s.cfg
  ipc : t.ipc = s.ipc
  imic : t.imic = s.imic
  iterations : t.i.iterations = s.i.iterations
  deliverLog : t.deliverLog = s.deliverLog

theorem HostBounds.same {s t : State} (hs : HostBounds s) (h : SameHostCounts s t) : HostBounds t := by
  constructor <;> simp only [h.cfg, h.hpc, h.hsub, h.hmic, h.len, h.j, h.polls]
  exacts [hs.len, hs.copy, hs.byte, hs.mdio, hs.build, hs.reset]

theorem DrainBounds.same {s t : State} (hs : DrainBounds s) (h : SameDrain s t) : DrainBounds t := by
  have e : inIteration t = inIteration s := by simp only [inIteration, h.ipc, h.imic]
  constructor <;> simp only [h.cfg, h.iterations, h.deliverLog, e]
  exacts [hs.iter, hs.inside, hs.delivered]

/-! ### HOST -/

/-- HOST is at a label that counts nothing, in no sub-procedure. -/
theorem HostBounds.quiet {s : State} (sub : s.hsub = .off) (len : lenTested s.hpc = false) (n1 : s.hpc ≠ .n1) :
    HostBounds s where
  len h := by rw [len] at h; cases h
  copy h := by rw [h] at len; cases len
  byte h := by rw [h] at len; cases len
  mdio h := by rw [sub] at h; cases h
  build h := by rw [sub] at h; rcases h with h | h <;> cases h
  reset h := absurd h n1

/-- HOST is in `TX` past its length test. -/
theorem HostBounds.of_tx {s : State} (sub : s.hsub = .off) (label : lenTested s.hpc = true)
    (len : s.h.len.toNat ≤ s.cfg.bufSize) (copy : s.hpc = .t2 → 1 ≤ s.hmic → s.h.j.toNat ≤ s.h.len.toNat)
    (byte : s.hpc = .t2 → 2 ≤ s.hmic → s.h.j.toNat < s.h.len.toNat) : HostBounds s where
  len _ := len
  copy := copy
  byte := byte
  mdio h := by rw [sub] at h; cases h
  build h := by rw [sub] at h; rcases h with h | h <;> cases h
  reset h := by rw [h] at label; cases label

/-- A label that calls a sub-procedure counts nothing of its own. -/
theorem caller_counts_nothing {l : HostLabel} {a : SubLabel} (h : subOk l a = true) (ha : a ≠ .off) :
    lenTested l = false ∧ l ≠ .n1 := by
  cases a <;> cases l <;> simp_all [subOk, lenTested]

/-- HOST is in a sub-procedure called by `l`, or just back from it. -/
theorem HostBounds.of_sub {s t : State} {a : SubLabel} (legal : subOk s.hpc a = true) (ha : a ≠ .off)
    (hpc : t.hpc = s.hpc) (mdio : isPoll t.hsub = true → t.h.polls < t.cfg.mdioBudget)
    (build : (t.hsub = .b0 ∨ t.hsub = .b1) → t.h.j.toNat < t.cfg.n) : HostBounds t := by
  obtain ⟨hlen, hn1⟩ := caller_counts_nothing legal ha
  rw [← hpc] at hlen hn1
  exact {
    len h := by rw [hlen] at h; cases h
    copy h := by rw [h] at hlen; cases hlen
    byte h := by rw [h] at hlen; cases hlen
    mdio := mdio
    build := build
    reset h := absurd h hn1 }

theorem isPoll_of_afterPoll {a d : SubLabel} (h : afterPoll a = some d) :
    isPoll a = true ∧ isPoll d = false ∧ a ≠ .off ∧ a ≠ .b0 ∧ a ≠ .b1 ∧ d ≠ .b0 ∧ d ≠ .b1 := by
  cases a <;> cases h <;> simp [isPoll]

theorem not_off_of_issuedAt {a d : SubLabel} {wr : Bool} (h : issuedAt a = some (wr, d)) :
    a ≠ .off ∧ d ≠ .b0 ∧ d ≠ .b1 := by
  cases a <;> cases h <;> simp

theorem isPoll_of_afterBuild {a d : SubLabel} (h : afterBuild a = some d) :
    (a = .b0 ∨ a = .b1) ∧ isPoll a = false ∧ isPoll d = false ∧ a ≠ .off := by
  cases a <;> cases h <;> simp [isPoll]

/-- The bounds of an admissible configuration (10_state.md R27, 40 R164, 45 R292, 46 R325). -/
theorem admissible_bounds {c : Cfg} (ha : c.admissible = true) :
    0 < c.n ∧ c.n ≤ 4096 ∧ 0 < c.mdioBudget ∧ 0 < c.resetBudget ∧ 0 < c.rxLoopCap := by
  simp only [Cfg.admissible, Cfg.numbersOk, Bool.and_eq_true, decide_eq_true_eq] at ha
  omega

theorem toNat_succ_of_lt {j : Word} {n : Nat} (h : j.toNat < n) (hn : n < 2 ^ 32) : (j + 1).toNat = j.toNat + 1 := by
  rw [BitVec.toNat_add]
  exact Nat.mod_eq_of_lt (by simp; omega)

theorem HostStep.keeps_hostBounds {s t : State} (h : HostStep s t) (ha : s.cfg.admissible = true) (hc : ContextsOk s)
    (hs : HostBounds s) : HostBounds t := by
  obtain ⟨hn, hn', hmdio, hreset, -⟩ := admissible_bounds ha
  cases h
  case pollDone wait =>
    obtain ⟨-, hd, hoff, -, -, h0, h1⟩ := isPoll_of_afterPoll wait
    exact .of_sub hc.sub hoff (by simp) (by simp [hd]) (by simp [h0, h1])
  case pollAgain wait more =>
    obtain ⟨hp, -, hoff, h0, h1, -, -⟩ := isPoll_of_afterPoll wait
    have hlt := hs.mdio hp
    refine .of_sub hc.sub hoff (by simp) (fun _ => ?_) (by simp [h0, h1])
    have e : (flush .host s).h.onePoll.polls = s.h.polls + 1 := by simp
    show (flush .host s).h.onePoll.polls < (flush .host s).cfg.mdioBudget
    rw [e, flush_cfg]
    omega
  case pollTimeout wait =>
    exact .of_sub hc.sub (isPoll_of_afterPoll wait).2.2.1 (by simp) (by simp [isPoll]) (by simp)
  case issueWord word =>
    obtain ⟨hoff, h0, h1⟩ := not_off_of_issuedAt word
    exact .of_sub hc.sub hoff (by simp) (fun _ => by simpa using hmdio) (by simp [h0, h1])
  case fetchDatum sub | writeDone sub | putDatum sub =>
    exact .of_sub hc.sub (by rw [sub]; nofun) (by simp [mdioFetch, mdioWriteDone])
      (by simp [mdioFetch, mdioWriteDone, isPoll]) (by simp [mdioFetch, mdioWriteDone])
  case buildWord sub _ =>
    obtain ⟨hb, hp, -, hoff⟩ := isPoll_of_afterBuild sub
    exact .of_sub hc.sub hoff (by simp) (by simp [hp]) (fun _ => by simpa using hs.build hb)
  case buildSlot sub _ more =>
    obtain ⟨hb, hp, -, hoff⟩ := isPoll_of_afterBuild sub
    refine .of_sub hc.sub hoff (by simp) (by simp [hp]) (fun _ => ?_)
    simpa only [issue_cfg, toNat_succ_of_lt (hs.build hb) (by omega)] using more
  case buildRing sub _ =>
    obtain ⟨-, -, hp, hoff⟩ := isPoll_of_afterBuild sub
    exact .of_sub hc.sub hoff (by simp) (by simp [hp]) (fun _ => by simpa using hn)
  case buildIndices sub | buildOver sub =>
    exact .of_sub hc.sub (by rw [sub]; nofun) (by simp) (by simp [sub, isPoll]) (by simp [sub])
  case call wait legal =>
    have hoff : ∀ l : SubLabel, (l = .mr0 ∨ l = .mw0) → l ≠ .off ∧ ¬ (l = .b0 ∨ l = .b1) := by
      rintro l (rfl | rfl) <;> simp
    obtain ⟨hl, hb⟩ := hoff _ wait
    exact .of_sub legal hl rfl (fun _ => hmdio) (fun e => absurd e hb)
  case n0 =>
    exact ⟨nofun, nofun, nofun, nofun, nofun, fun _ => by simpa using hreset⟩
  case n1Again hat more =>
    have hlt := hs.reset hat.1
    refine ⟨?_, ?_, ?_, ?_, ?_, fun _ => ?_⟩
    case refine_6 =>
      rw [resetPolled_polls, show (resetPolled s).cfg = s.cfg from flush_cfg .host s]
      omega
    all_goals simp [resetPolled, hat.1, hat.2.1, lenTested, isPoll]
  case n6Call hat =>
    exact .of_sub (a := .b0) (by rw [hat.1]; rfl) nofun rfl nofun (fun _ => hn)
  case n2 hat => rw [initN2_eq]; exact .quiet rfl rfl nofun
  case n5Done hat => rw [identify_eq]; exact .quiet rfl rfl nofun
  case t1Fits fits => exact .of_tx rfl rfl fits nofun nofun
  case t2Pointer hat =>
    have hlen := hs.len (by rw [hat.1]; rfl)
    exact .of_tx (by simp [copyAt, hat.2.1]) (by simp [copyAt, hat.1, lenTested]) (by simpa [copyAt] using hlen)
      (by simp [copyAt]) (by simp [copyAt])
  case t2Load hat more | t2Free hat more =>
    have hlen := hs.len (by rw [hat.1]; rfl)
    exact .of_tx (by simp [hat.2.1]) (by simp [hat.1, lenTested]) (by simpa using hlen)
      (fun _ _ => by simpa using more.le) (fun _ _ => by simpa using more)
  case t2Write hat second =>
    have hlen := hs.len (by rw [hat.1]; rfl)
    have hj := hs.byte hat.1 second
    refine .of_tx (by simp [copyAt, hat.2.1]) (by simp [copyAt, hat.1, lenTested]) (by simpa [copyAt] using hlen)
      (fun _ _ => ?_) (by simp [copyAt])
    simp only [copyAt, txWriteByte_h_len, toNat_succ_of_lt hj s.h.len.isLt]
    omega
  case t2End hat | t3 hat | t4 hat | t5 hat | t6 hat =>
    have hlen := hs.len (by rw [hat.1]; rfl)
    exact .of_tx rfl rfl (by simpa using hlen) nofun nofun
  case t7Fence hat =>
    have hlen := hs.len (by rw [hat.1]; rfl)
    exact .of_tx (by simp [hat.2.1]) (by simp [hat.1, lenTested]) (by simpa using hlen) (by simp [hat.1]) (by simp [hat.1])
  case t7Doorbell hat =>
    have hlen := hs.len (by rw [hat.1]; rfl)
    rw [doorbell_eq]
    exact .of_tx rfl rfl (by simpa using hlen) nofun nofun
  case n5Id1 hat | n5Id2 hat | n6Rx hat _ | n6Tx hat _ | n7Lo hat | n7Hi hat | t0Buf hat | t0Len hat =>
    exact .quiet (by simp [hat.2.1]) (by simp [hat.1, lenTested]) (by simp [hat.1])
  all_goals exact .quiet rfl rfl nofun

@[simp] theorem txWriteByte_iterations (s : State) : (txWriteByte s).i.iterations = s.i.iterations :=
  txWriteByte_keeps (·.i.iterations) (by simp) (by simp) (by simp) s

theorem HostStep.drain {s t : State} (h : HostStep s t) : SameDrain s t := by
  cases h
  case t7Doorbell => rw [doorbell_eq]; constructor <;> simp
  case n2 => rw [initN2_eq]; constructor <;> simp
  case n5Done => rw [identify_eq]; constructor <;> simp
  all_goals constructor <;> simp [mdioFetch, mdioWriteDone, resetPolled, copyAt, upU3, txT8]

theorem BoundsOk.same {s t : State} (hs : BoundsOk s) (host : SameHostCounts s t) (drain : SameDrain s t) : BoundsOk t :=
  have ⟨h, d⟩ := (boundsOk_iff s).1 hs
  (boundsOk_iff t).2 ⟨h.same host, d.same drain⟩

theorem OpStep.keeps_boundsOk {op : Instr} {s t : State} (h : OpStep op s t) (ha : s.cfg.admissible = true)
    (hc : ContextsOk s) (hs : BoundsOk s) : BoundsOk t := by
  obtain ⟨hh, hd⟩ := (boundsOk_iff s).1 hs
  rw [boundsOk_iff]
  cases h with
  | start _ _ _ _ label =>
    refine ⟨.quiet rfl ?_ ?_, hd.same ⟨rfl, rfl, rfl, rfl, rfl⟩⟩ <;> rcases label with rfl | rfl | rfl <;> simp [lenTested]
  | held => exact ⟨hh, hd⟩
  | go _ _ step => exact ⟨step.keeps_hostBounds ha hc hh, hd.same step.drain⟩

/-! ### ISR -/

/-- An iteration goes on, or the loop is left. -/
theorem DrainBounds.goes {s t : State} (hs : DrainBounds s) (cfg : t.cfg = s.cfg)
    (iterations : t.i.iterations = s.i.iterations) (deliverLog : t.deliverLog = s.deliverLog)
    (inside : inIteration t = true → inIteration s = true) : DrainBounds t := by
  refine ⟨?_, fun h => ?_, ?_⟩ <;> simp only [cfg, iterations, deliverLog]
  exacts [hs.iter, hs.inside (inside h), hs.delivered]

/-- LEN is a 14-bit field. -/
theorem delivered_length (s : State) : (s.bytesAt s.i.bufp s.i.len.toNat).length < 2 ^ 14 := by
  simpa [State.bytesAt] using s.i.len.isLt

theorem IsrStep.keeps_drainBounds {s t : State} (h : IsrStep s t) (hs : DrainBounds s) : DrainBounds t := by
  cases h
  case i0 => exact ⟨Nat.zero_le _, nofun, by simpa using hs.delivered⟩
  case i1GoOn at_ first more => exact ⟨hs.iter, fun _ => lt_of_le_of_ne hs.iter more, hs.delivered⟩
  case i4Deliver at_ first =>
    have hin := hs.inside (by simp [inIteration, at_])
    refine ⟨by simpa [deliver, awaitFetch] using hs.iter, fun _ => by simpa [deliver, awaitFetch] using hin, ?_⟩
    simp only [deliver, List.mem_append, List.mem_singleton]
    rintro d (hd | rfl)
    · exact hs.delivered d (by simpa [awaitFetch] using hd)
    · exact delivered_length _
  case i6 at_ =>
    have hin := hs.inside (by simp [inIteration, at_])
    exact ⟨by rw [isrI6]; simpa using hin, nofun, hs.delivered⟩
  all_goals
    exact hs.goes (by simp [returnInterrupt]) (by simp [returnInterrupt, IsrRegs.iterations])
      (by simp [returnInterrupt]) (by simp_all [inIteration, returnInterrupt])

theorem IsrStep.hostCounts {s t : State} (h : IsrStep s t) : SameHostCounts s t := by
  cases h <;> constructor <;> simp [deliver, awaitFetch, returnInterrupt, isrI6]

theorem IsrStep.keeps_boundsOk {s t : State} (h : IsrStep s t) (hs : BoundsOk s) : BoundsOk t :=
  have ⟨hh, hd⟩ := (boundsOk_iff s).1 hs
  (boundsOk_iff t).2 ⟨hh.same h.hostCounts, h.keeps_drainBounds hd⟩

/-! ### Everything else -/

theorem BoundsOk.regWrite {r : RegName} {v : Word} {s t : State} (h : regWrite r v s = .next t) (hs : BoundsOk s) :
    BoundsOk t := by
  obtain ⟨hh, hd⟩ := (boundsOk_iff s).1 hs
  rw [boundsOk_iff]
  rcases regWrite_next h with ⟨-, regs, rx, tx, rfl⟩ | ⟨-, h⟩
  · exact ⟨hh.same ⟨rfl, rfl, rfl, rfl, rfl, rfl, rfl⟩, hd.same ⟨rfl, rfl, rfl, rfl, rfl⟩⟩
  · obtain ⟨-, -, rfl | ⟨-, rfl⟩ | ⟨-, rfl⟩ | rfl⟩ := commandWrite_next h
    case inr.inr.inr => exact ⟨hh.same ⟨rfl, rfl, rfl, rfl, rfl, rfl, rfl⟩, hd.same ⟨rfl, rfl, rfl, rfl, rfl⟩⟩
    all_goals exact ⟨.quiet rfl rfl nofun, hd.same ⟨rfl, rfl, rfl, rfl, rfl⟩⟩

theorem BoundsOk.taint {s : State} (hs : BoundsOk s) (a : Nat) : BoundsOk (taint a s) := by
  obtain ⟨mem, hb, h, tx, w, d, c, -, -, ⟨b, rfl⟩, -, -, e⟩ := taint_cases a s
  rw [e]; exact hs.same ⟨rfl, rfl, rfl, rfl, rfl, rfl, rfl⟩ ⟨rfl, rfl, rfl, rfl, rfl⟩

theorem ExecStep.keeps_boundsOk {i : Instr} {s t : State} (h : ExecStep i s t) (ha : s.cfg.admissible = true)
    (hc : ContextsOk s) (hs : BoundsOk s) : BoundsOk t := by
  cases h with
  | stay => exact hs
  | op h => exact h.keeps_boundsOk ha hc hs
  | busWrite h => exact hs.regWrite h
  | mdioWrite =>
    obtain ⟨phy, e, -⟩ := xferWrite_eq _ _ _
    rw [e]; exact hs.same ⟨rfl, rfl, rfl, rfl, rfl, rfl, rfl⟩ ⟨rfl, rfl, rfl, rfl, rfl⟩
  | send _ h => cases h <;> exact hs.same ⟨rfl, rfl, rfl, rfl, rfl, rfl, rfl⟩ ⟨rfl, rfl, rfl, rfl, rfl⟩
  | fill _ h => cases h <;> exact hs.same ⟨rfl, rfl, rfl, rfl, rfl, rfl, rfl⟩ ⟨rfl, rfl, rfl, rfl, rfl⟩
  | miss =>
    unfold overrun
    split <;> exact hs.same ⟨rfl, rfl, rfl, rfl, rfl, rfl, rfl⟩ ⟨rfl, rfl, rfl, rfl, rfl⟩
  | enter =>
    obtain ⟨hh, hd⟩ := (boundsOk_iff s).1 hs
    rw [boundsOk_iff]
    exact ⟨hh.same (by constructor <;> simp [takeInterrupt]),
      hd.goes (by simp [takeInterrupt]) (by simp [takeInterrupt, IsrRegs.iterations]) (by simp [takeInterrupt]) nofun⟩
  | isr _ _ h => exact h.keeps_boundsOk hs
  | busRead | mdioIssue | mdioRead | sendPoll | park =>
    exact hs.same ⟨rfl, rfl, rfl, rfl, rfl, rfl, rfl⟩ ⟨rfl, rfl, rfl, rfl, rfl⟩

theorem MoveStep.keeps_boundsOk {m : Move} {s t : State} (h : MoveStep m s t) (ha : s.cfg.admissible = true)
    (hc : ContextsOk s) (hs : BoundsOk s) : BoundsOk t := by
  cases h with
  | stay => exact hs
  | run _ h => exact h.keeps_boundsOk ha hc hs
  | isr _ _ h => exact h.keeps_boundsOk hs
  | store =>
    have hstored : ∀ a v, BoundsOk (storeByte a v s) :=
      fun _ _ => hs.same ⟨rfl, rfl, rfl, rfl, rfl, rfl, rfl⟩ ⟨rfl, rfl, rfl, rfl, rfl⟩
    exact (hstored _ _).taint _
  | drain => exact hs.same (by constructor <;> simp) (by constructor <;> simp)
  | load | arrive | phy | badCmd | reset => exact hs.same ⟨rfl, rfl, rfl, rfl, rfl, rfl, rfl⟩ ⟨rfl, rfl, rfl, rfl, rfl⟩

/-- Settles O13: a loop goes on only where its bound is not met yet. -/
theorem stepKeepsLoopBounds : Obligations.StepKeepsLoopBounds := fun _ _ hc hs h =>
  (step_keeps (P := fun s => ContextsOk s ∧ BoundsOk s)
    (fun _ _ _ hs => ⟨hs.1.same ⟨rfl, rfl, rfl, rfl, rfl, rfl, rfl, rfl⟩,
      hs.2.same ⟨rfl, rfl, rfl, rfl, rfl, rfl, rfl⟩ ⟨rfl, rfl, rfl, rfl, rfl⟩⟩)
    (fun _ _ _ ha hs h => ⟨h.keeps_contextsOk hs.1, h.keeps_boundsOk ha hs.1 hs.2⟩) ⟨hc, hs⟩ h).2

end Sys2Proof.Machine

/-! PROOFS. Every step keeps the accesses outstanding within the operation that issued them (20_memory.md R96, R98, R100). -/

namespace Sys2Proof.Machine

/-! ### A context's loads fill its own registers (10_state.md R30) -/

/-- Every load of the list fills a register of the context. -/
def OwnLoads (c : Ctx) (l : List Pending) : Prop := ∀ p ∈ l, ∀ r, p.fills = some r → r.ctx = c

theorem ownLoads_host_iff (l : List Pending) :
    OwnLoads .host l ↔ ∀ p ∈ l, p.fills ≠ some .isrLen ∧ p.fills ≠ some .isrBufp := by
  refine ⟨fun h p hp => ⟨fun e => (nomatch h p hp _ e), fun e => (nomatch h p hp _ e)⟩, fun h p hp r hr => ?_⟩
  obtain ⟨h1, h2⟩ := h p hp
  cases r
  exacts [rfl, rfl, absurd hr h1, absurd hr h2]

theorem ownLoads_isr_iff (l : List Pending) :
    OwnLoads .isr l ↔ ∀ p ∈ l, p.fills ≠ some .hostByte ∧ p.fills ≠ some .hostBufp := by
  refine ⟨fun h p hp => ⟨fun e => (nomatch h p hp _ e), fun e => (nomatch h p hp _ e)⟩, fun h p hp r hr => ?_⟩
  obtain ⟨h1, h2⟩ := h p hp
  cases r
  exacts [absurd hr h1, absurd hr h2, rfl, rfl]

theorem OwnLoads.nil (c : Ctx) : OwnLoads c [] := nofun

/-- The accesses of the new list are old ones or fill no register. -/
theorem OwnLoads.of_mem {c : Ctx} {l l' : List Pending} (h : OwnLoads c l) (hl : ∀ p ∈ l', p ∈ l ∨ p.fills = none) :
    OwnLoads c l' := fun p hp r hr => by
  rcases hl p hp with hp | e
  · exact h p hp r hr
  · rw [e] at hr; cases hr

theorem OwnLoads.append {c : Ctx} {l : List Pending} (h : OwnLoads c l) {p : Pending}
    (hp : ∀ r, p.fills = some r → r.ctx = c) : OwnLoads c (l ++ [p]) := fun q hq r hr => by
  rcases List.mem_append.1 hq with hq | hq
  · exact h q hq r hr
  · exact hp r (List.mem_singleton.1 hq ▸ hr)

theorem Pending.fills_withStore (dst : Nat) (p : Pending) :
    p.withStore dst = p ∨ (p.withStore dst).fills = none := by
  unfold Pending.withStore; split
  · exact .inr rfl
  · exact .inl rfl

theorem OwnLoads.issue {c : Ctx} {s : State} (h : OwnLoads c (s.pending c)) {p : Pending}
    (hp : ∀ r, p.fills = some r → r.ctx = c) : OwnLoads c ((issue c p s).pending c) := by
  rcases issue_cases c p s with ⟨-, e⟩ | ⟨-, e⟩ <;> rw [e]
  · simpa using h
  · simpa using h.append hp

theorem OwnLoads.settle {c : Ctx} {s : State} (h : OwnLoads c (s.pending c)) (want : Pending → Bool) :
    OwnLoads c ((settle c want s).pending c) := by
  rw [settle_pending]
  exact h.of_mem fun p hp => .inl ((splitNeeded_mem _ _ p).1 (.inr hp))

theorem Access.ownLoads {ss : List Pending} {c : Ctx} {s u : State} (h : Access ss c s u)
    (hs : OwnLoads c (s.pending c)) : OwnLoads c (u.pending c) := by
  cases h with
  | none => exact hs
  | flush => rw [flush_pending]; exact .nil c
  | load own => exact hs.issue (by rintro r ⟨⟩; exact own)
  | store => exact hs.issue nofun
  | settle => exact hs.settle _
  | await =>
    have h1 : OwnLoads .isr ((settleReg .isr .isrLen s).pending .isr) := hs.settle _
    exact h1.settle _
  | copy =>
    have hu : OwnLoads .host ((settleReg .host .hostBufp s).pending .host) := hs.settle _
    rcases txWriteByte_cases s with e | e <;> rw [e]
    · exact hu.issue nofun
    · refine hu.of_mem fun p hp => ?_
      obtain ⟨q, hq, rfl⟩ := List.mem_map.1 hp
      exact (Pending.fills_withStore _ q).imp_left fun e => by rwa [e]

/-- A micro-step of one context leaves the other's list. -/
theorem Access.other {ss : List Pending} {c c' : Ctx} {s u : State} (h : Access ss c s u) (hc : c' ≠ c) :
    u.pending c' = s.pending c' := by
  cases h with
  | none => rfl
  | flush => exact flush_other hc s
  | load => exact issue_other hc _ s
  | store => exact issue_other hc _ s
  | settle => exact settle_other hc _ s
  | await => exact (settle_other hc _ _).trans (settle_other hc _ s)
  | copy =>
    have hu : (settleReg .host .hostBufp s).pending c' = s.pending c' := settle_other hc _ s
    rcases txWriteByte_cases s with e | e <;> rw [e]
    · exact (issue_other hc _ _).trans hu
    · cases c' with
      | host => exact absurd rfl hc
      | isr => exact hu

/-! ### HOST -/

/-- HOST moves, the handler not running. -/
theorem StoresOk.of_host {s t u : State} (hs : StoresOk s) (hu : Access (hostStores s) .host s u) (same : SameAccesses u t)
    (ipc : t.ipc = s.ipc) (run : t.inIsr = false) (host : t.hostBuf ≠ [] → hostMayWait t.hpc t.hsub = true) :
    StoresOk t where
  hostLoads := by
    rw [same.hostBuf]
    exact (ownLoads_host_iff _).1 (hu.ownLoads ((ownLoads_host_iff _).2 hs.hostLoads))
  isrLoads := by
    have e : t.isrBuf = s.isrBuf := same.isrBuf.trans (hu.other (c' := .isr) nofun)
    rw [e]; exact hs.isrLoads
  host := host
  isr := by
    have e : t.isrBuf = s.isrBuf := same.isrBuf.trans (hu.other (c' := .isr) nofun)
    rw [e, ipc]; exact hs.isr
  entry h := by rw [run] at h; cases h

theorem StoresOk.hostBuf_nil {s : State} (hs : StoresOk s) (h : hostMayWait s.hpc s.hsub = false) : s.hostBuf = [] := by
  by_contra hne
  have := hs.host hne
  rw [h] at this; cases this

theorem hostMayWait_of_afterBuild {l : HostLabel} {a d : SubLabel} (h : afterBuild a = some d) (hl : subOk l a = true) :
    hostMayWait l a = true ∧ hostMayWait l d = true := by
  cases a <;> cases h <;> cases l <;> simp_all [subOk, hostMayWait]

/-- A list that was empty stays so when none is issued. -/
theorem settle_hostBuf_of_nil {s : State} (h : s.hostBuf = []) (want : Pending → Bool) :
    (settle .host want s).hostBuf = [] := by
  have e := settle_pending .host want s
  rw [show s.pending .host = s.hostBuf from rfl, h] at e
  exact e

theorem HostStep.hostMayWait {s t : State} (h : HostStep s t) (hc : ContextsOk s) (hs : StoresOk s)
    (hne : t.hostBuf ≠ []) : hostMayWait t.hpc t.hsub = true := by
  cases h
  case buildWord sub _ | buildSlot sub _ _ | buildRing sub _ =>
    obtain ⟨ha, hd⟩ := hostMayWait_of_afterBuild sub hc.sub
    simp [ha, hd]
  case buildIndices sub =>
    have hn6 := hc.sub
    rw [sub] at hn6
    simp_all [subOk, Machine.hostMayWait]
  case writeDone sub =>
    have hn4 := hc.sub
    rw [sub] at hn4
    have hl : s.hpc = .n4 := by simpa [subOk] using hn4
    exact absurd (hs.hostBuf_nil (by rw [hl]; rfl)) (by simpa [mdioWriteDone] using hne)
  case call off wait legal =>
    refine absurd (hs.hostBuf_nil ?_) hne
    rw [off]
    rcases wait with rfl | rfl <;> cases hl : s.hpc <;> rw [hl] at legal <;> simp_all [subOk, Machine.hostMayWait]
  case t0Test hat | t0Full hat =>
    have hnil := settle_hostBuf_of_nil (hs.hostBuf_nil (by rw [hat.1, hat.2.1]; rfl))
    exact absurd (hnil _) hne
  case fail hat =>
    refine absurd (hs.hostBuf_nil ?_) hne
    rcases hat with hat | hat | hat <;> rw [hat.1, hat.2.1] <;> rfl
  case n2 hat => rw [initN2_eq] at hne; exact absurd (hs.hostBuf_nil (by rw [hat.1, hat.2.1]; rfl)) hne
  case n5Done hat => rw [identify_eq] at hne; exact absurd (hs.hostBuf_nil (by rw [hat.1, hat.2.1]; rfl)) hne
  case n4Done hat | n5Id1 hat | n5Id2 hat | n6Call hat | n6Done hat _ | n8 hat | n9 hat | n12 hat | t1Long hat |
      t1Fits hat _ | u0Done hat | u0Fail hat | u1Down hat | u1Already hat | u1Edge hat | u2Done hat | u3 hat | u6 hat |
      t8 hat =>
    exact absurd (hs.hostBuf_nil (by rw [hat.1, hat.2.1]; rfl)) hne
  case t2Pointer hat | t2Load hat _ | t2Free hat _ | t2Write hat _ | t2End hat | t3 hat | t4 hat | t5 hat | t6 hat =>
    simp [copyAt, hat.1, Machine.hostMayWait]
  case t7Doorbell => rw [doorbell_eq] at hne; exact absurd (by simp) hne
  all_goals exact absurd (by simp [mdioFetch, resetPolled]) hne

/-- Two states with the same accesses outstanding and the contexts at the same places. -/
structure SameOutstanding (s t : State) : Prop where
  hostBuf : t.hostBuf = s.hostBuf
  isrBuf : t.isrBuf = s.isrBuf
  hpc : t.hpc = s.hpc
  hsub : t.hsub = s.hsub
  ipc : t.ipc = s.ipc
  inIsr : t.inIsr = s.inIsr

theorem StoresOk.same {s t : State} (hs : StoresOk s) (h : SameOutstanding s t) : StoresOk t := by
  constructor <;> simp only [h.hostBuf, h.isrBuf, h.hpc, h.hsub, h.ipc, h.inIsr]
  exacts [hs.hostLoads, hs.isrLoads, hs.host, hs.isr, hs.entry]

theorem HostStep.isr_stands {s t : State} (h : HostStep s t) : t.ipc = s.ipc ∧ t.inIsr = s.inIsr := by
  cases h
  case t7Doorbell => rw [doorbell_eq]; simp
  case n2 => rw [initN2_eq]; exact ⟨rfl, rfl⟩
  case n5Done => rw [identify_eq]; exact ⟨rfl, rfl⟩
  all_goals simp [mdioFetch, mdioWriteDone, resetPolled, copyAt, upU3, txT8]

theorem StoresOk.start {s : State} (hs : StoresOk s) (idle : s.hpc = .idle) (l : HostLabel) (d : List Nat) :
    StoresOk { s with hpc := l, hsub := .off, hmic := 0, dirty := d } :=
  have hnil : s.hostBuf = [] := hs.hostBuf_nil (by rw [idle]; rfl)
  ⟨hs.hostLoads, hs.isrLoads, fun hne => absurd hnil hne, hs.isr, hs.entry⟩

theorem OpStep.keeps_storesOk {op : Instr} {s t : State} (h : OpStep op s t) (hc : ContextsOk s) (hs : StoresOk s) :
    StoresOk t := by
  cases h with
  | start idle => exact hs.start idle _ _
  | held => exact hs
  | go _ run step =>
    obtain ⟨u, hu, same⟩ := step.access
    obtain ⟨hipc, hrun⟩ := step.isr_stands
    exact hs.of_host hu same hipc (hrun.trans run) (step.hostMayWait hc hs)

/-! ### ISR -/

theorem flush_both_nil (s : State) :
    (flush .isr (flush .host s)).hostBuf = [] ∧ (flush .isr (flush .host s)).isrBuf = [] := by
  simp

/-- Both contexts have reached an ordering point. -/
theorem StoresOk.of_nil {s : State} (host : s.hostBuf = []) (isr : s.isrBuf = []) : StoresOk s :=
  ⟨by rw [host]; nofun, by rw [isr]; nofun, fun hne => absurd host hne, fun hne => absurd isr hne, fun _ => host⟩

theorem StoresOk.isrBuf_nil {s : State} (hs : StoresOk s) (h : isrMayWait s.ipc = false) : s.isrBuf = [] := by
  by_contra hne
  have := hs.isr hne
  rw [h] at this; cases this

theorem IsrStep.isrMayWait {s t : State} (h : IsrStep s t) (hs : StoresOk s) (hne : t.isrBuf ≠ []) :
    isrMayWait t.ipc = true := by
  cases h
  case idle at_ => exact absurd (hs.isrBuf_nil (by rw [at_]; rfl)) hne
  case i7 => exact absurd (by simp) hne
  case i8 => exact absurd (by simp [returnInterrupt]) hne
  all_goals simp_all [isrI6, deliver, awaitFetch, Machine.isrMayWait]

theorem IsrStep.keeps_storesOk {s t : State} (inside : s.inIsr = true) (h : IsrStep s t) (hs : StoresOk s) :
    StoresOk t := by
  rcases h.access with rfl | ⟨u, hu, same⟩
  · exact .of_nil (flush_both_nil s).1 (flush_both_nil s).2
  · have hhost : t.hostBuf = [] := (same.hostBuf.trans (hu.other (c' := .host) nofun)).trans (hs.entry inside)
    refine ⟨by rw [hhost]; nofun, ?_, fun hne => absurd hhost hne, h.isrMayWait hs, fun _ => hhost⟩
    rw [same.isrBuf]
    exact (ownLoads_isr_iff _).1 (hu.ownLoads ((ownLoads_isr_iff _).2 hs.isrLoads))

/-! ### Everything else -/

/-- What waits is redrawn in place, and fills no register. -/
theorem redraw_hostBuf (d : Nat) (v : Byte) (s : State) :
    ∀ p ∈ (redraw d v s).hostBuf, p ∈ s.hostBuf ∨ p.fills = none := by
  unfold redraw
  split
  · intro p hp
    obtain ⟨q, hq, rfl⟩ := List.mem_map.1 hp
    split
    · exact .inr rfl
    · exact .inl hq
  · exact fun p hp => .inl hp

theorem redrawCopied_hostBuf (off : Nat) (s : State) :
    (redrawCopied off s).hostBuf = (redraw (addrAt s.cfg s.h.bufp off) (freeByte s) s).hostBuf := by
  unfold redrawCopied
  dsimp only
  split
  · obtain ⟨tx, w, -, -, e⟩ := redrawHandedOver_cases (frameSent s) off
      (freeByte (drawn (redraw (addrAt s.cfg s.h.bufp off) (freeByte s) s)))
      (drawn (redraw (addrAt s.cfg s.h.bufp off) (freeByte s) s))
    rw [e]; rfl
  · rfl

/-- UPPER's write makes no access of HOST's fill another register. -/
theorem taint_hostBuf (a : Nat) (s : State) : ∀ p ∈ (taint a s).hostBuf, p ∈ s.hostBuf ∨ p.fills = none := by
  unfold taint
  split
  · dsimp only
    split
    · rw [redrawCopied_hostBuf]
      exact redraw_hostBuf _ _ { s with dirty := a :: s.dirty }
    · split
      · exact fun p hp => .inl (List.mem_filter.1 hp).1
      · exact fun p hp => .inl hp
  · exact fun p hp => .inl hp

theorem StoresOk.taint {s : State} (hs : StoresOk s) (a : Nat) : StoresOk (taint a s) := by
  have hmem := taint_hostBuf a s
  obtain ⟨mem, hb, h, tx, w, d, c, -, hlen, -, -, -, e⟩ := taint_cases a s
  rw [e] at hmem ⊢
  have hnil : s.hostBuf = [] → hb = [] := fun hn => by
    rw [hn] at hlen; exact List.length_eq_zero_iff.1 (Nat.le_zero.1 hlen)
  exact {
    hostLoads := (ownLoads_host_iff _).1 (((ownLoads_host_iff _).2 hs.hostLoads).of_mem hmem)
    isrLoads := hs.isrLoads
    host := fun hne => hs.host (mt hnil hne)
    isr := hs.isr
    entry := fun hin => hnil (hs.entry hin) }

theorem drain_pending_mem (c : Ctx) (k : Nat) (s : State) :
    ∀ p ∈ (drain c k s).pending c, p ∈ s.pending c ∨ p.fills = none := by
  rcases drain_cases c k s with e | ⟨p, -, e⟩ | ⟨src, dst, -, e⟩ <;> rw [e]
  · exact fun p hp => .inl hp
  · simp only [setPending_pending]
    exact fun q hq => .inl (List.mem_of_mem_eraseIdx hq)
  · simp only [setPending_pending]
    exact fun q hq => (List.mem_or_eq_of_mem_set hq).imp_right (by rintro rfl; rfl)

theorem drain_pending_nil (c : Ctx) (k : Nat) {s : State} (h : s.pending c = []) : (drain c k s).pending c = [] := by
  rw [drain_of_none (by rw [h]; rfl)]; exact h

theorem drain_pending_other {c c' : Ctx} (h : c' ≠ c) (k : Nat) (s : State) : (drain c k s).pending c' = s.pending c' := by
  rcases drain_cases c k s with e | ⟨p, -, e⟩ | ⟨src, dst, -, e⟩ <;> rw [e] <;> cases c <;> cases c' <;> simp_all

theorem StoresOk.drain {s : State} (hs : StoresOk s) (c : Ctx) (k : Nat) : StoresOk (drain c k s) := by
  have hloads : ∀ c', OwnLoads c' (s.pending c') → OwnLoads c' ((Machine.drain c k s).pending c') := fun c' h' => by
    by_cases e : c' = c
    · subst e; exact h'.of_mem (drain_pending_mem c' k s)
    · rw [drain_pending_other e]; exact h'
  have hnil : ∀ c', s.pending c' = [] → (Machine.drain c k s).pending c' = [] := fun c' h' => by
    by_cases e : c' = c
    · subst e; exact drain_pending_nil c' k h'
    · rw [drain_pending_other e]; exact h'
  exact {
    hostLoads := (ownLoads_host_iff _).1 (hloads .host ((ownLoads_host_iff _).2 hs.hostLoads))
    isrLoads := (ownLoads_isr_iff _).1 (hloads .isr ((ownLoads_isr_iff _).2 hs.isrLoads))
    host := fun hne => by simpa using hs.host (mt (hnil .host) hne)
    isr := fun hne => by simpa using hs.isr (mt (hnil .isr) hne)
    entry := fun hin => hnil .host (hs.entry (by simpa using hin)) }

theorem StoresOk.regWrite {r : RegName} {v : Word} {s t : State} (h : regWrite r v s = .next t) (hs : StoresOk s) :
    StoresOk t := by
  rcases regWrite_next h with ⟨-, regs, rx, tx, rfl⟩ | ⟨-, h⟩
  · exact hs.same ⟨rfl, rfl, rfl, rfl, rfl, rfl⟩
  · obtain ⟨idle, -, rfl | ⟨-, rfl⟩ | ⟨-, rfl⟩ | rfl⟩ := commandWrite_next h
    case inr.inr.inr => exact hs.same ⟨rfl, rfl, rfl, rfl, rfl, rfl⟩
    all_goals exact hs.start idle _ _

theorem ExecStep.keeps_storesOk {i : Instr} {s t : State} (h : ExecStep i s t) (hc : ContextsOk s) (hs : StoresOk s) :
    StoresOk t := by
  cases h with
  | stay => exact hs
  | op h => exact h.keeps_storesOk hc hs
  | busWrite h => exact hs.regWrite h
  | mdioWrite =>
    obtain ⟨phy, e, -⟩ := xferWrite_eq _ _ _
    rw [e]; exact hs.same ⟨rfl, rfl, rfl, rfl, rfl, rfl⟩
  | send _ h => cases h <;> exact hs.same ⟨rfl, rfl, rfl, rfl, rfl, rfl⟩
  | fill _ h => cases h <;> exact hs.same ⟨rfl, rfl, rfl, rfl, rfl, rfl⟩
  | miss => unfold overrun; split <;> exact hs.same ⟨rfl, rfl, rfl, rfl, rfl, rfl⟩
  | enter => exact .of_nil (flush_both_nil s).1 (flush_both_nil s).2
  | isr _ inside h => exact h.keeps_storesOk inside hs
  | busRead | mdioIssue | mdioRead | sendPoll | park => exact hs.same ⟨rfl, rfl, rfl, rfl, rfl, rfl⟩

theorem MoveStep.keeps_storesOk {m : Move} {s t : State} (h : MoveStep m s t) (hc : ContextsOk s) (hs : StoresOk s) :
    StoresOk t := by
  cases h with
  | stay => exact hs
  | run _ h => exact h.keeps_storesOk hc hs
  | isr _ inside h => exact h.keeps_storesOk inside hs
  | store =>
    have hstored : ∀ a v, StoresOk (storeByte a v s) := fun _ _ => hs.same ⟨rfl, rfl, rfl, rfl, rfl, rfl⟩
    exact (hstored _ _).taint _
  | drain => exact hs.drain _ _
  | load | arrive | phy | badCmd | reset => exact hs.same ⟨rfl, rfl, rfl, rfl, rfl, rfl⟩

/-- Settles O14: an access is issued only where it may wait, and those labels are left by an ordering point. -/
theorem stepKeepsStoresOk : Obligations.StepKeepsStoresOk := fun _ _ hc hs h =>
  (step_keeps (P := fun s => ContextsOk s ∧ StoresOk s)
    (fun _ _ _ hs => ⟨hs.1.same ⟨rfl, rfl, rfl, rfl, rfl, rfl, rfl, rfl⟩, hs.2.same ⟨rfl, rfl, rfl, rfl, rfl, rfl⟩⟩)
    (fun _ _ _ _ hs h => ⟨h.keeps_contextsOk hs.1, h.keeps_storesOk hs.1 hs.2⟩) ⟨hc, hs⟩ h).2

end Sys2Proof.Machine

/-! PROOFS. The reset state meets every invariant, and the handler's work is bounded (45_receive_irq.md R307). -/

namespace Sys2Proof.Machine

/-! ### Reset (10_state.md R62) -/

/-- Settles O7: after reset every part is empty, zero or idle. -/
theorem resetMeetsTheInvariants : Obligations.ResetMeetsTheInvariants := fun c ha => by
  obtain ⟨hn, -, -, -, -⟩ := admissible_bounds ha
  have hpos : 0 < 2 ^ c.cntW := Nat.two_pow_pos _
  exact {
    memory := ⟨rfl, rfl, fun _ => ⟨rfl, rfl⟩⟩
    regs := regsOk_zero
    index := ⟨hn, hn, hn, hn, hpos, hpos, hpos, hpos, hpos⟩
    engines := ⟨nofun, nofun, nofun⟩
    contexts := ⟨⟨nofun, fun h => absurd rfl h⟩, nofun, rfl, nofun, nofun⟩
    bounds := (boundsOk_iff _).2 ⟨.quiet rfl rfl nofun, Nat.zero_le _, nofun, nofun⟩
    stores := .of_nil rfl rfl }

/-! ### The handler's work -/

theorem isrWorkLeft_same {s t : State} (h : SameDrain s t) : isrWorkLeft t = isrWorkLeft s := by
  simp only [isrWorkLeft, h.ipc, h.imic, h.cfg, h.iterations]

theorem isrWorkLeft_le (s : State) : isrWorkLeft s ≤ 20 * s.cfg.rxLoopCap + 16 := by
  unfold isrWorkLeft
  have hrank : ∀ l mic, isrRank l mic ≤ 15 := fun l mic => by
    unfold isrRank; split <;> (try split) <;> (try split) <;> omega
  split
  · omega
  · omega
  · omega
  · omega
  · have := hrank s.ipc s.imic; omega

/-- Inside an iteration or at its head. -/
theorem isrWorkLeft_of_loop {s : State} (h : s.ipc ≠ .idle ∧ s.ipc ≠ .i0 ∧ s.ipc ≠ .i7 ∧ s.ipc ≠ .i8) :
    isrWorkLeft s = 20 * (s.cfg.rxLoopCap - s.i.iterations) + isrRank s.ipc s.imic := by
  unfold isrWorkLeft
  split <;> simp_all

/-- An iteration goes on, or the loop is left. -/
theorem isrWorkLeft_lt_of_rank {s t : State} (hs : s.ipc ≠ .idle ∧ s.ipc ≠ .i0 ∧ s.ipc ≠ .i7 ∧ s.ipc ≠ .i8)
    (ht : t.ipc ≠ .idle ∧ t.ipc ≠ .i0 ∧ t.ipc ≠ .i7 ∧ t.ipc ≠ .i8) (cfg : t.cfg = s.cfg)
    (iterations : t.i.iterations = s.i.iterations) (rank : isrRank t.ipc t.imic < isrRank s.ipc s.imic) :
    isrWorkLeft t < isrWorkLeft s := by
  rw [isrWorkLeft_of_loop hs, isrWorkLeft_of_loop ht, cfg, iterations]
  omega

theorem IsrStep.works {s t : State} (inside : s.ipc ≠ .idle) (hs : DrainBounds s) (h : IsrStep s t) :
    isrWorkLeft t < isrWorkLeft s := by
  cases h
  case idle at_ => exact absurd at_ inside
  case i0 at_ => simp [isrWorkLeft, at_, isrRank, IsrRegs.iterations, countOf]
  case i1Cap at_ | i1Empty at_ _ =>
    rw [isrWorkLeft_of_loop (s := s) (by simp [at_])]
    simp only [isrWorkLeft, igoto_ipc, at_, isrRank]
    split <;> omega
  case i6 at_ =>
    have hlt := hs.inside (by simp [inIteration, at_])
    have e : (isrI6 s).i.iterations = s.i.iterations + 1 := iterations_oneIteration s.i
    have ecfg : (isrI6 s).cfg = s.cfg := rfl
    rw [isrWorkLeft_of_loop (s := s) (by simp [at_]), isrWorkLeft_of_loop (by simp [isrI6]), e, ecfg, at_]
    simp [isrI6, isrRank]
    omega
  case i7 at_ | i8 at_ => simp [isrWorkLeft, at_, returnInterrupt]
  case i1GoOn at_ first _ => exact isrWorkLeft_lt_of_rank (by simp [at_]) (by simp [at_]) rfl rfl (by simp [at_, first, isrRank])
  case i1Taken at_ second =>
    exact isrWorkLeft_lt_of_rank (by simp [at_]) (by simp) (by simp) (by simp [IsrRegs.iterations])
      (by simp [at_, second, isrRank])
  case i2 at_ =>
    exact isrWorkLeft_lt_of_rank (by simp [at_]) (by simp) (by simp) (by simp) (by simp [at_, isrRank])
  case i3Len at_ first | i5Clear at_ first | i5Fence at_ first =>
    exact isrWorkLeft_lt_of_rank (by simp [at_]) (by simp [at_]) (by simp) (by simp) (by simp [at_, first, isrRank])
  case i4Deliver at_ first =>
    exact isrWorkLeft_lt_of_rank (by simp [at_]) (by simp [deliver, awaitFetch, at_]) (by simp [deliver, awaitFetch])
      (by simp [deliver, awaitFetch]) (by simp [deliver, awaitFetch, at_, first, isrRank])
  case i3Pointer at_ =>
    refine isrWorkLeft_lt_of_rank (by simp [at_]) (by simp) (by simp) (by simp) ?_
    simp only [at_, isrRank, igoto_ipc, igoto_imic, if_true]
    split <;> omega
  case i4Drop at_ | i4Count at_ =>
    refine isrWorkLeft_lt_of_rank (by simp [at_]) (by simp) rfl rfl ?_
    simp only [at_, isrRank, igoto_ipc, igoto_imic, if_true]
    split <;> omega
  case i5Rearm at_ third =>
    refine isrWorkLeft_lt_of_rank (by simp [at_]) (by simp) (by simp) (by simp) ?_
    simp only [at_, isrRank, igoto_ipc]
    split
    · omega
    · split <;> omega

/-! ### Nothing else gives the handler work -/

theorem OpStep.drain {op : Instr} {s t : State} (h : OpStep op s t) : SameDrain s t := by
  cases h with
  | start => exact ⟨rfl, rfl, rfl, rfl, rfl⟩
  | held => exact ⟨rfl, rfl, rfl, rfl, rfl⟩
  | go _ _ step => exact step.drain

theorem not_handler_of_op {op : Instr} {s t : State} (h : OpStep op s t) : isHandler op = false := by
  rcases h.op_eq with rfl | rfl | rfl <;> rfl

theorem ExecStep.drain {i : Instr} {s t : State} (other : isHandler i = false) (h : ExecStep i s t) : SameDrain s t := by
  cases h with
  | op h => exact h.drain
  | busWrite h => rw [regWrite_frame h]; exact ⟨rfl, rfl, rfl, rfl, rfl⟩
  | mdioWrite =>
    obtain ⟨phy, e, -⟩ := xferWrite_eq _ _ _
    rw [e]; exact ⟨rfl, rfl, rfl, rfl, rfl⟩
  | send _ h => cases h <;> exact ⟨rfl, rfl, rfl, rfl, rfl⟩
  | fill _ h => cases h <;> exact ⟨rfl, rfl, rfl, rfl, rfl⟩
  | miss => unfold overrun; split <;> exact ⟨rfl, rfl, rfl, rfl, rfl⟩
  | enter handler => rw [other] at handler; cases handler
  | isr handler => rw [other] at handler; cases handler
  | stay | busRead | mdioIssue | mdioRead | sendPoll | park => exact ⟨rfl, rfl, rfl, rfl, rfl⟩

theorem taint_drain (a : Nat) (s : State) : SameDrain s (taint a s) := by
  obtain ⟨mem, hb, h, tx, w, d, c, -, -, -, -, -, e⟩ := taint_cases a s
  rw [e]; exact ⟨rfl, rfl, rfl, rfl, rfl⟩

theorem Selects.handler_false {m : Move} {i : Instr} {s : State} (sel : Selects m i s) (hm : m ≠ .isr) :
    isHandler i = false :=
  Bool.eq_false_iff.2 fun h => hm (sel.handler.1 h)

theorem MoveStep.same_drain {m : Move} {s t : State} (hm : m ≠ .isr) (h : MoveStep m s t) : SameDrain s t := by
  cases h with
  | run sel h => exact h.drain (sel.handler_false hm)
  | isr here => exact absurd here hm
  | store =>
    have htaint := taint_drain
    exact { htaint _ (storeByte _ _ s) with }
  | drain => constructor <;> simp
  | stay | load | arrive | phy | badCmd | reset => exact ⟨rfl, rfl, rfl, rfl, rfl⟩

theorem ExecStep.works {i : Instr} {s t : State} (hi : isHandler i = true) (inside : s.inIsr = true)
    (hipc : s.ipc ≠ .idle) (hs : DrainBounds s) (h : ExecStep i s t) : isrWorkLeft t < isrWorkLeft s := by
  cases h with
  | stay other => rw [other hi] at inside; cases inside
  | op h => rw [not_handler_of_op h] at hi; cases hi
  | mdioIssue _ other => rcases other with ⟨_, _, _, rfl⟩ | ⟨_, _, _, rfl⟩ <;> cases hi
  | enter _ out => rw [inside] at out; cases out
  | isr _ _ h => exact h.works hipc hs
  | busRead | busWrite | mdioRead | mdioWrite | sendPoll | send | park | fill | miss => cases hi

theorem MoveStep.works {s t : State} (inside : s.inIsr = true) (hipc : s.ipc ≠ .idle) (hs : DrainBounds s)
    (h : MoveStep .isr s t) : isrWorkLeft t < isrWorkLeft s := by
  cases h with
  | stay other => rw [other rfl] at inside; cases inside
  | run sel h => exact h.works (sel.handler.2 rfl) inside hipc hs
  | isr _ _ h => exact h.works hipc hs
  | store other => exact absurd rfl other
  | load other => exact absurd rfl other
  | arrive other => exact absurd rfl other
  | phy other => exact absurd rfl other
  | badCmd other => exact absurd rfl other
  | reset other => exact absurd rfl other
  | drain other => exact absurd rfl other

/-- Settles O50: each label of the handler has its rank, an iteration is worth more than its ranks, and no other agent
touches what the measure reads. -/
theorem handlerWorkIsBounded : Obligations.HandlerWorkIsBounded := by
  intro s t hb
  obtain ⟨-, hd⟩ := (boundsOk_iff s).1 hb
  have hmove : ∀ (m : Move) (ms : List Move), s.moves = m :: ms → step s = .next t →
      (m = .isr → s.inIsr = true → s.ipc ≠ .idle → isrWorkLeft t < isrWorkLeft s) ∧
      (m ≠ .isr → isrWorkLeft t = isrWorkLeft s) := by
    intro m ms hm h
    obtain ⟨-, ⟨hnil, -⟩ | ⟨m', ms', pick, hm', hstep⟩⟩ := step_cases h
    · rw [hm] at hnil; cases hnil
    · rw [hm] at hm'
      cases hm'
      have hsame : SameDrain s { s with moves := ms, choice := pick } := ⟨rfl, rfl, rfl, rfl, rfl⟩
      refine ⟨?_, fun hne => (isrWorkLeft_same (hstep.same_drain hne)).trans (isrWorkLeft_same hsame)⟩
      rintro rfl inside hipc
      exact (MoveStep.works (s := { s with moves := ms, choice := pick }) inside hipc (hd.same hsame) hstep).trans_eq
        (isrWorkLeft_same hsame)
  refine ⟨isrWorkLeft_le s, fun i h => ⟨fun hi inside hipc => (ExecStep.of_exec h).works hi inside hipc hd,
    fun hi => isrWorkLeft_same ((ExecStep.of_exec h).drain hi)⟩, fun h inside hipc => ?_, hmove⟩
  cases hms : s.moves with
  | nil =>
    obtain ⟨-, ⟨-, rfl⟩ | ⟨m, ms, pick, hm, -⟩⟩ := step_cases h
    · exact le_rfl
    · rw [hms] at hm; cases hm
  | cons m ms =>
    by_cases hm : m = .isr
    · exact ((hmove m ms hms h).1 hm inside hipc).le
    · exact ((hmove m ms hms h).2 hm).le

end Sys2Proof.Machine

/-! PROOFS. What the contract operations, the handler, register writes, MDIO transactions and the engines may change
(41_register_bridge.md R182, R183, 60_exceptions.md R354, R360). -/

namespace Sys2Proof.Machine

/-! ### What a context's accesses change -/

/-- The accesses of a context change memory, its own list and its own registers. -/
def Accessed : Ctx → State → State → Prop
  | .host, s, u => ∃ m h b, u = { s with mem := m, h := h, hostBuf := b }
  | .isr, s, u => ∃ m i b, u = { s with mem := m, i := i, isrBuf := b }

theorem Accessed.refl (c : Ctx) (s : State) : Accessed c s s := by
  cases c <;> exact ⟨_, _, _, rfl⟩

theorem Accessed.trans {c : Ctx} {s u v : State} (h : Accessed c s u) (h' : Accessed c u v) : Accessed c s v := by
  cases c with
  | host =>
    obtain ⟨_, _, _, rfl⟩ := h
    obtain ⟨_, _, _, rfl⟩ := h'
    exact ⟨_, _, _, rfl⟩
  | isr =>
    obtain ⟨_, _, _, rfl⟩ := h
    obtain ⟨_, _, _, rfl⟩ := h'
    exact ⟨_, _, _, rfl⟩

theorem Accessed.setPending {c : Ctx} {s u : State} (h : Accessed c s u) (b : List Pending) :
    Accessed c s (u.setPending c b) :=
  h.trans (by cases c <;> exact ⟨_, _, _, rfl⟩)

theorem accessed_performAccess {c : Ctx} {p : Pending} (h : ∀ r, p.fills = some r → r.ctx = c) (s : State) :
    Accessed c s (performAccess p s) := by
  rcases p with _ | _ | ⟨a, r⟩ | _
  case load =>
    have hr := h r rfl
    subst hr
    cases r <;> exact ⟨_, _, _, rfl⟩
  all_goals cases c <;> exact ⟨_, _, _, rfl⟩

theorem accessed_performAccesses {c : Ctx} : ∀ {ps : List Pending}, OwnLoads c ps → ∀ s : State,
    Accessed c s (performAccesses ps s)
  | [], _, s => .refl c s
  | p :: _, h, s =>
    (accessed_performAccess (h p List.mem_cons_self) s).trans
      (accessed_performAccesses (fun q hq => h q (List.mem_cons_of_mem _ hq)) _)

theorem accessed_flush {c : Ctx} {s : State} (h : OwnLoads c (s.pending c)) : Accessed c s (flush c s) :=
  (accessed_performAccesses h s).setPending []

theorem accessed_settle {c : Ctx} {s : State} (h : OwnLoads c (s.pending c)) (want : Pending → Bool) :
    Accessed c s (settle c want s) :=
  (accessed_performAccesses (h.of_mem fun p hp => .inl ((splitNeeded_mem _ _ p).1 (.inl hp))) s).setPending _

theorem accessed_issue {c : Ctx} {p : Pending} (h : ∀ r, p.fills = some r → r.ctx = c) (s : State) :
    Accessed c s (issue c p s) := by
  rcases issue_cases c p s with ⟨-, e⟩ | ⟨-, e⟩ <;> rw [e]
  · exact accessed_performAccess h s
  · exact (Accessed.refl c s).setPending _

theorem accessed_word (c : Ctx) (a : Nat) (v : Word) (s : State) : Accessed c s (issue c (.word a v) s) :=
  accessed_issue (by rintro _ ⟨⟩) s

theorem accessed_load {c : Ctx} {r : LoadReg} (own : r.ctx = c) (a : Nat) (s : State) :
    Accessed c s (issue c (.load a r) s) :=
  accessed_issue (by rintro _ ⟨⟩; exact own) s

theorem accessed_txWriteByte {s : State} (h : OwnLoads .host s.hostBuf) : Accessed .host s (txWriteByte s) := by
  have hsettle : Accessed .host s (settleReg .host .hostBufp s) := accessed_settle h _
  rcases txWriteByte_cases s with e | e <;> rw [e]
  · exact hsettle.trans (accessed_issue (by rintro _ ⟨⟩) _)
  · exact hsettle.setPending _

/-! ### The contract operations -/

/-- The sub-procedures that an operation calls (10_state.md R31). -/
def calls (op : Instr) (sub : SubLabel) : Bool :=
  match op, sub with
  | .init, _ => true
  | .up, .off | .up, .mr0 | .up, .mr1 | .up, .mr2 | .up, .mr3 => true
  | .tx, .off => true
  | _, _ => false

theorem ContextsOk.calls {s : State} (hc : ContextsOk s) {op : Instr} (hop : opOf s.hpc = some op) :
    calls op s.hsub = true := by
  have hsub := hc.sub
  cases hl : s.hpc <;> rw [hl] at hop hsub <;> cases hop <;> cases hs : s.hsub <;> rw [hs] at hsub <;>
    first | rfl | cases hsub

theorem eq_off_of_calls_tx {sub : SubLabel} (h : calls .tx sub = true) : sub = .off := by
  cases sub with
  | off => rfl
  | _ => cases h

theorem afterBuild_of_calls_up {sub : SubLabel} (h : calls .up sub = true) : afterBuild sub = none := by
  cases sub with
  | b0 | b1 => cases h
  | _ => rfl

/-- What `TX` may change of the state. -/
def TxFrame (s t : State) : Prop :=
  t = { s with
    hpc := t.hpc, hsub := t.hsub, hmic := t.hmic, h := t.h, nsent := t.nsent, nsentBytes := t.nsentBytes
    nerr := t.nerr, txIdx := t.txIdx, regs := { s.regs with result := t.regs.result }
    tx := { s.tx with st := t.tx.st }, mem := t.mem, hostBuf := t.hostBuf, events := t.events, dirty := t.dirty
    freeCtr := t.freeCtr }

/-- What `UP` may change of the state. -/
def UpFrame (s t : State) : Prop :=
  t = { s with
    hpc := t.hpc, hsub := t.hsub, hmic := t.hmic, h := t.h, link := t.link
    regs :=
      { s.regs with
        maccfg := t.regs.maccfg, mdioCtrl := t.regs.mdioCtrl, diag := t.regs.diag, result := t.regs.result }
    mem := t.mem, hostBuf := t.hostBuf, events := t.events, dirty := t.dirty }

/-- What `INIT` may change of the state. -/
def InitFrame (s t : State) : Prop :=
  t = { s with
    hpc := t.hpc, hsub := t.hsub, hmic := t.hmic, h := t.h, link := t.link, initialized := t.initialized
    ringsBuilt := t.ringsBuilt, phyId := t.phyId, vendor := t.vendor, rxIdx := t.rxIdx, txIdx := t.txIdx
    regs :=
      { t.regs with
        maccfg := s.regs.maccfg, intStatus := s.regs.intStatus, argBuf := s.regs.argBuf, argLen := s.regs.argLen }
    rx := t.rx, tx := t.tx, mem := t.mem, hostBuf := t.hostBuf, events := t.events, dirty := t.dirty }

theorem HostStep.txFrame {s t : State} (hop : opOf s.hpc = some .tx) (hcalls : calls .tx s.hsub = true)
    (hown : OwnLoads .host s.hostBuf) (h : HostStep s t) : TxFrame s t := by
  have hoff : s.hsub = .off := eq_off_of_calls_tx hcalls
  clear hcalls
  cases h
  case t0Test =>
    obtain ⟨_, _, _, e⟩ := accessed_settle (c := .host) hown _
    rw [e]; exact rfl
  case t0Full =>
    obtain ⟨_, _, _, e⟩ := accessed_settle (c := .host) hown _
    rw [raise_ringFull, e]; exact rfl
  case t0Buf | t0Len | t5 | t7Fence =>
    obtain ⟨_, _, _, e⟩ := accessed_flush (c := .host) hown
    rw [e]; exact rfl
  case t7Doorbell =>
    obtain ⟨_, _, _, e⟩ := accessed_flush (c := .host) hown
    rw [e, doorbell_eq]; exact rfl
  case t2Pointer =>
    obtain ⟨_, _, _, e⟩ := accessed_load (c := .host) (r := .hostBufp) rfl _ s
    rw [e]; exact rfl
  case t2Load =>
    obtain ⟨_, _, _, e⟩ := accessed_load (c := .host) (r := .hostByte) rfl _ s
    rw [e]; exact rfl
  case t3 | t4 | t6 =>
    obtain ⟨_, _, _, e⟩ := accessed_word .host _ _ s
    rw [e]; exact rfl
  case t2Write =>
    obtain ⟨_, _, _, e⟩ := accessed_txWriteByte hown
    rw [e]; exact rfl
  case t1Long | t1Fits | t2Free | t2End | t8 => exact rfl
  case call wait legal =>
    exfalso
    cases hl : s.hpc <;> rw [hl] at hop legal <;> cases hop <;> rcases wait with rfl | rfl <;> cases legal
  case fail hat => rcases hat with hat | hat | hat <;> rw [hat.1] at hop <;> cases hop
  -- every other micro-step is made at a label, or in a sub-procedure, of another operation
  all_goals
    exfalso
    simp_all [hostAt, opOf, afterPoll, issuedAt, afterBuild]

theorem HostStep.upFrame {s t : State} (hop : opOf s.hpc = some .up) (hcalls : calls .up s.hsub = true)
    (hown : OwnLoads .host s.hostBuf) (h : HostStep s t) : UpFrame s t := by
  cases h
  case pollDone | pollAgain | pollTimeout | issueWord | fetchDatum | u4 | u5 =>
    obtain ⟨_, _, _, e⟩ := accessed_flush (c := .host) hown
    simp only [mdioFetch, ctxRegRead]
    rw [e]; exact rfl
  case call | fail | u0Done | u0Fail | u1Down | u1Already | u1Edge | u2Done | u3 | u6 => exact rfl
  case buildWord sub _ | buildSlot sub _ _ | buildRing sub _ => rw [afterBuild_of_calls_up hcalls] at sub; cases sub
  -- every other micro-step is made at a label, or in a step of a sub-procedure, that `UP` does not reach
  all_goals
    exfalso
    simp_all [hostAt, opOf, calls]

theorem HostStep.initFrame {s t : State} (hop : opOf s.hpc = some .init)
    (hown : OwnLoads .host s.hostBuf) (h : HostStep s t) : InitFrame s t := by
  cases h
  case pollDone | pollAgain | pollTimeout | issueWord | fetchDatum | putDatum | buildOver | n0 | n1Done | n1Again |
      n1Timeout | n3 | n6Rx | n6Tx | n7Lo | n7Hi | n7Filter | n10 | n11 =>
    obtain ⟨_, _, _, e⟩ := accessed_flush (c := .host) hown
    simp only [mdioFetch, resetPolled, ctxRegRead]
    rw [e]; exact rfl
  case buildWord | buildSlot | buildRing =>
    obtain ⟨_, _, _, e⟩ := accessed_word .host _ _ s
    rw [e]; exact rfl
  case n2 => rw [initN2_eq]; exact rfl
  case n5Done => rw [identify_eq]; exact rfl
  case writeDone | buildIndices | call | fail | n4Done | n5Id1 | n5Id2 | n6Call | n6Done | n8 | n9 | n12 => exact rfl
  all_goals
    exfalso
    simp_all [hostAt, opOf]

/-- A start, and a micro-step held by the handler, change only HOST's place. -/
theorem OpStep.frame {op : Instr} {s t : State} (h : OpStep op s t) {F : State → State → Prop}
    (start : ∀ l, F s { s with hpc := l, hsub := .off, hmic := 0, dirty := [] }) (held : F s s)
    (go : opOf s.hpc = some op → HostStep s t → F s t) : F s t := by
  cases h with
  | start => exact start _
  | held => exact held
  | go inside _ step => exact go inside step

/-- Settles O59: each operation's labels and sub-procedures change only what its frame lists. -/
theorem frameOfContractOperations : Obligations.FrameOfContractOperations := by
  intro s t hc hs
  have hown : OwnLoads .host s.hostBuf := (ownLoads_host_iff _).2 hs.hostLoads
  refine ⟨fun h => ?_, fun h => ?_, fun h => ?_⟩
  · exact (OpStep.of_tx h).frame (F := TxFrame) (fun _ => rfl) rfl fun hop step => step.txFrame hop (hc.calls hop) hown
  · exact (OpStep.of_up h).frame (F := UpFrame) (fun _ => rfl) rfl fun hop step => step.upFrame hop (hc.calls hop) hown
  · exact (OpStep.of_init h).frame (F := InitFrame) (fun _ => rfl) rfl fun hop step => step.initFrame hop hown

/-! ### The handler -/

/-- What any accesses change: memory, the lists, ISR's registers and the two registers of HOST's that loads fill. -/
def AccessedAny (s u : State) : Prop :=
  ∃ m byte bufp i hb ib, u = { s with
    mem := m, h := { s.h with byte := byte, bufp := bufp }, i := i, hostBuf := hb, isrBuf := ib }

theorem AccessedAny.trans {s u v : State} (h : AccessedAny s u) (h' : AccessedAny u v) : AccessedAny s v := by
  obtain ⟨_, _, _, _, _, _, rfl⟩ := h
  obtain ⟨_, _, _, _, _, _, rfl⟩ := h'
  exact ⟨_, _, _, _, _, _, rfl⟩

theorem accessedAny_performAccesses (ps : List Pending) (s : State) : AccessedAny s (performAccesses ps s) := by
  obtain ⟨_, _, _, _, e⟩ := performAccesses_eq ps s
  rw [e]; exact ⟨_, _, _, _, _, _, rfl⟩

theorem accessedAny_setPending (c : Ctx) (b : List Pending) (s : State) : AccessedAny s (s.setPending c b) := by
  cases c <;> exact ⟨_, s.h.byte, s.h.bufp, _, _, _, rfl⟩

theorem accessedAny_flush (c : Ctx) (s : State) : AccessedAny s (flush c s) :=
  (accessedAny_performAccesses _ s).trans (accessedAny_setPending c [] _)

theorem accessedAny_settle (c : Ctx) (want : Pending → Bool) (s : State) : AccessedAny s (settle c want s) :=
  (accessedAny_performAccesses _ s).trans (accessedAny_setPending c _ _)

theorem accessedAny_issue (c : Ctx) (p : Pending) (s : State) : AccessedAny s (issue c p s) := by
  rcases issue_cases c p s with ⟨-, e⟩ | ⟨-, e⟩ <;> rw [e]
  · exact accessedAny_performAccesses [p] s
  · exact accessedAny_setPending c _ s

/-- What the handler may change of the state. -/
def HandlerFrame (s t : State) : Prop :=
  t = { s with
    inIsr := t.inIsr, ipc := t.ipc, imic := t.imic, icause := t.icause, i := t.i, rxIdx := t.rxIdx
    nrecv := t.nrecv, ndrop := t.ndrop, regs := { s.regs with intStatus := t.regs.intStatus }
    h := { s.h with byte := t.h.byte, bufp := t.h.bufp }
    mem := t.mem, hostBuf := t.hostBuf, isrBuf := t.isrBuf, deliverLog := t.deliverLog, events := t.events }

theorem IsrStep.frame {s t : State} (h : IsrStep s t) : HandlerFrame s t := by
  cases h
  case i0 | i2 | i5Fence | i7 =>
    obtain ⟨_, _, _, _, _, _, e⟩ := accessedAny_flush .isr s
    rw [e]; exact rfl
  case i1Empty want _ _ _ | i1Taken want _ _ _ =>
    obtain ⟨_, _, _, _, _, _, e⟩ := accessedAny_settle .isr want s
    rw [e]; exact rfl
  case i3Len | i3Pointer | i5Clear | i5Rearm =>
    obtain ⟨_, _, _, _, _, _, e⟩ := accessedAny_issue .isr _ s
    rw [e]; exact rfl
  case i4Deliver =>
    obtain ⟨_, _, _, _, _, _, e⟩ : AccessedAny s (awaitFetch s) :=
      (accessedAny_settle .isr _ s).trans (accessedAny_settle .isr _ _)
    rw [e]; exact rfl
  case i8 =>
    obtain ⟨_, _, _, _, _, _, e⟩ := (accessedAny_flush .host s).trans (accessedAny_flush .isr _)
    rw [returnInterrupt, e]; exact rfl
  case idle | i1Cap | i1GoOn | i4Drop | i4Count | i6 => exact rfl

/-- ISR's loads fill ISR's registers (10_state.md R30). -/
theorem IsrStep.keeps_h {s t : State} (hown : OwnLoads .isr s.isrBuf) (hhost : s.hostBuf = []) (h : IsrStep s t) :
    t.h = s.h := by
  cases h
  case i0 | i2 | i7 =>
    obtain ⟨_, _, _, e⟩ := accessed_flush (c := .isr) hown
    rw [e]; rfl
  case i5Fence =>
    obtain ⟨_, _, _, e⟩ := accessed_flush (c := .isr) hown
    rw [e]
  case i1Empty want _ _ _ | i1Taken want _ _ _ =>
    obtain ⟨_, _, _, e⟩ := accessed_settle (c := .isr) hown want
    rw [e]; rfl
  case i3Len =>
    obtain ⟨_, _, _, e⟩ := accessed_load (c := .isr) (r := .isrLen) rfl (rxSlot s 1) s
    rw [e]
  case i3Pointer =>
    obtain ⟨_, _, _, e⟩ := accessed_load (c := .isr) (r := .isrBufp) rfl (rxSlot s 2) s
    rw [e]; rfl
  case i5Clear =>
    obtain ⟨_, _, _, e⟩ := accessed_word .isr (rxSlot s 1) 0 s
    rw [e]
  case i5Rearm =>
    obtain ⟨_, _, _, e⟩ := accessed_word .isr (rxSlot s 0) (rearmWord s.i.w0) s
    rw [e]; rfl
  case i4Deliver =>
    have hlen : OwnLoads .isr ((settleReg .isr .isrLen s).pending .isr) := hown.settle (c := .isr) _
    obtain ⟨_, _, _, e⟩ : Accessed .isr s (awaitFetch s) :=
      (accessed_settle (c := .isr) hown _).trans (accessed_settle hlen _)
    rw [e]; rfl
  case i8 =>
    obtain ⟨_, _, _, e⟩ := accessed_flush (c := .isr) hown
    rw [returnInterrupt, flush_host_of_nil hhost, e]
  case idle | i1Cap | i1GoOn | i4Drop | i4Count | i6 => exact rfl

theorem takeInterrupt_frame (s : State) : HandlerFrame s (takeInterrupt s) := by
  obtain ⟨_, _, _, _, _, _, e⟩ := (accessedAny_flush .host s).trans (accessedAny_flush .isr _)
  rw [takeInterrupt, e]; exact rfl

theorem takeInterrupt_h {s : State} (hown : OwnLoads .isr s.isrBuf) (hhost : s.hostBuf = []) :
    (takeInterrupt s).h = s.h := by
  obtain ⟨_, _, _, e⟩ := accessed_flush (c := .isr) hown
  rw [takeInterrupt, flush_host_of_nil hhost, e]

/-- A micro-step that an instruction of the handler makes. -/
theorem ExecStep.of_handler_cases {i : Instr} {s t : State} (hi : isHandler i = true) (h : ExecStep i s t) :
    t = s ∨ t = takeInterrupt s ∨ IsrStep s t := by
  cases h with
  | stay => exact .inl rfl
  | op h => rw [not_handler_of_op h] at hi; cases hi
  | mdioIssue _ other => rcases other with ⟨_, _, _, rfl⟩ | ⟨_, _, _, rfl⟩ <;> cases hi
  | enter => exact .inr (.inl rfl)
  | isr _ _ h => exact .inr (.inr h)
  | busRead | busWrite | mdioRead | mdioWrite | sendPoll | send | park | fill | miss => cases hi

/-! ### The agents beside the contexts -/

theorem overrun_frame (j : RxJob) (s : State) : overrun j s = { s with
    rx := (overrun j s).rx, ndrop := (overrun j s).ndrop
    regs := { s.regs with intStatus := (overrun j s).regs.intStatus }, events := (overrun j s).events } := by
  rw [overrun_eq]
  cases j.first <;> rfl

theorem mdioRd_frame {pa ra : BitVec 5} {cr : BitVec 4} {s t : State} (h : ExecStep (.mdioRd pa ra cr) s t) :
    t = { s with regs := { s.regs with mdioCtrl := t.regs.mdioCtrl, mdioData := t.regs.mdioData } } := by
  cases h with
  | op h => rcases h.op_eq with h | h | h <;> cases h
  | enter handler => cases handler
  | isr handler => cases handler
  | stay | mdioIssue | mdioRead => rfl

theorem mdioWr_frame {pa ra : BitVec 5} {cr : BitVec 4} {s t : State} (h : ExecStep (.mdioWr pa ra cr) s t) :
    t = { s with regs := { s.regs with mdioCtrl := t.regs.mdioCtrl }, phy := t.phy, phyLog := t.phyLog } := by
  cases h with
  | op h => rcases h.op_eq with h | h | h <;> cases h
  | enter handler => cases handler
  | isr handler => cases handler
  | mdioWrite =>
    obtain ⟨phy, e, -⟩ := xferWrite_eq pa ra s
    rw [e]
  | stay | mdioIssue => rfl

theorem rxdmaFill_frame {w : Word} {s t : State} (h : ExecStep (.rxdmaFill w) s t) :
    t = { s with rx := t.rx, mem := t.mem, regs := { s.regs with intStatus := t.regs.intStatus } } := by
  cases h with
  | op h => rcases h.op_eq with h | h | h <;> cases h
  | mdioIssue _ other => rcases other with ⟨_, _, _, h⟩ | ⟨_, _, _, h⟩ <;> cases h
  | enter handler => cases handler
  | isr handler => cases handler
  | fill _ h => cases h <;> rfl
  | stay => rfl

theorem rxdmaMiss_frame {w : Word} {s t : State} (h : ExecStep (.rxdmaMiss w) s t) :
    t = { s with
      rx := t.rx, ndrop := t.ndrop, regs := { s.regs with intStatus := t.regs.intStatus }, events := t.events } := by
  cases h with
  | op h => rcases h.op_eq with h | h | h <;> cases h
  | mdioIssue _ other => rcases other with ⟨_, _, _, h⟩ | ⟨_, _, _, h⟩ <;> cases h
  | enter handler => cases handler
  | isr handler => cases handler
  | miss => exact overrun_frame _ s
  | stay => rfl

theorem txdmaSend_frame {w : Word} {s t : State} (h : ExecStep (.txdmaSend w) s t) :
    t = { s with tx := t.tx, mem := t.mem, wireOut := t.wireOut } := by
  cases h with
  | op h => rcases h.op_eq with h | h | h <;> cases h
  | mdioIssue _ other => rcases other with ⟨_, _, _, h⟩ | ⟨_, _, _, h⟩ <;> cases h
  | enter handler => cases handler
  | isr handler => cases handler
  | send _ h => cases h <;> rfl
  | stay | sendPoll => rfl

theorem txdmaPark_frame {w : Word} {s t : State} (h : ExecStep (.txdmaPark w) s t) :
    t = { s with tx := { s.tx with st := t.tx.st } } := by
  cases h with
  | op h => rcases h.op_eq with h | h | h <;> cases h
  | mdioIssue _ other => rcases other with ⟨_, _, _, h⟩ | ⟨_, _, _, h⟩ <;> cases h
  | enter handler => cases handler
  | isr handler => cases handler
  | stay | park => rfl

/-- Settles O60: the handler's labels, a register write, a transaction and each engine's phases change only what their
frames list; an ordering point fills only the registers that loads outstanding fill. -/
theorem frameOfAgentsBesideHost : Obligations.FrameOfAgentsBesideHost := by
  refine ⟨fun i s t hi h => ⟨?frame, ?own⟩, fun s t => ⟨fun r v h => regWrite_frame (by rwa [exec_regwr] at h),
    fun _ _ _ h => mdioRd_frame (.of_exec h), fun _ _ _ h => mdioWr_frame (.of_exec h),
    fun _ h => rxdmaFill_frame (.of_exec h), fun _ h => rxdmaMiss_frame (.of_exec h),
    fun _ h => txdmaSend_frame (.of_exec h), fun _ h => txdmaPark_frame (.of_exec h)⟩⟩
  case frame =>
    rcases (ExecStep.of_exec h).of_handler_cases hi with rfl | rfl | h
    · rfl
    · exact takeInterrupt_frame s
    · exact h.frame
  case own =>
    intro hs hempty
    have hown : OwnLoads .isr s.isrBuf := (ownLoads_isr_iff _).2 hs.isrLoads
    have hhost : s.hostBuf = [] := hempty.elim hs.entry id
    rcases (ExecStep.of_exec h).of_handler_cases hi with rfl | rfl | h
    · rfl
    · exact takeInterrupt_h hown hhost
    · exact h.keeps_h hown hhost

end Sys2Proof.Machine

/-! PROOFS. Runs of moves one after another, the geometry of the rings' addresses, and the whole runs of the two engines
(43_ring_ownership.md sections 3 and 4). -/

namespace Sys2Proof.Machine

/-! ### Runs -/

theorem run_succ {k : Nat} {s t : State} (h : step s = .next t) :
    Sys2Proof.core.run (k + 1) s = Sys2Proof.core.run k t := by
  have hstep : Sys2Proof.core.step s = .next t := h
  simp only [Host.Core.run, hstep]

/-- These moves, first in the list, lead from `s` to `t`, whatever moves follow. -/
def Plays (ms : List Move) (s t : State) : Prop :=
  ∀ rest, Sys2Proof.core.run ms.length (s.withMoves (ms ++ rest)) = .next (t.withMoves rest)

theorem Plays.nil (s : State) : Plays [] s s := fun _ => rfl

theorem Plays.cons {m : Move} {ms : List Move} {s u t : State}
    (h : ∀ rest, step (s.withMoves (m :: rest)) = .next (u.withMoves rest)) (h' : Plays ms u t) :
    Plays (m :: ms) s t := fun rest => (run_succ (h (ms ++ rest))).trans (h' rest)

theorem Plays.single {m : Move} {s t : State} (h : ∀ rest, step (s.withMoves (m :: rest)) = .next (t.withMoves rest)) :
    Plays [m] s t := .cons h (.nil t)

theorem Plays.append {ms ms' : List Move} {s u t : State} (h : Plays ms s u) (h' : Plays ms' u t) :
    Plays (ms ++ ms') s t := by
  intro rest
  have hrun : ∀ (k k' : Nat) (a b : State), Sys2Proof.core.run k a = .next b →
      Sys2Proof.core.run (k + k') a = Sys2Proof.core.run k' b := by
    intro k
    induction k with
    | zero => rintro k' a b ⟨⟩; rw [Nat.zero_add]
    | succ k ih =>
      intro k' a b hab
      cases hs : step a with
      | next c => rw [run_succ hs] at hab; rw [Nat.succ_add, run_succ hs]; exact ih k' c b hab
      | fault e => simp [Host.Core.run, show Sys2Proof.core.step a = .fault e from hs] at hab
      | refused e => simp [Host.Core.run, show Sys2Proof.core.step a = .refused e from hs] at hab
  rw [List.length_append, List.append_assoc, hrun _ _ _ _ (h (ms' ++ rest))]
  exact h' rest

/-- The run from a state whose list of moves begins so. -/
theorem Plays.run {ms rest : List Move} {s t : State} (h : Plays ms s t) (hm : s.moves = ms ++ rest) :
    Sys2Proof.core.run ms.length s = .next (t.withMoves rest) := by
  have e : s.withMoves (ms ++ rest) = s := by rw [← hm]; rfl
  rw [← h rest, e]

/-! ### Addresses -/

/-- Every array fits the address space (20_memory.md R94). -/
theorem admissible_fits {c : Cfg} (ha : c.admissible = true) : 16 * c.n ≤ 2 ^ c.addrW ∧ c.bufSize * c.n ≤ 2 ^ c.addrW := by
  simp only [Cfg.admissible, Cfg.arraysOk, Cfg.arrayFits, Cfg.descBytes, Cfg.bufBytes, Bool.and_eq_true,
    decide_eq_true_eq] at ha
  obtain ⟨-, ⟨⟨⟨⟨⟨⟨⟨⟨⟨-, hrxd, -⟩, -⟩, hbuf, -⟩, -⟩, -⟩, -⟩, -⟩, -⟩, -⟩, -⟩ := ha
  exact ⟨(Nat.le_add_left _ _).trans (of_decide_eq_true hrxd), (Nat.le_add_left _ _).trans (of_decide_eq_true hbuf)⟩

theorem bufSize_small {c : Cfg} (ha : c.admissible = true) : c.bufSize ≤ 16380 := by
  simp only [Cfg.admissible, Cfg.numbersOk, Bool.and_eq_true, decide_eq_true_eq] at ha
  omega

theorem bufSize_le {c : Cfg} (ha : c.admissible = true) : c.bufSize ≤ 2 ^ c.addrW :=
  (Nat.le_mul_of_pos_right _ (admissible_bounds ha).1).trans (admissible_fits ha).2

theorem addrW_big {c : Cfg} (ha : c.admissible = true) : 16 ≤ 2 ^ c.addrW :=
  (Nat.le_mul_of_pos_right 16 (admissible_bounds ha).1).trans (admissible_fits ha).1

/-- Offsets within the address space from one base name different addresses. -/
theorem addrSum_inj {c : Cfg} {base k l : Nat} (hk : k < 2 ^ c.addrW) (hl : l < 2 ^ c.addrW)
    (h : addrSum c base k = addrSum c base l) : k = l := by
  have hmod : k ≡ l [MOD 2 ^ c.addrW] := Nat.ModEq.add_left_cancel' base h
  rwa [Nat.ModEq, Nat.mod_eq_of_lt hk, Nat.mod_eq_of_lt hl] at hmod

/-- Words at offsets that are apart share no byte, wherever the base puts them. -/
theorem wordAddrs_addrSum_apart {c : Cfg} {base u v : Nat} (hu : u + 4 ≤ 2 ^ c.addrW) (hv : v + 4 ≤ 2 ^ c.addrW)
    (h : u + 4 ≤ v ∨ v + 4 ≤ u) {a : Nat} (ha : a ∈ wordAddrs (addrSum c base u)) : a ∉ wordAddrs (addrSum c base v) := by
  intro hb
  rw [mem_wordAddrs] at ha hb
  obtain ⟨p, hp⟩ := Nat.exists_eq_add_of_le ha.1
  obtain ⟨q, hq⟩ := Nat.exists_eq_add_of_le hb.1
  have hmod : base + (u + p) ≡ base + (v + q) [MOD 2 ^ c.addrW] := by
    have hl : addrSum c base u + p ≡ base + u + p [MOD 2 ^ c.addrW] := (Nat.mod_modEq _ _).add_right p
    have hr : addrSum c base v + q ≡ base + v + q [MOD 2 ^ c.addrW] := (Nat.mod_modEq _ _).add_right q
    rw [← Nat.add_assoc, ← Nat.add_assoc]
    exact hl.symm.trans ((Nat.ModEq.refl _ |>.trans (by rw [← hp, hq])).trans hr)
  have heq := Nat.ModEq.add_left_cancel' base hmod
  rw [Nat.ModEq, Nat.mod_eq_of_lt (by omega), Nat.mod_eq_of_lt (by omega)] at heq
  omega

theorem descWord_eq (c : Cfg) (base : Word) (i k : Nat) :
    descWord c base i k = addrSum c (base.toNat + 16 * i) (4 * k) := by
  simp only [descWord, addrAt, addrSum, Nat.add_assoc]

/-- The words of one descriptor share no byte, wherever its ring begins. -/
theorem descWord_apart {c : Cfg} (ha : c.admissible = true) {base : Word} {i k l : Nat} (hk : k < 4) (hl : l < 4)
    (h : k ≠ l) {a : Nat} (hm : a ∈ wordAddrs (descWord c base i k)) : a ∉ wordAddrs (descWord c base i l) := by
  have hbig := addrW_big ha
  rw [descWord_eq] at *
  exact wordAddrs_addrSum_apart (by omega) (by omega) (by omega) hm

/-! ### Reads after writes -/

theorem Memory.read_set_same (m : List Host.Cell) (a : Nat) (v : Byte) : Memory.read (Memory.set m a v) a = v := by
  rw [Memory.read, Memory.get_set_same]; rfl

theorem Memory.read_set_other (m : List Host.Cell) {a b : Nat} (v : Byte) (h : b ≠ a) :
    Memory.read (Memory.set m a v) b = Memory.read m b := by
  rw [Memory.read, Memory.get_set_other _ _ _ _ h]; rfl

theorem Memory.read_setWord_other (m : List Host.Cell) {a b : Nat} (v : Word) (h : b ∉ wordAddrs a) :
    Memory.read (Memory.setWord m a v) b = Memory.read m b := by
  rw [Memory.read, Memory.get_setWord_other _ _ _ _ h]; rfl

/-! ### RXDMA's moves -/

/-- A move of RXDMA whose poll finds the descriptor hardware-owned. -/
theorem plays_rxdma_poll {s t : State} {j : RxJob} {pick : Nat} (ha : s.cfg.admissible = true) (hjob : s.rx.job = some j)
    (hp : j.phase = .qr1) (hown : ownBit (s.wordAt (engRxd s s.rx.idx 0)) = true)
    (h : ∀ rest, exec (.rxdmaFill (s.wordAt (engRxd s s.rx.idx 0))) (({ s with choice := pick } : State).withMoves rest) =
      .next (t.withMoves rest)) : Plays [.rxdma pick] s t := by
  refine .single fun rest => ?_
  have hd : decodeRdes (s.wordAt (engRxd s s.rx.idx 0)) = .ok (.rxdmaFill (s.wordAt (engRxd s s.rx.idx 0))) := by
    rw [decodeRdes, if_pos hown]
  have e : fetchMove (.rxdma pick) (s.withMoves rest) =
      .run (.rxdmaFill (s.wordAt (engRxd s s.rx.idx 0))) (({ s with choice := pick } : State).withMoves rest) := by
    show fetchRxdma (({ s with choice := pick } : State).withMoves rest) = _
    have hw : (({ s with choice := pick } : State).withMoves rest).wordAt
        (engRxd (({ s with choice := pick } : State).withMoves rest) s.rx.idx 0) = s.wordAt (engRxd s s.rx.idx 0) := rfl
    unfold fetchRxdma
    rw [show (({ s with choice := pick } : State).withMoves rest).rx = s.rx from rfl, hjob]
    simp only [hp, if_true, hw, hd]
  rw [step_withMoves_cons ha, e]
  exact h rest

/-- A move of RXDMA inside a segment. -/
theorem plays_rxdma {s t : State} {j : RxJob} {pick : Nat} (ha : s.cfg.admissible = true) (hjob : s.rx.job = some j)
    (hp : j.phase ≠ .qr1)
    (h : ∀ rest, exec (.rxdmaFill j.w0) (({ s with choice := pick } : State).withMoves rest) = .next (t.withMoves rest)) :
    Plays [.rxdma pick] s t := by
  refine .single fun rest => ?_
  have e : fetchMove (.rxdma pick) (s.withMoves rest) =
      .run (.rxdmaFill j.w0) (({ s with choice := pick } : State).withMoves rest) := by
    show fetchRxdma (({ s with choice := pick } : State).withMoves rest) = _
    unfold fetchRxdma
    rw [show (({ s with choice := pick } : State).withMoves rest).rx = s.rx from rfl, hjob]
    simp only [hp, if_false]
  rw [step_withMoves_cons ha, e]
  exact h rest

/-- RXDMA in the midst of a segment: its job, memory and the pick of its move. -/
def rxAt (s : State) (j : RxJob) (m : List Host.Cell) (pick : Nat) : State :=
  { s with rx := { s.rx with job := some j }, mem := m, choice := pick }

/-- Where the byte at offset `k` of the segment goes. -/
def fillAddr (s : State) (j : RxJob) (k : Nat) : Nat := addrAt s.cfg j.bufp k

/-- The bytes left are stored, in whatever order the picks say. -/
theorem plays_fill_bytes {s : State} (ha : s.cfg.admissible = true) (j : RxJob) (hp : j.phase = .qr2) (hm : j.mic ≠ 0) :
    ∀ (picks todo : List Nat) (m : List Host.Cell) (pick : Nat), picks.length = todo.length → todo ≠ [] → todo.Nodup →
      (∀ k ∈ todo, ∀ l ∈ todo, fillAddr s j k = fillAddr s j l → k = l) →
      ∃ m' pick', Plays (picks.map Move.rxdma) (rxAt s { j with todo := todo } m pick)
          (rxAt s { j with todo := [], phase := .qr3, mic := 0 } m' pick') ∧
        (∀ k ∈ todo, Memory.read m' (fillAddr s j k) = j.frame.bytes.getD (j.off + k) 0) ∧
        (∀ a, (∀ k ∈ todo, a ≠ fillAddr s j k) → Memory.read m' a = Memory.read m a)
  | [], todo, _, _, hlen, hne, _, _ => absurd (List.length_eq_zero_iff.1 hlen.symm) hne
  | p :: picks, todo, m, pick, hlen, hne, hnodup, hinj => by
    let k := pickOf { s with choice := p } todo
    have hk : k ∈ todo := pickOf_mem hne
    let m1 := Memory.set m (fillAddr s j k) (j.frame.bytes.getD (j.off + k) 0)
    have hstep : ∀ j', ({ j with todo := todo } : RxJob).stored k = j' →
        Plays [.rxdma p] (rxAt s { j with todo := todo } m pick) (rxAt s j' m1 p) := by
      rintro j' rfl
      refine plays_rxdma ha rfl (by simp [hp]) fun rest => ?_
      rw [exec_fill_data (j := { j with todo := todo }) rfl hp, fillData_byte (j := { j with todo := todo }) hm hne]
      rfl
    have hread : Memory.read m1 (fillAddr s j k) = j.frame.bytes.getD (j.off + k) 0 := Memory.read_set_same ..
    have hother : ∀ a, a ≠ fillAddr s j k → Memory.read m1 a = Memory.read m a := fun a h => Memory.read_set_other _ _ h
    have herase : (todo.erase k).length + 1 = todo.length := by
      rw [List.length_erase_of_mem hk]; have := List.length_pos_of_mem hk; omega
    by_cases hrest : todo.erase k = []
    · have hpicks : picks = [] := by
        rw [hrest] at herase
        exact List.length_eq_zero_iff.1 (by simp at hlen herase; omega)
      subst hpicks
      have honly : ∀ l ∈ todo, l = k := fun l hl => by
        by_contra hne'
        have := (List.mem_erase_of_ne hne').2 hl
        rw [hrest] at this; cases this
      refine ⟨m1, p, hstep _ ?_, fun l hl => ?_, fun a h => hother a (h k hk)⟩
      · simp [RxJob.stored, hrest]
      · rw [honly l hl]; exact hread
    · obtain ⟨m', pick', hplay, hstored, hframe⟩ := plays_fill_bytes ha j hp hm picks (todo.erase k) m1 p
        (by simp at hlen; omega) hrest (hnodup.erase k)
        (fun a ha' b hb' => hinj a (List.mem_of_mem_erase ha') b (List.mem_of_mem_erase hb'))
      have hfirst := hstep { j with todo := todo.erase k } (by simp [RxJob.stored, hrest])
      refine ⟨m', pick', Plays.append hfirst hplay, fun l hl => ?_, fun a h => ?_⟩
      · by_cases e : l = k
        · subst e
          rw [hframe _ fun l' hl' e' => ?_]
          · exact hread
          · have := hinj k hk l' (List.mem_of_mem_erase hl') e'
            subst this
            exact (hnodup.not_mem_erase) hl'
        · exact hstored l ((List.mem_erase_of_ne e).2 hl)
      · rw [hframe a fun l hl => h l (List.mem_of_mem_erase hl)]
        exact hother a (h k hk)

/-- A list of moves of one engine: two, one for each byte, and two or more at the end. -/
theorem exists_picks {picks : List Nat} {n k : Nat} (h : picks.length = k + n) :
    ∃ first rest : List Nat, picks = first ++ rest ∧ first.length = k ∧ rest.length = n :=
  ⟨picks.take k, picks.drop k, (List.take_append_drop k picks).symm, by simp [h], by simp [h]⟩

/-- The job in the midst of its segment: word 0 latched and the buffer pointer read. -/
def RxJob.latched (s : State) (j : RxJob) : RxJob :=
  { j with phase := .qr2, mic := 1, w0 := s.wordAt (engRxd s s.rx.idx 0), bufp := s.wordAt (engRxd s s.rx.idx 2) }

theorem plays_fill_start {s : State} {j : RxJob} (ha : s.cfg.admissible = true) (hjob : s.rx.job = some j)
    (hp : j.phase = .qr1) (hown : hwOwns s (engRxd s s.rx.idx 0) = true) (p q : Nat) :
    Plays [.rxdma p, .rxdma q] s (rxAt s { j.latched s with todo := List.range (segLen s j) } s.mem q) := by
  have hpoll : Plays [.rxdma p] s
      (rxAt s { j with phase := .qr2, mic := 0, w0 := s.wordAt (engRxd s s.rx.idx 0) } s.mem p) :=
    plays_rxdma_poll ha hjob hp hown fun rest =>
      exec_fill_poll (s := ({ s with choice := p } : State).withMoves rest) hjob hp _
  refine hpoll.append (plays_rxdma ha rfl nofun fun rest => ?_)
  rw [exec_fill_data (j := { j with phase := .qr2, mic := 0, w0 := s.wordAt (engRxd s s.rx.idx 0) }) rfl rfl,
    fillData_pointer rfl]
  rfl

/-- The length and the hand-over of a segment whose bytes are stored. -/
theorem plays_fill_finish {s : State} {j : RxJob} (ha : s.cfg.admissible = true) (m : List Host.Cell) (pick p q : Nat)
    (hp : j.phase = .qr3) (hown : ∀ a ∈ wordAddrs (engRxd s s.rx.idx 0), Memory.read m a = s.byteAt a)
    (hhw : hwOwns s (engRxd s s.rx.idx 0) = true) (hwrap : wrapBit j.w0 = decide (s.rx.idx + 1 = s.cfg.n)) :
    Plays [.rxdma p, .rxdma q] (rxAt s j m pick)
      { s with
        mem := Memory.setWord (Memory.setWord m (engRxd s s.rx.idx 1) (BitVec.ofNat 32 (segLen s j)))
          (engRxd s s.rx.idx 0) (segWord s j)
        rx := { s.rx with
          idx := if wrapBit j.w0 then 0 else s.rx.idx + 1
          job := some (({ j with phase := .qr4, mic := 0 } : RxJob).published s) }
        choice := q } := by
  have hlen : Plays [.rxdma p] (rxAt s j m pick) (rxAt s { j with phase := .qr4, mic := 0 }
      (Memory.setWord m (engRxd s s.rx.idx 1) (BitVec.ofNat 32 (segLen s j))) p) := by
    refine plays_rxdma ha rfl (by simp [hp]) fun rest => ?_
    rw [exec_fill_length (j := j) rfl hp]
    rfl
  refine hlen.append (plays_rxdma ha rfl nofun fun rest => ?_)
  have hown' : hwOwns (({ rxAt s { j with phase := .qr4, mic := 0 }
      (Memory.setWord m (engRxd s s.rx.idx 1) (BitVec.ofNat 32 (segLen s j))) p with choice := q } : State).withMoves rest)
      (engRxd s s.rx.idx 0) = true := by
    rw [← hhw, hwOwns, hwOwns]
    refine congrArg ownBit (State.wordAt_congr_byteAt fun a hmem => ?_)
    exact (Memory.read_setWord_other _ _ (descWord_apart ha (by omega) (by omega) (by omega) hmem)).trans (hown a hmem)
  rw [exec_fill_publish (j := { j with phase := .qr4, mic := 0 }) rfl rfl rfl,
    fillPublish_eq (j := { j with phase := .qr4, mic := 0 }) hown' hwrap]
  rfl

/-- Settles O53: the bytes are stored one by one, each to an address of its own; then the length and word 0, which share
no byte with the buffer. -/
theorem rxFillStoresTheWholeSegment : Obligations.RxFillStoresTheWholeSegment := by
  intro s j picks ms ha hjob hp hoff hhw hwrap hclear hlen hmoves
  have hpos : segLen s j ≠ 0 := by
    have := bufSize_pos ha
    simp only [segLen]; omega
  have hbound : segLen s j ≤ 2 ^ s.cfg.addrW := (Nat.min_le_left _ _).trans (bufSize_le ha)
  obtain ⟨first, rest, rfl, hfirst, hrest⟩ := exists_picks (show picks.length = 2 + (segLen s j + 2) by omega)
  obtain ⟨bytes, last, rfl, hbytes, hlast⟩ := exists_picks hrest
  obtain ⟨p, q, rfl⟩ := List.length_eq_two.1 hfirst
  obtain ⟨p', q', rfl⟩ := List.length_eq_two.1 hlast
  obtain ⟨m, pick, hplay, hstored, hframe⟩ := plays_fill_bytes ha (j.latched s) rfl (by simp [RxJob.latched]) bytes
    (List.range (segLen s j)) s.mem q (by simpa using hbytes) (by simpa using hpos) List.nodup_range
    (fun k hk l hl h => addrSum_inj ((List.mem_range.1 hk).trans_le hbound) ((List.mem_range.1 hl).trans_le hbound) h)
  have hkept : ∀ w, w < 3 → ∀ a ∈ wordAddrs (engRxd s s.rx.idx w), Memory.read m a = s.byteAt a := fun w hw a hmem =>
    hframe a fun k hk e => hclear k (List.mem_range.1 hk) w hw (by rw [e] at hmem; exact hmem)
  have hfinish := plays_fill_finish (j := { j.latched s with todo := [], phase := .qr3, mic := 0 }) ha m pick p' q' rfl
    (hkept 0 (by omega)) hhw hwrap
  have hrun := (((plays_fill_start ha hjob hp hhw p q).append hplay).append hfinish).run (rest := ms)
    (by rw [hmoves]; simp)
  have hcount : ([Move.rxdma p, Move.rxdma q] ++ bytes.map Move.rxdma ++ [Move.rxdma p', Move.rxdma q']).length =
      segLen s j + 4 := by simp [hbytes]
  rw [hcount] at hrun
  refine ⟨_, hrun, fun k hk => ?bytes, ?len, State.wordAt_of_setWord rfl, fun a h0 h1 hb => ?frame, rfl, rfl⟩
  case bytes =>
    have hnot : ∀ w, w < 3 → fillAddr s (j.latched s) k ∉ wordAddrs (engRxd s s.rx.idx w) := hclear k hk
    have hread := hstored k (List.mem_range.2 hk)
    have hin : j.off + k < j.frame.bytes.length := by simp only [segLen] at hk; omega
    have e : Memory.read (Memory.setWord (Memory.setWord m (engRxd s s.rx.idx 1) (BitVec.ofNat 32 (segLen s j)))
        (engRxd s s.rx.idx 0) (segWord s { j.latched s with todo := [], phase := .qr3, mic := 0 }))
        (fillAddr s (j.latched s) k) = j.frame.bytes.getD (j.off + k) 0 := by
      rw [Memory.read_setWord_other _ _ (hnot 0 (by omega)), Memory.read_setWord_other _ _ (hnot 1 (by omega))]
      exact hread
    rw [List.getElem?_eq_getElem hin, ← List.getD_eq_getElem _ 0 hin, ← e]
    rfl
  case len =>
    have e : ∀ t : State, t.mem = Memory.setWord (Memory.setWord m (engRxd s s.rx.idx 1) (BitVec.ofNat 32 (segLen s j)))
        (engRxd s s.rx.idx 0) (segWord s { j.latched s with todo := [], phase := .qr3, mic := 0 }) →
        t.wordAt (engRxd s s.rx.idx 1) = BitVec.ofNat 32 (segLen s j) := fun t ht => by
      rw [← State.wordAt_of_setWord (s := { s with mem := Memory.setWord m (engRxd s s.rx.idx 1) (BitVec.ofNat 32 (segLen s j)) })
        (a := engRxd s s.rx.idx 1) rfl]
      refine State.wordAt_congr_byteAt fun a hmem => ?_
      rw [State.byteAt, ht]
      exact Memory.read_setWord_other _ _ (descWord_apart ha (by omega) (by omega) (by omega) hmem)
    rw [e _ rfl, BitVec.toNat_ofNat, Nat.mod_eq_of_lt]
    have hle : segLen s j ≤ s.cfg.bufSize := Nat.min_le_left _ _
    have := bufSize_small ha
    omega
  case frame =>
    refine (Memory.read_setWord_other _ _ h0).trans ((Memory.read_setWord_other _ _ h1).trans ?_)
    exact hframe a fun k hk => hb k (List.mem_range.1 hk)

end Sys2Proof.Machine

/-! PROOFS. A whole transmission of TXDMA (43_ring_ownership.md R254 to R259). -/

namespace Sys2Proof.Machine

/-- A move of TXDMA whose poll finds a whole frame in a hardware-owned descriptor. -/
theorem plays_txdma_poll {s : State} {pick : Nat} (ha : s.cfg.admissible = true) (hst : s.tx.st = .running)
    (hjob : s.tx.job = none) (hown : ownBit (s.wordAt (engTxd s s.tx.idx 0)) = true)
    (hfs : fsBit (s.wordAt (engTxd s s.tx.idx 0)) = true) (hls : lsBit (s.wordAt (engTxd s s.tx.idx 0)) = true) :
    Plays [.txdma pick] s (setTxJob (newTxJob (s.wordAt (engTxd s s.tx.idx 0))) { s with choice := pick }) := by
  refine .single fun rest => ?_
  have hd : decodeTdes (s.wordAt (engTxd s s.tx.idx 0)) = .ok (.txdmaSend (s.wordAt (engTxd s s.tx.idx 0))) := by
    simp [decodeTdes, hown, hfs, hls]
  let u := ({ s with choice := pick } : State).withMoves rest
  have hpoll : txMayPoll u = true := (txMayPoll_iff u).2 ⟨hst, hjob⟩
  have e : fetchMove (.txdma pick) (s.withMoves rest) = .run (.txdmaSend (s.wordAt (engTxd s s.tx.idx 0))) u := by
    show fetchTxdma u = _
    have hu : u.tx.job = none := hjob
    have hw : u.wordAt (engTxd u u.tx.idx 0) = s.wordAt (engTxd s s.tx.idx 0) := rfl
    simp only [fetchTxdma, hu, hpoll, hw, hd, if_true]
  rw [step_withMoves_cons ha, e]
  exact exec_send_poll (s := u) hst hjob _

/-- A move of TXDMA inside a transmission. -/
theorem plays_txdma {s t : State} {j : TxJob} {pick : Nat} (ha : s.cfg.admissible = true) (hjob : s.tx.job = some j)
    (h : ∀ rest, exec (.txdmaSend j.w0) (({ s with choice := pick } : State).withMoves rest) = .next (t.withMoves rest)) :
    Plays [.txdma pick] s t := by
  refine .single fun rest => ?_
  let u := ({ s with choice := pick } : State).withMoves rest
  have e : fetchMove (.txdma pick) (s.withMoves rest) = .run (.txdmaSend j.w0) u := by
    show fetchTxdma u = _
    have hu : u.tx.job = some j := hjob
    simp only [fetchTxdma, hu]
  rw [step_withMoves_cons ha, e]
  exact h rest

/-- TXDMA in the midst of a transmission: its job and the pick of its move. -/
def txAt (s : State) (j : TxJob) (pick : Nat) : State :=
  { s with tx := { s.tx with job := some j }, choice := pick }

/-- The byte at offset `k` of the frame being fetched. -/
def fetchByte (s : State) (j : TxJob) (k : Nat) : Byte := s.byteAt (addrAt s.cfg j.bufp k)

/-- The bytes left are fetched, in whatever order the picks say. -/
theorem plays_send_bytes {s : State} (ha : s.cfg.admissible = true) (j : TxJob) (hp : j.phase = .qt1) (hm : 2 ≤ j.mic) :
    ∀ (picks todo : List Nat) (data : List Byte) (pick : Nat), picks.length = todo.length → todo ≠ [] → todo.Nodup →
      ∃ data' pick', Plays (picks.map Move.txdma) (txAt s { j with data := data, todo := todo } pick)
          (txAt s { j with data := data', todo := [], phase := .qt2 } pick') ∧
        data'.length = data.length ∧
        (∀ k ∈ todo, k < data.length → data'[k]? = some (fetchByte s j k)) ∧
        (∀ k, k ∉ todo → data'[k]? = data[k]?)
  | [], todo, _, _, hlen, hne, _ => absurd (List.length_eq_zero_iff.1 hlen.symm) hne
  | p :: picks, todo, data, pick, hlen, hne, hnodup => by
    let k := pickOf { s with choice := p } todo
    have hk : k ∈ todo := pickOf_mem hne
    let data1 := data.set k (fetchByte s j k)
    have hstep : ∀ ph, ph = (if (todo.erase k).isEmpty then TxPhase.qt2 else .qt1) →
        Plays [.txdma p] (txAt s { j with data := data, todo := todo } pick)
          (txAt s { j with data := data1, todo := todo.erase k, phase := ph } p) := by
      rintro ph rfl
      refine plays_txdma ha rfl fun rest => ?_
      rw [exec_send_fetch (j := { j with data := data, todo := todo }) rfl hp,
        sendFetch_byte (j := { j with data := data, todo := todo }) hm hne]
      rfl
    have hread : k < data.length → data1[k]? = some (fetchByte s j k) := fun h => by simp [data1, h]
    have hother : ∀ l, l ≠ k → data1[l]? = data[l]? := fun l h => by simp [data1, Ne.symm h]
    have herase : (todo.erase k).length + 1 = todo.length := by
      rw [List.length_erase_of_mem hk]; have := List.length_pos_of_mem hk; omega
    by_cases hrest : todo.erase k = []
    · have hpicks : picks = [] := by
        rw [hrest] at herase
        exact List.length_eq_zero_iff.1 (by simp at hlen herase; omega)
      subst hpicks
      have honly : ∀ l ∈ todo, l = k := fun l hl => by
        by_contra hne'
        have := (List.mem_erase_of_ne hne').2 hl
        rw [hrest] at this; cases this
      have hlast := hstep .qt2 (by simp [hrest])
      rw [hrest] at hlast
      refine ⟨data1, p, hlast, by simp [data1], fun l hl h => ?_, fun l hl => hother l ?_⟩
      · rw [honly l hl] at h ⊢; exact hread h
      · rintro rfl; exact hl hk
    · obtain ⟨data', pick', hplay, hdata, hfetched, hframe⟩ := plays_send_bytes ha j hp hm picks (todo.erase k) data1 p
        (by simp at hlen; omega) hrest (hnodup.erase k)
      have hfirst := hstep j.phase (by simp [hrest, hp])
      have hlen1 : data1.length = data.length := by simp [data1]
      refine ⟨data', pick', Plays.append hfirst hplay, hdata.trans hlen1, fun l hl h => ?_, fun l hl => ?_⟩
      · by_cases e : l = k
        · subst e
          rw [hframe _ hnodup.not_mem_erase]; exact hread h
        · exact hfetched l ((List.mem_erase_of_ne e).2 hl) (by rwa [hlen1])
      · rw [hframe l fun h => hl (List.mem_of_mem_erase h), hother l]
        rintro rfl; exact hl hk

theorem exec_send_len {s : State} {j : TxJob} (hjob : s.tx.job = some j) (hp : j.phase = .qt1) (hm : j.mic = 0)
    (hfits : txLen s ≤ s.cfg.bufSize) (w0 : Word) :
    exec (.txdmaSend w0) s = .next (setTxJob { j with len := txLen s, mic := 1 } s) := by
  rw [exec_send_fetch hjob hp, sendFetch_len hm hfits]

/-- The job once the length and the buffer pointer are read. -/
def sendJob (s : State) (w0 : Word) : TxJob :=
  { w0 := w0, len := txLen s, bufp := s.wordAt (engTxd s s.tx.idx 2), data := List.replicate (txLen s) 0
    todo := List.range (txLen s), phase := if txLen s = 0 then .qt2 else .qt1, mic := 2 }

theorem plays_send_start {s : State} (ha : s.cfg.admissible = true) (hst : s.tx.st = .running)
    (hjob : s.tx.job = none) (hown : ownBit (s.wordAt (engTxd s s.tx.idx 0)) = true)
    (hfs : fsBit (s.wordAt (engTxd s s.tx.idx 0)) = true) (hls : lsBit (s.wordAt (engTxd s s.tx.idx 0)) = true)
    (hfits : txLen s ≤ s.cfg.bufSize) (p q r : Nat) :
    Plays [.txdma p, .txdma q, .txdma r] s (txAt s (sendJob s (s.wordAt (engTxd s s.tx.idx 0))) r) := by
  have hpoll := plays_txdma_poll (pick := p) ha hst hjob hown hfs hls
  have hlen : Plays [.txdma q] (setTxJob (newTxJob (s.wordAt (engTxd s s.tx.idx 0))) { s with choice := p })
      (txAt s { newTxJob (s.wordAt (engTxd s s.tx.idx 0)) with len := txLen s, mic := 1 } q) :=
    plays_txdma ha rfl fun rest => exec_send_len (s := (({ setTxJob (newTxJob (s.wordAt (engTxd s s.tx.idx 0)))
      { s with choice := p } with choice := q } : State).withMoves rest)) rfl rfl rfl hfits _
  refine (hpoll.append hlen).append (plays_txdma ha rfl fun rest => ?_)
  rw [exec_send_fetch (j := { newTxJob _ with len := txLen s, mic := 1 }) rfl rfl, sendFetch_pointer rfl]
  rfl

/-- The whole frame is fetched. -/
theorem plays_send_frame {s : State} (ha : s.cfg.admissible = true) (w0 : Word) (picks : List Nat) (pick : Nat)
    (hlen : picks.length = txLen s) : ∃ pick', Plays (picks.map Move.txdma) (txAt s (sendJob s w0) pick)
      (txAt s { sendJob s w0 with
        data := s.bytesAt (s.wordAt (engTxd s s.tx.idx 2)) (txLen s), todo := [], phase := .qt2 } pick') := by
  by_cases h0 : txLen s = 0
  · have hpicks : picks = [] := List.length_eq_zero_iff.1 (hlen.trans h0)
    subst hpicks
    refine ⟨pick, ?_⟩
    have e : sendJob s w0 = { sendJob s w0 with
        data := s.bytesAt (s.wordAt (engTxd s s.tx.idx 2)) (txLen s), todo := [], phase := .qt2 } := by
      simp [sendJob, h0, State.bytesAt]
    rw [← e]
    exact .nil _
  · obtain ⟨data, pick', hplay, hdata, hfetched, -⟩ := plays_send_bytes ha { sendJob s w0 with phase := .qt1 } rfl
      (Nat.le_refl 2) picks (List.range (txLen s)) (List.replicate (txLen s) 0) pick (by simpa using hlen)
      (by simpa using h0) List.nodup_range
    have hbytes : data = s.bytesAt (s.wordAt (engTxd s s.tx.idx 2)) (txLen s) := by
      refine List.ext_getElem? fun k => ?_
      by_cases hk : k < txLen s
      · rw [hfetched k (List.mem_range.2 hk) (by simpa using hk)]
        simp [State.bytesAt, hk, fetchByte, sendJob]
      · have hl : data.length ≤ k := by rw [hdata, List.length_replicate]; omega
        rw [List.getElem?_eq_none hl, List.getElem?_eq_none (by simp [State.bytesAt]; omega)]
    subst hbytes
    refine ⟨pick', ?_⟩
    have e : sendJob s w0 = { sendJob s w0 with phase := .qt1 } := by simp [sendJob, h0]
    rw [e]
    exact hplay

theorem exec_send_release_eq {s : State} {j : TxJob} (hjob : s.tx.job = some j) (hp : j.phase = .qt3)
    (hst : s.tx.st = .running) (hown : hwOwns s (engTxd s s.tx.idx 0) = true)
    (hwrap : wrapBit j.w0 = decide (s.tx.idx + 1 = s.cfg.n)) (w0 : Word) : exec (.txdmaSend w0) s = .next
      { s with
        mem := Memory.setWord s.mem (engTxd s s.tx.idx 0) (releaseWord j.w0)
        tx := ⟨if txenBit s.regs.ctrl then .running else .stopped, if wrapBit j.w0 then 0 else s.tx.idx + 1, none⟩ } := by
  rw [exec_send_release hjob hp, sendRelease_eq hown hwrap, hst]

/-- The emission and the release. -/
theorem plays_send_finish {s : State} {j : TxJob} (ha : s.cfg.admissible = true) (hp : j.phase = .qt2)
    (hst : s.tx.st = .running) (hhw : hwOwns s (engTxd s s.tx.idx 0) = true)
    (hwrap : wrapBit j.w0 = decide (s.tx.idx + 1 = s.cfg.n)) (pick p q : Nat) :
    Plays [.txdma p, .txdma q] (txAt s j pick)
      { s with
        wireOut := if j.len = 0 then s.wireOut else s.wireOut ++ [⟨j.data, acBit j.w0⟩]
        mem := Memory.setWord s.mem (engTxd s s.tx.idx 0) (releaseWord j.w0)
        tx := ⟨if txenBit s.regs.ctrl then .running else .stopped, if wrapBit j.w0 then 0 else s.tx.idx + 1, none⟩
        choice := q } := by
  have hemit : Plays [.txdma p] (txAt s j pick) (txAt
      { s with wireOut := if j.len = 0 then s.wireOut else s.wireOut ++ [⟨j.data, acBit j.w0⟩] }
      { j with phase := .qt3 } p) := by
    refine plays_txdma ha rfl fun rest => ?_
    rw [exec_send_emit (j := j) rfl hp, sendEmit_eq]
    rfl
  exact hemit.append (plays_txdma ha rfl fun rest => exec_send_release_eq (s := (({ txAt
    { s with wireOut := if j.len = 0 then s.wireOut else s.wireOut ++ [⟨j.data, acBit j.w0⟩] }
    { j with phase := .qt3 } p with choice := q } : State).withMoves rest)) rfl rfl hst hhw hwrap _)

/-- Settles O56: the bytes are fetched one by one from memory that does not change meanwhile. -/
theorem txSendEmitsTheFrame : Obligations.TxSendEmitsTheFrame := by
  rintro s _ _ picks ms ha hst hjob rfl hown hfs hls hwrap rfl hfits hlen hmoves
  obtain ⟨first, rest, rfl, hfirst, hrest⟩ := exists_picks (show picks.length = 3 + (txLen s + 2) by rw [hlen, txLen]; omega)
  obtain ⟨bytes, last, rfl, hbytes, hlast⟩ := exists_picks hrest
  obtain ⟨p, q, r, rfl⟩ := List.length_eq_three.1 hfirst
  obtain ⟨p', q', rfl⟩ := List.length_eq_two.1 hlast
  obtain ⟨pick, hplay⟩ := plays_send_frame ha (s.wordAt (engTxd s s.tx.idx 0)) bytes r hbytes
  have hfinish := plays_send_finish
    (j := { sendJob s (s.wordAt (engTxd s s.tx.idx 0)) with
      data := s.bytesAt (s.wordAt (engTxd s s.tx.idx 2)) (txLen s), todo := [], phase := .qt2 })
    ha rfl hst hown hwrap pick p' q'
  have hrun := (((plays_send_start ha hst hjob hown hfs hls hfits p q r).append hplay).append hfinish).run (rest := ms)
    (by rw [hmoves]; simp)
  have hcount : ([Move.txdma p, Move.txdma q, Move.txdma r] ++ bytes.map Move.txdma ++
      [Move.txdma p', Move.txdma q']).length = txLen s + 5 := by simp [hbytes]
  rw [hcount] at hrun
  refine ⟨_, hrun, ?wire, State.wordAt_of_setWord rfl, fun a h => byteAt_setWord h _ rfl, rfl, rfl, rfl, rfl⟩
  show (if txLen s = 0 then _ else _) = s.wireOut ++ (if txLen s = 0 then _ else _)
  split
  · exact (List.append_nil _).symm
  · rfl

end Sys2Proof.Machine

/-! PROOFS. The two MDIO procedures as whole runs, and the waits that time out (42_mdio_phy_bridge.md R201 to R212). -/

namespace Sys2Proof.Machine

/-! ### HOST's moves -/

/-- HOST is inside an operation, not held, with no access outstanding. -/
structure Running (op : Instr) (s : State) : Prop where
  admissible : s.cfg.admissible = true
  inside : opOf s.hpc = some op
  run : s.inIsr = false
  quiet : s.hostBuf = []

/-- A move of HOST inside an operation. -/
theorem plays_host {op : Instr} {s t : State} (ha : s.cfg.admissible = true) (hop : opOf s.hpc = some op)
    (h : ∀ rest, exec op (s.withMoves rest) = .next (t.withMoves rest)) : Plays [.host] s t :=
  .single fun rest => by
    rw [step_withMoves_cons ha, fetchMove_host (s := s.withMoves rest) hop]
    exact h rest

/-- A move of HOST inside a sub-procedure. -/
theorem plays_sub {op : Instr} {s t : State} (ha : s.cfg.admissible = true) (hin : hostIn op s.hsub s)
    (hsub : s.hsub ≠ .off) (h : ∀ rest, subStep (s.withMoves rest) = .next (t.withMoves rest)) : Plays [.host] s t :=
  plays_host ha hin.1 fun rest => (exec_in_sub (s := s.withMoves rest) hin hsub).trans (h rest)

/-- One pass of a wait that finds the controller free. -/
theorem plays_wait_free {op : Instr} {s : State} {d : SubLabel} (ha : s.cfg.admissible = true) (hin : hostIn op s.hsub s)
    (wait : afterPoll s.hsub = some d) (hfree : busyBit s.regs.mdioCtrl = false) : Plays [.host] s
      { flush .host s with hsub := d, h := { (flush .host s).h with c := s.regs.mdioCtrl } } := by
  refine plays_sub ha hin (isPoll_of_afterPoll wait).2.2.1 fun rest => ?_
  rw [subStep_poll (s := s.withMoves rest) wait, mdioPoll_of_free (s := s.withMoves rest) hfree, flush_withMoves]
  rfl

/-- The same with nothing outstanding. -/
theorem Running.wait_free {op : Instr} {s : State} {d : SubLabel} (r : Running op s)
    (wait : afterPoll s.hsub = some d) (hfree : busyBit s.regs.mdioCtrl = false) : Plays [.host] s
      { s with hsub := d, h := { s.h with c := s.regs.mdioCtrl } } := by
  have h := plays_wait_free r.admissible ⟨r.inside, rfl, r.run⟩ wait hfree
  rwa [flush_host_of_nil r.quiet] at h

/-- Polls of a busy controller, within the budget. -/
theorem Running.polls {op : Instr} {d : SubLabel} : ∀ (p : Nat) {s : State}, Running op s → afterPoll s.hsub = some d →
    busyBit s.regs.mdioCtrl = true → s.h.polls + p < s.cfg.mdioBudget →
    ∃ c k kWraps, Plays (List.replicate p .host) s { s with h := { s.h with c := c, k := k, kWraps := kWraps } }
  | 0, s, _, _, _, _ => ⟨s.h.c, s.h.k, s.h.kWraps, .nil s⟩
  | p + 1, s, r, wait, hbusy, hlt => by
    let t : State := { s with h := { s.h.onePoll with c := s.regs.mdioCtrl } }
    have hstep : Plays [.host] s t := by
      refine plays_sub r.admissible ⟨r.inside, rfl, r.run⟩ (isPoll_of_afterPoll wait).2.2.1 fun rest => ?_
      rw [subStep_poll (s := s.withMoves rest) wait,
        mdioPoll_of_busy (s := s.withMoves rest) hbusy (Nat.ne_of_lt (show s.h.polls + 1 < s.cfg.mdioBudget by omega)),
        flush_host_of_nil (s := s.withMoves rest) r.quiet]
      rfl
    have hpolls : t.h.polls = s.h.polls + 1 := polls_onePoll s.h
    obtain ⟨c, k, kWraps, h⟩ := Running.polls p (s := t) ⟨r.admissible, r.inside, r.run, r.quiet⟩ wait hbusy (by
      rw [hpolls, show t.cfg = s.cfg from rfl]; omega)
    exact ⟨c, k, kWraps, hstep.append h⟩

/-- The control word goes out. -/
theorem Running.issue {op : Instr} {s : State} {wr : Bool} {d : SubLabel} (r : Running op s)
    (word : issuedAt s.hsub = some (wr, d)) (hfree : busyBit s.regs.mdioCtrl = false) : Plays [.host] s
      { s with
        regs := { s.regs with mdioCtrl := mdioWord s.cfg.phyAddr (mdioReg s) (crField s.h.c) wr }
        hsub := d, h := s.h.noPolls } := by
  refine plays_sub r.admissible ⟨r.inside, rfl, r.run⟩ (not_off_of_issuedAt word).1 fun rest => ?_
  rw [subStep_issue (s := s.withMoves rest) word, mdioIssue_of_free (s := s.withMoves rest) hfree,
    flush_host_of_nil (s := s.withMoves rest) r.quiet]
  rfl

/-- The controller's move while a transaction is in flight. -/
theorem plays_mdioc {s t : State} {i : Instr} (ha : s.cfg.admissible = true) (hd : decodeMdioc s.regs.mdioCtrl = .ok i)
    (h : ∀ rest, exec i (s.withMoves rest) = .next (t.withMoves rest)) : Plays [.mdioc] s t :=
  .single fun rest => by
    rw [step_withMoves_cons ha, fetchMove_mdioc (s := s.withMoves rest) hd]
    exact h rest

theorem plays_mdioc_read {s : State} {pa ra : BitVec 5} {cr : BitVec 4} (ha : s.cfg.admissible = true)
    (hw : s.regs.mdioCtrl = mdioWord pa ra cr false) : Plays [.mdioc] s (xferRead pa ra s) := by
  have hd : decodeMdioc s.regs.mdioCtrl = .ok (.mdioRd pa ra cr) := by rw [hw, decodeMdioc_mdioWord]; rfl
  refine plays_mdioc ha hd fun rest => ?_
  rw [exec_mdioRd]
  exact mdioTransaction_of_inFlight (s := s.withMoves rest) (by rw [show (s.withMoves rest).regs = s.regs from rfl, hw]; simp)
    hd _ _

theorem phyWrite_withMoves (pa ra : BitVec 5) (v : Half) (s : State) (rest : List Move) :
    phyWrite pa ra v (s.withMoves rest) = (phyWrite pa ra v s).withMoves rest := by
  cases hk : s.cfg.phyKind with
  | anyPhy => rw [phyWrite_of_anyPhy (s := s.withMoves rest) hk, phyWrite_of_anyPhy hk]; rfl
  | mockPhy => rw [phyWrite_of_mockPhy (s := s.withMoves rest) hk, phyWrite_of_mockPhy hk]; rfl

theorem plays_mdioc_write {s : State} {pa ra : BitVec 5} {cr : BitVec 4} (ha : s.cfg.admissible = true)
    (hw : s.regs.mdioCtrl = mdioWord pa ra cr true) : Plays [.mdioc] s (xferWrite pa ra s) := by
  have hd : decodeMdioc s.regs.mdioCtrl = .ok (.mdioWr pa ra cr) := by rw [hw, decodeMdioc_mdioWord]; rfl
  refine plays_mdioc ha hd fun rest => ?_
  rw [exec_mdioWr, mdioTransaction_of_inFlight (s := s.withMoves rest)
    (by rw [show (s.withMoves rest).regs = s.regs from rfl, hw]; simp) hd]
  simp only [xferWrite, show (s.withMoves rest).regs = s.regs from rfl, phyWrite_withMoves]
  rfl

/-! ### The whole transfers -/

/-- MDIO_CTRL after a transaction: BUSY cleared, the other fields as presented (R212). -/
def doneWord (s : State) (wr : Bool) : Word :=
  mdioWord s.cfg.phyAddr (mdioReg s) (crField s.regs.mdioCtrl) wr &&& 0xFFFFFFFE

theorem busyBit_doneWord (s : State) (wr : Bool) : busyBit (doneWord s wr) = false := by
  simp [doneWord, busyBit]

theorem crField_and_of_busy_cleared (w : Word) : crField (w &&& 0xFFFFFFFE) = crField w := by
  apply BitVec.eq_of_getLsbD_eq
  intro n hn
  have hmask : (0xFFFFFFFE : Word).getLsbD (4 + n) = true := by interval_cases n <;> decide
  simp only [crField, BitVec.getLsbD_extractLsb', BitVec.getLsbD_and, hmask, Bool.and_true]

theorem crField_doneWord (s : State) (wr : Bool) : crField (doneWord s wr) = crField s.regs.mdioCtrl := by
  rw [doneWord, crField_and_of_busy_cleared, crField_mdioWord]

theorem extract_setWidth_half (v : Half) : (v.setWidth 32 : Word).extractLsb' 0 16 = v := by
  apply BitVec.eq_of_toNat_eq
  simpa [BitVec.extractLsb'_toNat] using v.isLt

/-- The datum is fetched (R205). -/
theorem Running.fetch {op : Instr} {s : State} (r : Running op s) (hsub : s.hsub = .mr3) {v : Half}
    (hv : s.regs.mdioData = v.setWidth 32) : Plays [.host] s
      { s with hsub := .off, h := { s.h with v := v, ok := true } } := by
  refine plays_sub r.admissible ⟨r.inside, rfl, r.run⟩ (by rw [hsub]; nofun) fun rest => ?_
  have e : subStep (s.withMoves rest) = .next (mdioFetch (s.withMoves rest)) := by
    simp only [subStep, show (s.withMoves rest).hsub = .mr3 from hsub]
  rw [e, mdioFetch_eq, flush_host_of_nil (s := s.withMoves rest) r.quiet, show (s.withMoves rest).regs = s.regs from rfl,
    hv, extract_setWidth_half]
  rfl

/-- From step MR1 on: the control word, the polls, the transaction, the datum (R203 to R205, R212). -/
theorem Running.read {op : Instr} {s : State} (r : Running op s) (hsub : s.hsub = .mr1)
    (hfree : busyBit s.regs.mdioCtrl = false) (hc : s.h.c = s.regs.mdioCtrl) {p : Nat} (hp : p < s.cfg.mdioBudget) :
    ∃ c k kWraps, Plays ([.host] ++ List.replicate p .host ++ [.mdioc, .host, .host]) s
      { s with
        hsub := .off
        h := { s.h with
          c := c, k := k, kWraps := kWraps, v := phyRead s s.cfg.phyAddr (mdioReg s), ok := true }
        regs := { s.regs with
          mdioCtrl := doneWord s false, mdioData := (phyRead s s.cfg.phyAddr (mdioReg s)).setWidth 32 } } := by
  have hissue := r.issue (wr := false) (d := .mr2) (by rw [hsub]; rfl) hfree
  rw [hc] at hissue
  obtain ⟨c, k, kWraps, hpolls⟩ := Running.polls (op := op) (d := .mr3) p
    (s := { s with
      regs := { s.regs with mdioCtrl := mdioWord s.cfg.phyAddr (mdioReg s) (crField s.regs.mdioCtrl) false }
      hsub := .mr2, h := s.h.noPolls })
    ⟨r.admissible, r.inside, r.run, r.quiet⟩ rfl (busyBit_mdioWord ..) (by simpa using hp)
  have hmdioc := plays_mdioc_read (pa := s.cfg.phyAddr) (ra := mdioReg s) (cr := crField s.regs.mdioCtrl)
    (s := { s with
      regs := { s.regs with mdioCtrl := mdioWord s.cfg.phyAddr (mdioReg s) (crField s.regs.mdioCtrl) false }
      hsub := .mr2, h := { s.h.noPolls with c := c, k := k, kWraps := kWraps } })
    r.admissible rfl
  have hdone := Running.wait_free (op := op) (d := .mr3)
    (s := xferRead s.cfg.phyAddr (mdioReg s)
      { s with
        regs := { s.regs with mdioCtrl := mdioWord s.cfg.phyAddr (mdioReg s) (crField s.regs.mdioCtrl) false }
        hsub := .mr2, h := { s.h.noPolls with c := c, k := k, kWraps := kWraps } })
    ⟨r.admissible, r.inside, r.run, r.quiet⟩ rfl (busyBit_doneWord s false)
  have hfetch := Running.fetch (op := op) (v := phyRead s s.cfg.phyAddr (mdioReg s))
    (s := { xferRead s.cfg.phyAddr (mdioReg s)
        { s with
          regs := { s.regs with mdioCtrl := mdioWord s.cfg.phyAddr (mdioReg s) (crField s.regs.mdioCtrl) false }
          hsub := .mr2, h := { s.h.noPolls with c := c, k := k, kWraps := kWraps } } with
      hsub := .mr3, h := { s.h with c := doneWord s false, k := k, kWraps := kWraps } })
    ⟨r.admissible, r.inside, r.run, r.quiet⟩ rfl rfl
  have hmoves : [Move.host] ++ List.replicate p .host ++ [.mdioc, .host, .host] =
      ([Move.host] ++ List.replicate p .host ++ [.mdioc]) ++ ([.host] ++ [.host]) := by simp
  rw [hmoves]
  exact ⟨doneWord s false, k, kWraps, ((hissue.append hpolls).append hmdioc).append (hdone.append hfetch)⟩

/-- The datum of `PHY.RESET` goes out (R208, R219). -/
theorem Running.putDatum {op : Instr} {s : State} (r : Running op s) (hsub : s.hsub = .mw1) : Plays [.host] s
    { s with regs := { s.regs with mdioData := s.cfg.bcrReset.setWidth 32 }, hsub := .mw2 } := by
  refine plays_sub r.admissible ⟨r.inside, rfl, r.run⟩ (by rw [hsub]; nofun) fun rest => ?_
  have e : subStep (s.withMoves rest) = mdioPutData (s.withMoves rest) := by
    simp only [subStep, show (s.withMoves rest).hsub = .mw1 from hsub]
  rw [e, mdioPutData_eq, flush_host_of_nil (s := s.withMoves rest) r.quiet]
  rfl

theorem Running.writeDone {op : Instr} {s : State} (r : Running op s) (hsub : s.hsub = .mw4) : Plays [.host] s
    { s with hsub := .off, h := { s.h with ok := true } } := by
  refine plays_sub r.admissible ⟨r.inside, rfl, r.run⟩ (by rw [hsub]; nofun) fun rest => ?_
  simp only [subStep, show (s.withMoves rest).hsub = .mw4 from hsub]
  rfl

/-- What the PHY's registers are after `PHY.RESET`'s datum is written to register `ra` (R216, R217). -/
structure PhyWritten (s : State) (ra : BitVec 5) (phy : List PhyCell) : Prop where
  any : s.cfg.phyKind = .anyPhy → phy = s.phy
  mock : s.cfg.phyKind = .mockPhy → ∀ pa' ra', (Phy.get phy pa' ra').getD (Config.phyPowerOn pa' ra') =
    if pa' = s.cfg.phyAddr ∧ ra' = ra then mockDatum s.cfg ra s.cfg.bcrReset else phyRead s pa' ra'

/-- From step MW1 on: the datum, the control word, the polls, the transaction (R208 to R210, R212). -/
theorem Running.write {op : Instr} {s : State} (r : Running op s) (hsub : s.hsub = .mw1)
    (hfree : busyBit s.regs.mdioCtrl = false) (hc : s.h.c = s.regs.mdioCtrl) {p : Nat} (hp : p < s.cfg.mdioBudget) :
    ∃ c k kWraps phy, PhyWritten s (mdioReg s) phy ∧
      Plays ([.host, .host] ++ List.replicate p .host ++ [.mdioc, .host, .host]) s
      { s with
        hsub := .off, h := { s.h with c := c, k := k, kWraps := kWraps, ok := true }
        phy := phy, phyLog := s.phyLog ++ [⟨s.cfg.phyAddr, mdioReg s, s.cfg.bcrReset⟩]
        regs := { s.regs with mdioCtrl := doneWord s true, mdioData := s.cfg.bcrReset.setWidth 32 } } := by
  have hdatum := r.putDatum hsub
  have hissue := Running.issue (op := op) (wr := true) (d := .mw3)
    (s := { s with regs := { s.regs with mdioData := s.cfg.bcrReset.setWidth 32 }, hsub := .mw2 })
    ⟨r.admissible, r.inside, r.run, r.quiet⟩ rfl hfree
  rw [show ({ s with regs := { s.regs with mdioData := s.cfg.bcrReset.setWidth 32 }, hsub := .mw2 } : State).h.c =
    s.regs.mdioCtrl from hc] at hissue
  obtain ⟨c, k, kWraps, hpolls⟩ := Running.polls (op := op) (d := .mw4) p
    (s := { s with
      regs := { s.regs with
        mdioCtrl := mdioWord s.cfg.phyAddr (mdioReg s) (crField s.regs.mdioCtrl) true
        mdioData := s.cfg.bcrReset.setWidth 32 }
      hsub := .mw3, h := s.h.noPolls })
    ⟨r.admissible, r.inside, r.run, r.quiet⟩ rfl (busyBit_mdioWord ..) (by simpa using hp)
  let u : State := { s with
    regs := { s.regs with
      mdioCtrl := mdioWord s.cfg.phyAddr (mdioReg s) (crField s.regs.mdioCtrl) true
      mdioData := s.cfg.bcrReset.setWidth 32 }
    hsub := .mw3, h := { s.h.noPolls with c := c, k := k, kWraps := kWraps } }
  obtain ⟨phy, e, hany, hmock⟩ := xferWrite_eq s.cfg.phyAddr (mdioReg s) u
  have hdatum' : u.regs.mdioData.extractLsb' 0 16 = s.cfg.bcrReset := extract_setWidth_half _
  rw [hdatum'] at e hmock
  have hmdioc := plays_mdioc_write (pa := s.cfg.phyAddr) (ra := mdioReg s) (cr := crField s.regs.mdioCtrl)
    (s := u) r.admissible rfl
  rw [e] at hmdioc
  have hdone := Running.wait_free (op := op) (d := .mw4)
    (s := { u with
      phy := phy, phyLog := u.phyLog ++ [⟨s.cfg.phyAddr, mdioReg s, s.cfg.bcrReset⟩]
      regs := { u.regs with mdioCtrl := u.regs.mdioCtrl &&& 0xFFFFFFFE } })
    ⟨r.admissible, r.inside, r.run, r.quiet⟩ rfl (busyBit_doneWord s true)
  have hend := Running.writeDone (op := op)
    (s := { s with
      hsub := .mw4, h := { s.h with c := doneWord s true, k := k, kWraps := kWraps }
      phy := phy, phyLog := s.phyLog ++ [⟨s.cfg.phyAddr, mdioReg s, s.cfg.bcrReset⟩]
      regs := { s.regs with mdioCtrl := doneWord s true, mdioData := s.cfg.bcrReset.setWidth 32 } })
    ⟨r.admissible, r.inside, r.run, r.quiet⟩ rfl
  have hmoves : [Move.host, .host] ++ List.replicate p .host ++ [.mdioc, .host, .host] =
      ([Move.host] ++ [Move.host] ++ List.replicate p .host ++ [.mdioc]) ++ ([.host] ++ [.host]) := by simp
  rw [hmoves]
  exact ⟨doneWord s true, k, kWraps, phy, ⟨hany, hmock⟩,
    (((hdatum.append hissue).append hpolls).append hmdioc).append (hdone.append hend)⟩

/-! ### O30 -/

/-- After the first pass of a procedure's first wait nothing is outstanding. -/
theorem running_after_wait {op : Instr} {s : State} (ha : s.cfg.admissible = true) (hop : opOf s.hpc = some op)
    (hrun : s.inIsr = false) (d : SubLabel) :
    Running op { flush .host s with hsub := d, h := { (flush .host s).h with c := s.regs.mdioCtrl } } :=
  ⟨by simpa using ha, by simpa using hop, by simpa using hrun, by simp⟩

theorem mdioReg_after_wait (s : State) (d : SubLabel) :
    mdioReg { flush .host s with hsub := d, h := { (flush .host s).h with c := s.regs.mdioCtrl } } = mdioReg s := by
  simp [mdioReg]

theorem plays_read {op : Instr} {s : State} (ha : s.cfg.admissible = true) (hin : hostIn op .mr0 s)
    (hfree : busyBit s.regs.mdioCtrl = false) {p : Nat} (hp : p < s.cfg.mdioBudget) : ∃ c k kWraps,
    Plays ([.host, .host] ++ List.replicate p .host ++ [.mdioc, .host, .host]) s
      { flush .host s with
        hsub := .off
        h := { (flush .host s).h with
          c := c, k := k, kWraps := kWraps, v := phyRead s s.cfg.phyAddr (mdioReg s), ok := true }
        regs := { s.regs with
          mdioCtrl := doneWord s false, mdioData := (phyRead s s.cfg.phyAddr (mdioReg s)).setWidth 32 } } := by
  obtain ⟨hop, hsub, hrun⟩ := hin
  have hwait := plays_wait_free (op := op) (d := .mr1) ha ⟨hop, rfl, hrun⟩ (by rw [hsub]; rfl) hfree
  obtain ⟨c, k, kWraps, h⟩ := (running_after_wait ha hop hrun .mr1).read rfl (by simpa using hfree) (by simp)
    (p := p) (by simpa using hp)
  refine ⟨c, k, kWraps, ?_⟩
  have hplay := hwait.append h
  simpa [phyRead, mdioReg, doneWord] using hplay

theorem plays_write {op : Instr} {s : State} (ha : s.cfg.admissible = true) (hin : hostIn op .mw0 s)
    (hfree : busyBit s.regs.mdioCtrl = false) {p : Nat} (hp : p < s.cfg.mdioBudget) : ∃ c k kWraps phy,
    PhyWritten s (mdioReg s) phy ∧
    Plays ([.host, .host, .host] ++ List.replicate p .host ++ [.mdioc, .host, .host]) s
      { flush .host s with
        hsub := .off, h := { (flush .host s).h with c := c, k := k, kWraps := kWraps, ok := true }
        phy := phy, phyLog := s.phyLog ++ [⟨s.cfg.phyAddr, mdioReg s, s.cfg.bcrReset⟩]
        regs := { s.regs with mdioCtrl := doneWord s true, mdioData := s.cfg.bcrReset.setWidth 32 } } := by
  obtain ⟨hop, hsub, hrun⟩ := hin
  have hwait := plays_wait_free (op := op) (d := .mw1) ha ⟨hop, rfl, hrun⟩ (by rw [hsub]; rfl) hfree
  obtain ⟨c, k, kWraps, phy, hphy, h⟩ := (running_after_wait ha hop hrun .mw1).write rfl (by simpa using hfree) (by simp)
    (p := p) (by simpa using hp)
  rw [mdioReg_after_wait] at hphy
  refine ⟨c, k, kWraps, phy, ⟨fun hk => ?any, fun hk pa' ra' => ?mock⟩, ?plays⟩
  case any => exact (hphy.any (by simpa using hk)).trans (by simp)
  case mock =>
    have hmock := hphy.mock (by simpa using hk) pa' ra'
    simpa only [flush_cfg, phyRead, flush_phy] using hmock
  case plays =>
    have hplay := hwait.append h
    simpa [phyRead, mdioReg, doneWord] using hplay

/-- Settles O30: the transfers' runs, and the wait's equation in each case. -/
theorem mdioProceduresTransfer : Obligations.MdioProceduresTransfer := by
  refine ⟨fun op s p ms ha hin hfree hp hmoves => ?read, fun op s p ms ha hin hfree hp hmoves => ?write,
    fun op sub next s hin hmem => ⟨fun hfree => ?free, fun hbusy hmore => ?busy⟩⟩
  case read =>
    obtain ⟨c, k, kWraps, h⟩ := plays_read ha hin hfree hp
    have hrun := h.run (rest := ms) hmoves
    have hcount : ([Move.host, .host] ++ List.replicate p Move.host ++ [Move.mdioc, .host, .host]).length = p + 5 := by
      simp
    rw [hcount] at hrun
    exact ⟨_, hrun, rfl, rfl, rfl, rfl, crField_doneWord s false, busyBit_doneWord s false⟩
  case write =>
    obtain ⟨c, k, kWraps, phy, hphy, h⟩ := plays_write ha hin hfree hp
    have hrun := h.run (rest := ms) hmoves
    have hcount : ([Move.host, .host, .host] ++ List.replicate p Move.host ++ [Move.mdioc, .host, .host]).length =
        p + 6 := by simp
    rw [hcount] at hrun
    exact ⟨_, hrun, rfl, rfl, crField_doneWord s true, busyBit_doneWord s true, hphy.any, hphy.mock⟩
  case free =>
    have wait : afterPoll sub = some next := by
      simp at hmem; rcases hmem with ⟨rfl, rfl⟩ | ⟨rfl, rfl⟩ | ⟨rfl, rfl⟩ | ⟨rfl, rfl⟩ <;> rfl
    obtain ⟨hop, rfl, hrun⟩ := hin
    rw [exec_in_sub ⟨hop, rfl, hrun⟩ (isPoll_of_afterPoll wait).2.2.1, subStep_poll wait, mdioPoll_of_free hfree]
  case busy =>
    have wait : afterPoll sub = some next := by
      simp at hmem; rcases hmem with ⟨rfl, rfl⟩ | ⟨rfl, rfl⟩ | ⟨rfl, rfl⟩ | ⟨rfl, rfl⟩ <;> rfl
    obtain ⟨hop, rfl, hrun⟩ := hin
    rw [exec_in_sub ⟨hop, rfl, hrun⟩ (isPoll_of_afterPoll wait).2.2.1, subStep_poll wait, mdioPoll_of_busy hbusy hmore]
    refine ⟨_, rfl, ?_, ?_⟩
    · show (flush .host s).h.onePoll.polls = _
      simp
    · simp [HostRegs.onePoll]

/-! ### O34 -/

theorem execMany_succ {i : Instr} {k : Nat} {s t : State} (h : exec i s = .next t) :
    execMany i (k + 1) s = execMany i k t := by
  simp only [execMany, h]

theorem afterPoll_of_isPoll {sub : SubLabel} (h : isPoll sub = true) : ∃ d, afterPoll sub = some d := by
  cases sub <;> cases h <;> exact ⟨_, rfl⟩

/-- Memory as HOST sees it is memory after its ordering point. -/
theorem flush_mem_seenBy (s : State) : (flush .host s).mem = s.seenBy .host := flush_mem .host s

theorem seenBy_of_nil {s : State} (h : s.hostBuf = []) : s.seenBy .host = s.mem := by
  rw [State.seenBy, pending_host, h, Memory.performAll_nil]

/-- A wait whose controller stays busy takes the timeout when its budget is spent (R204, R211). -/
theorem wait_times_out {op : Instr} {sub : SubLabel} (hpoll : isPoll sub = true) : ∀ (b : Nat) {s : State},
    hostIn op sub s → s.h.polls + (b + 1) = s.cfg.mdioBudget → busyBit s.regs.mdioCtrl = true →
      ∃ t, execMany op (b + 1) s = .next t ∧ t.hsub = .off ∧ t.hpc = s.hpc ∧ t.h.ok = false ∧
        t.regs = { s.regs with diag := s.regs.diag ||| 4 } ∧ t.events = s.events ++ [.phyTimeout] ∧
        t.mem = s.seenBy .host ∧ t.hostBuf = []
  | 0, s, hin, hbudget, hbusy => by
    obtain ⟨d, wait⟩ := afterPoll_of_isPoll hpoll
    obtain ⟨hop, rfl, hrun⟩ := hin
    have e := mdioPoll_of_last hbusy hbudget d
    have hstep : exec op s = .next (mdioPoll d s) := by
      rw [exec_in_sub ⟨hop, rfl, hrun⟩ (isPoll_of_afterPoll wait).2.2.1, subStep_poll wait]
    rw [e] at hstep
    refine ⟨_, execMany_succ hstep, rfl, ?_, rfl, ?_, ?_, flush_mem_seenBy s, ?_⟩ <;> simp [raise, diagBits]
  | b + 1, s, hin, hbudget, hbusy => by
    obtain ⟨d, wait⟩ := afterPoll_of_isPoll hpoll
    obtain ⟨hop, rfl, hrun⟩ := hin
    have e := mdioPoll_of_busy hbusy (by omega) d
    have hstep : exec op s = .next (mdioPoll d s) := by
      rw [exec_in_sub ⟨hop, rfl, hrun⟩ (isPoll_of_afterPoll wait).2.2.1, subStep_poll wait]
    rw [e] at hstep
    have hpolls : ({ flush .host s with h := { (flush .host s).h.onePoll with c := s.regs.mdioCtrl } } : State).h.polls =
        s.h.polls + 1 := by
      show (flush .host s).h.onePoll.polls = _
      simp
    obtain ⟨t, hrun', hsub, hpc, hok, hregs, hevents, hmem, hbuf⟩ := wait_times_out hpoll b
      (s := { flush .host s with h := { (flush .host s).h.onePoll with c := s.regs.mdioCtrl } })
      ⟨by simpa using hop, by simp, by simpa using hrun⟩ (by rw [hpolls]; simp; omega) (by simpa using hbusy)
    have hseen : ({ flush .host s with h := { (flush .host s).h.onePoll with c := s.regs.mdioCtrl } } : State).seenBy .host =
        s.seenBy .host := (seenBy_of_nil (by simp)).trans (flush_mem_seenBy s)
    exact ⟨t, (execMany_succ hstep).trans hrun', hsub, by simpa using hpc, hok, by simpa using hregs,
      by simpa using hevents, hmem.trans hseen, hbuf⟩

/-- A reset that never completes ends `INIT` when its budget is spent (40_driver_contract.md R167). -/
theorem reset_times_out : ∀ (b : Nat) {s : State}, hostAt .n1 s → s.h.polls + (b + 1) = s.cfg.resetBudget →
    swrstBit s.regs.ctrl = true →
      ∃ t, execMany .init (b + 1) s = .next t ∧ t.hpc = .idle ∧ t.hsub = .off ∧
        t.regs = { s.regs with diag := s.regs.diag ||| 0x10, result := 0 } ∧
        t.events = s.events ++ [.macResetTimeout] ∧ t.initialized = s.initialized ∧
        t.mem = s.seenBy .host ∧ t.hostBuf = []
  | 0, s, hat, hbudget, hreset => by
    have hstep : exec .init s = .next (finish 0 (raise .macResetTimeout (resetPolled s))) := by
      rw [exec_init_at hat, initLabel, hat.1, initN1_of_last hreset hbudget]
    refine ⟨_, execMany_succ hstep, rfl, rfl, ?_, ?_, ?_, flush_mem_seenBy s, ?_⟩ <;>
      simp [raise, diagBits, resetPolled, finish]
  | b + 1, s, hat, hbudget, hreset => by
    have hstep : exec .init s = .next (resetPolled s) := by
      rw [exec_init_at hat, initLabel, hat.1, initN1_of_again hreset (by omega)]
    obtain ⟨t, hrun, hpc, hsub, hregs, hevents, hinit, hmem, hbuf⟩ := reset_times_out b (s := resetPolled s)
      (by simpa [resetPolled, hostAt] using hat) (by rw [resetPolled_polls]; simp [resetPolled]; omega)
      (by simpa [resetPolled] using hreset)
    have hseen : (resetPolled s).seenBy .host = s.seenBy .host :=
      (seenBy_of_nil (by simp [resetPolled])).trans (flush_mem_seenBy s)
    exact ⟨t, (execMany_succ hstep).trans hrun, hpc, hsub, by simpa [resetPolled] using hregs,
      by simpa [resetPolled] using hevents, by simpa [resetPolled] using hinit, hmem.trans hseen, hbuf⟩

/-- Settles O34: by induction on the polls the budget leaves. -/
theorem stuckWaitsTimeOut : Obligations.StuckWaitsTimeOut := by
  refine ⟨fun op sub s hin hpoll hzero hpos hbusy => ?mdio, fun s hat hzero hpos hreset => ?reset⟩
  case mdio =>
    obtain ⟨b, hb⟩ := Nat.exists_eq_add_of_le' hpos
    obtain ⟨t, hrun, hsub, hpc, hok, hregs, hevents, hmem, hbuf⟩ := wait_times_out hpoll b hin (by omega) hbusy
    rw [hb]
    exact ⟨t, hrun, hsub, hpc, hok, by rw [hregs], hevents, by rw [hregs], hmem, hbuf⟩
  case reset =>
    obtain ⟨b, hb⟩ := Nat.exists_eq_add_of_le' hpos
    rw [hb]
    exact reset_times_out b hat (by omega) hreset

end Sys2Proof.Machine

/-! PROOFS. Whole runs of `UP` (46_link_reconciler.md sections 1 to 4). -/

namespace Sys2Proof.Machine

/-! ### A command, a label, a call -/

/-- A command that starts an operation. -/
theorem plays_cmd {s : State} {w : Word} {i : Instr} {needs : Bool} {l : HostLabel} (ha : s.cfg.admissible = true)
    (hidle : s.hpc = .idle) (hrun : s.inIsr = false) (hd : decodeCmd w = .ok i)
    (hexec : ∀ u : State, u.hpc = .idle → exec i u = startCommand needs l u) (hready : needs = true → s.initialized = true) :
    Plays [.cmd w] s { s with hpc := l, hsub := .off, hmic := 0, dirty := [] } :=
  .single fun rest => by
    rw [step_withMoves_cons ha, fetchMove_cmd (s := s.withMoves rest) ((commandGate_none _).2 ⟨hidle, hrun⟩) hd]
    exact (hexec (s.withMoves rest) hidle).trans ((startCommand_next ..).2 ⟨hidle, hrun, hready, rfl⟩)

theorem exec_up_idle (u : State) (h : u.hpc = .idle) : exec .up u = startCommand true .u0 u :=
  contractOp_of_idle h ..

theorem plays_up {l : HostLabel} {s t : State} (ha : s.cfg.admissible = true) (hat : hostAt l s)
    (h : ∀ rest, upLabel (s.withMoves rest) = .next (t.withMoves rest)) (hop : opOf l = some .up := by rfl) :
    Plays [.host] s t :=
  plays_host ha (by rw [hat.1]; exact hop) fun rest => (exec_up_at (s := s.withMoves rest) hat hop).trans (h rest)

/-- A read called by a label, the hardware answering at once. -/
theorem plays_called_read {op : Instr} {s : State} {mic : Nat} (ha : s.cfg.admissible = true)
    (hop : opOf s.hpc = some op) (hrun : s.inIsr = false) (hfree : busyBit s.regs.mdioCtrl = false)
    (hcall : Plays [.host] s (callSub .mr0 mic s)) : ∃ b p c k kWraps i, Plays mdioReadMoves s
      { s with
        hsub := .off, hmic := mic, mem := s.seenBy .host, i := i, hostBuf := []
        h := { s.h with
          byte := b, bufp := p, c := c, k := k, kWraps := kWraps
          v := phyRead s s.cfg.phyAddr (mdioReg { s with hmic := mic }), ok := true }
        regs := { s.regs with
          mdioCtrl := doneWord { s with hmic := mic } false
          mdioData := (phyRead s s.cfg.phyAddr (mdioReg { s with hmic := mic })).setWidth 32 } } := by
  have hbudget : 0 < s.cfg.mdioBudget := (admissible_bounds ha).2.2.1
  obtain ⟨c, k, kWraps, h⟩ := plays_read (op := op) (p := 0) (s := callSub .mr0 mic s) ha ⟨hop, rfl, hrun⟩ hfree hbudget
  obtain ⟨b, p, len, ibufp, e⟩ := flush_host_eq (callSub .mr0 mic s)
  rw [e] at h
  exact ⟨b, p, c, k, kWraps, { s.i with len := len, bufp := ibufp }, hcall.append h⟩

/-! ### `UP` up to its decision -/

/-- `UP` has read the status register. -/
theorem plays_up_poll {s : State} (ha : s.cfg.admissible = true) (hidle : s.hpc = .idle) (hrun : s.inIsr = false)
    (hinit : s.initialized = true) (hfree : busyBit s.regs.mdioCtrl = false) : ∃ h i ctrl data,
    h.v = phyRead s s.cfg.phyAddr s.cfg.regBsr ∧ busyBit ctrl = false ∧
    Plays ([.cmd 3] ++ mdioReadMoves ++ [.host]) s
      { s with
        hpc := .u1, hsub := .off, hmic := 0, dirty := [], mem := s.seenBy .host, i := i, hostBuf := [], h := h
        regs := { s.regs with mdioCtrl := ctrl, mdioData := data } } := by
  let u : State := { s with hpc := .u0, hsub := .off, hmic := 0, dirty := [] }
  have hcmd : Plays [.cmd 3] s u := plays_cmd (i := .up) ha hidle hrun (by decide) exec_up_idle fun _ => hinit
  have hcall : Plays [.host] u (callSub .mr0 1 u) := plays_up (l := .u0) ha ⟨rfl, rfl, hrun⟩ fun rest => rfl
  obtain ⟨b, p, c, k, kWraps, i, hread⟩ := plays_called_read (op := .up) (s := u) ha rfl hrun hfree hcall
  have hdone : ∀ (h : HostRegs) (regs : Regs), h.ok = true → Plays [.host]
      { u with hmic := 1, mem := s.seenBy .host, i := i, hostBuf := [], h := h, regs := regs }
      { u with hpc := .u1, mem := s.seenBy .host, i := i, hostBuf := [], h := h, regs := regs } := fun h regs hok =>
    plays_up (l := .u0) ha ⟨rfl, rfl, hrun⟩ fun rest => congrArg Host.Outcome.next (if_pos hok)
  exact ⟨_, i, _, _, rfl, busyBit_doneWord _ _, (hcmd.append hread).append (hdone _ _ rfl)⟩

/-- Settles O45: the status read, then the decision that ends `UP`. -/
theorem upWithoutEdgeLeavesMaccfg : Obligations.UpWithoutEdgeLeavesMaccfg := by
  intro s ms ha hidle hrun hinit hfree hmoves hnone
  obtain ⟨h, i, ctrl, data, hv, -, hpoll⟩ := plays_up_poll ha hidle hrun hinit hfree
  let u : State := { s with
    hpc := .u1, hsub := .off, hmic := 0, dirty := [], mem := s.seenBy .host, i := i, hostBuf := [], h := h
    regs := { s.regs with mdioCtrl := ctrl, mdioData := data } }
  have hend : ∃ t, Plays [.host] u t ∧ t.hpc = .idle ∧ t.regs.maccfg = s.regs.maccfg ∧
      t.link = (if (phyRead s s.cfg.phyAddr s.cfg.regBsr).getLsbD s.cfg.bsrLink.toNat then .up else .down) ∧
      t.regs.result = (if (phyRead s s.cfg.phyAddr s.cfg.regBsr).getLsbD s.cfg.bsrLink.toNat then 1 else 0) := by
    rw [← hv]
    cases hbit : h.v.getLsbD s.cfg.bsrLink.toNat with
    | false =>
      refine ⟨finish 0 { u with link := .down, h := { h with up := false } },
        plays_up (l := .u1) ha ⟨rfl, rfl, hrun⟩ fun rest => ?_, rfl, rfl, rfl, rfl⟩
      exact congrArg Host.Outcome.next (upU1_down (s := u.withMoves rest) hbit)
    | true =>
      have hup : s.link = .up := hnone.resolve_right (by rw [← hv, hbit]; nofun)
      refine ⟨finish 1 { u with h := { h with up := true } },
        plays_up (l := .u1) ha ⟨rfl, rfl, hrun⟩ fun rest => ?_, rfl, rfl, hup, rfl⟩
      exact congrArg Host.Outcome.next (upU1_already (s := u.withMoves rest) hbit hup)
  obtain ⟨t, hlast, hpc, hmaccfg, hlink, hresult⟩ := hend
  exact ⟨_, (hpoll.append hlast).run hmoves, rfl, hpc, hmaccfg, hlink, hresult⟩

/-- Settles O44: the status read, the decision, the vendor register's read, and one micro-step for each of U2 to U6. -/
theorem upReconcilesTheLinkEdge : Obligations.UpReconcilesTheLinkEdge := by
  intro s ms ha hidle hrun hinit hfree hlink hbit hmoves
  obtain ⟨h, i, ctrl, data, hv, hctrl, hpoll⟩ := plays_up_poll ha hidle hrun hinit hfree
  rw [← hv] at hbit
  let u1 : State := { s with
    hpc := .u1, hsub := .off, hmic := 0, dirty := [], mem := s.seenBy .host, i := i, hostBuf := [], h := h
    regs := { s.regs with mdioCtrl := ctrl, mdioData := data } }
  let u2 : State := { u1 with hpc := .u2, h := { h with up := true } }
  have hedge : Plays [.host] u1 u2 := plays_up (l := .u1) ha ⟨rfl, rfl, hrun⟩ fun rest =>
    congrArg Host.Outcome.next (upU1_edge (s := u1.withMoves rest) hbit hlink)
  have hcall : Plays [.host] u2 (callSub .mr0 1 u2) := plays_up (l := .u2) ha ⟨rfl, rfl, hrun⟩ fun rest => rfl
  obtain ⟨b, p, c, k, kWraps, i', hread⟩ := plays_called_read (op := .up) (s := u2) ha rfl hrun hctrl hcall
  let g : HostRegs := { u2.h with
    byte := b, bufp := p, c := c, k := k, kWraps := kWraps
    v := phyRead s s.cfg.phyAddr (speedRow s.cfg s.vendor).reg, ok := true }
  let u2' : State := { u2 with
    hmic := 1, mem := u2.seenBy .host, i := i', hostBuf := [], h := g
    regs := { u2.regs with
      mdioCtrl := doneWord { u2 with hmic := 1 } false
      mdioData := (phyRead s s.cfg.phyAddr (speedRow s.cfg s.vendor).reg).setWidth 32 } }
  let u3 : State := { u2' with hpc := .u3, hmic := 0 }
  have h2 : Plays [.host] u2' u3 := plays_up (l := .u2) ha ⟨rfl, rfl, hrun⟩ fun rest => rfl
  let u4 : State := { u3 with
    hpc := .u4
    h := { g with
      spd := decodeSpeed (speedRow s.cfg s.vendor) g.v, dup := decodeDuplex (speedRow s.cfg s.vendor) g.v } }
  have h3 : Plays [.host] u3 u4 := plays_up (l := .u3) ha ⟨rfl, rfl, hrun⟩ fun rest => rfl
  let u5 : State := { u4 with hpc := .u5, h := { u4.h with c := u4.regs.maccfg } }
  have h4 : Plays [.host] u4 u5 := plays_up (l := .u4) ha ⟨rfl, rfl, hrun⟩ fun rest => by
    refine (congrArg Host.Outcome.next (upU4_eq (u4.withMoves rest))).trans ?_
    rw [flush_host_of_nil (s := u4.withMoves rest) rfl]
    rfl
  let u6 : State := { u5 with
    hpc := .u6, regs := { u5.regs with maccfg := flagWord u5.h.spd 1 ||| flagWord u5.h.dup 2 } }
  have h5 : Plays [.host] u5 u6 := plays_up (l := .u5) ha ⟨rfl, rfl, hrun⟩ fun rest => by
    refine (upU5_eq (u5.withMoves rest)).trans ?_
    rw [flush_host_of_nil (s := u5.withMoves rest) rfl]
    rfl
  have h6 : Plays [.host] u6 (finish 1 { u6 with link := .up }) :=
    plays_up (l := .u6) ha ⟨rfl, rfl, hrun⟩ fun rest => rfl
  have hall := (((((((hpoll.append hedge).append hread).append h2).append h3).append h4).append h5).append h6)
  exact ⟨_, hall.run hmoves, rfl, rfl, rfl, rfl, toNat_maccfg_bits _ _, rfl, rfl, rfl, rfl⟩

end Sys2Proof.Machine

/-! PROOFS. `RING.BUILD` as a whole run (43_ring_ownership.md R238 to R240). -/

namespace Sys2Proof.Machine

/-! ### Runs of HOST's micro-steps -/

/-- `k` micro-steps of HOST inside `op`, whatever moves are still to come. -/
inductive HostRuns (op : Instr) : Nat → State → State → Prop
  | nil (s : State) : HostRuns op 0 s s
  | cons {k : Nat} {s t u : State} (admissible : s.cfg.admissible = true) (inside : opOf s.hpc = some op)
      (first : ∀ rest, exec op (s.withMoves rest) = .next (u.withMoves rest)) (others : HostRuns op k u t) :
      HostRuns op (k + 1) s t

theorem HostRuns.append {op : Instr} {k l : Nat} {s t u : State} (h : HostRuns op k s t) (h' : HostRuns op l t u) :
    HostRuns op (l + k) s u := by
  induction h with
  | nil s => exact h'
  | cons ha inside first _ ih => exact .cons ha inside first (ih h')

/-- As repetitions of the instruction. -/
theorem HostRuns.execMany {op : Instr} {k : Nat} {s t : State} (h : HostRuns op k s t) (rest : List Move) :
    execMany op k (s.withMoves rest) = .next (t.withMoves rest) := by
  induction h with
  | nil s => rfl
  | cons _ _ first _ ih => exact (execMany_succ (first rest)).trans ih

/-- As moves of HOST. -/
theorem HostRuns.plays {op : Instr} {k : Nat} {s t : State} (h : HostRuns op k s t) :
    Plays (List.replicate k .host) s t := by
  induction h with
  | nil s => exact .nil s
  | cons ha inside first _ ih => exact (plays_host ha inside first).append ih

/-! ### Stores issued and not yet all performed -/

/-- The memory `m` and the outstanding accesses `b` are those of HOST once it has issued `ps` from `s`. -/
structure Issued (s : State) (ps : List Pending) (m : List Host.Cell) (b : List Pending) : Prop where
  sc : s.cfg.memModel = .sc → b = []
  seen : Memory.performAll m b = Memory.performAll s.mem ps

theorem Issued.none {s : State} (h : s.hostBuf = []) : Issued s [] s.mem s.hostBuf :=
  ⟨fun _ => h, by rw [h]⟩

/-- One more store. -/
theorem Issued.word {s u : State} {ps : List Pending} (h : Issued s ps u.mem u.hostBuf) (hcfg : u.cfg = s.cfg)
    (a : Nat) (v : Word) : ∃ m b, Issued s (ps ++ [.word a v]) m b ∧
      (m = u.mem ∨ m = Memory.setWord u.mem a v) ∧
      ∀ rest, issue .host (.word a v) (u.withMoves rest) = { u with mem := m, hostBuf := b }.withMoves rest := by
  cases hm : s.cfg.memModel with
  | sc =>
    refine ⟨Memory.setWord u.mem a v, u.hostBuf, ⟨h.sc, ?_⟩, .inr rfl, fun rest => ?_⟩
    · have hseen := h.seen
      rw [h.sc hm] at hseen ⊢
      rw [Memory.performAll_append, ← hseen]; rfl
    · rw [issue_of_sc (s := u.withMoves rest) ((congrArg Cfg.memModel hcfg).trans hm)]; rfl
  | weak =>
    refine ⟨u.mem, u.hostBuf ++ [.word a v], ⟨fun h => absurd (hm.symm.trans h) (by decide), ?_⟩, .inl rfl,
      fun rest => ?_⟩
    · rw [Memory.performAll_append, Memory.performAll_append, h.seen]
    · rw [issue_of_weak (s := u.withMoves rest) ((congrArg Cfg.memModel hcfg).trans hm)]; rfl

/-! ### One descriptor -/

theorem toNat_slot {c : Cfg} (ha : c.admissible = true) {i : Nat} (hi : i < c.n) : (BitVec.ofNat 32 i).toNat = i := by
  have := (admissible_bounds ha).2.1
  rw [BitVec.toNat_ofNat]; omega

/-- `s` at another place of `RING.BUILD`, with what its stores have done so far. -/
def buildPlace (s : State) (sub : SubLabel) (mic i : Nat) (m : List Host.Cell) (b : List Pending) : State :=
  { s with hsub := sub, hmic := mic, h := { s.h with j := BitVec.ofNat 32 i }, mem := m, hostBuf := b }

/-- The store of slot `i` at micro-step `mic` (R239). -/
def buildWord (c : Cfg) (base bufBase : Word) (w0 : Nat → Word) (i mic : Nat) : Pending :=
  .word (descWord c base i (buildWordNo mic))
    (buildValue (buildWordNo mic) (w0 i) (BitVec.ofNat 32 (slotBuf c bufBase i)))

/-- The step `sub` of `RING.BUILD` builds the ring at `base` and then gives way to `d`. -/
structure BuildsRing (c : Cfg) (sub d : SubLabel) (base bufBase : Word) (w0 : Nat → Word) : Prop where
  inside : sub ≠ .off
  step : ∀ u : State, u.cfg = c → u.hsub = sub → subStep u = .next (buildStep base bufBase w0 d u)

theorem buildsRing_rx (c : Cfg) : BuildsRing c .b0 .b1 c.rxdBase c.rxbufBase (builtRxW0 c.n) where
  inside := by decide
  step := by rintro u rfl hsub; unfold subStep; rw [hsub]; rfl

theorem buildsRing_tx (c : Cfg) : BuildsRing c .b1 .b2 c.txdBase c.txbufBase (builtTxW0 c.n) where
  inside := by decide
  step := by rintro u rfl hsub; unfold subStep; rw [hsub]; rfl

section
variable {s : State} {sub d : SubLabel} {base bufBase : Word} {w0 : Nat → Word}

/-- One store of a descriptor, and the place that follows. -/
theorem BuildsRing.store (r : BuildsRing s.cfg sub d base bufBase w0) (ha : s.cfg.admissible = true)
    (hpc : s.hpc = .n6) (hrun : s.inIsr = false) {mic i : Nat} (hi : i < s.cfg.n) {ps : List Pending}
    {m : List Host.Cell} {b : List Pending} (h : Issued s ps m b) {sub' : SubLabel} {mic' i' : Nat}
    (hnext : ∀ m' b' rest, buildNext d ((buildPlace s sub mic i m' b').withMoves rest) =
      (buildPlace s sub' mic' i' m' b').withMoves rest) :
    ∃ m' b', Issued s (ps ++ [buildWord s.cfg base bufBase w0 i mic]) m' b' ∧
      HostRuns .init 1 (buildPlace s sub mic i m b) (buildPlace s sub' mic' i' m' b') := by
  obtain ⟨m', b', h', -, hissue⟩ := h.word (u := buildPlace s sub mic i m b) rfl
    (descWord s.cfg base i (buildWordNo mic))
    (buildValue (buildWordNo mic) (w0 i) (BitVec.ofNat 32 (slotBuf s.cfg bufBase i)))
  have hj := toNat_slot ha hi
  have hop : opOf s.hpc = some .init := by rw [hpc]; rfl
  refine ⟨m', b', h', .cons ha hop (fun rest => ?_) (.nil _)⟩
  rw [exec_in_sub (s := (buildPlace s sub mic i m b).withMoves rest) ⟨hop, rfl, hrun⟩ r.inside,
    r.step ((buildPlace s sub mic i m b).withMoves rest) rfl rfl, ← hnext m' b' rest]
  refine congrArg (fun t => Host.Outcome.next (buildNext d t)) (Eq.trans ?_ (hissue rest))
  show issue .host (buildWord s.cfg base bufBase w0 (BitVec.ofNat 32 i).toNat mic) _ = _
  rw [hj]
  rfl

/-- The four stores of a descriptor. -/
theorem BuildsRing.slot (r : BuildsRing s.cfg sub d base bufBase w0) (ha : s.cfg.admissible = true)
    (hpc : s.hpc = .n6) (hrun : s.inIsr = false) {i : Nat} (hi : i < s.cfg.n) {ps : List Pending}
    {m : List Host.Cell} {b : List Pending} (h : Issued s ps m b) {sub' : SubLabel} {i' : Nat}
    (hnext : ∀ m' b' rest, buildNext d ((buildPlace s sub 3 i m' b').withMoves rest) =
      (buildPlace s sub' 0 i' m' b').withMoves rest) :
    ∃ m' b', Issued s (ps ++ buildSlotStores s.cfg base (slotBuf s.cfg bufBase i) (w0 i) i) m' b' ∧
      HostRuns .init 4 (buildPlace s sub 0 i m b) (buildPlace s sub' 0 i' m' b') := by
  have hword : ∀ mic, mic < 3 → ∀ m' b' rest, buildNext d ((buildPlace s sub mic i m' b').withMoves rest) =
      (buildPlace s sub (mic + 1) i m' b').withMoves rest := fun mic hmic m' b' rest => if_pos hmic
  obtain ⟨_, _, h1, r1⟩ := r.store ha hpc hrun hi h (hword 0 (by decide))
  obtain ⟨_, _, h2, r2⟩ := r.store ha hpc hrun hi h1 (hword 1 (by decide))
  obtain ⟨_, _, h3, r3⟩ := r.store ha hpc hrun hi h2 (hword 2 (by decide))
  obtain ⟨m', b', h4, r4⟩ := r.store ha hpc hrun hi h3 hnext
  refine ⟨m', b', ?_, ((r1.append r2).append r3).append r4⟩
  simpa [buildWord, buildWordNo, buildValue, buildSlotStores] using h4

/-! ### One ring -/

theorem buildNext_slot {i : Nat} (ha : s.cfg.admissible = true) (hi : i + 1 < s.cfg.n) (m : List Host.Cell)
    (b : List Pending) (rest : List Move) : buildNext d ((buildPlace s sub 3 i m b).withMoves rest) =
      (buildPlace s sub 0 (i + 1) m b).withMoves rest := by
  have hj := toNat_slot ha (Nat.lt_of_succ_lt hi)
  refine (if_neg (show ¬ (3 < 3) by decide)).trans
    ((if_pos (show (BitVec.ofNat 32 i).toNat + 1 < s.cfg.n by rwa [hj])).trans ?_)
  show _ = ({ buildPlace s sub 0 i m b with h := { s.h with j := BitVec.ofNat 32 (i + 1) } } : State).withMoves rest
  rw [BitVec.ofNat_add]
  rfl

theorem buildNext_ring {i : Nat} (ha : s.cfg.admissible = true) (hi : i + 1 = s.cfg.n) (m : List Host.Cell)
    (b : List Pending) (rest : List Move) : buildNext d ((buildPlace s sub 3 i m b).withMoves rest) =
      (buildPlace s d 0 0 m b).withMoves rest := by
  have hj := toNat_slot ha (show i < s.cfg.n by omega)
  exact (if_neg (show ¬ (3 < 3) by decide)).trans (if_neg (show ¬ (BitVec.ofNat 32 i).toNat + 1 < s.cfg.n by
    rw [hj]; omega))

/-- The descriptors from slot `i` on. -/
theorem BuildsRing.slots (r : BuildsRing s.cfg sub d base bufBase w0) (ha : s.cfg.admissible = true)
    (hpc : s.hpc = .n6) (hrun : s.inIsr = false) : ∀ (k : Nat) {i : Nat} {ps : List Pending} {m : List Host.Cell}
    {b : List Pending}, i + (k + 1) = s.cfg.n → Issued s ps m b →
    ∃ m' b', Issued s (ps ++ (List.range' i (k + 1)).flatMap fun i =>
        buildSlotStores s.cfg base (slotBuf s.cfg bufBase i) (w0 i) i) m' b' ∧
      HostRuns .init (4 * (k + 1)) (buildPlace s sub 0 i m b) (buildPlace s d 0 0 m' b')
  | 0, i, ps, m, b, hi, h => by
    obtain ⟨m', b', h', hr⟩ := r.slot ha hpc hrun (i := i) (by omega) h (buildNext_ring ha (by omega))
    exact ⟨m', b', by simpa using h', hr⟩
  | k + 1, i, ps, m, b, hi, h => by
    obtain ⟨m1, b1, h1, r1⟩ := r.slot ha hpc hrun (i := i) (by omega) h (buildNext_slot ha (by omega))
    obtain ⟨m', b', h', r'⟩ := BuildsRing.slots r ha hpc hrun k (i := i + 1) (by omega) h1
    refine ⟨m', b', ?_, r1.append r'⟩
    rwa [List.range'_succ, List.flatMap_cons, ← List.append_assoc]

/-- A whole ring. -/
theorem BuildsRing.ring (r : BuildsRing s.cfg sub d base bufBase w0) (ha : s.cfg.admissible = true)
    (hpc : s.hpc = .n6) (hrun : s.inIsr = false) {ps : List Pending} {m : List Host.Cell} {b : List Pending}
    (h : Issued s ps m b) :
    ∃ m' b', Issued s (ps ++ (List.range s.cfg.n).flatMap fun i =>
        buildSlotStores s.cfg base (slotBuf s.cfg bufBase i) (w0 i) i) m' b' ∧
      HostRuns .init (4 * s.cfg.n) (buildPlace s sub 0 0 m b) (buildPlace s d 0 0 m' b') := by
  obtain ⟨k, hk⟩ : ∃ k, s.cfg.n = k + 1 := Nat.exists_eq_add_one.2 (admissible_bounds ha).1
  have := r.slots ha hpc hrun k (i := 0) (by omega) h
  rwa [← hk, ← List.range_eq_range'] at this

end

/-! ### The whole procedure -/

/-- `RING.BUILD` from its first step to its return. -/
theorem hostRuns_build {s : State} (ha : s.cfg.admissible = true) (hpc : s.hpc = .n6) (hsub : s.hsub = .b0)
    (hrun : s.inIsr = false) (hmic : s.hmic = 0) (hj : s.h.j = 0) (hquiet : s.hostBuf = []) :
    ∃ byte bufp i, HostRuns .init (8 * s.cfg.n + 2) s
      { s with
        hsub := .off, hmic := 3, rxIdx := 0, txIdx := 0, ringsBuilt := true
        mem := Memory.performAll s.mem (buildStores s.cfg), hostBuf := [], i := i
        h := { s.h with byte := byte, bufp := bufp } } := by
  obtain ⟨m0, b0, h0, r0⟩ := (buildsRing_rx s.cfg).ring ha hpc hrun (Issued.none hquiet)
  obtain ⟨m, b, h, r1⟩ := (buildsRing_tx s.cfg).ring ha hpc hrun h0
  have hstart : buildPlace s .b0 0 0 s.mem s.hostBuf = s := by
    rw [buildPlace, ← hsub, ← hmic, show BitVec.ofNat 32 s.hmic = s.h.j by rw [hmic, hj]; rfl]
  rw [hstart] at r0
  let u : State := { buildPlace s .b2 0 0 m b with rxIdx := 0, txIdx := 0, hmic := 1 }
  have hop : opOf s.hpc = some .init := by rw [hpc]; rfl
  have hindices : HostRuns .init 1 (buildPlace s .b2 0 0 m b) u := .cons ha hop (fun rest =>
    (exec_in_sub (s := (buildPlace s .b2 0 0 m b).withMoves rest) ⟨hop, rfl, hrun⟩
      (show SubLabel.b2 ≠ .off by decide)).trans rfl) (.nil _)
  obtain ⟨byte, bufp, len, ibufp, hflush⟩ := flush_host_eq u
  have hseen : Memory.performAll u.mem u.hostBuf = Memory.performAll s.mem (buildStores s.cfg) := h.seen
  have hfence : HostRuns .init 1 u { flush .host u with hsub := .off, hmic := 3, ringsBuilt := true } :=
    .cons ha hop (fun rest => by
      refine (exec_in_sub (s := u.withMoves rest) ⟨hop, rfl, hrun⟩ (show SubLabel.b2 ≠ .off by decide)).trans ?_
      show Host.Outcome.next { flush .host (u.withMoves rest) with hsub := .off, hmic := 3, ringsBuilt := true } = _
      rw [flush_withMoves]
      rfl) (.nil _)
  rw [hflush, hseen] at hfence
  have hall := ((r0.append r1).append hindices).append hfence
  rw [show 1 + (1 + (4 * s.cfg.n + 4 * s.cfg.n)) = 8 * s.cfg.n + 2 by omega] at hall
  refine ⟨byte, bufp, { s.i with len := len, bufp := ibufp }, ?_⟩
  rw [show s.h = { s.h with j := 0 } by rw [← hj]]
  exact hall

/-- Settles O37: ring by ring and slot by slot, then the indices and the `FENCE`. -/
theorem ringBuildWritesEveryDescriptor : Obligations.RingBuildWritesEveryDescriptor := by
  intro s ha hpc hsub hrun hmic hj hquiet
  obtain ⟨byte, bufp, i, h⟩ := hostRuns_build ha hpc hsub hrun hmic hj hquiet
  exact ⟨_, h.execMany s.moves, hpc, rfl, rfl, rfl, rfl, rfl, rfl, rfl, rfl, rfl, rfl⟩

end Sys2Proof.Machine

/-! PROOFS. A whole `INIT` whose hardware answers at once (40_driver_contract.md R165 to R173). -/

namespace Sys2Proof.Machine

theorem exec_init_idle (u : State) (h : u.hpc = .idle) : exec .init u = startCommand false .n0 u :=
  contractOp_of_idle h ..

theorem plays_init {l : HostLabel} {s t : State} (ha : s.cfg.admissible = true) (hat : hostAt l s)
    (h : ∀ rest, initLabel (s.withMoves rest) = .next (t.withMoves rest)) (hop : opOf l = some .init := by rfl) :
    Plays [.host] s t :=
  plays_host ha (by rw [hat.1]; exact hop) fun rest => (exec_init_at (s := s.withMoves rest) hat hop).trans (h rest)

theorem plays_macrst {s : State} (ha : s.cfg.admissible = true) (h : swrstBit s.regs.ctrl = true) :
    Plays [.macrst] s (macReset s) :=
  .single fun rest => by
    rw [step_withMoves_cons ha, fetchMove_macrst_of_request (s := s.withMoves rest) h]
    rfl

/-- The control register after a reset request has bit 0 set (40_driver_contract.md R166). -/
theorem swrstBit_or_one (w : Word) : swrstBit (w ||| 1) = true := by simp [swrstBit]

/-! ### N0 to N3 -/

/-- The divider's choice, as a micro-step of N2 (40_driver_contract.md R168). -/
theorem initN2_withMoves (s : State) : ∃ events diag, ∀ rest, initN2 (s.withMoves rest) =
    { s with
      hpc := .n3, hsub := .off, hmic := 0, h := { s.h with code := (mdcSel s.cfg).1 }
      events := events, regs := { s.regs with diag := diag } }.withMoves rest := by
  have e : ∀ rest, initN2 (s.withMoves rest) =
      goto .n3 (raiseOpt (mdcSel s.cfg).2 { s with h := { s.h with code := (mdcSel s.cfg).1 }, moves := rest }) :=
    fun _ => rfl
  cases hev : (mdcSel s.cfg).2 with
  | none => exact ⟨s.events, s.regs.diag, fun rest => by rw [e, hev]; rfl⟩
  | some ev => exact ⟨s.events ++ [ev], s.regs.diag ||| diagBits ev, fun rest => by rw [e, hev]; rfl⟩

/-- From the command to N4: the registers reset, the divider chosen and written. -/
theorem plays_init_to_n4 {s : State} (ha : s.cfg.admissible = true) (hidle : s.hpc = .idle) (hrun : s.inIsr = false)
    (hquiet : s.hostBuf = []) : ∃ h events diag, Plays [.cmd 1, .host, .macrst, .host, .host, .host] s
      { s with
        hpc := .n4, hsub := .off, hmic := 0, dirty := [], initialized := false, h := h, events := events
        rx := ⟨.stopped, 0, none⟩, tx := ⟨.stopped, 0, none⟩
        regs := { Regs.zero with
          mdioCtrl := (mdcSel s.cfg).1.setWidth 32 <<< 4, diag := diag
          argBuf := s.regs.argBuf, argLen := s.regs.argLen, result := s.regs.result } } := by
  let s0 : State := { s with hpc := .n0, hsub := .off, hmic := 0, dirty := [] }
  have hcmd : Plays [.cmd 1] s s0 := plays_cmd (i := .init) ha hidle hrun (by decide) exec_init_idle nofun
  let s1 : State := { s0 with
    hpc := .n1, initialized := false, regs := { s.regs with ctrl := s.regs.ctrl ||| 1 }, h := s.h.noPolls }
  have h0 : Plays [.host] s0 s1 := plays_init (l := .n0) ha ⟨rfl, rfl, hrun⟩ fun rest => by
    refine (initN0_eq (s0.withMoves rest)).trans ?_
    rw [flush_host_of_nil (s := s0.withMoves rest) hquiet]
    rfl
  have hreset : Plays [.macrst] s1 (macReset s1) := plays_macrst ha (swrstBit_or_one _)
  let s2 : State := { macReset s1 with hpc := .n2, h := { s1.h with c := 0 } }
  have h1 : Plays [.host] (macReset s1) s2 := plays_init (l := .n1) ha ⟨rfl, rfl, hrun⟩ fun rest => by
    refine (congrArg Host.Outcome.next (initN1_of_done (s := (macReset s1).withMoves rest)
      (show swrstBit 0 = false by decide))).trans ?_
    rw [flush_host_of_nil (s := (macReset s1).withMoves rest) hquiet]
    rfl
  obtain ⟨events, diag, e2⟩ := initN2_withMoves s2
  let s3 : State := { s2 with
    hpc := .n3, hsub := .off, hmic := 0, h := { s2.h with code := (mdcSel s.cfg).1 }
    events := events, regs := { s2.regs with diag := diag } }
  have h2 : Plays [.host] s2 s3 := plays_init (l := .n2) ha ⟨rfl, rfl, hrun⟩ fun rest =>
    congrArg Host.Outcome.next (e2 rest)
  have h3 := plays_init (l := .n3) (s := s3) (t := { s3 with
      hpc := .n4, regs := { s3.regs with mdioCtrl := (mdcSel s.cfg).1.setWidth 32 <<< 4 } }) ha ⟨rfl, rfl, hrun⟩
    fun rest => by
      refine (initN3_of_free (s := s3.withMoves rest) (show busyBit 0 = false by decide)).trans ?_
      rw [flush_host_of_nil (s := s3.withMoves rest) hquiet]
      rfl
  exact ⟨_, events, diag, ((((hcmd.append h0).append hreset).append h1).append h2).append h3⟩

/-! ### N4 and N5 -/

/-- A write called by a label, the hardware answering at once, nothing outstanding. -/
theorem plays_called_write {op : Instr} {s : State} {mic : Nat} (ha : s.cfg.admissible = true)
    (hop : opOf s.hpc = some op) (hrun : s.inIsr = false) (hquiet : s.hostBuf = [])
    (hfree : busyBit s.regs.mdioCtrl = false) (hcall : Plays [.host] s (callSub .mw0 mic s)) :
    ∃ c k kWraps phy, Plays mdioWriteMoves s
      { s with
        hsub := .off, hmic := mic, h := { s.h with c := c, k := k, kWraps := kWraps, ok := true }
        phy := phy, phyLog := s.phyLog ++ [⟨s.cfg.phyAddr, mdioReg { s with hmic := mic }, s.cfg.bcrReset⟩]
        regs := { s.regs with
          mdioCtrl := doneWord { s with hmic := mic } true, mdioData := s.cfg.bcrReset.setWidth 32 } } := by
  obtain ⟨c, k, kWraps, phy, -, h⟩ := plays_write (op := op) (p := 0) (s := callSub .mw0 mic s) ha ⟨hop, rfl, hrun⟩ hfree
    (admissible_bounds ha).2.2.1
  rw [flush_host_of_nil (s := callSub .mw0 mic s) hquiet] at h
  exact ⟨c, k, kWraps, phy, hcall.append h⟩

/-- The PHY's identifier, as a micro-step of N5 (42_mdio_phy_bridge.md R220). -/
theorem identify_withMoves (s : State) : ∃ events diag, ∀ rest, identify (s.withMoves rest) =
    { s with
      phyId := phyIdOf s.h.id1 s.h.id2, vendor := classify s.cfg (phyIdOf s.h.id1 s.h.id2)
      h := { s.h with ok := true }, events := events, regs := { s.regs with diag := diag } }.withMoves rest := by
  cases habs : absentId (phyIdOf s.h.id1 s.h.id2) with
  | true =>
    exact ⟨s.events ++ [.phyAbsent], s.regs.diag ||| diagBits .phyAbsent, fun rest =>
      (if_pos (show absentId (phyIdOf s.h.id1 s.h.id2) = true from habs)).trans rfl⟩
  | false =>
    exact ⟨s.events, s.regs.diag, fun rest =>
      (if_neg (show ¬ absentId (phyIdOf s.h.id1 s.h.id2) = true from Bool.eq_false_iff.1 habs)).trans rfl⟩

/-- One of the two reads of `PHY.IDENT`, called at micro-step `mic`, with nothing outstanding. -/
theorem plays_ident_read {s : State} {mic : Nat} (ha : s.cfg.admissible = true) (hpc : s.hpc = .n5)
    (hsub : s.hsub = .off) (hrun : s.inIsr = false) (hquiet : s.hostBuf = []) (hfree : busyBit s.regs.mdioCtrl = false)
    (hcall : ∀ rest, initN5 (s.withMoves rest) = callSub .mr0 mic (s.withMoves rest)) :
    ∃ h i ctrl data, Plays mdioReadMoves s
      { s with hmic := mic, h := h, i := i, regs := { s.regs with mdioCtrl := ctrl, mdioData := data } } ∧
      h.ok = true ∧ h.v = phyRead s s.cfg.phyAddr (if mic ≤ 1 then s.cfg.regId1 else s.cfg.regId2) ∧
      h.id1 = s.h.id1 ∧ crField ctrl = crField s.regs.mdioCtrl ∧ busyBit ctrl = false := by
  obtain ⟨b, p, c, k, kWraps, i, h⟩ := plays_called_read (op := .init) (mic := mic) ha (by rw [hpc]; rfl) hrun hfree
    (plays_init (l := .n5) ha ⟨hpc, hsub, hrun⟩ fun rest => by
      rw [initLabel, show (s.withMoves rest).hpc = .n5 from hpc]
      exact congrArg Host.Outcome.next (hcall rest))
  rw [seenBy_of_nil hquiet, ← hquiet, ← hsub] at h
  refine ⟨_, i, _, _, h, rfl, ?_, rfl, crField_doneWord _ _, busyBit_doneWord _ _⟩
  simp only [mdioReg, hpc]

/-- `PHY.RESET` and `PHY.IDENT`: from N4 to N6. -/
theorem plays_init_phy {s : State} (ha : s.cfg.admissible = true) (hpc : s.hpc = .n4) (hsub : s.hsub = .off)
    (hmic : s.hmic = 0) (hrun : s.inIsr = false) (hquiet : s.hostBuf = []) (hfree : busyBit s.regs.mdioCtrl = false) :
    ∃ h i phy id events ctrl data diag, Plays
      (mdioWriteMoves ++ [.host] ++ mdioReadMoves ++ [.host] ++ mdioReadMoves ++ [.host, .host]) s
      { s with
        hpc := .n6, h := h, i := i, phy := phy, phyLog := s.phyLog ++ [⟨s.cfg.phyAddr, s.cfg.regBcr, s.cfg.bcrReset⟩]
        phyId := id, vendor := classify s.cfg id, events := events
        regs := { s.regs with mdioCtrl := ctrl, mdioData := data, diag := diag } } ∧
      id = phyIdOf (phyRead { s with phy := phy } s.cfg.phyAddr s.cfg.regId1)
        (phyRead { s with phy := phy } s.cfg.phyAddr s.cfg.regId2) ∧
      crField ctrl = crField s.regs.mdioCtrl ∧ busyBit ctrl = false := by
  obtain ⟨c, k, kWraps, phy, hwrite⟩ := plays_called_write (op := .init) (mic := 1) ha (by rw [hpc]; rfl) hrun hquiet hfree
    (plays_init (l := .n4) ha ⟨hpc, hsub, hrun⟩ fun rest => by
      rw [initLabel, show (s.withMoves rest).hpc = .n4 from hpc]
      exact congrArg Host.Outcome.next (if_pos hmic))
  rw [show mdioReg { s with hmic := 1 } = s.cfg.regBcr by simp only [mdioReg, hpc]] at hwrite
  let s4 : State := { s with
    hsub := .off, hmic := 1, h := { s.h with c := c, k := k, kWraps := kWraps, ok := true }
    phy := phy, phyLog := s.phyLog ++ [⟨s.cfg.phyAddr, s.cfg.regBcr, s.cfg.bcrReset⟩]
    regs := { s.regs with mdioCtrl := doneWord { s with hmic := 1 } true, mdioData := s.cfg.bcrReset.setWidth 32 } }
  let s5 : State := { s4 with hpc := .n5, hmic := 0 }
  have h4 : Plays [.host] s4 s5 := plays_init (l := .n4) ha ⟨hpc, rfl, hrun⟩ fun rest => by
    rw [initLabel, show (s4.withMoves rest).hpc = .n4 from hpc]
    rfl
  obtain ⟨g1, i1, ctrl1, data1, hread1, hok1, hv1, -, hcr1, hbusy1⟩ := plays_ident_read (s := s5) (mic := 1) ha rfl rfl hrun
    hquiet (busyBit_doneWord _ _) fun rest => rfl
  let s51 : State := { s5 with
    hmic := 1, h := g1, i := i1, regs := { s5.regs with mdioCtrl := ctrl1, mdioData := data1 } }
  let s52 : State := { s51 with hmic := 2, h := { g1 with id1 := g1.v } }
  have h51 : Plays [.host] s51 s52 := plays_init (l := .n5) ha ⟨rfl, rfl, hrun⟩ fun rest =>
    congrArg Host.Outcome.next (if_pos hok1)
  obtain ⟨g2, i2, ctrl2, data2, hread2, hok2, hv2, hid1, hcr2, hbusy2⟩ := plays_ident_read (s := s52) (mic := 3) ha rfl rfl
    hrun hquiet hbusy1 fun rest => rfl
  let s53 : State := { s52 with
    hmic := 3, h := g2, i := i2, regs := { s52.regs with mdioCtrl := ctrl2, mdioData := data2 } }
  let s54 : State := { s53 with hmic := 4, h := { g2 with id2 := g2.v } }
  have h53 : Plays [.host] s53 s54 := plays_init (l := .n5) ha ⟨rfl, rfl, hrun⟩ fun rest =>
    congrArg Host.Outcome.next (if_pos hok2)
  obtain ⟨events, diag, e⟩ := identify_withMoves s54
  have h54 : Plays [.host] s54
      { s54 with
        hpc := .n6, hmic := 0, phyId := phyIdOf g2.id1 g2.v, vendor := classify s.cfg (phyIdOf g2.id1 g2.v)
        h := { s54.h with ok := true }, events := events, regs := { s54.regs with diag := diag } } := plays_init (l := .n5) ha ⟨rfl, rfl, hrun⟩ fun rest =>
    congrArg (fun t => Host.Outcome.next (goto .n6 t)) (e rest)
  have hall := (((((hwrite.append h4).append hread1).append h51).append hread2).append h53).append h54
  refine ⟨{ g2 with id2 := g2.v, ok := true }, i2, phy, phyIdOf g2.id1 g2.v, events, ctrl2, data2, diag, ?_, ?_, ?_, hbusy2⟩
  · rw [hsub, hmic]
    exact hall
  · rw [hid1, hv2]
    exact congrArg (phyIdOf · _) hv1
  · exact hcr2.trans (hcr1.trans (crField_doneWord _ _))

/-! ### N6 and N7 -/

/-- The descriptor rings begin at addresses that a base register holds (20_memory.md R94). -/
theorem admissible_aligned {c : Cfg} (ha : c.admissible = true) :
    c.rxdBase &&& baseMask = c.rxdBase ∧ c.txdBase &&& baseMask = c.txdBase := by
  simp only [Cfg.admissible, Cfg.arraysOk, Bool.and_eq_true, decide_eq_true_eq] at ha
  obtain ⟨-, ⟨⟨⟨⟨⟨⟨⟨⟨⟨⟨⟨⟨hrx, htx⟩, -⟩, -⟩, -⟩, -⟩, -⟩, -⟩, -⟩, -⟩, -⟩, -⟩, -⟩, -⟩ := ha
  exact ⟨and_baseMask hrx, and_baseMask htx⟩

/-- The bases, `RING.BUILD`, the station address and the filter: from N6 to N8. -/
theorem plays_init_rings {s : State} (ha : s.cfg.admissible = true) (hpc : s.hpc = .n6) (hsub : s.hsub = .off)
    (hmic : s.hmic = 0) (hrun : s.inIsr = false) (hquiet : s.hostBuf = []) (hctrl : s.regs.ctrl = 0) :
    ∃ h i, Plays
      ([.host, .host, .host] ++ List.replicate (8 * s.cfg.n + 2) .host ++ [.host] ++ List.replicate 3 .host) s
      { s with
        hpc := .n8, h := h, i := i, rxIdx := 0, txIdx := 0, ringsBuilt := true
        mem := Memory.performAll s.mem (buildStores s.cfg)
        regs := { s.regs with
          rxBase := s.cfg.rxdBase, txBase := s.cfg.txdBase, macLo := macLoOf s.cfg.mac, macHi := macHiOf s.cfg.mac
          filter := 2 } } := by
  obtain ⟨hrx, htx⟩ := admissible_aligned ha
  have hlabel : ∀ {u v : State}, u.cfg = s.cfg → hostAt .n6 u → u.hostBuf = [] →
      (∀ rest, initN6 (u.withMoves rest) = .next (v.withMoves rest)) → Plays [.host] u v := fun hcfg hat hb h =>
    plays_init (l := .n6) (hcfg ▸ ha) hat fun rest => by
      rw [initLabel, show (State.withMoves _ rest).hpc = .n6 from hat.1]
      exact h rest
  have hdisabled : (∀ u : State, u.regs.ctrl = s.regs.ctrl → rxenBit u.regs.ctrl = false) ∧
      ∀ u : State, u.regs.ctrl = s.regs.ctrl → txenBit u.regs.ctrl = false :=
    ⟨fun u h => by rw [h, hctrl]; decide, fun u h => by rw [h, hctrl]; decide⟩
  let s1 : State := { s with hmic := 1, regs := { s.regs with rxBase := s.cfg.rxdBase } }
  have h0 : Plays [.host] s s1 := hlabel rfl ⟨hpc, hsub, hrun⟩ hquiet fun rest => by
    refine (initN6_rxBase (s := s.withMoves rest) hmic (hdisabled.1 (s.withMoves rest) rfl)).trans ?_
    rw [flush_host_of_nil (s := s.withMoves rest) hquiet, show (s.withMoves rest).cfg = s.cfg from rfl, hrx]
    rfl
  let s2 : State := { s1 with hmic := 2, regs := { s1.regs with txBase := s.cfg.txdBase } }
  have h1 : Plays [.host] s1 s2 := hlabel rfl ⟨hpc, hsub, hrun⟩ hquiet fun rest => by
    refine (initN6_txBase (s := s1.withMoves rest) rfl (hdisabled.2 (s1.withMoves rest) rfl)).trans ?_
    rw [flush_host_of_nil (s := s1.withMoves rest) hquiet, show (s1.withMoves rest).cfg = s.cfg from rfl, htx]
    rfl
  let s3 : State := { s2 with hsub := .b0, hmic := 0, h := { s.h with j := 0 } }
  have h2 : Plays [.host] s2 s3 := hlabel rfl ⟨hpc, hsub, hrun⟩ hquiet fun rest => rfl
  obtain ⟨byte, bufp, i, hbuild⟩ := hostRuns_build (s := s3) ha hpc rfl hrun rfl rfl hquiet
  let s4 : State := { s3 with
    hsub := .off, hmic := 3, rxIdx := 0, txIdx := 0, ringsBuilt := true
    mem := Memory.performAll s.mem (buildStores s.cfg), hostBuf := [], i := i
    h := { s3.h with byte := byte, bufp := bufp } }
  let s7 : State := { s4 with hpc := .n7, hmic := 0 }
  have h3 : Plays [.host] s4 s7 := hlabel rfl ⟨hpc, rfl, hrun⟩ rfl fun rest => rfl
  let s71 : State := { s7 with hmic := 1, regs := { s7.regs with macLo := macLoOf s.cfg.mac } }
  have h70 : Plays [.host] s7 s71 := plays_init (l := .n7) ha ⟨rfl, rfl, hrun⟩ fun rest => by
    refine (initN7_lo (s := s7.withMoves rest) rfl).trans ?_
    rw [flush_host_of_nil (s := s7.withMoves rest) rfl]
    rfl
  let s72 : State := { s71 with hmic := 2, regs := { s71.regs with macHi := macHiOf s.cfg.mac } }
  have h71 : Plays [.host] s71 s72 := plays_init (l := .n7) ha ⟨rfl, rfl, hrun⟩ fun rest => by
    refine (initN7_hi (s := s71.withMoves rest) rfl).trans ?_
    rw [flush_host_of_nil (s := s71.withMoves rest) rfl]
    rfl
  have h72 : Plays [.host] s72 { s72 with hpc := .n8, hmic := 0, regs := { s72.regs with filter := 2 } } :=
    plays_init (l := .n7) ha ⟨rfl, rfl, hrun⟩ fun rest => by
      refine (initN7_filter (s := s72.withMoves rest) (by nofun) (by nofun)).trans ?_
      rw [flush_host_of_nil (s := s72.withMoves rest) rfl]
      rfl
  have hall := ((((h0.append h1).append h2).append hbuild.plays).append h3).append ((h70.append h71).append h72)
  refine ⟨s4.h, i, ?_⟩
  rw [hsub, hmic, hquiet]
  exact hall

/-! ### N8 to N12 -/

/-- The end of `INIT`: link, flag, enables, interrupt mask and result. -/
theorem plays_init_end {s : State} (ha : s.cfg.admissible = true) (hpc : s.hpc = .n8) (hsub : s.hsub = .off)
    (hmic : s.hmic = 0) (hrun : s.inIsr = false) (hquiet : s.hostBuf = []) (hctrl : s.regs.ctrl = 0) :
    Plays (List.replicate 5 .host) s
      { s with
        hpc := .idle, link := .down, initialized := true, rx := ⟨.running, 0, none⟩, tx := ⟨.running, 0, none⟩
        regs := { s.regs with ctrl := 6, intEn := 1, result := 1 } } := by
  let s9 : State := { s with hpc := .n9, hsub := .off, hmic := 0, link := .down }
  have h8 : Plays [.host] s s9 := plays_init (l := .n8) ha ⟨hpc, hsub, hrun⟩ fun rest => by
    rw [initLabel, show (s.withMoves rest).hpc = .n8 from hpc]
    rfl
  let s10 : State := { s9 with hpc := .n10, initialized := true }
  have h9 : Plays [.host] s9 s10 := plays_init (l := .n9) ha ⟨rfl, rfl, hrun⟩ fun rest => rfl
  let s11 : State := { s10 with
    hpc := .n11, rx := ⟨.running, 0, none⟩, tx := ⟨.running, 0, none⟩, regs := { s.regs with ctrl := 6 } }
  have h10 : Plays [.host] s10 s11 := plays_init (l := .n10) ha ⟨rfl, rfl, hrun⟩ fun rest => by
    refine (initN10_eq (s10.withMoves rest)).trans ?_
    rw [flush_host_of_nil (s := s10.withMoves rest) hquiet, show (s10.withMoves rest).regs = s.regs from rfl, hctrl]
    rfl
  let s12 : State := { s11 with hpc := .n12, regs := { s11.regs with intEn := 1 } }
  have h11 : Plays [.host] s11 s12 := plays_init (l := .n11) ha ⟨rfl, rfl, hrun⟩ fun rest => by
    refine (initN11_eq (s11.withMoves rest)).trans ?_
    rw [flush_host_of_nil (s := s11.withMoves rest) hquiet]
    rfl
  have h12 : Plays [.host] s12 (finish 1 s12) := plays_init (l := .n12) ha ⟨rfl, rfl, hrun⟩ fun rest => rfl
  have hall := (((h8.append h9).append h10).append h11).append h12
  rw [hsub, hmic]
  exact hall

/-! ### O38 -/

/-- The divider code in its place is the field of the control word, BUSY clear (40_driver_contract.md R168). -/
theorem crField_code : ∀ code : BitVec 4, crField (code.setWidth 32 <<< 4) = code := by decide

theorem busyBit_code : ∀ code : BitVec 4, busyBit (code.setWidth 32 <<< 4) = false := by decide

/-- Settles O38: reset and divider, PHY, rings, enables, one part of the schedule after the other. -/
theorem initBringsTheMachineUp : Obligations.InitBringsTheMachineUp := by
  intro s ms ha hidle hsub hrun hquiet hmoves
  obtain ⟨h1, events1, diag1, p1⟩ := plays_init_to_n4 ha hidle hrun hquiet
  obtain ⟨h2, i2, phy, id, events2, ctrl, data, diag2, p2, hid, hcr, hbusy⟩ :=
    plays_init_phy (s := { s with
      hpc := .n4, hsub := .off, hmic := 0, dirty := [], initialized := false, h := h1, events := events1
      rx := ⟨.stopped, 0, none⟩, tx := ⟨.stopped, 0, none⟩
      regs := { Regs.zero with
        mdioCtrl := (mdcSel s.cfg).1.setWidth 32 <<< 4, diag := diag1
        argBuf := s.regs.argBuf, argLen := s.regs.argLen, result := s.regs.result } })
      ha rfl rfl rfl hrun hquiet (busyBit_code _)
  let s6 : State := { s with
    hpc := .n6, hsub := .off, hmic := 0, dirty := [], initialized := false, h := h2, i := i2, events := events2
    phy := phy, phyLog := s.phyLog ++ [⟨s.cfg.phyAddr, s.cfg.regBcr, s.cfg.bcrReset⟩]
    phyId := id, vendor := classify s.cfg id
    rx := ⟨.stopped, 0, none⟩, tx := ⟨.stopped, 0, none⟩
    regs := { Regs.zero with
      mdioCtrl := ctrl, mdioData := data, diag := diag2
      argBuf := s.regs.argBuf, argLen := s.regs.argLen, result := s.regs.result } }
  obtain ⟨h3, i3, p3⟩ := plays_init_rings (s := s6) ha rfl rfl rfl hrun hquiet rfl
  have p4 := plays_init_end (s := { s6 with
      hpc := .n8, h := h3, i := i3, rxIdx := 0, txIdx := 0, ringsBuilt := true
      mem := Memory.performAll s.mem (buildStores s.cfg)
      regs := { s6.regs with
        rxBase := s.cfg.rxdBase, txBase := s.cfg.txdBase, macLo := macLoOf s.cfg.mac, macHi := macHiOf s.cfg.mac
        filter := 2 } }) ha rfl rfl rfl hrun hquiet rfl
  have hall := ((p1.append p2).append p3).append p4
  have hsched : initMoves s.cfg.n = [.cmd 1, .host, .macrst, .host, .host, .host]
      ++ (mdioWriteMoves ++ [.host] ++ mdioReadMoves ++ [.host] ++ mdioReadMoves ++ [.host, .host])
      ++ ([.host, .host, .host] ++ List.replicate (8 * s.cfg.n + 2) .host ++ [.host] ++ List.replicate 3 .host)
      ++ List.replicate 5 .host := by simp only [initMoves, List.append_assoc]
  rw [hsched] at hmoves ⊢
  exact ⟨_, hall.run hmoves, rfl, rfl, rfl, rfl, rfl, rfl, rfl, rfl, rfl, rfl, rfl, rfl, rfl, rfl,
    hcr.trans (crField_code _), hbusy, rfl, hid, rfl, rfl, rfl, rfl, rfl, rfl, hquiet, rfl, rfl, rfl, rfl, rfl⟩

end Sys2Proof.Machine

/-! PROOFS. A whole `TX` (44_transmit.md steps T0 to T8). -/

namespace Sys2Proof.Machine

/-! ### Runs of one instruction -/

theorem execMany_append {i : Instr} {l : Nat} {t u : State} (h' : execMany i l t = .next u) :
    ∀ {k : Nat} {s : State}, execMany i k s = .next t → execMany i (k + l) s = .next u
  | 0, _, h => by cases h; rwa [Nat.zero_add]
  | k + 1, s, h => by
    cases he : exec i s with
    | next v => rw [execMany_succ he] at h; rw [Nat.succ_add, execMany_succ he]; exact execMany_append h' h
    | fault e => simp [execMany, he] at h
    | refused e => simp [execMany, he] at h

theorem execMany_one {i : Instr} {s t : State} (h : exec i s = .next t) : execMany i 1 s = .next t := execMany_succ h

/-! ### Where the slots lie -/

/-- The arrays `TX` stores to end inside the address space and inside 32 bits, and lie apart (20_memory.md R94). -/
theorem admissible_tx {c : Cfg} (ha : c.admissible = true) :
    c.txdBase.toNat + 16 * c.n ≤ 2 ^ c.addrW ∧ c.txbufBase.toNat + c.bufSize * c.n ≤ 2 ^ c.addrW ∧
      c.txbufBase.toNat + c.bufSize * c.n ≤ 2 ^ 32 ∧
      (c.txdBase.toNat + 16 * c.n ≤ c.txbufBase.toNat ∨ c.txbufBase.toNat + c.bufSize * c.n ≤ c.txdBase.toNat) := by
  simp only [Cfg.admissible, Cfg.arraysOk, Cfg.arrayFits, Cfg.descBytes, Cfg.bufBytes, rangesDisjoint, Bool.and_eq_true,
    Bool.or_eq_true] at ha
  obtain ⟨-, ⟨⟨⟨⟨⟨⟨⟨⟨-, hd, -⟩, -⟩, hb, hb'⟩, -⟩, -⟩, -⟩, -⟩, hapart⟩, -⟩ := ha
  exact ⟨of_decide_eq_true hd, of_decide_eq_true hb, of_decide_eq_true hb',
    hapart.imp of_decide_eq_true of_decide_eq_true⟩

theorem slot_end_le {size n i : Nat} (h : i < n) : size * i + size ≤ size * n := by
  rw [← Nat.mul_succ]; exact Nat.mul_le_mul_left _ h

theorem slotBuf_tx {c : Cfg} (ha : c.admissible = true) {i : Nat} (hi : i < c.n) :
    slotBuf c c.txbufBase i = c.txbufBase.toNat + c.bufSize * i := by
  obtain ⟨-, hfit, -, -⟩ := admissible_tx ha
  have hend := slot_end_le (size := c.bufSize) hi
  have hpos := bufSize_pos ha
  exact Nat.mod_eq_of_lt (by omega)

theorem descWord_tx {c : Cfg} (ha : c.admissible = true) {i k : Nat} (hi : i < c.n) (hk : k < 4) :
    descWord c c.txdBase i k = c.txdBase.toNat + (16 * i + 4 * k) := by
  obtain ⟨hfit, -, -, -⟩ := admissible_tx ha
  exact Nat.mod_eq_of_lt (by omega)

/-- A byte outside the rings' memory lies in no buffer. -/
theorem not_txBuf_of_elsewhere {c : Cfg} {a : Nat} (h : placeOf c a = .elsewhere) :
    ¬ (c.txbufBase.toNat ≤ a ∧ a < c.txbufBase.toNat + c.bufSize * c.n) := by
  intro hin
  have hrange : inRange a c.txbufBase.toNat c.bufBytes = true :=
    Bool.and_eq_true_iff.2 ⟨decide_eq_true hin.1, decide_eq_true hin.2⟩
  unfold placeOf at h
  split_ifs at h

/-! ### A frame that fits -/

/-- What `TX` finds when it queues a whole frame (44_transmit.md R270 to R274). -/
structure TxReady (s : State) : Prop where
  admissible : s.cfg.admissible = true
  run : s.inIsr = false
  slot : s.txIdx < s.cfg.n
  fits : s.regs.argLen.toNat ≤ s.cfg.bufSize
  free : ownBit (s.wordAt (txd s s.txIdx 0)) = false
  pointer : s.wordAt (txd s s.txIdx 2) = BitVec.ofNat 32 (slotBuf s.cfg s.cfg.txbufBase s.txIdx)
  source : ∀ k, k < s.regs.argLen.toNat → placeOf s.cfg (addrAt s.cfg s.regs.argBuf k) = .elsewhere

/-- Where the byte at offset `k` of the frame is, and where it goes. -/
def copySrc (s : State) (k : Nat) : Nat := addrAt s.cfg s.regs.argBuf k
def copyDst (s : State) (k : Nat) : Nat := slotBuf s.cfg s.cfg.txbufBase s.txIdx + k

/-- The first `j` bytes of the copy, as accesses. -/
def copies (s : State) (j : Nat) : List Pending := (List.range j).map fun k => .copy (copySrc s k) (copyDst s k)

theorem copies_succ (s : State) (j : Nat) : copies s (j + 1) = copies s j ++ [.copy (copySrc s j) (copyDst s j)] := by
  simp [copies, List.range_succ]

theorem fills_of_mem_copies {s : State} {j : Nat} : ∀ p ∈ copies s j, p.fills = none := by
  simp only [copies, List.mem_map]
  rintro _ ⟨k, -, rfl⟩
  rfl

section
variable {s : State}

/-- The slot's bytes lie inside its buffer. -/
theorem TxReady.copyDst_range (r : TxReady s) {k : Nat} (hk : k < s.regs.argLen.toNat) :
    s.cfg.txbufBase.toNat ≤ copyDst s k ∧ copyDst s k < s.cfg.txbufBase.toNat + s.cfg.bufSize * s.cfg.n := by
  have hend := slot_end_le (size := s.cfg.bufSize) r.slot
  have hfits := r.fits
  rw [copyDst, slotBuf_tx r.admissible r.slot]
  omega

/-- The pointer read from the descriptor leads there. -/
theorem TxReady.addrAt_pointer (r : TxReady s) {k : Nat} (hk : k < s.regs.argLen.toNat) :
    addrAt s.cfg (s.wordAt (txd s s.txIdx 2)) k = copyDst s k := by
  obtain ⟨-, hfit, hfit32, -⟩ := admissible_tx r.admissible
  obtain ⟨hlo, hhi⟩ := r.copyDst_range hk
  have htoNat : (BitVec.ofNat 32 (slotBuf s.cfg s.cfg.txbufBase s.txIdx)).toNat =
      slotBuf s.cfg s.cfg.txbufBase s.txIdx := by
    rw [BitVec.toNat_ofNat]
    exact Nat.mod_eq_of_lt (by rw [copyDst] at hhi; omega)
  rw [r.pointer, addrAt, addrSum, htoNat]
  exact Nat.mod_eq_of_lt (show copyDst s k < _ by omega)

theorem TxReady.copySrc_ne (r : TxReady s) {k l : Nat} (hk : k < s.regs.argLen.toNat) (hl : l < s.regs.argLen.toNat) :
    copySrc s k ≠ copyDst s l := fun h =>
  not_txBuf_of_elsewhere (r.source k hk) (by
    rw [show addrAt s.cfg s.regs.argBuf k = copyDst s l from h]; exact r.copyDst_range hl)

/-- No byte of the slot's buffer lies in a word of the descriptor. -/
theorem TxReady.copyDst_not_mem (r : TxReady s) {k w : Nat} (hk : k < s.regs.argLen.toNat) (hw : w < 4) :
    copyDst s k ∉ wordAddrs (txd s s.txIdx w) := by
  obtain ⟨-, -, -, hapart⟩ := admissible_tx r.admissible
  obtain ⟨hlo, hhi⟩ := r.copyDst_range hk
  have hslot := r.slot
  rw [mem_wordAddrs, txd, descWord_tx r.admissible r.slot hw]
  omega

/-- The copy leaves the descriptor alone. -/
theorem TxReady.copies_spare (r : TxReady s) {j w : Nat} (hj : j ≤ s.regs.argLen.toNat) (hw : w < 4) {a : Nat}
    (ha : a ∈ wordAddrs (txd s s.txIdx w)) : spares (copies s j) a := by
  intro p hp
  simp only [copies, List.mem_map, List.mem_range] at hp
  obtain ⟨k, hk, rfl⟩ := hp
  simp only [Pending.writes, List.mem_singleton]
  rintro rfl
  exact r.copyDst_not_mem (show k < _ by omega) hw ha

/-- The memory `m` says that the slot is software's. -/
def slotFree (s : State) (m : List Host.Cell) : Prop := hwOwns { s with mem := m } (txd s s.txIdx 0) = false

theorem TxReady.slotFree_self (r : TxReady s) : slotFree s s.mem := r.free

theorem slotFree_of_reads {m m' : List Host.Cell} (h : slotFree s m)
    (hread : ∀ a ∈ wordAddrs (txd s s.txIdx 0), Memory.get m' a = Memory.get m a) : slotFree s m' := by
  have e : ({ s with mem := m' } : State).wordAt (txd s s.txIdx 0) = ({ s with mem := m } : State).wordAt (txd s s.txIdx 0) :=
    State.wordAt_congr_byteAt fun b hb => State.byteAt_congr (hread b hb)
  exact (congrArg ownBit e).trans h

theorem TxReady.slotFree_copies (r : TxReady s) {j : Nat} (hj : j ≤ s.regs.argLen.toNat) :
    slotFree s (Memory.performAll s.mem (copies s j)) :=
  slotFree_of_reads r.slotFree_self fun _ ha => Memory.get_performAll_other _ _ _ (r.copies_spare hj (by decide) ha)

/-! ### The copy -/

/-- `s` at a place of `TX`. -/
def txPlace (s : State) (l : HostLabel) (mic : Nat) (h : HostRegs) (i : IsrRegs) (m : List Host.Cell)
    (b : List Pending) : State :=
  { s with hpc := l, hsub := .off, hmic := mic, dirty := [], h := h, i := i, mem := m, hostBuf := b }

/-- The accesses of the first `j` bytes: performed under SC; waiting under WEAK, at first behind the load of the buffer
pointer. -/
inductive CopyAccesses (s : State) : Nat → Word → List Host.Cell → List Pending → Prop
  | sc {j : Nat} (model : s.cfg.memModel = .sc) :
      CopyAccesses s j (s.wordAt (txd s s.txIdx 2)) (Memory.performAll s.mem (copies s j)) []
  | weak {j : Nat} (model : s.cfg.memModel = .weak) :
      CopyAccesses s j (s.wordAt (txd s s.txIdx 2)) s.mem (copies s j)
  | first (model : s.cfg.memModel = .weak) (bufp : Word) :
      CopyAccesses s 0 bufp s.mem [.load (txd s s.txIdx 2) .hostBufp]

/-- HOST's registers once `j` bytes have been read and written. -/
structure Copying (s : State) (j : Nat) (h : HostRegs) (m : List Host.Cell) (b : List Pending) : Prop where
  buf : h.buf = s.regs.argBuf
  len : h.len = s.regs.argLen
  w0 : h.w0 = s.wordAt (txd s s.txIdx 0)
  offset : h.j = BitVec.ofNat 32 j
  accesses : CopyAccesses s j h.bufp m b

theorem CopyAccesses.issued {j : Nat} {p : Word} {m : List Host.Cell} {b : List Pending} (h : CopyAccesses s j p m b) :
    Issued s (copies s j) m b := by
  cases h with
  | sc model => exact ⟨fun _ => rfl, rfl⟩
  | weak model => exact ⟨fun h => absurd (model.symm.trans h) (by decide), rfl⟩
  | first model => exact ⟨fun h => absurd (model.symm.trans h) (by decide), rfl⟩

theorem CopyAccesses.slotFree (r : TxReady s) {j : Nat} {p : Word} {m : List Host.Cell} {b : List Pending}
    (hj : j ≤ s.regs.argLen.toNat) (h : CopyAccesses s j p m b) : slotFree s m := by
  cases h with
  | sc model => exact r.slotFree_copies hj
  | weak model => exact r.slotFree_self
  | first model => exact r.slotFree_self

theorem toNat_offset {j : Nat} (hj : j ≤ s.regs.argLen.toNat) : (BitVec.ofNat 32 j).toNat = j := by
  have := s.regs.argLen.isLt
  rw [BitVec.toNat_ofNat]
  omega

/-- One byte of the copy is read (R274). -/
theorem TxReady.copyRead (r : TxReady s) {j : Nat} (hj : j < s.regs.argLen.toNat) {h : HostRegs} {i : IsrRegs}
    {m : List Host.Cell} {b : List Pending} (c : Copying s j h m b) : exec .tx (txPlace s .t2 1 h i m b) =
      .next { issue .host (.load (copySrc s j) .hostByte) (txPlace s .t2 1 h i m b) with hmic := 2 } := by
  obtain ⟨-, -, hread, -⟩ := txCopiesOneByte (txPlace s .t2 1 h i m b) ⟨rfl, rfl, r.run⟩
  have hoff : h.j.toNat = j := by rw [c.offset]; exact toNat_offset (Nat.le_of_lt hj)
  have hsrc : copySrc s j = addrAt s.cfg h.buf h.j.toNat := by rw [c.buf, hoff]; rfl
  have hplace : placeOf s.cfg (copySrc s j) = .elsewhere := r.source j hj
  obtain ⟨hload, -⟩ := hread (copySrc s j) hsrc rfl (show h.j.toNat < h.len.toNat by rw [hoff, c.len]; exact hj)
    (by rw [show placeOf (txPlace s .t2 1 h i m b).cfg _ = _ from hplace]; rfl)
    (by rw [show placeOf (txPlace s .t2 1 h i m b).cfg _ = _ from hplace]; rfl)
  exact hload (by rw [show placeOf (txPlace s .t2 1 h i m b).cfg _ = _ from hplace]; nofun) rfl

theorem ofNat_succ_offset (j : Nat) : BitVec.ofNat 32 j + 1 = BitVec.ofNat 32 (j + 1) := by
  rw [BitVec.ofNat_add]; rfl

/-- One byte is read and written: two micro-steps. -/
theorem TxReady.copyByte (r : TxReady s) {j : Nat} (hj : j < s.regs.argLen.toNat) {h : HostRegs} {i : IsrRegs}
    {m : List Host.Cell} {b : List Pending} (c : Copying s j h m b) :
    ∃ h' m' b', Copying s (j + 1) h' m' b' ∧
      execMany .tx 2 (txPlace s .t2 1 h i m b) = .next (txPlace s .t2 1 h' i m' b') := by
  have hread := r.copyRead (i := i) hj c
  have hoff : h.j.toNat = j := by rw [c.offset]; exact toNat_offset (Nat.le_of_lt hj)
  have hfree : slotFree s m := c.accesses.slotFree r (by omega)
  have hnext : h.j + 1 = BitVec.ofNat 32 (j + 1) := by rw [c.offset, ofNat_succ_offset]
  obtain ⟨hbuf, hlen, hw0, hoffset, hacc⟩ := c
  have hdst : addrAt s.cfg (s.wordAt (txd s s.txIdx 2)) h.j.toNat = copyDst s j := by
    rw [hoff]; exact r.addrAt_pointer hj
  generalize hp : h.bufp = p at hacc
  cases hacc with
  | sc model =>
    rw [issue_of_sc (s := txPlace s .t2 1 h i _ []) model] at hread
    obtain ⟨-, -, -, hwrite⟩ := txCopiesOneByte
      (txPlace s .t2 2 { h with byte := Memory.read (Memory.performAll s.mem (copies s j)) (copySrc s j) } i
        (Memory.performAll s.mem (copies s j)) []) ⟨rfl, rfl, r.run⟩
    obtain ⟨hstore, -⟩ := hwrite rfl hfree
    obtain ⟨u, rfl, hstore⟩ := hstore nofun
    refine ⟨{ h with byte := Memory.read (Memory.performAll s.mem (copies s j)) (copySrc s j), j := h.j + 1 },
      Memory.performAll s.mem (copies s (j + 1)), [], ⟨hbuf, hlen, hw0, hnext, ?_⟩, ?_⟩
    · rw [hp]; exact .sc model
    · refine (execMany_succ hread).trans (execMany_one (hstore.trans ?_))
      rw [issue_of_sc (s := txPlace s .t2 2 _ i _ []) model, copies_succ, Memory.performAll_append, ← hdst, ← hp]
      rfl
  | weak model =>
    rw [issue_of_weak (s := txPlace s .t2 1 h i _ _) model] at hread
    obtain ⟨-, -, -, hwrite⟩ := txCopiesOneByte
      (txPlace s .t2 2 h i s.mem (copies s j ++ [.load (copySrc s j) .hostByte])) ⟨rfl, rfl, r.run⟩
    obtain ⟨-, hstore, -, -⟩ := hwrite rfl hfree
    refine ⟨{ h with j := h.j + 1 }, s.mem, copies s (j + 1), ⟨hbuf, hlen, hw0, hnext, ?_⟩, ?_⟩
    · rw [hp]; exact .weak model
    · refine (execMany_succ hread).trans (execMany_one ((hstore _ _ rfl fills_of_mem_copies).trans ?_))
      rw [copies_succ, ← hdst, ← hp]
      rfl
  | first model bufp =>
    rw [issue_of_weak (s := txPlace s .t2 1 h i _ _) model] at hread
    obtain ⟨-, -, -, hwrite⟩ := txCopiesOneByte
      (txPlace s .t2 2 h i s.mem [.load (txd s s.txIdx 2) .hostBufp, .load (copySrc s 0) .hostByte]) ⟨rfl, rfl, r.run⟩
    obtain ⟨-, -, hstore, -⟩ := hwrite rfl hfree
    refine ⟨{ h with j := h.j + 1, bufp := s.wordAt (txd s s.txIdx 2) }, s.mem, copies s 1,
      ⟨hbuf, hlen, hw0, hnext, .weak model⟩, ?_⟩
    refine (execMany_succ hread).trans (execMany_one ((hstore _ _ rfl).trans ?_))
    rw [copies_succ, ← hdst]
    rfl

/-- The whole copy. -/
theorem TxReady.copyAll (r : TxReady s) : ∀ (k : Nat) {j : Nat} {h : HostRegs} {i : IsrRegs} {m : List Host.Cell}
    {b : List Pending}, j + k = s.regs.argLen.toNat → Copying s j h m b →
    ∃ h' m' b', Copying s s.regs.argLen.toNat h' m' b' ∧
      execMany .tx (2 * k) (txPlace s .t2 1 h i m b) = .next (txPlace s .t2 1 h' i m' b')
  | 0, j, h, i, m, b, hj, c => by
    rw [Nat.add_zero] at hj
    subst hj
    exact ⟨h, m, b, c, rfl⟩
  | k + 1, j, h, i, m, b, hj, c => by
    obtain ⟨h1, m1, b1, c1, e1⟩ := r.copyByte (i := i) (show j < _ by omega) c
    obtain ⟨h', m', b', c', e'⟩ := TxReady.copyAll r k (i := i) (by omega) c1
    refine ⟨h', m', b', c', ?_⟩
    rw [show 2 * (k + 1) = 2 + 2 * k by omega]
    exact execMany_append e' e1

/-! ### Before and after the copy -/

theorem exec_tx_idle (u : State) (h : u.hpc = .idle) : exec .tx u = startCommand true .t0 u :=
  contractOp_of_idle h ..

/-- From the command to the copy. -/
theorem TxReady.start (r : TxReady s) (hidle : s.hpc = .idle) (hinit : s.initialized = true) (hquiet : s.hostBuf = []) :
    ∃ h m b, Copying s 0 h m b ∧ execMany .tx 6 s = .next (txPlace s .t2 1 h s.i m b) := by
  have hcmd : exec .tx s = .next (txPlace s .t0 0 s.h s.i s.mem []) := by
    rw [exec_tx_idle s hidle, (startCommand_next ..).2 ⟨hidle, r.run, fun _ => hinit, rfl⟩, txPlace, ← hquiet]
  obtain ⟨htest, hlong⟩ := txTestsRingThenLength
  obtain ⟨hbuf, -⟩ := htest (txPlace s .t0 0 s.h s.i s.mem []) ⟨rfl, rfl, r.run⟩ rfl
  let h1 : HostRegs := { s.h with buf := s.regs.argBuf }
  obtain ⟨-, hlen, -⟩ := htest (txPlace s .t0 1 h1 s.i s.mem []) ⟨rfl, rfl, r.run⟩ rfl
  let h2 : HostRegs := { h1 with len := s.regs.argLen }
  obtain ⟨-, -, -, hfree⟩ := htest (txPlace s .t0 2 h2 s.i s.mem []) ⟨rfl, rfl, r.run⟩ rfl
  let h3 : HostRegs := { h2 with w0 := s.wordAt (txd s s.txIdx 0) }
  obtain ⟨-, hfits⟩ := hlong (txPlace s .t1 0 h3 s.i s.mem []) ⟨rfl, rfl, r.run⟩
  obtain ⟨hpointer, -⟩ := txCopiesOneByte (txPlace s .t2 0 h3 s.i s.mem []) ⟨rfl, rfl, r.run⟩
  obtain ⟨u, rfl, hlast⟩ := hpointer rfl r.free
  have hrun : ∀ {t}, exec .tx (txPlace s .t2 0 h3 s.i s.mem []) = .next t → execMany .tx 6 s = .next t := fun h =>
    (execMany_succ hcmd).trans ((execMany_succ (hbuf rfl)).trans ((execMany_succ (hlen rfl)).trans
      ((execMany_succ (hfree rfl r.free)).trans ((execMany_succ (hfits r.fits)).trans (execMany_one h)))))
  cases model : s.cfg.memModel with
  | sc =>
    rw [issue_of_sc (s := txPlace s .t2 0 h3 s.i s.mem []) model] at hlast
    exact ⟨{ h3 with bufp := s.wordAt (txd s s.txIdx 2), j := 0 }, s.mem, [], ⟨rfl, rfl, rfl, rfl, .sc model⟩, hrun hlast⟩
  | weak =>
    rw [issue_of_weak (s := txPlace s .t2 0 h3 s.i s.mem []) model] at hlast
    exact ⟨{ h3 with j := 0 }, s.mem, [.load (txd s s.txIdx 2) .hostBufp], ⟨rfl, rfl, rfl, rfl, .first model _⟩,
      hrun hlast⟩

/-- The stores a whole `TX` makes, in order. -/
def filled (s : State) : List Pending :=
  copies s s.regs.argLen.toNat ++ [.word (txd s s.txIdx 1) s.regs.argLen] ++
    [.word (txd s s.txIdx 0) (txFlagsWord (s.wordAt (txd s s.txIdx 0)))]

def published (s : State) : List Pending :=
  filled s ++ [.word (txd s s.txIdx 0) (txOwnWord (s.wordAt (txd s s.txIdx 0)))]

theorem ownBit_txFlagsWord (w : Word) : ownBit (txFlagsWord w) = false := by
  simp [ownBit, txFlagsWord, keepWrap]

theorem slotFree_setWord (m : List Host.Cell) {v : Word} (h : ownBit v = false) :
    slotFree s (Memory.setWord m (txd s s.txIdx 0) v) := by
  rw [slotFree, hwOwns, State.wordAt_of_setWord rfl, h]

/-- A store of `TX` that keeps the slot software's: still software's once it has been issued. -/
theorem TxReady.slotFree_store (r : TxReady s) {m m' : List Host.Cell} (h : slotFree s m) {k : Nat} {v : Word}
    (hk : k < 4) (hv : k = 0 → ownBit v = false) (hm : m' = m ∨ m' = Memory.setWord m (txd s s.txIdx k) v) :
    slotFree s m' := by
  rcases hm with rfl | rfl
  · exact h
  · by_cases hzero : k = 0
    · subst hzero; exact slotFree_setWord m (hv rfl)
    · exact slotFree_of_reads h fun a ha => Memory.get_setWord_other _ _ _ _
        (descWord_apart r.admissible (by decide) hk (Ne.symm hzero) ha)

/-- From the end of the copy to the `FENCE` of T5: length and flags. -/
theorem TxReady.describe (r : TxReady s) {h : HostRegs} {i : IsrRegs} {m : List Host.Cell} {b : List Pending}
    (c : Copying s s.regs.argLen.toNat h m b) : ∃ h' i', h'.len = s.regs.argLen ∧ h'.w0 = s.wordAt (txd s s.txIdx 0) ∧
      execMany .tx 4 (txPlace s .t2 1 h i m b) =
        .next (txPlace s .t6 0 h' i' (Memory.performAll s.mem (filled s)) []) := by
  have hfree := c.accesses.slotFree r (Nat.le_refl _)
  have hoff : h.j.toNat = s.regs.argLen.toNat := by rw [c.offset]; exact toNat_offset (Nat.le_refl _)
  obtain ⟨-, hend, -⟩ := txCopiesOneByte (txPlace s .t2 1 h i m b) ⟨rfl, rfl, r.run⟩
  have e2 := hend rfl (show h.len.toNat ≤ h.j.toNat by rw [hoff, c.len])
  obtain ⟨hsteps, -⟩ := txPublishesAndCounts
  obtain ⟨h3, -⟩ := hsteps (txPlace s .t3 0 h i m b)
  obtain ⟨m1, b1, i1, d1, e⟩ := c.accesses.issued.word (u := txPlace s .t3 0 h i m b) rfl (txd s s.txIdx 1) h.len
  have e3 := (h3 ⟨rfl, rfl, r.run⟩ hfree).trans (congrArg (fun t => Host.Outcome.next (goto .t4 t)) (e s.moves))
  have hfree1 : slotFree s m1 := r.slotFree_store hfree (k := 1) (by decide) nofun d1
  obtain ⟨-, h4, -⟩ := hsteps (txPlace s .t4 0 h i m1 b1)
  obtain ⟨m2, b2, i2, d2, e⟩ := i1.word (u := txPlace s .t4 0 h i m1 b1) rfl (txd s s.txIdx 0) (txFlagsWord h.w0)
  have e4 := (h4 ⟨rfl, rfl, r.run⟩ hfree1).trans (congrArg (fun t => Host.Outcome.next (goto .t5 t)) (e s.moves))
  obtain ⟨-, -, h5, -⟩ := hsteps (txPlace s .t5 0 h i m2 b2)
  obtain ⟨byte, bufp, len, ibufp, hflush⟩ := flush_host_eq (txPlace s .t5 0 h i m2 b2)
  have hseen : Memory.performAll m2 b2 = Memory.performAll s.mem (filled s) := by rw [i2.seen, c.len, c.w0]; rfl
  have e5 := (h5 ⟨rfl, rfl, r.run⟩).trans (congrArg (fun t => Host.Outcome.next (goto .t6 t)) hflush)
  refine ⟨{ h with byte := byte, bufp := bufp }, { i with len := len, bufp := ibufp }, c.len, c.w0, ?_⟩
  rw [← hseen]
  exact (execMany_succ e2).trans ((execMany_succ e3).trans ((execMany_succ e4).trans (execMany_one e5)))

/-- From T6 to the end: the hand-over, the doorbell, index and counters. -/
theorem TxReady.handOver (r : TxReady s) {h : HostRegs} {i : IsrRegs} (hlen : h.len = s.regs.argLen)
    (hw0 : h.w0 = s.wordAt (txd s s.txIdx 0)) : ∃ h' i' tx,
      execMany .tx 4 (txPlace s .t6 0 h i (Memory.performAll s.mem (filled s)) []) = .next
        { txPlace s .idle 0 h' i' (Memory.performAll s.mem (published s)) [] with
          tx := tx, txIdx := (s.txIdx + 1) % s.cfg.n, nsent := (s.nsent + 1) % 2 ^ s.cfg.cntW
          nsentBytes := (s.nsentBytes + s.regs.argLen.toNat) % 2 ^ s.cfg.cntW
          regs := { s.regs with result := s.regs.argLen } } := by
  obtain ⟨hsteps, hlast⟩ := txPublishesAndCounts
  have hfree : slotFree s (Memory.performAll s.mem (filled s)) := by
    rw [filled, Memory.performAll_append]
    exact slotFree_setWord _ (ownBit_txFlagsWord _)
  have hissued : Issued s (filled s) (Memory.performAll s.mem (filled s)) [] := ⟨fun _ => rfl, rfl⟩
  obtain ⟨-, -, -, h6⟩ := hsteps (txPlace s .t6 0 h i (Memory.performAll s.mem (filled s)) [])
  obtain ⟨m, b, i6, -, e⟩ := hissued.word (u := txPlace s .t6 0 h i (Memory.performAll s.mem (filled s)) []) rfl
    (txd s s.txIdx 0) (txOwnWord h.w0)
  have e6 := (h6 ⟨rfl, rfl, r.run⟩ hfree).trans (congrArg (fun t => Host.Outcome.next (goto .t7 t)) (e s.moves))
  obtain ⟨h7, -⟩ := hlast (txPlace s .t7 0 h i m b)
  obtain ⟨byte, bufp, len, ibufp, hflush⟩ := flush_host_eq (txPlace s .t7 0 h i m b)
  have hseen : Memory.performAll m b = Memory.performAll s.mem (published s) := by rw [i6.seen, hw0]; rfl
  have e7 := (h7 ⟨rfl, rfl, r.run⟩ rfl).trans
    (congrArg (fun t : State => Host.Outcome.next { t with hmic := 1 }) hflush)
  let h' : HostRegs := { h with byte := byte, bufp := bufp }
  let i' : IsrRegs := { i with len := len, bufp := ibufp }
  obtain ⟨-, hwake, hnone, -⟩ := hlast (txPlace s .t7 1 h' i' (Memory.performAll m b) [])
  have hdoorbell : ∃ tx, exec .tx (txPlace s .t7 1 h' i' (Memory.performAll m b) []) =
      .next { txPlace s .t8 0 h' i' (Memory.performAll m b) [] with tx := tx } := by
    by_cases hst : s.tx.st = .suspended
    · refine ⟨{ s.tx with st := .running }, (hwake ⟨rfl, rfl, r.run⟩ rfl hst).trans ?_⟩
      rw [flush_host_of_nil (s := txPlace s .t7 1 h' i' (Memory.performAll m b) []) rfl]
      rfl
    · refine ⟨s.tx, (hnone ⟨rfl, rfl, r.run⟩ rfl hst).trans ?_⟩
      rw [flush_host_of_nil (s := txPlace s .t7 1 h' i' (Memory.performAll m b) []) rfl]
      rfl
  obtain ⟨tx, e7'⟩ := hdoorbell
  obtain ⟨-, -, -, h8⟩ := hlast { txPlace s .t8 0 h' i' (Memory.performAll m b) [] with tx := tx }
  have e8 := h8 ⟨rfl, rfl, r.run⟩
  refine ⟨h', i', tx, ?_⟩
  rw [← hlen, ← hseen]
  exact (execMany_succ e6).trans ((execMany_succ e7).trans ((execMany_succ e7').trans (execMany_one e8)))

/-! ### What memory holds then -/

theorem performAll_published : Memory.performAll s.mem (published s) =
    Memory.setWord
      (Memory.setWord
        (Memory.setWord (Memory.performAll s.mem (copies s s.regs.argLen.toNat)) (txd s s.txIdx 1) s.regs.argLen)
        (txd s s.txIdx 0) (txFlagsWord (s.wordAt (txd s s.txIdx 0))))
      (txd s s.txIdx 0) (txOwnWord (s.wordAt (txd s s.txIdx 0))) := by
  simp only [published, filled, Memory.performAll_append, Memory.performAll_cons, Memory.performAll_nil, Memory.perform]

theorem read_published_other {a : Nat} (h0 : a ∉ wordAddrs (txd s s.txIdx 0))
    (h1 : a ∉ wordAddrs (txd s s.txIdx 1)) : Memory.get (Memory.performAll s.mem (published s)) a =
      Memory.get (Memory.performAll s.mem (copies s s.regs.argLen.toNat)) a := by
  rw [performAll_published, Memory.get_setWord_other _ _ _ _ h0, Memory.get_setWord_other _ _ _ _ h0,
    Memory.get_setWord_other _ _ _ _ h1]

/-- Every byte copied is the caller's. -/
theorem TxReady.read_copies (r : TxReady s) : ∀ (j : Nat), j ≤ s.regs.argLen.toNat → ∀ k, k < j →
    Memory.read (Memory.performAll s.mem (copies s j)) (copyDst s k) = Memory.read s.mem (copySrc s k)
  | 0, _, k, hk => absurd hk (Nat.not_lt_zero k)
  | j + 1, hj, k, hk => by
    rw [copies_succ, Memory.performAll_append]
    show Memory.read (Memory.set _ (copyDst s j) (Memory.read _ (copySrc s j))) (copyDst s k) = _
    by_cases hkj : k = j
    · subst hkj
      rw [Memory.read_set_same, Memory.read, Memory.get_performAll_other]
      · rfl
      · intro p hp
        simp only [copies, List.mem_map, List.mem_range] at hp
        obtain ⟨l, hl, rfl⟩ := hp
        simpa [Pending.writes] using r.copySrc_ne (k := k) (l := l) (by omega) (by omega)
    · rw [Memory.read_set_other _ _ (by unfold copyDst; omega)]
      exact TxReady.read_copies r j (by omega) k (by omega)

theorem copies_spare_of_ne {a j : Nat} (h : ∀ k, k < j → a ≠ copyDst s k) : spares (copies s j) a := by
  intro p hp
  simp only [copies, List.mem_map, List.mem_range] at hp
  obtain ⟨k, hk, rfl⟩ := hp
  simpa [Pending.writes] using h k hk

/-! The state `u` holds the memory that the whole `TX` leaves. -/

variable {u : State}

theorem TxReady.byteAt_copied (r : TxReady s) (hu : u.mem = Memory.performAll s.mem (published s)) {k : Nat}
    (hk : k < s.regs.argLen.toNat) : u.byteAt (copyDst s k) = s.byteAt (copySrc s k) := by
  have h0 := r.copyDst_not_mem hk (w := 0) (by decide)
  have h1 := r.copyDst_not_mem hk (w := 1) (by decide)
  rw [State.byteAt, hu, Memory.read, read_published_other h0 h1]
  exact r.read_copies _ (Nat.le_refl _) k hk

theorem TxReady.wordAt_length (r : TxReady s) (hu : u.mem = Memory.performAll s.mem (published s)) :
    u.wordAt (txd s s.txIdx 1) = s.regs.argLen := by
  have hother : ∀ a ∈ wordAddrs (txd s s.txIdx 1), a ∉ wordAddrs (txd s s.txIdx 0) := fun a h =>
    descWord_apart r.admissible (by decide) (by decide) (by decide) h
  let m := Memory.setWord (Memory.performAll s.mem (copies s s.regs.argLen.toNat)) (txd s s.txIdx 1) s.regs.argLen
  have hword : ({ s with mem := m } : State).wordAt (txd s s.txIdx 1) = s.regs.argLen := State.wordAt_of_setWord rfl
  refine (State.wordAt_congr_byteAt (s := { s with mem := m }) fun a ha => State.byteAt_congr ?_).trans hword
  rw [hu, performAll_published, Memory.get_setWord_other _ _ _ _ (hother a ha),
    Memory.get_setWord_other _ _ _ _ (hother a ha)]

theorem wordAt_handOver (hu : u.mem = Memory.performAll s.mem (published s)) :
    u.wordAt (txd s s.txIdx 0) = txOwnWord (s.wordAt (txd s s.txIdx 0)) := by
  rw [performAll_published] at hu
  exact State.wordAt_of_setWord hu

theorem byteAt_untouched (hu : u.mem = Memory.performAll s.mem (published s)) {a : Nat}
    (h0 : a ∉ wordAddrs (txd s s.txIdx 0)) (h1 : a ∉ wordAddrs (txd s s.txIdx 1))
    (hbuf : ∀ k, k < s.regs.argLen.toNat → a ≠ copyDst s k) : u.byteAt a = s.byteAt a := by
  rw [State.byteAt, hu, Memory.read, read_published_other h0 h1,
    Memory.get_performAll_other _ _ _ (copies_spare_of_ne hbuf)]
  rfl

end

/-- Settles O42: the start, the copy by induction on the bytes left, and the publication; memory by the list of its stores. -/
theorem txQueuesTheWholeFrame : Obligations.TxQueuesTheWholeFrame := by
  intro s ha hidle hrun hinit hquiet hslot hfits hfree hpointer hsource
  have r : TxReady s := ⟨ha, hrun, hslot, hfits, hfree, hpointer, hsource⟩
  obtain ⟨h, m, b, c0, e0⟩ := r.start hidle hinit hquiet
  obtain ⟨h1, m1, b1, c1, e1⟩ := r.copyAll s.regs.argLen.toNat (i := s.i) (Nat.zero_add _) c0
  obtain ⟨h2, i2, hlen, hw0, e2⟩ := r.describe (i := s.i) c1
  obtain ⟨h3, i3, tx, e3⟩ := r.handOver (i := i2) hlen hw0
  have hall := execMany_append e3 (execMany_append e2 (execMany_append e1 e0))
  rw [show 6 + 2 * s.regs.argLen.toNat + 4 + 4 = 2 * s.regs.argLen.toNat + 14 by omega] at hall
  exact ⟨_, hall, rfl, rfl, rfl, rfl, rfl, rfl, rfl, fun k hk => r.byteAt_copied rfl hk, r.wordAt_length rfl,
    wordAt_handOver rfl, fun a h0 h1 hbuf => byteAt_untouched rfl h0 h1 hbuf, rfl, rfl⟩

end Sys2Proof.Machine

/-! PROOFS. A whole invocation of the handler that finds one good frame (45_receive_irq.md steps I0 to I8). -/

namespace Sys2Proof.Machine

/-! ### The descriptors of the receive ring -/

/-- Words of different descriptors of one ring share no byte. -/
theorem descWord_slots_apart {c : Cfg} (ha : c.admissible = true) {base : Word} {i j k l : Nat} (hi : i < c.n)
    (hj : j < c.n) (hk : k < 4) (hl : l < 4) (h : i ≠ j) {a : Nat} (hm : a ∈ wordAddrs (descWord c base i k)) :
    a ∉ wordAddrs (descWord c base j l) := by
  have hfit := (admissible_fits ha).1
  exact wordAddrs_addrSum_apart (u := 16 * i + 4 * k) (v := 16 * j + 4 * l) (by omega) (by omega) (by omega) hm

theorem succ_mod_ne {i n : Nat} (hi : i < n) (hn : 2 ≤ n) : (i + 1) % n ≠ i := by
  by_cases h : i + 1 = n
  · rw [h, Nat.mod_self]; omega
  · rw [Nat.mod_eq_of_lt (by omega)]; omega

/-! ### One good frame -/

/-- What the handler finds when it drains one good frame (45_receive_irq.md R290 to R297). -/
structure RxReady (s : State) : Prop where
  admissible : s.cfg.admissible = true
  slot : s.rxIdx < s.cfg.n
  many : 2 ≤ s.cfg.n
  cap : 2 ≤ s.cfg.rxLoopCap
  filled : ownBit (s.wordAt (rxd s s.rxIdx 0)) = false
  good : goodFrame (s.wordAt (rxd s s.rxIdx 0)) = true
  empty : ownBit (s.wordAt (rxd s ((s.rxIdx + 1) % s.cfg.n) 0)) = true

/-- `s` at a place of the handler. -/
def isrPlace (s : State) (l : IsrLabel) (mic : Nat) (i : IsrRegs) (m : List Host.Cell) (b : List Pending) : State :=
  { s with inIsr := true, ipc := l, imic := mic, icause := s.cause, i := i, mem := m, isrBuf := b }

/-- The registers after the snapshot, and once the descriptor has been read. -/
def snapRegs (s : State) : IsrRegs := { s.i with snap := s.regs.intStatus, iter := 0, iterWraps := 0, cap := false }
def frameRegs (s : State) : IsrRegs :=
  { snapRegs s with
    w0 := s.wordAt (rxd s s.rxIdx 0), len := lenField (s.wordAt (rxd s s.rxIdx 1)), bufp := s.wordAt (rxd s s.rxIdx 2) }

/-- The frame delivered and counted. -/
def delivered (s : State) : State :=
  { s with
    deliverLog := s.deliverLog ++
      [s.bytesAt (s.wordAt (rxd s s.rxIdx 2)) (lenField (s.wordAt (rxd s s.rxIdx 1))).toNat]
    nrecv := (s.nrecv + 1) % 2 ^ s.cfg.cntW }

/-- Memory once LEN is cleared, and once the descriptor is handed over. -/
def clearedMem (s : State) : List Host.Cell := Memory.setWord s.mem (rxd s s.rxIdx 1) 0
def rearmedMem (s : State) : List Host.Cell :=
  Memory.setWord (clearedMem s) (rxd s s.rxIdx 0) (rearmWord (s.wordAt (rxd s s.rxIdx 0)))

section
variable {s : State} {x : Instr} (hx : isHandler x = true)
include hx

/-- Entry, the snapshot, the first pass of the loop head, the `FENCE`: to I3. -/
theorem RxReady.enter (r : RxReady s) (hout : s.inIsr = false) (hquiet : s.hostBuf = []) (hquiet' : s.isrBuf = [])
    (hcause : x = .rxirq (s.cause.getLsbD 1)) (hrxc : s.cause.getLsbD 0 = true) : execMany x 5 s = .next
      (isrPlace s .i3 0 { snapRegs s with w0 := s.wordAt (rxd s s.rxIdx 0) } s.mem []) := by
  obtain ⟨hentry, -⟩ := interruptEntryAndReturn
  obtain ⟨t, hexec, ht, -⟩ := hentry s x hout (.inl ⟨_, hcause, hrxc, rfl⟩)
  rw [flush_host_of_nil hquiet, flush_isr_of_nil hquiet'] at ht
  have e0 : exec x s = .next (isrPlace s .i0 0 s.i s.mem []) := by rw [hexec, ht, isrPlace, ← hquiet']
  obtain ⟨hloop, -⟩ := rxirqLoopSteps
  obtain ⟨h0, -⟩ := hloop (isrPlace s .i0 0 s.i s.mem []) x hx
  have e1 := h0 ⟨rfl, rfl, rfl⟩
  rw [flush_isr_of_nil (s := isrPlace s .i0 0 s.i s.mem []) rfl] at e1
  obtain ⟨-, -, h1, -⟩ := hloop (isrPlace s .i1 0 (snapRegs s) s.mem []) x hx
  have hcap := r.cap
  have e2 := h1 ⟨rfl, rfl, rfl⟩ (show (0 : Nat) ≠ s.cfg.rxLoopCap by omega)
  obtain ⟨-, -, -, -, h2, -⟩ := hloop (isrPlace s .i1 1 (snapRegs s) s.mem []) x hx
  have e3 := h2 ⟨rfl, rfl, rfl⟩ rfl r.filled
  obtain ⟨-, -, -, -, -, -, h3⟩ :=
    hloop (isrPlace s .i2 0 { snapRegs s with w0 := s.wordAt (rxd s s.rxIdx 0) } s.mem []) x hx
  have e4 := h3 ⟨rfl, rfl, rfl⟩
  rw [fence_eq_flush, flush_isr_of_nil
    (s := isrPlace s .i2 0 { snapRegs s with w0 := s.wordAt (rxd s s.rxIdx 0) } s.mem []) rfl] at e4
  exact (execMany_succ e0).trans ((execMany_succ e1).trans ((execMany_succ e2).trans ((execMany_succ e3).trans
    (execMany_one e4))))

/-- I3 and I4: the two loads, the delivery and the count. -/
theorem RxReady.deliver (r : RxReady s) : execMany x 4
    (isrPlace s .i3 0 { snapRegs s with w0 := s.wordAt (rxd s s.rxIdx 0) } s.mem []) = .next
      (isrPlace (delivered s) .i5 0 (frameRegs s) s.mem []) := by
  let i2 : IsrRegs := { snapRegs s with w0 := s.wordAt (rxd s s.rxIdx 0) }
  have hgood := (goodFrame_iff _).1 r.good
  obtain ⟨h3, -⟩ := rxirqDeliversGoodFramesOnly (isrPlace s .i3 0 i2 s.mem []) x hx r.filled
  have e3 := h3 ⟨rfl, rfl, rfl⟩
  let u : State := { isrPlace s .i4 1 (frameRegs s) s.mem [] with deliverLog := (delivered s).deliverLog }
  have hcount : execMany x 1 u = .next (isrPlace (delivered s) .i5 0 (frameRegs s) s.mem []) := by
    obtain ⟨-, -, -, h4, -⟩ := rxirqDeliversGoodFramesOnly u x hx r.filled
    exact execMany_one (h4 ⟨rfl, rfl, rfl⟩)
  cases model : s.cfg.memModel with
  | sc =>
    rw [issue_of_sc (s := isrPlace s .i3 0 i2 s.mem []) model] at e3
    let i3 : IsrRegs := { i2 with len := lenField (s.wordAt (rxd s s.rxIdx 1)) }
    obtain ⟨-, h3, -⟩ := rxirqDeliversGoodFramesOnly (isrPlace s .i3 1 i3 s.mem []) x hx r.filled
    have e3' := h3 ⟨rfl, rfl, rfl⟩
    rw [issue_of_sc (s := isrPlace s .i3 1 i3 s.mem []) model] at e3'
    obtain ⟨-, -, h4, -⟩ := rxirqDeliversGoodFramesOnly (isrPlace s .i4 0 (frameRegs s) s.mem []) x hx r.filled
    obtain ⟨hnone, -⟩ := h4 ⟨rfl, rfl, rfl⟩ hgood
    exact (execMany_succ e3).trans ((execMany_succ e3').trans ((execMany_succ (hnone nofun)).trans hcount))
  | weak =>
    rw [issue_of_weak (s := isrPlace s .i3 0 i2 s.mem []) model] at e3
    obtain ⟨-, h3, -⟩ := rxirqDeliversGoodFramesOnly
      (isrPlace s .i3 1 i2 s.mem [.load (rxd s s.rxIdx 1) .isrLen]) x hx r.filled
    have e3' := h3 ⟨rfl, rfl, rfl⟩
    rw [issue_of_weak (s := isrPlace s .i3 1 i2 s.mem [.load (rxd s s.rxIdx 1) .isrLen]) model] at e3'
    obtain ⟨-, -, h4, -⟩ := rxirqDeliversGoodFramesOnly
      (isrPlace s .i4 0 i2 s.mem [.load (rxd s s.rxIdx 1) .isrLen, .load (rxd s s.rxIdx 2) .isrBufp]) x hx r.filled
    obtain ⟨-, hboth, -⟩ := h4 ⟨rfl, rfl, rfl⟩ hgood
    exact (execMany_succ e3).trans ((execMany_succ e3').trans ((execMany_succ (hboth _ _ rfl)).trans hcount))

/-- I5 up to its `FENCE`: LEN is cleared. -/
theorem clearLen (hfree : ownBit (s.wordAt (rxd s s.rxIdx 0)) = false) (i : IsrRegs) :
    execMany x 2 (isrPlace s .i5 0 i s.mem []) = .next (isrPlace s .i5 2 i (clearedMem s) []) := by
  obtain ⟨-, hsteps, -⟩ := rxirqLoopSteps
  obtain ⟨h5, -⟩ := hsteps (isrPlace s .i5 0 i s.mem []) x hx
  have e5 := h5 ⟨rfl, rfl, rfl⟩ hfree
  cases model : s.cfg.memModel with
  | sc =>
    rw [issue_of_sc (s := isrPlace s .i5 0 i s.mem []) model] at e5
    obtain ⟨-, h5', -⟩ := hsteps (isrPlace s .i5 1 i (clearedMem s) []) x hx
    exact (execMany_succ e5).trans (execMany_one (h5' ⟨rfl, rfl, rfl⟩))
  | weak =>
    rw [issue_of_weak (s := isrPlace s .i5 0 i s.mem []) model] at e5
    obtain ⟨-, h5', -⟩ := hsteps (isrPlace s .i5 1 i s.mem [.word (rxd s s.rxIdx 1) 0]) x hx
    exact (execMany_succ e5).trans (execMany_one (h5' ⟨rfl, rfl, rfl⟩))

end

/-- The hand-over store has been performed, or it waits. -/
inductive Rearmed (s : State) : List Host.Cell → List Pending → Prop
  | done : Rearmed s (rearmedMem s) []
  | waits : Rearmed s (clearedMem s) [.word (rxd s s.rxIdx 0) (rearmWord (s.wordAt (rxd s s.rxIdx 0)))]

section
variable {s : State} {x : Instr}

/-- The other descriptors' words 0 are as they were. -/
theorem RxReady.next_kept (r : RxReady s) {m : List Host.Cell} {b : List Pending} (h : Rearmed s m b) :
    ({ s with mem := m } : State).wordAt (rxd s ((s.rxIdx + 1) % s.cfg.n) 0) =
        s.wordAt (rxd s ((s.rxIdx + 1) % s.cfg.n) 0) ∧
      b.any (Pending.hits (wordAddrs (rxd s ((s.rxIdx + 1) % s.cfg.n) 0))) = false := by
  have hapart : ∀ k, k < 4 → ∀ a ∈ wordAddrs (rxd s ((s.rxIdx + 1) % s.cfg.n) 0), a ∉ wordAddrs (rxd s s.rxIdx k) :=
    fun k hk a ha => descWord_slots_apart r.admissible (Nat.mod_lt _ (by have := r.many; omega)) r.slot (by decide) hk
      (succ_mod_ne r.slot r.many) ha
  have hcleared : ∀ a ∈ wordAddrs (rxd s ((s.rxIdx + 1) % s.cfg.n) 0),
      Memory.get (clearedMem s) a = Memory.get s.mem a := fun a ha =>
    Memory.get_setWord_other _ _ _ _ (hapart 1 (by decide) a ha)
  cases h with
  | done =>
    refine ⟨State.wordAt_congr_byteAt fun a ha => State.byteAt_congr ?_, rfl⟩
    exact (Memory.get_setWord_other _ _ _ _ (hapart 0 (by decide) a ha)).trans (hcleared a ha)
  | waits =>
    refine ⟨State.wordAt_congr_byteAt fun a ha => State.byteAt_congr (hcleared a ha), ?_⟩
    refine (any_hits_eq_false_iff _ _).2 fun q hq a ha ha' => ?_
    cases List.mem_singleton.1 hq
    exact hapart 0 (by decide) a ha' ha

/-- An ordering point of ISR performs the hand-over store. -/
theorem Rearmed.flush {m : List Host.Cell} {b : List Pending} (h : Rearmed s m b) (u : State) (l : IsrLabel) (mic : Nat)
    (i : IsrRegs) : flush .isr (isrPlace u l mic i m b) = isrPlace u l mic i (rearmedMem s) [] := by
  cases h with
  | done => exact flush_isr_of_nil rfl
  | waits => rfl

/-- The words of the descriptor itself. -/
theorem RxReady.word0_not_mem_word1 (r : RxReady s) {a : Nat} (h : a ∈ wordAddrs (rxd s s.rxIdx 0)) :
    a ∉ wordAddrs (rxd s s.rxIdx 1) :=
  descWord_apart r.admissible (by decide) (by decide) (by decide) h

/-- The descriptor is still software's once LEN is cleared. -/
theorem RxReady.filled_cleared (r : RxReady s) :
    hwOwns { s with mem := clearedMem s } (rxd s s.rxIdx 0) = false := by
  refine (congrArg ownBit (State.wordAt_congr_byteAt (s := s) fun a ha => State.byteAt_congr ?_)).trans r.filled
  exact Memory.get_setWord_other _ _ _ _ (r.word0_not_mem_word1 ha)

/-- The end of I5: the hand-over store is issued. -/
theorem RxReady.rearm (r : RxReady s) (hx : isHandler x = true) : ∃ m b, Rearmed s m b ∧
    exec x (isrPlace (delivered s) .i5 2 (frameRegs s) (clearedMem s) []) =
      .next (isrPlace (delivered s) .i6 0 (frameRegs s) m b) := by
  obtain ⟨-, hsteps, -⟩ := rxirqLoopSteps
  obtain ⟨-, -, h5, -⟩ := hsteps (isrPlace (delivered s) .i5 2 (frameRegs s) (clearedMem s) []) x hx
  have e5 := h5 ⟨rfl, rfl, rfl⟩ r.filled_cleared
  cases model : s.cfg.memModel with
  | sc =>
    rw [issue_of_sc (s := isrPlace (delivered s) .i5 2 (frameRegs s) (clearedMem s) []) model] at e5
    exact ⟨_, _, .done, e5⟩
  | weak =>
    rw [issue_of_weak (s := isrPlace (delivered s) .i5 2 (frameRegs s) (clearedMem s) []) model] at e5
    exact ⟨_, _, .waits, e5⟩

/-- The index advanced. -/
def advanced (s : State) : State := { delivered s with rxIdx := (s.rxIdx + 1) % s.cfg.n }

/-- I6 and the second pass of the loop head, which finds the next descriptor hardware-owned: to I7. -/
theorem RxReady.advance (r : RxReady s) (hx : isHandler x = true) {m : List Host.Cell} {b : List Pending}
    (h : Rearmed s m b) : ∃ i, i.snap = s.regs.intStatus ∧ i.cap = false ∧
      execMany x 3 (isrPlace (delivered s) .i6 0 (frameRegs s) m b) = .next (isrPlace (advanced s) .i7 0 i m b) := by
  obtain ⟨hloop, hsteps, -⟩ := rxirqLoopSteps
  obtain ⟨-, -, -, h6⟩ := hsteps (isrPlace (delivered s) .i6 0 (frameRegs s) m b) x hx
  obtain ⟨t, e6, hiter, ht⟩ := h6 ⟨rfl, rfl, rfl⟩
  let i6 : IsrRegs := { frameRegs s with iter := (frameRegs s).iter + 1, iterWraps := t.i.iterWraps }
  have ht' : t = isrPlace (advanced s) .i1 0 i6 m b := ht
  have hone : i6.iterations = 1 := by
    rw [ht'] at hiter
    exact hiter
  have hcap := r.cap
  obtain ⟨hword, hhits⟩ := r.next_kept h
  obtain ⟨-, -, h1, -⟩ := hloop (isrPlace (advanced s) .i1 0 i6 m b) x hx
  have e1 := h1 ⟨rfl, rfl, rfl⟩ (show i6.iterations ≠ s.cfg.rxLoopCap by rw [hone]; omega)
  obtain ⟨-, -, -, h2, -⟩ := hloop (isrPlace (advanced s) .i1 1 i6 m b) x hx
  have e2 := h2 ⟨rfl, rfl, rfl⟩ hhits ((congrArg ownBit hword).trans r.empty)
  rw [ht'] at e6
  exact ⟨_, rfl, rfl, (execMany_succ e6).trans ((execMany_succ e1).trans (execMany_one e2))⟩

/-- I7 and I8: the status cleared, the return. -/
theorem Rearmed.leave {m : List Host.Cell} {b : List Pending} (h : Rearmed s m b) (hx : isHandler x = true)
    (hquiet : s.hostBuf = []) {i : IsrRegs} (hsnap : i.snap = s.regs.intStatus) (hcap : i.cap = false) :
    ∃ status : Word, (∀ n, status.getLsbD n = false) ∧
      execMany x 2 (isrPlace (advanced s) .i7 0 i m b) = .next
        { isrPlace (advanced s) .idle 0 i (rearmedMem s) [] with
          inIsr := false, regs := { s.regs with intStatus := status } } := by
  obtain ⟨-, -, hclear⟩ := rxirqLoopSteps
  obtain ⟨t, e7, hbits, ht⟩ := hclear (isrPlace (advanced s) .i7 0 i m b) x hx ⟨rfl, rfl, rfl⟩
  rw [h.flush] at ht
  have hzero : ∀ n, t.regs.intStatus.getLsbD n = false := fun n => by
    rw [hbits n]
    show (s.regs.intStatus.getLsbD n && !(i.snap.getLsbD n && !(i.cap && decide (n = 0)))) = false
    rw [hsnap, hcap]
    simp
  let u : State := { isrPlace (advanced s) .i8 0 i (rearmedMem s) [] with
    regs := { s.regs with intStatus := t.regs.intStatus } }
  have e7' : exec x (isrPlace (advanced s) .i7 0 i m b) = .next u := e7.trans (congrArg Host.Outcome.next ht)
  obtain ⟨-, hreturn⟩ := interruptEntryAndReturn
  have e8 := (hreturn u x).1 hx ⟨rfl, rfl, rfl⟩
  rw [flush_host_of_nil (s := u) hquiet, flush_isr_of_nil (s := u) rfl] at e8
  exact ⟨t.regs.intStatus, hzero, (execMany_succ e7').trans (execMany_one e8)⟩

end

/-- Settles O51: entry, delivery, re-arm, the loop head again, return. -/
theorem rxirqDrainsOneGoodFrame : Obligations.RxirqDrainsOneGoodFrame := by
  intro s ha hout hquiet hquiet' hrxc hslot hmany hcap hfilled hgood hempty
  have r : RxReady s := ⟨ha, hslot, hmany, hcap, hfilled, hgood, hempty⟩
  have hx : isHandler (.rxirq (s.cause.getLsbD 1)) = true := rfl
  have e1 := r.enter hx hout hquiet hquiet' rfl hrxc
  have e2 := r.deliver hx
  have e3 := clearLen (s := delivered s) hx hfilled (frameRegs s)
  obtain ⟨m, b, h, e4⟩ := r.rearm hx
  obtain ⟨i, hsnap, hnocap, e5⟩ := r.advance hx h
  obtain ⟨status, hzero, e6⟩ := h.leave hx hquiet hsnap hnocap
  have hall := execMany_append e6 (execMany_append e5 (execMany_append (execMany_one e4)
    (execMany_append e3 (execMany_append e2 e1))))
  refine ⟨_, hall, rfl, rfl, rfl, rfl, rfl, rfl, State.wordAt_of_setWord rfl, ?length, fun a h0 h1 => ?frame, hzero,
    rfl, rfl, rfl, rfl⟩
  case length =>
    refine (State.wordAt_congr_byteAt (s := { s with mem := clearedMem s }) fun a ha => State.byteAt_congr ?_).trans
      (State.wordAt_of_setWord rfl)
    exact Memory.get_setWord_other _ _ _ _ fun h => r.word0_not_mem_word1 h ha
  case frame =>
    exact State.byteAt_congr ((Memory.get_setWord_other _ _ _ _ h0).trans (Memory.get_setWord_other _ _ _ _ h1))

end Sys2Proof.Machine
